-- ==== Sys2Proof/Word.lean ====
section
/-! DEFINITION. The words of the Biride G2: bytes, 32-bit registers, 64-bit pairs and 128-bit quads (R76, R3). -/

namespace Sys2Proof

/-- A byte of memory. -/
abbrev Byte := BitVec 8
/-- A 32-bit register (Table 00.1). -/
abbrev Word := BitVec 32
/-- A 64-bit operand, a pair of registers (R76); also an instruction word (R73). -/
abbrev DWord := BitVec 64
/-- A 128-bit operand, a quad of registers (R76). -/
abbrev QWord := BitVec 128

end Sys2Proof
end

