-- ==== Sys2Proof/Syntax.lean ====
section
/-! DEFINITION. The instructions of Table 04.6 and the device's other indivisible steps, one constructor of
`Instr` per row of spec/opcode_table.json, with the operand types they carry. -/

namespace Sys2Proof

/-- The fields every instruction word has (Table 04.3, R73): the guard, retain, lookahead and counter. -/
structure Hdr where
  psel : BitVec 3
  pneg : Bool
  retain : BitVec 2
  la : BitVec 4
  ctr : BitVec 3
  deriving DecidableEq, Repr, Inhabited

/-- An operand field (R75): kind 0 names a register; kind 1 is the literal zero (index 0) or a special register. -/
inductive Opnd where
  | v (i : BitVec 9)
  | k1 (i : BitVec 9)
  deriving DecidableEq, Repr, Inhabited

/-- A predicate code: 0..6 name p0..p6, 7 is `pt` (R140). -/
abbrev PCode := BitVec 3
/-- A stream field, f0..f7 (R187). -/
abbrev SCode := BitVec 3

/-- Integer types, Table 04.5. -/
inductive ITy where
  | s8 | s16 | s32 | s64 | n8 | n16 | n32 | n64
  deriving DecidableEq, Repr, Inhabited

/-- Rounding codes, Table 04.5; `rslot` takes the mode of the named format slot (R122). -/
inductive Rnd where
  | rne | rz | rdn | rup | sr | rslot
  deriving DecidableEq, Repr, Inhabited

/-- Integer comparisons of ISET (R152). -/
inductive ICmp where
  | eq | ne | lt | le | gt | ge
  deriving DecidableEq, Repr, Inhabited

/-- Comparisons of FSET and DSET (R159). -/
inductive FCmp where
  | eq | ne | lt | le | gt | ge | num | nan
  deriving DecidableEq, Repr, Inhabited

/-- Operations of PSET (R154). -/
inductive POp where
  | and | or | xor | andn | orn | nand | nor | xnor
  deriving DecidableEq, Repr, Inhabited

/-- The two forms of PMOV (R155). -/
inductive PMovForm where
  | get (d : Opnd)
  | set (a : Opnd)
  deriving DecidableEq, Repr, Inhabited

/-- The input of FCLASS (R160). -/
inductive ClassSrc where
  | f32 | f16 | bf16
  deriving DecidableEq, Repr, Inhabited

/-- Source formats of CVT (R166). -/
inductive CvtSrc where
  | fp32 | fp16 | bf16 | fp64 | s32 | n32 | s64 | n64
  deriving DecidableEq, Repr, Inhabited

/-- Source formats of PACK (R169). -/
inductive PackSrc where
  | fp32 | s32 | n32
  deriving DecidableEq, Repr, Inhabited

/-- The forms of GVOTE with their destinations (R199). -/
inductive VoteForm where
  | all (pd : PCode)
  | any (pd : PCode)
  | uni (pd : PCode)
  | ballot (d : Opnd)
  deriving DecidableEq, Repr, Inhabited

/-- Modes of GSHFL (R200). -/
inductive ShflMode where
  | idx | up | down | xor
  deriving DecidableEq, Repr, Inhabited

/-- Integer operations of GRED and GSCAN (Table 10.4). -/
inductive GIntOp where
  | add | min | max | and | or
  deriving DecidableEq, Repr, Inhabited

/-- Operations of GRED and GSCAN with the type or rounding they take (R201). -/
inductive GOp where
  | int (op : GIntOp) (t : ITy)
  | fadd (rnd : Rnd)
  | fmin
  | fmax
  deriving DecidableEq, Repr, Inhabited

/-- Width of a load or a store: a type, or .b128 (R193). -/
inductive MemW where
  | ty (t : ITy)
  | b128
  deriving DecidableEq, Repr, Inhabited

/-- Store forms (R193). -/
inductive StMode where
  | plain | ewr | fill
  deriving DecidableEq, Repr, Inhabited

/-- Integer operations of ATOMS (Table 10.3). -/
inductive AIntOp where
  | add | min | max | and | or | xor | swap
  deriving DecidableEq, Repr, Inhabited

/-- Operations of ATOMS (R194). -/
inductive AOp where
  | int (op : AIntOp) (t : ITy)
  | fadd (rnd : Rnd)
  deriving DecidableEq, Repr, Inhabited

/-- Barrier levels (R204). -/
inductive BarLevel where
  | team | clus | grid
  deriving DecidableEq, Repr, Inhabited

/-- What SCRD reads (Table 10.5). -/
inductive ScrdSel where
  | coord | val | pos | len
  deriving DecidableEq, Repr, Inhabited

/-- Fence kinds (R319). -/
inductive FenceKind where
  | rel | acq | full
  deriving DecidableEq, Repr, Inhabited

/-- Fence scopes (R223). -/
inductive Scope where
  | team | die | pkg | fab
  deriving DecidableEq, Repr, Inhabited

/-- Fusions of MPOST (Table 14.2). -/
inductive Fusion where
  | f1x4 | f2x2 | f4x1 | ind
  deriving DecidableEq, Repr, Inhabited

/-- A team's logical identity: its launch number and linear index (R33). -/
structure TeamKey where
  launch : Nat
  n : Nat
  deriving DecidableEq, Repr, Inhabited

/-- A line of device memory: on this device (`none`) or on a peer device, with its DPA div 128 (R280). -/
structure LineKey where
  dev : Option Nat
  line : Nat
  deriving DecidableEq, Repr, Inhabited

/-- One object-call lane as a request carries it (Table 15.1). -/
structure CallArg where
  off : Nat
  size : Nat
  method : Nat
  arg0 : DWord
  arg1 : DWord
  payload : List Byte
  deriving DecidableEq, Repr, Inhabited

/-- The answer to one lane (Table 15.4). -/
structure CallReply where
  value : DWord
  aux : Word
  method : Nat
  status : Byte
  entry : List Byte
  flags : BitVec 5
  deriving DecidableEq, Repr, Inhabited

/-- A contribution piece (R363, R365): one 256-byte block of a result area on the target device. `pages` says where
the area and what follows it lie there: ascending offsets, each with the DPA that begins a run. `full` marks a full
delivery; `count` is c. -/
structure Piece where
  tag : Nat
  target : Nat
  pages : List (Nat × Nat)
  nb : Nat
  cmeth : Nat
  dfmt : Nat
  expect : Nat
  block : Nat
  first : Nat
  data : List Byte
  count : Nat
  full : Bool
  deriving DecidableEq, Repr, Inhabited

/-- The engine command that wrote bytes: its device (none is the device that holds this), its team, its place in the team
order of acceptances and its context. -/
structure Writer where
  dev : Option Nat
  team : TeamKey
  seq : Nat
  ctx : Nat
  deriving DecidableEq, Repr, Inhabited

/-- What a fabric packet carries beyond its header: the manual gives the header (Table 23.3) and what each kind
does, and leaves the layout of the rest open, so the rest is held as data.
(DESIGN CHOICE, log 57) -/
inductive PacketBody where
  | read (len : Nat)
  /-- bytes by their offsets from the address, and which of the 128 from there on each engine command wrote -/
  | write (bytes : List (Nat × Byte)) (writers : List (Writer × BitVec 128))
  | call (lanes : List CallArg) (noReply : Bool)
  | zero (len : Nat)
  | piece (p : Piece)
  | data (bytes : List Byte)
  | callReply (rs : List CallReply)
  | ack
  | calving (code : Nat) (args : List Nat)
  deriving DecidableEq, Repr, Inhabited

/-- A packet (Table 23.3) with the plane it travels on. Kinds: 1 read, 2 write, 3 home operation,
4 contribution piece, 8 reply, 9 acknowledgement, 16 calving control. -/
structure Packet where
  kind : Nat
  relaxed : Bool
  retrans : Bool
  source : Nat
  target : Nat
  gen : Nat
  pseq : BitVec 32
  rack : BitVec 32
  addr : Nat
  context : Nat
  plane : Nat
  body : PacketBody
  deriving DecidableEq, Repr, Inhabited

/-- A link flit (Table 23.2). -/
structure Flit where
  kind : BitVec 2
  vc : BitVec 2
  lseq : BitVec 12
  credit : Byte
  payload : List Byte
  crc : Word
  deriving DecidableEq, Repr, Inhabited

/-- A frame at a host port: its EtherType and the bytes after it, transport header included (Table 25.1).
(DEDUCED, log 119) -/
structure Frame where
  etherType : BitVec 16
  bytes : List Byte
  deriving DecidableEq, Repr, Inhabited

/-- Where a host request came from, so that its response can name it (R376). -/
structure Rq where
  port : Nat
  stream : Nat
  seq : BitVec 16
  deriving DecidableEq, Repr, Inhabited

/-- One entry of a context's method table (Table 15.5). -/
structure MethodEntry where
  code : DWord
  length : Nat
  flags : Byte
  reserved : List Byte
  deriving DecidableEq, Repr, Inhabited

/-- A section of a context image or a dump record (R345): its kind, its team and its bytes. -/
structure Section where
  kind : Nat
  team : Nat
  bytes : List Byte
  deriving DecidableEq, Repr, Inhabited

/-- Where a bit error arises (R342-R344). -/
inductive ErrLoc where
  | hbm (line : Nat)
  | l2 (die : Nat) (key : LineKey) (sector : Nat)
  | scratch (team : TeamKey) (line : Nat)
  | tile (team : TeamKey) (line : Nat)
  | reg (team : TeamKey) (t : Nat) (index : Nat)
  deriving DecidableEq, Repr, Inhabited

/-- The instructions and the device's indivisible steps. Constructors up to `pmark` are the instruction words
of Table 04.6; those after it are the steps and host messages that spec/95_what_each_step_holds.md lists. -/
inductive Instr where
  -- integer arithmetic (R144-R146)
  | iadd (h : Hdr) (t : ITy) (sat : Bool) (d a b : Opnd)
  | isub (h : Hdr) (t : ITy) (sat : Bool) (d a b : Opnd)
  | iaddc (h : Hdr) (pk : PCode) (d a b : Opnd)
  | imul (h : Hdr) (t : ITy) (sat : Bool) (d a b : Opnd)
  | imulh (h : Hdr) (t : ITy) (d a b : Opnd)
  | imad (h : Hdr) (x64 : Bool) (d a b c : Opnd)
  | imadw (h : Hdr) (uns : Bool) (d a b c : Opnd)
  | imin (h : Hdr) (t : ITy) (d a b : Opnd)
  | imax (h : Hdr) (t : ITy) (d a b : Opnd)
  | iabs (h : Hdr) (t : ITy) (sat : Bool) (d a : Opnd)
  | ineg (h : Hdr) (t : ITy) (sat : Bool) (d a : Opnd)
  -- shifts, logic and bit operations (R147-R151)
  | shl (h : Hdr) (x64 : Bool) (d a b : Opnd)
  | shr (h : Hdr) (x64 : Bool) (d a b : Opnd)
  | sar (h : Hdr) (x64 : Bool) (d a b : Opnd)
  | rotl (h : Hdr) (d a b : Opnd)
  | and (h : Hdr) (x64 : Bool) (d a b : Opnd)
  | or (h : Hdr) (x64 : Bool) (d a b : Opnd)
  | xor (h : Hdr) (x64 : Bool) (d a b : Opnd)
  | andn (h : Hdr) (x64 : Bool) (d a b : Opnd)
  | not (h : Hdr) (x64 : Bool) (d a : Opnd)
  | lop3 (h : Hdr) (x64 : Bool) (fn : BitVec 8) (d a b : Opnd)
  | popc (h : Hdr) (d a : Opnd)
  | clz (h : Hdr) (d a : Opnd)
  | ctz (h : Hdr) (d a : Opnd)
  | brev (h : Hdr) (d a : Opnd)
  | bfx (h : Hdr) (uns : Bool) (d a b : Opnd)
  | bfi (h : Hdr) (d a b c : Opnd)
  | bperm (h : Hdr) (d a b c : Opnd)
  -- compare, select, move and predicates (R152-R155, R81)
  | iset (h : Hdr) (t : ITy) (cmp : ICmp) (pd : PCode) (a b : Opnd)
  | sel (h : Hdr) (pk : PCode) (d a b : Opnd)
  | mov (h : Hdr) (x64 : Bool) (d a : Opnd)
  | movi (h : Hdr) (imm : Word) (d : Opnd)
  | pset (h : Hdr) (op : POp) (pd pa pb : PCode)
  | pmov (h : Hdr) (form : PMovForm)
  -- FP32 (R156-R163)
  | fadd (h : Hdr) (rnd : Rnd) (d a b : Opnd)
  | fsub (h : Hdr) (rnd : Rnd) (d a b : Opnd)
  | fmul (h : Hdr) (rnd : Rnd) (d a b : Opnd)
  | ffma (h : Hdr) (rnd : Rnd) (d a b c : Opnd)
  | fmin (h : Hdr) (d a b : Opnd)
  | fmax (h : Hdr) (d a b : Opnd)
  | fset (h : Hdr) (cmp : FCmp) (pd : PCode) (a b : Opnd)
  | fclass (h : Hdr) (src : ClassSrc) (d a : Opnd)
  | frnd (h : Hdr) (rnd : Rnd) (exact : Bool) (d a : Opnd)
  | frcp (h : Hdr) (rnd : Rnd) (d a : Opnd)
  | frsq (h : Hdr) (rnd : Rnd) (d a : Opnd)
  | fsqrt (h : Hdr) (rnd : Rnd) (d a : Opnd)
  | fdiv (h : Hdr) (rnd : Rnd) (d a b : Opnd)
  | fex2 (h : Hdr) (d a : Opnd)
  | flg2 (h : Hdr) (d a : Opnd)
  | fsin (h : Hdr) (d a : Opnd)
  | fcos (h : Hdr) (d a : Opnd)
  | ftanh (h : Hdr) (d a : Opnd)
  -- packed halves (R164)
  | hadd2 (h : Hdr) (bf : Bool) (rnd : Rnd) (d a b : Opnd)
  | hmul2 (h : Hdr) (bf : Bool) (rnd : Rnd) (d a b : Opnd)
  | hfma2 (h : Hdr) (bf : Bool) (rz : Bool) (d a b c : Opnd)
  -- FP64 (R165)
  | dadd (h : Hdr) (rnd : Rnd) (d a b : Opnd)
  | dmul (h : Hdr) (rnd : Rnd) (d a b : Opnd)
  | dfma (h : Hdr) (rnd : Rnd) (d a b c : Opnd)
  | dmin (h : Hdr) (d a b : Opnd)
  | dmax (h : Hdr) (d a b : Opnd)
  | dset (h : Hdr) (cmp : FCmp) (pd : PCode) (a b : Opnd)
  | drcp (h : Hdr) (rnd : Rnd) (d a : Opnd)
  -- conversion and quantisation (R166-R171)
  | cvt (h : Hdr) (fs : BitVec 3) (src : CvtSrc) (rnd : Rnd) (d a : Opnd)
  | qnt (h : Hdr) (fs : BitVec 3) (rnd : Rnd) (d a b : Opnd)
  | dqnt (h : Hdr) (fs : BitVec 3) (rnd : Rnd) (d a b : Opnd)
  | pack (h : Hdr) (fs : BitVec 3) (src : PackSrc) (rnd : Rnd) (d a : Opnd)
  | unpk (h : Hdr) (fs : BitVec 3) (toInt : Bool) (d a : Opnd)
  -- group collectives (R197-R203)
  | gvote (h : Hdr) (form : VoteForm) (pa : PCode)
  | gshfl (h : Hdr) (mode : ShflMode) (x64 : Bool) (d a b : Opnd)
  | gred (h : Hdr) (op : GOp) (d a : Opnd)
  | gscan (h : Hdr) (op : GOp) (excl : Bool) (d a : Opnd)
  | gelect (h : Hdr) (pk : PCode) (d : Opnd)
  | gmatch (h : Hdr) (x64 : Bool) (pk : PCode) (d a : Opnd)
  -- scratch and tile store (R188-R196)
  | lds (h : Hdr) (w : MemW) (off : BitVec 10) (d a : Opnd)
  | sts (h : Hdr) (w : MemW) (mode : StMode) (off : BitVec 10) (s a : Opnd)
  | atoms (h : Hdr) (op : AOp) (d a b : Opnd)
  | cass (h : Hdr) (x64 : Bool) (d a b c : Opnd)
  | ldt (h : Hdr) (w : MemW) (off : BitVec 10) (d a : Opnd)
  | stt (h : Hdr) (w : MemW) (mode : StMode) (off : BitVec 10) (s a : Opnd)
  | waitf (h : Hdr) (tile empty : Bool) (off : BitVec 10) (a : Opnd)
  | markf (h : Hdr) (tile : Bool) (off : BitVec 10) (a : Opnd)
  | marke (h : Hdr) (tile : Bool) (off : BitVec 10) (a : Opnd)
  | probef (h : Hdr) (tile : Bool) (pd : PCode) (off : BitVec 10) (a : Opnd)
  -- barriers and role queues (R204-R206)
  | bar (h : Hdr) (lvl : BarLevel) (n : BitVec 4)
  | bara (h : Hdr) (lvl : BarLevel) (n : BitVec 4) (d : Opnd)
  | barw (h : Hdr) (lvl : BarLevel) (n : BitVec 4) (a : Opnd)
  | barq (h : Hdr) (lvl : BarLevel) (n : BitVec 4) (pd : PCode) (a : Opnd)
  | qput (h : Hdr) (q : BitVec 2) (a : Opnd)
  | qget (h : Hdr) (q : BitVec 2) (d : Opnd)
  | qpeek (h : Hdr) (q : BitVec 2) (d : Opnd)
  | mcarm (h : Hdr) (n : BitVec 2)
  -- streams (R208-R210)
  | sopen (h : Hdr) (f : SCode) (a : Opnd)
  | sadv (h : Hdr) (f : SCode) (a : Opnd)
  | stend (h : Hdr) (pd : PCode) (f : SCode)
  | sclose (h : Hdr) (f : SCode)
  | scrd (h : Hdr) (sel : ScrdSel) (d : Opnd) (f : SCode)
  | sisect (h : Hdr) (d : Opnd) (fa fb : SCode)
  | sunion (h : Hdr) (d : Opnd) (fa fb : SCode)
  -- engine instructions (R299-R321)
  | cpost (h : Hdr) (d a : Opnd)
  | vgath (h : Hdr) (d a b c : Opnd)
  | vscat (h : Hdr) (d a b c : Opnd)
  | vscatr (h : Hdr) (d a b c : Opnd)
  | ocall (h : Hdr) (comb a2 : Bool) (d a b c : Opnd)
  | ocalln (h : Hdr) (comb a2 : Bool) (d a c : Opnd)
  | cfence (h : Hdr) (kind : FenceKind) (scope : Scope) (mask : BitVec 8) (d : Opnd)
  | cwaitt (h : Hdr) (rel : Bool) (d a : Opnd)
  | cstat (h : Hdr) (rel : Bool) (d a : Opnd)
  | ccancel (h : Hdr) (d a : Opnd)
  | mpost (h : Hdr) (fusion : Fusion) (d a : Opnd)
  | mzero (h : Hdr) (d a : Opnd)
  | mcvt (h : Hdr) (d a : Opnd)
  -- control (R172-R181)
  | bra (h : Hdr) (off : BitVec 30)
  | brx (h : Hdr) (toff : BitVec 20) (a : Opnd)
  | call (h : Hdr) (off : BitVec 30)
  | callx (h : Hdr) (a : Opnd)
  | ret (h : Hdr)
  | exit (h : Hdr)
  | trap (h : Hdr) (code : BitVec 10)
  | bkpt (h : Hdr) (code : BitVec 10)
  | nop (h : Hdr)
  | yield (h : Hdr)
  | idembeg (h : Hdr) (eoff : BitVec 20) (a : Opnd)
  | idemend (h : Hdr)
  -- system (R182-R186)
  | mfsr (h : Hdr) (num : BitVec 10) (d : Opnd)
  | mtsr (h : Hdr) (num : BitVec 10) (a : Opnd)
  | rngx (h : Hdr) (d a b c : Opnd)
  | pmark (h : Hdr) (a : Opnd)
  -- slices (R50, R70, R84, R64)
  | pickBundle (core sl : Nat)
  | clauseFetch (core sl : Nat) (team : TeamKey) (addr : DWord)
  | countedWriteComplete (team : TeamKey) (t k : Nat)
  | waitTableRetry (team : TeamKey) (t : Nat)
  -- placement and pre-emption (R41, R336, R338)
  | placeTeams
  | preempt (team : TeamKey)
  | restoreTeam (team : TeamKey)
  -- commands and engines
  | commandStart (team : TeamKey) (tag : Nat)
  | copyElement (team : TeamKey) (tag : Nat)
  | translationWalk (team : TeamKey) (tag lane : Nat) (victim : Nat)
  | faultRecordDeferred (die : Nat)
  | faultAnswerResume (die : Nat) (w : DWord)
  | faultAnswerCancel (die : Nat) (w : DWord)
  | multicastRelease (team : TeamKey) (tag : Nat)
  | contribPieceAccepted (plane : Nat) (k : Nat) (p : Piece)
  | collectorIssue (core k : Nat)
  | lanePerformed (team : TeamKey) (tag lane : Nat)
  | replyLands (k : Nat)
  | calderaRequestArrive (k : Nat)
  | calderaWave (die slice : Nat)
  | matrixStep (core sub : Nat)
  | matrixBlockWrite (core sub : Nat)
  | zeroTile (team : TeamKey) (tag : Nat)
  | convertTile (team : TeamKey) (tag : Nat)
  | fenceComplete (team : TeamKey) (t : Nat)
  -- L2 (R220, R222)
  | writeQueueDrain (core : Nat)
  | l2DropClean (die : Nat) (key : LineKey) (sector : Nat)
  | l2WriteBack (die : Nat) (key : LineKey) (sector : Nat)
  -- fabric (R347-R373)
  | fabricRequest (p : Packet)
  | fabricReply (p : Packet)
  | contributionDelivery (p : Piece)
  | flitReceive (plane link : Nat) (f : Flit)
  | linkAck (plane link : Nat) (lseq : BitVec 12)
  | linkNak (plane link : Nat) (lseq : BitVec 12)
  | laneFailure (plane link lane : Nat)
  | linkRetrained (plane link : Nat)
  | switchPlaneFailed (plane : Nat)
  | calve (gen : Nat) (mask : BitVec 8) (base : Nat)
  | calvingPortsClosed
  | calvingReport (gen src plane : Nat) (mark : BitVec 32) (window : BitVec 256)
  | calvingDone (gen src : Nat)
  -- host (R374-R386)
  | transportFrameReceive (port : Nat) (f : Frame)
  | hostRetransmitTimeout (port : Nat)
  | helloQuery (q : Rq) (timeout : Nat)
  | helloSelect (q : Rq) (timeout devno : Nat) (dead : BitVec 8) (sel : BitVec 256)
  | contextCreate (q : Rq) (ctx : Nat) (mask : Word) (root : Nat) (ring : DWord) (j : Nat)
  | contextDestroy (q : Rq) (ctx : Nat)
  | contextMethods (q : Rq) (ctx : Nat) (table : List MethodEntry)
  | contextPeers (q : Rq) (ctx first : Nat) (sets : List (List (BitVec 16)))
  | memwrite (q : Rq) (ctx : Nat) (va : DWord) (data : List Byte)
  | memread (q : Rq) (ctx : Nat) (va : DWord) (len : Nat)
  | clearMonitors (q : Rq)
  | map (q : Rq) (ctx : Nat) (zero : Bool) (size count : Nat) (va leaf : DWord)
  | unmap (q : Rq) (ctx : Nat) (size count : Nat) (va : DWord)
  | protect (q : Rq) (ctx : Nat) (size count : Nat) (va leaf : DWord)
  | launchStart (q : Rq) (ctx : Nat) (record : List Byte) (params : List Byte)
  | launchEnd (q : Rq) (launch : Nat)
  | launchResume (q : Rq) (launch n : Nat) (secs : List Section)
  | dump (q : Rq) (launch : Nat) (va : DWord) (len : DWord)
  | firmwareLoad (q : Rq) (off : Nat) (data : List Byte)
  | firmwareCommit (q : Rq) (len : Nat)
  | firmwareAttest (q : Rq) (nonce : List Byte)
  -- the device as a whole
  | deviceReset
  | sample (core sl : Nat)
  | monitorLevelSample (temps volts : List Nat)
  | sliceCycle (core : Nat)
  | memoryError (loc : ErrLoc) (uncorrectable : Bool)
  | deviceMissing (dev : Nat)
  | serviceCoreRetired (core : Nat)
  | powerLoss
  deriving DecidableEq, Repr, Inhabited

end Sys2Proof
end

