-- ==== Sys2Proof/WellFormed.lean ====
section
/-! DEFINITION. Which instruction terms have an encoding: the limits the entries put on rounding codes, types,
barrier numbers, predicate codes and the header fields. The device's other steps are terms of `Instr` without an
encoding and are always well formed. -/

namespace Sys2Proof

/-- The guard is not negated-always (R74). -/
def Hdr.wf (h : Hdr) : Bool := !(h.psel == 7 && h.pneg)

/-- The counter field of a transfer instruction is 0 (R84). -/
def Hdr.wfTransfer (h : Hdr) : Bool := h.wf && h.ctr == 0

/-- NOP and YIELD take neither counter nor lookahead (R179). -/
def Hdr.wfNop (h : Hdr) : Bool := h.wf && h.ctr == 0 && h.la == 0

/-- Rounding codes 0..4 (R156). -/
def Rnd.wf5 (r : Rnd) : Bool := r != .rslot

/-- Rounding codes 0..3 (R156, R161, R194, R201). -/
def Rnd.wf4 (r : Rnd) : Bool := r != .rslot && r != .sr

/-- Signed types, the only ones IABS takes (R144). -/
def ITy.signed : ITy → Bool
  | .s8 | .s16 | .s32 | .s64 => true
  | .n8 | .n16 | .n32 | .n64 => false

/-- The width of a type in bits (R139). -/
def ITy.width : ITy → Nat
  | .s8 | .n8 => 8
  | .s16 | .n16 => 16
  | .s32 | .n32 => 32
  | .s64 | .n64 => 64

/-- The types of ATOMS have 32 or 64 bits (R194); `.fadd` takes rounding codes 0..3. -/
def AOp.wf : AOp → Bool
  | .int _ t => t.width == 32 || t.width == 64
  | .fadd r => r.wf4

/-- `.fadd` of GRED and GSCAN takes rounding codes 0..3 (R201). -/
def GOp.wf : GOp → Bool
  | .fadd r => r.wf4
  | _ => true

/-- How many barriers a level has (R57). -/
def BarLevel.count : BarLevel → Nat
  | .team => 16
  | .clus => 4
  | .grid => 2

/-- The term has an encoding: the decoder admits it. -/
def Instr.wf : Instr → Bool
  | .iadd h .. | .isub h .. | .iaddc h .. | .imul h .. | .imulh h .. | .imad h .. | .imadw h ..
  | .imin h .. | .imax h .. | .ineg h .. | .shl h .. | .shr h .. | .sar h .. | .rotl h ..
  | .and h .. | .or h .. | .xor h .. | .andn h .. | .not h .. | .lop3 h .. | .popc h .. | .clz h ..
  | .ctz h .. | .brev h .. | .bfx h .. | .bfi h .. | .bperm h .. | .iset h .. | .mov h .. | .movi h ..
  | .pset h .. | .pmov h .. | .fmin h .. | .fmax h .. | .fset h .. | .fclass h .. | .fex2 h ..
  | .flg2 h .. | .fsin h .. | .fcos h .. | .ftanh h .. | .hfma2 h .. | .dmin h .. | .dmax h ..
  | .dset h .. | .cvt h .. | .qnt h .. | .dqnt h .. | .pack h .. | .unpk h .. | .gvote h .. | .gshfl h ..
  | .gelect h .. | .gmatch h .. | .lds h .. | .sts h .. | .cass h .. | .ldt h .. | .stt h .. | .waitf h ..
  | .markf h .. | .marke h .. | .probef h .. | .qput h .. | .qget h .. | .qpeek h .. | .mcarm h ..
  | .sopen h .. | .sadv h .. | .stend h .. | .sclose h .. | .scrd h .. | .cpost h .. | .vgath h ..
  | .vscat h .. | .vscatr h .. | .ocall h .. | .ocalln h .. | .cfence h .. | .cwaitt h .. | .cstat h ..
  | .ccancel h .. | .mpost h .. | .mzero h .. | .mcvt h .. | .idembeg h .. | .idemend h .. | .mfsr h ..
  | .mtsr h .. | .rngx h .. | .pmark h .. => h.wf
  | .iabs h t .. => h.wf && t.signed
  | .sel h pk .. => h.wf && pk != 7
  | .fadd h r .. | .fsub h r .. | .fmul h r .. | .frcp h r .. | .frsq h r .. | .fsqrt h r .. | .fdiv h r ..
  | .dadd h r .. | .dmul h r .. | .drcp h r .. => h.wf && r.wf5
  | .hadd2 h _ r .. | .hmul2 h _ r .. => h.wf && r.wf5
  | .ffma h r .. | .dfma h r .. | .frnd h r .. => h.wf && r.wf4
  | .gred h op .. | .gscan h op .. => h.wf && op.wf
  | .atoms h op .. => h.wf && op.wf
  | .bar h l n | .bara h l n _ | .barw h l n _ | .barq h l n _ _ => h.wf && decide (n.toNat < l.count)
  | .sisect h _ fa fb | .sunion h _ fa fb => h.wf && fa != fb
  | .bra h .. | .brx h .. | .call h .. | .callx h .. | .ret h | .exit h | .trap h .. | .bkpt h .. => h.wfTransfer
  | .nop h | .yield h => h.wfNop
  | _ => true

/-- The instruction is one of the 127 instruction words of Table 04.6; the others are the device's steps. -/
def Instr.hdr? : Instr → Option Hdr
  | .iadd h .. | .isub h .. | .iaddc h .. | .imul h .. | .imulh h .. | .imad h .. | .imadw h ..
  | .imin h .. | .imax h .. | .iabs h .. | .ineg h .. | .shl h .. | .shr h .. | .sar h .. | .rotl h ..
  | .and h .. | .or h .. | .xor h .. | .andn h .. | .not h .. | .lop3 h .. | .popc h .. | .clz h ..
  | .ctz h .. | .brev h .. | .bfx h .. | .bfi h .. | .bperm h .. | .iset h .. | .sel h .. | .mov h .. | .movi h ..
  | .pset h .. | .pmov h .. | .fadd h .. | .fsub h .. | .fmul h .. | .ffma h .. | .fmin h .. | .fmax h ..
  | .fset h .. | .fclass h .. | .frnd h .. | .frcp h .. | .frsq h .. | .fsqrt h .. | .fdiv h .. | .fex2 h ..
  | .flg2 h .. | .fsin h .. | .fcos h .. | .ftanh h .. | .hadd2 h .. | .hmul2 h .. | .hfma2 h .. | .dadd h ..
  | .dmul h .. | .dfma h .. | .dmin h .. | .dmax h .. | .dset h .. | .drcp h .. | .cvt h .. | .qnt h ..
  | .dqnt h .. | .pack h .. | .unpk h .. | .gvote h .. | .gshfl h .. | .gred h .. | .gscan h .. | .gelect h ..
  | .gmatch h .. | .lds h .. | .sts h .. | .atoms h .. | .cass h .. | .ldt h .. | .stt h .. | .waitf h ..
  | .markf h .. | .marke h .. | .probef h .. | .bar h .. | .bara h .. | .barw h .. | .barq h .. | .qput h ..
  | .qget h .. | .qpeek h .. | .mcarm h .. | .sopen h .. | .sadv h .. | .stend h .. | .sclose h .. | .scrd h ..
  | .sisect h .. | .sunion h .. | .cpost h .. | .vgath h .. | .vscat h .. | .vscatr h .. | .ocall h ..
  | .ocalln h .. | .cfence h .. | .cwaitt h .. | .cstat h .. | .ccancel h .. | .mpost h .. | .mzero h ..
  | .mcvt h .. | .bra h .. | .brx h .. | .call h .. | .callx h .. | .ret h | .exit h | .trap h .. | .bkpt h ..
  | .nop h | .yield h | .idembeg h .. | .idemend h | .mfsr h .. | .mtsr h .. | .rngx h .. | .pmark h .. => some h
  | _ => none

/-- An instruction word of Table 04.6. -/
def Instr.isWord (i : Instr) : Bool := i.hdr?.isSome

/-- The transfer instructions (R69). -/
def Instr.isTransfer : Instr → Bool
  | .bra .. | .brx .. | .call .. | .callx .. | .ret .. | .exit .. | .trap .. | .bkpt .. => true
  | _ => false

end Sys2Proof
end

