-- ==== Sys2Proof/Decode.lean ====
section
/-! DEFINITION. The instruction word to the bit (Table 04.3, R73) and the meaning of every field of the 127
opcodes of Table 04.6; the encoder stands after the decoder. -/

namespace Sys2Proof

/-- Why a word is not an instruction; each name is a row of Table 04.7 that raises *illegal instruction*. -/
inductive Reject where
  /-- fewer than eight bytes are left -/
  | truncated
  /-- the opcode is unassigned (R88) -/
  | opcode
  /-- psel = 7 with pneg = 1 (R74) -/
  | guard
  /-- a reserved bit, or a code the entry does not define, is set (R79, R80, R211) -/
  | reserved
  /-- a rounding code that the instruction does not take (R80) -/
  | rounding
  /-- a counter or lookahead on an instruction that takes none (R84, R179) -/
  | counter
  deriving DecidableEq, Repr

/-- The fields of an instruction word, high to low (Table 04.3). -/
structure Fields where
  op : BitVec 9
  pneg : BitVec 1
  psel : BitVec 3
  d : BitVec 10
  a : BitVec 10
  b : BitVec 10
  c : BitVec 10
  retain : BitVec 2
  la : BitVec 4
  ctr : BitVec 3
  m : BitVec 2
  deriving DecidableEq, Repr

/-- Cuts a word at the boundaries of Table 04.3. -/
def Fields.split (w : DWord) : Fields where
  op := w.extractLsb' 55 9
  pneg := w.extractLsb' 54 1
  psel := w.extractLsb' 51 3
  d := w.extractLsb' 41 10
  a := w.extractLsb' 31 10
  b := w.extractLsb' 21 10
  c := w.extractLsb' 11 10
  retain := w.extractLsb' 9 2
  la := w.extractLsb' 5 4
  ctr := w.extractLsb' 2 3
  m := w.extractLsb' 0 2

/-- Joins the fields into a word (Table 04.3). -/
def Fields.join (f : Fields) : DWord :=
  f.op ++ f.pneg ++ f.psel ++ f.d ++ f.a ++ f.b ++ f.c ++ f.retain ++ f.la ++ f.ctr ++ f.m

/-- The header fields that every word has. -/
def Fields.hdr (f : Fields) : Hdr where
  psel := f.psel
  pneg := f.pneg == 1
  retain := f.retain
  la := f.la
  ctr := f.ctr

/-- An operand field (R75): bit 9 is the kind. -/
def Opnd.ofBits (x : BitVec 10) : Opnd :=
  if x.extractLsb' 9 1 = 1 then .k1 (x.extractLsb' 0 9) else .v (x.extractLsb' 0 9)

def Opnd.bits : Opnd → BitVec 10
  | .v i => (0 : BitVec 1) ++ i
  | .k1 i => (1 : BitVec 1) ++ i

/-- Integer type codes (Table 04.5). -/
def ITy.ofBits (x : BitVec 3) : ITy :=
  match x.toNat with
  | 0 => .s8 | 1 => .s16 | 2 => .s32 | 3 => .s64 | 4 => .n8 | 5 => .n16 | 6 => .n32 | _ => .n64

def ITy.bits : ITy → BitVec 3
  | .s8 => 0 | .s16 => 1 | .s32 => 2 | .s64 => 3 | .n8 => 4 | .n16 => 5 | .n32 => 6 | .n64 => 7

/-- Rounding codes (Table 04.5), those up to `max`. -/
def Rnd.ofBits (max : Nat) (x : BitVec 3) : Except Reject Rnd :=
  if x.toNat ≤ max then
    match x.toNat with
    | 0 => .ok .rne | 1 => .ok .rz | 2 => .ok .rdn | 3 => .ok .rup | 4 => .ok .sr | 5 => .ok .rslot
    | _ => .error .rounding
  else .error .rounding

def Rnd.bits : Rnd → BitVec 3
  | .rne => 0 | .rz => 1 | .rdn => 2 | .rup => 3 | .sr => 4 | .rslot => 5

/-- The two-bit rounding of FFMA and DFMA (R156). -/
def Rnd.ofM (x : BitVec 2) : Rnd :=
  match x.toNat with
  | 0 => .rne | 1 => .rz | 2 => .rdn | _ => .rup

def Rnd.mbits : Rnd → BitVec 2
  | .rz => 1 | .rdn => 2 | .rup => 3 | _ => 0

def ICmp.ofBits (x : BitVec 3) : Except Reject ICmp :=
  match x.toNat with
  | 0 => .ok .eq | 1 => .ok .ne | 2 => .ok .lt | 3 => .ok .le | 4 => .ok .gt | 5 => .ok .ge
  | _ => .error .reserved

def ICmp.bits : ICmp → BitVec 3
  | .eq => 0 | .ne => 1 | .lt => 2 | .le => 3 | .gt => 4 | .ge => 5

def FCmp.ofBits (x : BitVec 3) : FCmp :=
  match x.toNat with
  | 0 => .eq | 1 => .ne | 2 => .lt | 3 => .le | 4 => .gt | 5 => .ge | 6 => .num | _ => .nan

def FCmp.bits : FCmp → BitVec 3
  | .eq => 0 | .ne => 1 | .lt => 2 | .le => 3 | .gt => 4 | .ge => 5 | .num => 6 | .nan => 7

def POp.ofBits (x : BitVec 3) : POp :=
  match x.toNat with
  | 0 => .and | 1 => .or | 2 => .xor | 3 => .andn | 4 => .orn | 5 => .nand | 6 => .nor | _ => .xnor

def POp.bits : POp → BitVec 3
  | .and => 0 | .or => 1 | .xor => 2 | .andn => 3 | .orn => 4 | .nand => 5 | .nor => 6 | .xnor => 7

def ClassSrc.ofBits (x : BitVec 2) : Except Reject ClassSrc :=
  match x.toNat with
  | 0 => .ok .f32 | 1 => .ok .f16 | 2 => .ok .bf16 | _ => .error .reserved

def ClassSrc.bits : ClassSrc → BitVec 2
  | .f32 => 0 | .f16 => 1 | .bf16 => 2

def CvtSrc.ofBits (x : BitVec 3) : CvtSrc :=
  match x.toNat with
  | 0 => .fp32 | 1 => .fp16 | 2 => .bf16 | 3 => .fp64 | 4 => .s32 | 5 => .n32 | 6 => .s64 | _ => .n64

def CvtSrc.bits : CvtSrc → BitVec 3
  | .fp32 => 0 | .fp16 => 1 | .bf16 => 2 | .fp64 => 3 | .s32 => 4 | .n32 => 5 | .s64 => 6 | .n64 => 7

def PackSrc.ofBits (x : BitVec 2) : Except Reject PackSrc :=
  match x.toNat with
  | 0 => .ok .fp32 | 1 => .ok .s32 | 2 => .ok .n32 | _ => .error .reserved

def PackSrc.bits : PackSrc → BitVec 2
  | .fp32 => 0 | .s32 => 1 | .n32 => 2

def ShflMode.ofBits (x : BitVec 2) : ShflMode :=
  match x.toNat with
  | 0 => .idx | 1 => .up | 2 => .down | _ => .xor

def ShflMode.bits : ShflMode → BitVec 2
  | .idx => 0 | .up => 1 | .down => 2 | .xor => 3

def StMode.ofBits (x : BitVec 2) : Except Reject StMode :=
  match x.toNat with
  | 0 => .ok .plain | 1 => .ok .ewr | 2 => .ok .fill | _ => .error .reserved

def StMode.bits : StMode → BitVec 2
  | .plain => 0 | .ewr => 1 | .fill => 2

def BarLevel.ofBits (x : BitVec 2) : Except Reject BarLevel :=
  match x.toNat with
  | 0 => .ok .team | 1 => .ok .clus | 2 => .ok .grid | _ => .error .reserved

def BarLevel.bits : BarLevel → BitVec 2
  | .team => 0 | .clus => 1 | .grid => 2

def ScrdSel.ofBits (x : BitVec 2) : ScrdSel :=
  match x.toNat with
  | 0 => .coord | 1 => .val | 2 => .pos | _ => .len

def ScrdSel.bits : ScrdSel → BitVec 2
  | .coord => 0 | .val => 1 | .pos => 2 | .len => 3

def FenceKind.ofBits (x : BitVec 2) : Except Reject FenceKind :=
  match x.toNat with
  | 0 => .ok .rel | 1 => .ok .acq | 2 => .ok .full | _ => .error .reserved

def FenceKind.bits : FenceKind → BitVec 2
  | .rel => 0 | .acq => 1 | .full => 2

def Scope.ofBits (x : BitVec 2) : Scope :=
  match x.toNat with
  | 0 => .team | 1 => .die | 2 => .pkg | _ => .fab

def Scope.bits : Scope → BitVec 2
  | .team => 0 | .die => 1 | .pkg => 2 | .fab => 3

def Fusion.ofBits (x : BitVec 2) : Fusion :=
  match x.toNat with
  | 0 => .f1x4 | 1 => .f2x2 | 2 => .f4x1 | _ => .ind

def Fusion.bits : Fusion → BitVec 2
  | .f1x4 => 0 | .f2x2 => 1 | .f4x1 => 2 | .ind => 3

/-- A group operation from op = bit 9 and m, with the type and rounding bits (Table 10.4, R201). -/
def GOp.ofBits (op ty rnd : BitVec 3) : Except Reject GOp :=
  match op.toNat with
  | 0 => if rnd = 0 then .ok (.int .add (.ofBits ty)) else .error .reserved
  | 1 => if rnd = 0 then .ok (.int .min (.ofBits ty)) else .error .reserved
  | 2 => if rnd = 0 then .ok (.int .max (.ofBits ty)) else .error .reserved
  | 3 => if rnd = 0 then .ok (.int .and (.ofBits ty)) else .error .reserved
  | 4 => if rnd = 0 then .ok (.int .or (.ofBits ty)) else .error .reserved
  | 5 => if ty = 0 then (Rnd.ofBits 3 rnd).map .fadd else .error .reserved
  | 6 => if ty = 0 ∧ rnd = 0 then .ok .fmin else .error .reserved
  | _ => if ty = 0 ∧ rnd = 0 then .ok .fmax else .error .reserved

/-- The op, type and rounding bits of a group operation. -/
def GOp.bits : GOp → BitVec 3 × BitVec 3 × BitVec 3
  | .int .add t => (0, t.bits, 0)
  | .int .min t => (1, t.bits, 0)
  | .int .max t => (2, t.bits, 0)
  | .int .and t => (3, t.bits, 0)
  | .int .or t => (4, t.bits, 0)
  | .fadd r => (5, 0, r.bits)
  | .fmin => (6, 0, 0)
  | .fmax => (7, 0, 0)

def AIntOp.ofCode : Nat → AIntOp
  | 0 => .add | 1 => .min | 2 => .max | 3 => .and | 4 => .or | 5 => .xor | _ => .swap

def AIntOp.bits : AIntOp → BitVec 3
  | .add => 0 | .min => 1 | .max => 2 | .and => 3 | .or => 4 | .xor => 5 | .swap => 6

/-- An ATOMS operation (Table 10.3, R194). -/
def AOp.ofBits (op ty rnd : BitVec 3) : Except Reject AOp :=
  if op = 7 then (if ty = 0 then (Rnd.ofBits 3 rnd).map .fadd else .error .reserved)
  else if rnd = 0 ∧ ((ITy.ofBits ty).width = 32 ∨ (ITy.ofBits ty).width = 64) then
    .ok (.int (AIntOp.ofCode op.toNat) (.ofBits ty))
  else .error .reserved

def AOp.bits : AOp → BitVec 3 × BitVec 3 × BitVec 3
  | .int op t => (op.bits, t.bits, 0)
  | .fadd r => (7, 0, r.bits)

/-- Width field of a load or a store: modifier bits 2:0 a type, bit 9 `.b128` with bits 2:0 zero (R193). -/
def MemW.ofBits (c : BitVec 10) : Except Reject MemW :=
  if c.extractLsb' 3 6 ≠ 0 then .error .reserved
  else if c.extractLsb' 9 1 = 1 then
    (if c.extractLsb' 0 3 = 0 then .ok .b128 else .error .reserved)
  else .ok (.ty (.ofBits (c.extractLsb' 0 3)))

def MemW.bits : MemW → BitVec 10
  | .ty t => (0 : BitVec 7) ++ t.bits
  | .b128 => 0x200

/-- A predicate or stream field (R140, R187): bits 9:3 are zero. -/
def field3 (x : BitVec 10) : Except Reject (BitVec 3) :=
  if x.extractLsb' 3 7 = 0 then .ok (x.extractLsb' 0 3) else .error .reserved

def bits3 (x : BitVec 3) : BitVec 10 := (0 : BitVec 7) ++ x

/-- A number field of two bits (R187). -/
def field2 (x : BitVec 10) : Except Reject (BitVec 2) :=
  if x.extractLsb' 2 8 = 0 then .ok (x.extractLsb' 0 2) else .error .reserved

def bits2 (x : BitVec 2) : BitVec 10 := (0 : BitVec 8) ++ x

/-- The code pm: pm<2> is modifier bit 9 and pm<1:0> is m (R140). -/
def Fields.pm (f : Fields) : BitVec 3 := f.c.extractLsb' 9 1 ++ f.m

/-- A field that must be zero (R79). -/
def need (b : Bool) : Except Reject Unit := if b then .ok () else .error .reserved

/-- A barrier number below its level's count (R204). -/
def barNum (l : BarLevel) (b : BitVec 10) : Except Reject (BitVec 4) :=
  if b.extractLsb' 4 6 = 0 ∧ (b.extractLsb' 0 4).toNat < l.count then .ok (b.extractLsb' 0 4)
  else .error .reserved

/-- The instruction that the fields of a word name, or the row of Table 04.7 that refuses it (R88, R89). -/
def decodeOp (f : Fields) : Except Reject Instr :=
  let h := f.hdr
  let D := Opnd.ofBits f.d
  let A := Opnd.ofBits f.a
  let B := Opnd.ofBits f.b
  let C := Opnd.ofBits f.c
  let ty := ITy.ofBits (f.c.extractLsb' 0 3)
  let rb := f.c.extractLsb' 3 3
  let m0 := f.m.extractLsb' 0 1 == 1
  let m1 := f.m.extractLsb' 1 1 == 1
  let c9 := f.c.extractLsb' 9 1 == 1
  let c93 := f.c.extractLsb' 3 7 == 0
  let c80 := f.c.extractLsb' 0 9 == 0
  let fs := f.c.extractLsb' 6 3
  -- bits of the modifier word outside a rounding code
  let rndOnly := f.c.extractLsb' 0 3 == 0 && f.c.extractLsb' 6 4 == 0
  match f.op.toNat with
  | 0x001 => do need (c93 && !m1); return .iadd h ty m0 D A B
  | 0x002 => do need (c93 && !m1); return .isub h ty m0 D A B
  | 0x003 => do need c80; return .iaddc h f.pm D A B
  | 0x004 => do need (c93 && !m1); return .imul h ty m0 D A B
  | 0x005 => do need (c93 && f.m == 0); return .imulh h ty D A B
  | 0x006 => do need (!m1); return .imad h m0 D A B C
  | 0x007 => do need (!m1); return .imadw h m0 D A B C
  | 0x008 => do need (c93 && f.m == 0); return .imin h ty D A B
  | 0x009 => do need (c93 && f.m == 0); return .imax h ty D A B
  | 0x00A => do need (c93 && !m1 && f.b == 0 && ty.signed); return .iabs h ty m0 D A
  | 0x00B => do need (c93 && !m1 && f.b == 0); return .ineg h ty m0 D A
  | 0x010 => do need (f.c == 0 && !m1); return .shl h m0 D A B
  | 0x011 => do need (f.c == 0 && !m1); return .shr h m0 D A B
  | 0x012 => do need (f.c == 0 && !m1); return .sar h m0 D A B
  | 0x013 => do need (f.c == 0 && f.m == 0); return .rotl h D A B
  | 0x018 => do need (f.c == 0 && !m1); return .and h m0 D A B
  | 0x019 => do need (f.c == 0 && !m1); return .or h m0 D A B
  | 0x01A => do need (f.c == 0 && !m1); return .xor h m0 D A B
  | 0x01B => do need (f.c == 0 && !m1); return .andn h m0 D A B
  | 0x01C => do need (f.c == 0 && !m1 && f.b == 0); return .not h m0 D A
  | 0x01D => do need (f.c.extractLsb' 8 2 == 0 && !m1); return .lop3 h m0 (f.c.extractLsb' 0 8) D A B
  | 0x020 => do need (f.c == 0 && f.m == 0 && f.b == 0); return .popc h D A
  | 0x021 => do need (f.c == 0 && f.m == 0 && f.b == 0); return .clz h D A
  | 0x022 => do need (f.c == 0 && f.m == 0 && f.b == 0); return .ctz h D A
  | 0x023 => do need (f.c == 0 && f.m == 0 && f.b == 0); return .brev h D A
  | 0x024 => do need (c93 && f.m == 0 && (f.c == 2 || f.c == 6)); return .bfx h (f.c == 6) D A B
  | 0x025 => do need (f.m == 0); return .bfi h D A B C
  | 0x026 => do need (f.m == 0); return .bperm h D A B C
  | 0x028 => do
    need (f.c.extractLsb' 3 6 == 0)
    return .iset h ty (← ICmp.ofBits f.pm) (← field3 f.d) A B
  | 0x029 => do need (c80 && f.pm != 7); return .sel h f.pm D A B
  | 0x02A => do need (f.c == 0 && f.b == 0 && !m1); return .mov h m0 D A
  | 0x02B => return .movi h (f.m ++ f.a ++ f.b ++ f.c) D
  | 0x02C => do need c80; return .pset h (.ofBits f.pm) (← field3 f.d) (← field3 f.a) (← field3 f.b)
  | 0x02D => do
    need (f.c == 0 && f.b == 0 && !m1)
    if m0 then do need (f.d == 0); return .pmov h (.set A)
    else do need (f.a == 0); return .pmov h (.get D)
  | 0x040 => do need (rndOnly && f.m == 0); return .fadd h (← Rnd.ofBits 4 rb) D A B
  | 0x041 => do need (rndOnly && f.m == 0); return .fsub h (← Rnd.ofBits 4 rb) D A B
  | 0x042 => do need (rndOnly && f.m == 0); return .fmul h (← Rnd.ofBits 4 rb) D A B
  | 0x043 => return .ffma h (.ofM f.m) D A B C
  | 0x044 => do need (f.c == 0 && f.m == 0); return .fmin h D A B
  | 0x045 => do need (f.c == 0 && f.m == 0); return .fmax h D A B
  | 0x046 => do need c80; return .fset h (.ofBits f.pm) (← field3 f.d) A B
  | 0x047 => do need (f.c == 0 && f.b == 0); return .fclass h (← ClassSrc.ofBits f.m) D A
  | 0x048 => do need (rndOnly && !m1 && f.b == 0); return .frnd h (← Rnd.ofBits 3 rb) m0 D A
  | 0x050 => do need (rndOnly && f.m == 0 && f.b == 0); return .frcp h (← Rnd.ofBits 4 rb) D A
  | 0x051 => do need (rndOnly && f.m == 0 && f.b == 0); return .frsq h (← Rnd.ofBits 4 rb) D A
  | 0x052 => do need (rndOnly && f.m == 0 && f.b == 0); return .fsqrt h (← Rnd.ofBits 4 rb) D A
  | 0x053 => do need (rndOnly && f.m == 0); return .fdiv h (← Rnd.ofBits 4 rb) D A B
  | 0x054 => do need (f.c == 0 && f.m == 0 && f.b == 0); return .fex2 h D A
  | 0x055 => do need (f.c == 0 && f.m == 0 && f.b == 0); return .flg2 h D A
  | 0x056 => do need (f.c == 0 && f.m == 0 && f.b == 0); return .fsin h D A
  | 0x057 => do need (f.c == 0 && f.m == 0 && f.b == 0); return .fcos h D A
  | 0x058 => do need (f.c == 0 && f.m == 0 && f.b == 0); return .ftanh h D A
  | 0x060 => do need (rndOnly && !m1); return .hadd2 h m0 (← Rnd.ofBits 4 rb) D A B
  | 0x061 => do need (rndOnly && !m1); return .hmul2 h m0 (← Rnd.ofBits 4 rb) D A B
  | 0x062 => return .hfma2 h m0 m1 D A B C
  | 0x080 => do need (rndOnly && f.m == 0); return .dadd h (← Rnd.ofBits 4 rb) D A B
  | 0x081 => do need (rndOnly && f.m == 0); return .dmul h (← Rnd.ofBits 4 rb) D A B
  | 0x082 => return .dfma h (.ofM f.m) D A B C
  | 0x083 => do need (f.c == 0 && f.m == 0); return .dmin h D A B
  | 0x084 => do need (f.c == 0 && f.m == 0); return .dmax h D A B
  | 0x085 => do need c80; return .dset h (.ofBits f.pm) (← field3 f.d) A B
  | 0x086 => do need (rndOnly && f.m == 0 && f.b == 0); return .drcp h (← Rnd.ofBits 4 rb) D A
  | 0x0A0 => do
    need (f.c.extractLsb' 0 3 == 0 && f.b == 0)
    return .cvt h fs (.ofBits f.pm) (← Rnd.ofBits 5 rb) D A
  | 0x0A1 => do need (f.c.extractLsb' 0 3 == 0 && !c9 && f.m == 0); return .qnt h fs (← Rnd.ofBits 5 rb) D A B
  | 0x0A2 => do need (f.c.extractLsb' 0 3 == 0 && !c9 && f.m == 0); return .dqnt h fs (← Rnd.ofBits 5 rb) D A B
  | 0x0A3 => do
    need (f.c.extractLsb' 0 3 == 0 && !c9 && f.b == 0)
    return .pack h fs (← PackSrc.ofBits f.m) (← Rnd.ofBits 5 rb) D A
  | 0x0A4 => do
    need (f.c.extractLsb' 0 6 == 0 && !c9 && f.b == 0 && !m1)
    return .unpk h fs m0 D A
  | 0x0C0 => do
    need (f.c == 0 && f.b == 0)
    let pa ← field3 f.a
    match f.m.toNat with
    | 0 => return .gvote h (.all (← field3 f.d)) pa
    | 1 => return .gvote h (.any (← field3 f.d)) pa
    | 2 => return .gvote h (.uni (← field3 f.d)) pa
    | _ => return .gvote h (.ballot D) pa
  | 0x0C1 => do need c80; return .gshfl h (.ofBits f.m) c9 D A B
  | 0x0C2 => do
    need (f.c.extractLsb' 6 3 == 0 && f.b == 0)
    return .gred h (← GOp.ofBits f.pm (f.c.extractLsb' 0 3) rb) D A
  | 0x0C3 => do
    need (f.c.extractLsb' 6 3 == 0 && f.b.extractLsb' 1 9 == 0)
    return .gscan h (← GOp.ofBits f.pm (f.c.extractLsb' 0 3) rb) (f.b.extractLsb' 0 1 == 1) D A
  | 0x0C4 => do need (f.c == 0 && f.b == 0 && f.m == 0); return .gelect h (← field3 f.a) D
  | 0x0C5 => do need (f.c == 0 && !m1); return .gmatch h m0 (← field3 f.b) D A
  | 0x0E0 => do need (f.m == 0); return .lds h (← MemW.ofBits f.c) f.b D A
  | 0x0E1 => return .sts h (← MemW.ofBits f.c) (← StMode.ofBits f.m) f.b D A
  | 0x0E2 => do
    need (f.c.extractLsb' 6 3 == 0)
    return .atoms h (← AOp.ofBits f.pm (f.c.extractLsb' 0 3) rb) D A B
  | 0x0E3 => do need (!m1); return .cass h m0 D A B C
  | 0x0E8 => do need (f.m == 0); return .ldt h (← MemW.ofBits f.c) f.b D A
  | 0x0E9 => return .stt h (← MemW.ofBits f.c) (← StMode.ofBits f.m) f.b D A
  | 0x0F0 => do need (f.c == 0 && f.d == 0); return .waitf h m0 m1 f.b A
  | 0x0F1 => do need (f.c == 0 && f.d == 0 && !m1); return .markf h m0 f.b A
  | 0x0F2 => do need (f.c == 0 && f.d == 0 && !m1); return .marke h m0 f.b A
  | 0x0F3 => do need (f.c == 0 && !m1); return .probef h m0 (← field3 f.d) f.b A
  | 0x100 => do
    need (f.c == 0 && f.d == 0 && f.a == 0)
    let l ← BarLevel.ofBits f.m
    return .bar h l (← barNum l f.b)
  | 0x101 => do
    need (f.c == 0 && f.a == 0)
    let l ← BarLevel.ofBits f.m
    return .bara h l (← barNum l f.b) D
  | 0x102 => do
    need (f.c == 0 && f.d == 0)
    let l ← BarLevel.ofBits f.m
    return .barw h l (← barNum l f.b) A
  | 0x103 => do
    need (f.c == 0)
    let l ← BarLevel.ofBits f.m
    return .barq h l (← barNum l f.b) (← field3 f.d) A
  | 0x108 => do need (f.c == 0 && f.m == 0 && f.d == 0); return .qput h (← field2 f.b) A
  | 0x109 => do need (f.c == 0 && f.m == 0 && f.a == 0); return .qget h (← field2 f.b) D
  | 0x10A => do need (f.c == 0 && f.m == 0 && f.a == 0); return .qpeek h (← field2 f.b) D
  | 0x110 => do need (f.c == 0 && f.m == 0 && f.a == 0 && f.d == 0); return .mcarm h (← field2 f.b)
  | 0x120 => do need (f.c == 0 && f.m == 0 && f.b == 0); return .sopen h (← field3 f.d) A
  | 0x121 => do need (f.c == 0 && f.m == 0 && f.b == 0); return .sadv h (← field3 f.d) A
  | 0x122 => do need (f.c == 0 && f.m == 0 && f.b == 0); return .stend h (← field3 f.d) (← field3 f.a)
  | 0x123 => do need (f.c == 0 && f.m == 0 && f.b == 0 && f.a == 0); return .sclose h (← field3 f.d)
  | 0x124 => do need (f.c == 0 && f.b == 0); return .scrd h (.ofBits f.m) D (← field3 f.a)
  | 0x125 => do
    need (f.c == 0 && f.m == 0 && f.a != f.b)
    return .sisect h D (← field3 f.a) (← field3 f.b)
  | 0x126 => do
    need (f.c == 0 && f.m == 0 && f.a != f.b)
    return .sunion h D (← field3 f.a) (← field3 f.b)
  | 0x140 => do need (f.c == 0 && f.m == 0 && f.b == 0); return .cpost h D A
  | 0x141 => do need (f.m == 0); return .vgath h D A B C
  | 0x142 => do need (f.m == 0); return .vscat h D A B C
  | 0x143 => do need (f.m == 0); return .vscatr h D A B C
  | 0x144 => return .ocall h m0 m1 D A B C
  | 0x145 => do need (f.b == 0); return .ocalln h m0 m1 D A C
  | 0x150 => do
    need (f.c == 0 && f.a.extractLsb' 8 2 == 0)
    return .cfence h (← FenceKind.ofBits f.m) (.ofBits (← field2 f.b)) (f.a.extractLsb' 0 8) D
  | 0x151 => do need (f.c == 0 && f.b == 0 && !m1); return .cwaitt h m0 D A
  | 0x152 => do need (f.c == 0 && f.b == 0 && !m1); return .cstat h m0 D A
  | 0x153 => do need (f.c == 0 && f.b == 0 && f.m == 0); return .ccancel h D A
  | 0x180 => do need (f.c == 0 && f.b == 0); return .mpost h (.ofBits f.m) D A
  | 0x181 => do need (f.c == 0 && f.b == 0 && f.m == 0); return .mzero h D A
  | 0x182 => do need (f.c == 0 && f.b == 0 && f.m == 0); return .mcvt h D A
  | 0x1A0 => do need (f.d == 0 && f.m == 0); return .bra h (f.a ++ f.b ++ f.c)
  | 0x1A1 => do need (f.d == 0 && f.m == 0); return .brx h (f.b ++ f.c) A
  | 0x1A2 => do need (f.d == 0 && f.m == 0); return .call h (f.a ++ f.b ++ f.c)
  | 0x1A3 => do need (f.d == 0 && f.m == 0 && f.b == 0 && f.c == 0); return .callx h A
  | 0x1A4 => do need (f.d == 0 && f.m == 0 && f.a == 0 && f.b == 0 && f.c == 0); return .ret h
  | 0x1A5 => do need (f.d == 0 && f.m == 0 && f.a == 0 && f.b == 0 && f.c == 0); return .exit h
  | 0x1A6 => do need (f.d == 0 && f.m == 0 && f.a == 0 && f.c == 0); return .trap h f.b
  | 0x1A7 => do need (f.d == 0 && f.m == 0 && f.a == 0 && f.c == 0); return .bkpt h f.b
  | 0x1A8 => do need (f.d == 0 && f.m == 0 && f.a == 0 && f.b == 0 && f.c == 0); return .nop h
  | 0x1A9 => do need (f.d == 0 && f.m == 0 && f.a == 0 && f.b == 0 && f.c == 0); return .yield h
  | 0x1AA => do need (f.c == 0 && f.m == 0); return .idembeg h (f.d ++ f.b) A
  | 0x1AB => do need (f.d == 0 && f.m == 0 && f.a == 0 && f.b == 0 && f.c == 0); return .idemend h
  | 0x1C0 => do need (f.a == 0 && f.c == 0 && f.m == 0); return .mfsr h f.b D
  | 0x1C1 => do need (f.d == 0 && f.c == 0 && f.m == 0); return .mtsr h f.b A
  | 0x1C2 => do need (f.m == 0); return .rngx h D A B C
  | 0x1C3 => do need (f.d == 0 && f.b == 0 && f.c == 0 && f.m == 0); return .pmark h A
  | _ => .error .opcode

/-- The word's instruction: the fields are decoded, then the guard (R74) and the counter field (R84, R179) are
checked. Every failure is an *illegal instruction* of the same word, so their order cannot be seen. -/
def decodeFields (f : Fields) : Except Reject Instr := do
  let i ← decodeOp f
  if !f.hdr.wf then .error .guard
  else if i.isTransfer && f.ctr != 0 then .error .counter
  else match i with
    | .nop _ => if f.ctr = 0 ∧ f.la = 0 then return i else .error .counter
    | .yield _ => if f.ctr = 0 ∧ f.la = 0 then return i else .error .counter
    | _ => return i

/-- The instruction of a 64-bit word. -/
def decodeWord (w : DWord) : Except Reject Instr := decodeFields (.split w)

/-- A little-endian number of the given bytes (R3). -/
def leNat : List Byte → Nat
  | [] => 0
  | x :: xs => x.toNat + 256 * leNat xs

/-- The low `n` bytes of a number, little-endian (R3). -/
def leBytes : Nat → Nat → List Byte
  | 0, _ => []
  | n + 1, x => BitVec.ofNat 8 x :: leBytes n (x / 256)

/-- Reads one instruction word from the front of a list of bytes (R3, R67). -/
def decode (bs : List Byte) : Except Reject (Instr × List Byte) :=
  if bs.length < 8 then .error .truncated
  else (decodeWord (BitVec.ofNat 64 (leNat (bs.take 8)))).map fun i => (i, bs.drop 8)

/-- The instruction that the decoder reads from a word given as a number (spec/opcode_table.json gives its rows
no bits, so `nbits` is not consulted beyond the word's 64 bits). -/
def decodeTableWord (nbits w : Nat) : Option Instr :=
  if nbits ≤ 64 then (decode (leBytes 8 w)).toOption.map (·.1) else none

/-! ### The encoder -/

/-- The fields of a word with the given opcode and header. -/
def Fields.mk' (op : BitVec 9) (h : Hdr) (d a b c : BitVec 10) (m : BitVec 2) : Fields where
  op := op
  pneg := if h.pneg then 1 else 0
  psel := h.psel
  d := d
  a := a
  b := b
  c := c
  retain := h.retain
  la := h.la
  ctr := h.ctr
  m := m

/-- A two-bit m field from its flags m<1> and m<0>. -/
def mbits (m1 m0 : Bool) : BitVec 2 := (if m1 then 1 else 0 : BitVec 1) ++ (if m0 then 1 else 0 : BitVec 1)

/-- A modifier word holding a type in bits 2:0. -/
def cTy (t : ITy) : BitVec 10 := (0 : BitVec 7) ++ t.bits

/-- A modifier word holding a rounding code in bits 5:3. -/
def cRnd (r : Rnd) : BitVec 10 := (0 : BitVec 4) ++ r.bits ++ (0 : BitVec 3)

/-- A modifier word holding pm<2> in bit 9, a slot in bits 8:6 and a rounding code in bits 5:3. -/
def cSlot (b9 : BitVec 1) (fs : BitVec 3) (r : BitVec 3) : BitVec 10 := b9 ++ fs ++ r ++ (0 : BitVec 3)

/-- pm<2> in bit 9 of an otherwise empty modifier word. -/
def cPm (pm : BitVec 3) : BitVec 10 := pm.extractLsb' 2 1 ++ (0 : BitVec 9)

/-- A modifier word of a group or atomic operation: op<2>, rounding and type bits. -/
def cOp (x : BitVec 3 × BitVec 3 × BitVec 3) : BitVec 10 :=
  x.1.extractLsb' 2 1 ++ (0 : BitVec 3) ++ x.2.2 ++ x.2.1

def low2 (pm : BitVec 3) : BitVec 2 := pm.extractLsb' 0 2

/-- The fields of an instruction's word, from the entries' encodings; none for the device's other steps. -/
def encodeFields : Instr → Option Fields
  | .iadd h t sat d a b => some (.mk' 0x001 h d.bits a.bits b.bits (cTy t) (mbits false sat))
  | .isub h t sat d a b => some (.mk' 0x002 h d.bits a.bits b.bits (cTy t) (mbits false sat))
  | .iaddc h pk d a b => some (.mk' 0x003 h d.bits a.bits b.bits (cPm pk) (low2 pk))
  | .imul h t sat d a b => some (.mk' 0x004 h d.bits a.bits b.bits (cTy t) (mbits false sat))
  | .imulh h t d a b => some (.mk' 0x005 h d.bits a.bits b.bits (cTy t) 0)
  | .imad h x d a b c => some (.mk' 0x006 h d.bits a.bits b.bits c.bits (mbits false x))
  | .imadw h u d a b c => some (.mk' 0x007 h d.bits a.bits b.bits c.bits (mbits false u))
  | .imin h t d a b => some (.mk' 0x008 h d.bits a.bits b.bits (cTy t) 0)
  | .imax h t d a b => some (.mk' 0x009 h d.bits a.bits b.bits (cTy t) 0)
  | .iabs h t sat d a => some (.mk' 0x00A h d.bits a.bits 0 (cTy t) (mbits false sat))
  | .ineg h t sat d a => some (.mk' 0x00B h d.bits a.bits 0 (cTy t) (mbits false sat))
  | .shl h x d a b => some (.mk' 0x010 h d.bits a.bits b.bits 0 (mbits false x))
  | .shr h x d a b => some (.mk' 0x011 h d.bits a.bits b.bits 0 (mbits false x))
  | .sar h x d a b => some (.mk' 0x012 h d.bits a.bits b.bits 0 (mbits false x))
  | .rotl h d a b => some (.mk' 0x013 h d.bits a.bits b.bits 0 0)
  | .and h x d a b => some (.mk' 0x018 h d.bits a.bits b.bits 0 (mbits false x))
  | .or h x d a b => some (.mk' 0x019 h d.bits a.bits b.bits 0 (mbits false x))
  | .xor h x d a b => some (.mk' 0x01A h d.bits a.bits b.bits 0 (mbits false x))
  | .andn h x d a b => some (.mk' 0x01B h d.bits a.bits b.bits 0 (mbits false x))
  | .not h x d a => some (.mk' 0x01C h d.bits a.bits 0 0 (mbits false x))
  | .lop3 h x fn d a b => some (.mk' 0x01D h d.bits a.bits b.bits ((0 : BitVec 2) ++ fn) (mbits false x))
  | .popc h d a => some (.mk' 0x020 h d.bits a.bits 0 0 0)
  | .clz h d a => some (.mk' 0x021 h d.bits a.bits 0 0 0)
  | .ctz h d a => some (.mk' 0x022 h d.bits a.bits 0 0 0)
  | .brev h d a => some (.mk' 0x023 h d.bits a.bits 0 0 0)
  | .bfx h u d a b => some (.mk' 0x024 h d.bits a.bits b.bits (if u then 6 else 2) 0)
  | .bfi h d a b c => some (.mk' 0x025 h d.bits a.bits b.bits c.bits 0)
  | .bperm h d a b c => some (.mk' 0x026 h d.bits a.bits b.bits c.bits 0)
  | .iset h t cmp pd a b =>
    some (.mk' 0x028 h (bits3 pd) a.bits b.bits (cPm cmp.bits ||| cTy t) (low2 cmp.bits))
  | .sel h pk d a b => some (.mk' 0x029 h d.bits a.bits b.bits (cPm pk) (low2 pk))
  | .mov h x d a => some (.mk' 0x02A h d.bits a.bits 0 0 (mbits false x))
  | .movi h imm d =>
    some (.mk' 0x02B h d.bits (imm.extractLsb' 20 10) (imm.extractLsb' 10 10) (imm.extractLsb' 0 10)
      (imm.extractLsb' 30 2))
  | .pset h op pd pa pb => some (.mk' 0x02C h (bits3 pd) (bits3 pa) (bits3 pb) (cPm op.bits) (low2 op.bits))
  | .pmov h (.get d) => some (.mk' 0x02D h d.bits 0 0 0 0)
  | .pmov h (.set a) => some (.mk' 0x02D h 0 a.bits 0 0 1)
  | .fadd h r d a b => some (.mk' 0x040 h d.bits a.bits b.bits (cRnd r) 0)
  | .fsub h r d a b => some (.mk' 0x041 h d.bits a.bits b.bits (cRnd r) 0)
  | .fmul h r d a b => some (.mk' 0x042 h d.bits a.bits b.bits (cRnd r) 0)
  | .ffma h r d a b c => some (.mk' 0x043 h d.bits a.bits b.bits c.bits r.mbits)
  | .fmin h d a b => some (.mk' 0x044 h d.bits a.bits b.bits 0 0)
  | .fmax h d a b => some (.mk' 0x045 h d.bits a.bits b.bits 0 0)
  | .fset h cmp pd a b => some (.mk' 0x046 h (bits3 pd) a.bits b.bits (cPm cmp.bits) (low2 cmp.bits))
  | .fclass h src d a => some (.mk' 0x047 h d.bits a.bits 0 0 src.bits)
  | .frnd h r e d a => some (.mk' 0x048 h d.bits a.bits 0 (cRnd r) (mbits false e))
  | .frcp h r d a => some (.mk' 0x050 h d.bits a.bits 0 (cRnd r) 0)
  | .frsq h r d a => some (.mk' 0x051 h d.bits a.bits 0 (cRnd r) 0)
  | .fsqrt h r d a => some (.mk' 0x052 h d.bits a.bits 0 (cRnd r) 0)
  | .fdiv h r d a b => some (.mk' 0x053 h d.bits a.bits b.bits (cRnd r) 0)
  | .fex2 h d a => some (.mk' 0x054 h d.bits a.bits 0 0 0)
  | .flg2 h d a => some (.mk' 0x055 h d.bits a.bits 0 0 0)
  | .fsin h d a => some (.mk' 0x056 h d.bits a.bits 0 0 0)
  | .fcos h d a => some (.mk' 0x057 h d.bits a.bits 0 0 0)
  | .ftanh h d a => some (.mk' 0x058 h d.bits a.bits 0 0 0)
  | .hadd2 h bf r d a b => some (.mk' 0x060 h d.bits a.bits b.bits (cRnd r) (mbits false bf))
  | .hmul2 h bf r d a b => some (.mk' 0x061 h d.bits a.bits b.bits (cRnd r) (mbits false bf))
  | .hfma2 h bf rz d a b c => some (.mk' 0x062 h d.bits a.bits b.bits c.bits (mbits rz bf))
  | .dadd h r d a b => some (.mk' 0x080 h d.bits a.bits b.bits (cRnd r) 0)
  | .dmul h r d a b => some (.mk' 0x081 h d.bits a.bits b.bits (cRnd r) 0)
  | .dfma h r d a b c => some (.mk' 0x082 h d.bits a.bits b.bits c.bits r.mbits)
  | .dmin h d a b => some (.mk' 0x083 h d.bits a.bits b.bits 0 0)
  | .dmax h d a b => some (.mk' 0x084 h d.bits a.bits b.bits 0 0)
  | .dset h cmp pd a b => some (.mk' 0x085 h (bits3 pd) a.bits b.bits (cPm cmp.bits) (low2 cmp.bits))
  | .drcp h r d a => some (.mk' 0x086 h d.bits a.bits 0 (cRnd r) 0)
  | .cvt h fs src r d a =>
    some (.mk' 0x0A0 h d.bits a.bits 0 (cSlot (src.bits.extractLsb' 2 1) fs r.bits) (low2 src.bits))
  | .qnt h fs r d a b => some (.mk' 0x0A1 h d.bits a.bits b.bits (cSlot 0 fs r.bits) 0)
  | .dqnt h fs r d a b => some (.mk' 0x0A2 h d.bits a.bits b.bits (cSlot 0 fs r.bits) 0)
  | .pack h fs src r d a => some (.mk' 0x0A3 h d.bits a.bits 0 (cSlot 0 fs r.bits) src.bits)
  | .unpk h fs ti d a => some (.mk' 0x0A4 h d.bits a.bits 0 (cSlot 0 fs 0) (mbits false ti))
  | .gvote h (.all pd) pa => some (.mk' 0x0C0 h (bits3 pd) (bits3 pa) 0 0 0)
  | .gvote h (.any pd) pa => some (.mk' 0x0C0 h (bits3 pd) (bits3 pa) 0 0 1)
  | .gvote h (.uni pd) pa => some (.mk' 0x0C0 h (bits3 pd) (bits3 pa) 0 0 2)
  | .gvote h (.ballot d) pa => some (.mk' 0x0C0 h d.bits (bits3 pa) 0 0 3)
  | .gshfl h mode x d a b => some (.mk' 0x0C1 h d.bits a.bits b.bits (if x then 0x200 else 0) mode.bits)
  | .gred h op d a => some (.mk' 0x0C2 h d.bits a.bits 0 (cOp op.bits) (low2 op.bits.1))
  | .gscan h op e d a =>
    some (.mk' 0x0C3 h d.bits a.bits (if e then 1 else 0) (cOp op.bits) (low2 op.bits.1))
  | .gelect h pk d => some (.mk' 0x0C4 h d.bits (bits3 pk) 0 0 0)
  | .gmatch h x pk d a => some (.mk' 0x0C5 h d.bits a.bits (bits3 pk) 0 (mbits false x))
  | .lds h w off d a => some (.mk' 0x0E0 h d.bits a.bits off w.bits 0)
  | .sts h w mode off s a => some (.mk' 0x0E1 h s.bits a.bits off w.bits mode.bits)
  | .atoms h op d a b => some (.mk' 0x0E2 h d.bits a.bits b.bits (cOp op.bits) (low2 op.bits.1))
  | .cass h x d a b c => some (.mk' 0x0E3 h d.bits a.bits b.bits c.bits (mbits false x))
  | .ldt h w off d a => some (.mk' 0x0E8 h d.bits a.bits off w.bits 0)
  | .stt h w mode off s a => some (.mk' 0x0E9 h s.bits a.bits off w.bits mode.bits)
  | .waitf h tl e off a => some (.mk' 0x0F0 h 0 a.bits off 0 (mbits e tl))
  | .markf h tl off a => some (.mk' 0x0F1 h 0 a.bits off 0 (mbits false tl))
  | .marke h tl off a => some (.mk' 0x0F2 h 0 a.bits off 0 (mbits false tl))
  | .probef h tl pd off a => some (.mk' 0x0F3 h (bits3 pd) a.bits off 0 (mbits false tl))
  | .bar h l n => some (.mk' 0x100 h 0 0 ((0 : BitVec 6) ++ n) 0 l.bits)
  | .bara h l n d => some (.mk' 0x101 h d.bits 0 ((0 : BitVec 6) ++ n) 0 l.bits)
  | .barw h l n a => some (.mk' 0x102 h 0 a.bits ((0 : BitVec 6) ++ n) 0 l.bits)
  | .barq h l n pd a => some (.mk' 0x103 h (bits3 pd) a.bits ((0 : BitVec 6) ++ n) 0 l.bits)
  | .qput h q a => some (.mk' 0x108 h 0 a.bits (bits2 q) 0 0)
  | .qget h q d => some (.mk' 0x109 h d.bits 0 (bits2 q) 0 0)
  | .qpeek h q d => some (.mk' 0x10A h d.bits 0 (bits2 q) 0 0)
  | .mcarm h n => some (.mk' 0x110 h 0 0 (bits2 n) 0 0)
  | .sopen h f a => some (.mk' 0x120 h (bits3 f) a.bits 0 0 0)
  | .sadv h f a => some (.mk' 0x121 h (bits3 f) a.bits 0 0 0)
  | .stend h pd f => some (.mk' 0x122 h (bits3 pd) (bits3 f) 0 0 0)
  | .sclose h f => some (.mk' 0x123 h (bits3 f) 0 0 0 0)
  | .scrd h sel d f => some (.mk' 0x124 h d.bits (bits3 f) 0 0 sel.bits)
  | .sisect h d fa fb => some (.mk' 0x125 h d.bits (bits3 fa) (bits3 fb) 0 0)
  | .sunion h d fa fb => some (.mk' 0x126 h d.bits (bits3 fa) (bits3 fb) 0 0)
  | .cpost h d a => some (.mk' 0x140 h d.bits a.bits 0 0 0)
  | .vgath h d a b c => some (.mk' 0x141 h d.bits a.bits b.bits c.bits 0)
  | .vscat h d a b c => some (.mk' 0x142 h d.bits a.bits b.bits c.bits 0)
  | .vscatr h d a b c => some (.mk' 0x143 h d.bits a.bits b.bits c.bits 0)
  | .ocall h cb a2 d a b c => some (.mk' 0x144 h d.bits a.bits b.bits c.bits (mbits a2 cb))
  | .ocalln h cb a2 d a c => some (.mk' 0x145 h d.bits a.bits 0 c.bits (mbits a2 cb))
  | .cfence h k sc mask d => some (.mk' 0x150 h d.bits ((0 : BitVec 2) ++ mask) (bits2 sc.bits) 0 k.bits)
  | .cwaitt h r d a => some (.mk' 0x151 h d.bits a.bits 0 0 (mbits false r))
  | .cstat h r d a => some (.mk' 0x152 h d.bits a.bits 0 0 (mbits false r))
  | .ccancel h d a => some (.mk' 0x153 h d.bits a.bits 0 0 0)
  | .mpost h fu d a => some (.mk' 0x180 h d.bits a.bits 0 0 fu.bits)
  | .mzero h d a => some (.mk' 0x181 h d.bits a.bits 0 0 0)
  | .mcvt h d a => some (.mk' 0x182 h d.bits a.bits 0 0 0)
  | .bra h off => some (.mk' 0x1A0 h 0 (off.extractLsb' 20 10) (off.extractLsb' 10 10) (off.extractLsb' 0 10) 0)
  | .brx h toff a => some (.mk' 0x1A1 h 0 a.bits (toff.extractLsb' 10 10) (toff.extractLsb' 0 10) 0)
  | .call h off => some (.mk' 0x1A2 h 0 (off.extractLsb' 20 10) (off.extractLsb' 10 10) (off.extractLsb' 0 10) 0)
  | .callx h a => some (.mk' 0x1A3 h 0 a.bits 0 0 0)
  | .ret h => some (.mk' 0x1A4 h 0 0 0 0 0)
  | .exit h => some (.mk' 0x1A5 h 0 0 0 0 0)
  | .trap h code => some (.mk' 0x1A6 h 0 0 code 0 0)
  | .bkpt h code => some (.mk' 0x1A7 h 0 0 code 0 0)
  | .nop h => some (.mk' 0x1A8 h 0 0 0 0 0)
  | .yield h => some (.mk' 0x1A9 h 0 0 0 0 0)
  | .idembeg h eoff a => some (.mk' 0x1AA h (eoff.extractLsb' 10 10) a.bits (eoff.extractLsb' 0 10) 0 0)
  | .idemend h => some (.mk' 0x1AB h 0 0 0 0 0)
  | .mfsr h num d => some (.mk' 0x1C0 h d.bits 0 num 0 0)
  | .mtsr h num a => some (.mk' 0x1C1 h 0 a.bits num 0 0)
  | .rngx h d a b c => some (.mk' 0x1C2 h d.bits a.bits b.bits c.bits 0)
  | .pmark h a => some (.mk' 0x1C3 h 0 a.bits 0 0 0)
  | _ => none

/-- The word of an instruction; the device's other steps have none. -/
def encode (i : Instr) : Option DWord := (encodeFields i).map Fields.join

/-- The nine-bit opcode of an instruction word (Table 04.6). -/
def Instr.opcode (i : Instr) : Option Nat := (encodeFields i).map (·.op.toNat)

end Sys2Proof
end

