-- ==== Sys2Proof/Config.lean ====
section
/-! DEFINITION. What the device fixes (Table 00.1) and the values the manual leaves open. An open value is an
`opaque` constant with no body: nothing can be proved about it beyond its type. -/

namespace Sys2Proof

/-- Which agent takes the machine's next step (R12, R212: nothing orders the agents). A machine word is executed
only by a slice; every other row of spec/opcode_table.json is an event.
(DESIGN CHOICE, log 122) -/
inductive Turn where
  /-- slice `sl` of flat core `core` executes the next word of its bundle -/
  | slice (core sl : Nat)
  /-- the service cores take the oldest host message received whole -/
  | host
  /-- one of the device's other steps -/
  | event (e : Instr)
  deriving DecidableEq, Repr, Inhabited

namespace Config

/-! ### The device's figures (R1, R9, R13-R17) -/

def dies : Nat := 8
def coresPerDie : Nat := 24
def cores : Nat := 192
def slicesPerCore : Nat := 4
def teamSlots : Nat := 16
def groupsPerCore : Nat := 128
def threadsPerCore : Nat := 4096
def groupsPerSlice : Nat := 32
def threadsPerSlice : Nat := 1024
/-- bytes of register file per slice -/
def regBytesPerSlice : Nat := 262144
def scratchPerCore : Nat := 1572864
def tilePerCore : Nat := 786432
/-- unit of scratch and tile-store allocation (R17) -/
def allocUnit : Nat := 4096
def waitEntries : Nat := 256
def tagsPerTeam : Nat := 256
def maxCounter : Nat := 63
/-- retry delay of a thread refused a wait-table entry (R64) -/
def retryCycles : Nat := 16
/-- ages saturate here (R52) -/
def maxAge : Nat := 65535
/-- greedy continuation ends at this age (R50) -/
def ageLimit : Nat := 512
/-- lines of device memory (R13) -/
def lineBytes : Nat := 128
def sectorBytes : Nat := 32
/-- lines that a die's L2 holds: 32 slices of 2 MiB (R1, R13) -/
def l2Lines : Nat := 524288
/-- requests that a core's collector holds (R15) -/
def collectorRequests : Nat := 1024
/-- flits that a link's replay buffer holds (R351) -/
def replayFlits : Nat := 512
/-- populated bytes of a die's 128 GiB window (R20) -/
def populated : Nat := 0x1800000000

/-! ### Free values -/

/-- Which agent moves next when the agenda is empty, by a count of such choices. -/
opaque freeTurn : Nat → Turn

/-- Fields for which the manual gives no content, by what they are and a number of the occasion. -/
opaque freeField : Nat → Nat → BitVec 32

/-- Whether the result before a slice's running word, which stands right after a lookahead window, is still to be
written in a cycle of a core (R83). -/
opaque resultLate : Nat → Nat → Nat → Bool

/-- Whether a team that has been placed on a core, with this order of placement, has no ready thread yet in a cycle
(R338). -/
opaque unready : Nat → Nat → Nat → Bool

/-- Port and stream of an EVENT, by a count of events: the manual names none. -/
opaque eventRoute : Nat → Nat × Nat

/-- The bytes of a packet after its header: the manual gives the header alone (Table 23.3). -/
opaque packetRest : Nat → Nat → List Nat → List Byte

/-- The links of a plane that packets to a target prefer, by plane, target and rank, and the link that a relaxed packet
takes, by plane, target and a count: R358 asks for one route and does not say which.
(DESIGN CHOICE, log 58) -/
opaque freeLink : Nat → Nat → Nat → Nat

/-- The credits that a link's far end gives for a channel (R350), by channel: the manual gives no number. -/
opaque linkCredits : Nat → Nat

/-- The payload of a link-control flit, an ACK or a NAK with an lseq (Table 23.2): the manual gives it no layout. -/
opaque linkControl : Bool → BitVec 12 → List Byte

/-- A latency in nanoseconds, by monitor and a number of the occasion: the model has no clock of the blocks (R396).
(DESIGN CHOICE, log 83) -/
opaque freeLatency : Nat → Nat → BitVec 32

/-- Latencies of the HBM accesses of a stack since the last level sample, by stack and a number of the occasion: the
manual does not say which accesses reach the HBM4. -/
opaque hbmLatencies : Nat → Nat → List (BitVec 32)

/-- The version that a firmware image carries: the manual gives the image no layout.
(DESIGN CHOICE, log 115) -/
opaque firmwareVersion : List Byte → BitVec 32

/-- The part of a firmware image that is signed (R383): the manual gives the image no layout.
(DESIGN CHOICE, log 168) -/
opaque imageSigned : List Byte → List Byte

/-- The HSS signature that a firmware image carries, with the signed lower-level key in it (R383). -/
opaque imageSignature : List Byte → List Byte

/-- The vendor's root public key in the boot ROM (R383). -/
opaque rootKey : List Byte

/-- The configuration that firmware applies, as it is measured (R385), by the spares in use: the manual gives it no
layout. -/
opaque bootConfig : List Nat → List Byte

/-- The HSS signature over some bytes with a one-time key (R386). -/
opaque hssSignature : Nat → List Byte → List Byte

/-- One-time keys of the device's key, an HSS key of two H15 levels (R386). -/
def oneTimeKeys : Nat := 2 ^ 15 * 2 ^ 15

/-- The other devices of the fabric, which the host's fabric configuration names and no message carries.
(DESIGN CHOICE, log 120) -/
opaque fabricDevices : List Nat

/-- The bytes of an object file's symbol table (R109 names the section and gives no layout), from each global symbol's
name, kind of segment and number. -/
opaque symbolTable : List (String × Nat × Nat) → List Byte

/-- The bytes of an object file's relocation section, from each relocated field's section kind, number and offset and its
segment's kind and number. -/
opaque relocationTable : List (Nat × Nat × Nat × Nat × Nat) → List Byte

end Config

end Sys2Proof
end

