-- ==== Sys2Proof/Machine/State.lean ====
section
/-! DEFINITION. Everything the manual gives the machine to hold, as plain data, and the machine after reset. -/

namespace Sys2Proof.Machine

/-- Memory as (address, byte) pairs with rising addresses; an address that is not listed reads zero, so no
entry is zero.
(PRESUMED, log 10) -/
abbrev Memory := List Host.Cell

/-- Why a step stops. -/
inductive Fault where
  /-- Raised by no step of this version: a place that the manual says does not exist was accessed outside
  translation. Safe: it only stops the machine. -/
  | unpopulated
  deriving DecidableEq, Repr

/-- Why an instruction is refused. -/
inductive Refusal where
  /-- Raised by an arm of `exec` whose meaning is not written yet. Safe: no claim about it can be proved. -/
  | notModelled (mnemonic : String)
  deriving DecidableEq, Repr

/-! ### Threads -/

/-- A stream register (R208); `coff` and `voff` are cbase and vbase. -/
structure Stream where
  bound : Bool
  coff : Word
  voff : Word
  len : Word
  pos : Word
  deriving DecidableEq, Repr, Inhabited

/-- An unbound stream register (R208). -/
def Stream.unbound : Stream := ⟨false, 0, 0, 0, 0⟩

/-- Results of a counted instruction that are not written yet (R84): its counter and what it will write. -/
structure Pending where
  ctr : BitVec 3
  regs : List (Nat × Word)
  preds : List (Nat × Bool)
  streams : List (Nat × Stream)
  deriving DecidableEq, Repr, Inhabited

/-- What an idempotent region keeps of its thread (R180). -/
structure Checkpoint where
  entry : DWord
  base : Nat
  mask : BitVec 16
  regs : List (Nat × Word)
  preds : BitVec 7
  stack : List DWord
  fp : BitVec 5
  srstep : Word
  deriving DecidableEq, Repr, Inhabited

/-- What a thread waits for (R63, R64, R61, R58, R59, R55, R223, R321). -/
inductive Wait where
  /-- parked on a line of scratch or tile store through the wait table -/
  | line (tile : Bool) (line : Nat)
  /-- refused a wait-table entry; `left` slice cycles remain -/
  | retry (left : Nat)
  /-- waits on a role queue that is full (`put`) or empty -/
  | queue (put : Bool) (q : Nat)
  /-- waits for a barrier phase; completes in place -/
  | barrier (lvl : BarLevel) (n : Nat) (phase : Word)
  /-- a second arrival: waits for its first phase, then arrives at the next (R59) and goes on to the given issue
  point; `d` is BARA's destination -/
  | rearrive (lvl : BarLevel) (n : Nat) (bara : Bool) (d : Opnd) (ctr : BitVec 3) (npc : DWord) (nidx : Nat)
  /-- arrived at the collective word at index `idx` of `clause` (R55) -/
  | collective (clause : DWord) (idx : Nat) (word : DWord) (active : Bool)
  /-- waits for fence number `id` of its team (R223) -/
  | fence (id : Nat)
  /-- waits for a command to end (R321) -/
  | tag (tag : Nat) (rel : Bool) (d : Opnd) (ctr : BitVec 3)
  deriving DecidableEq, Repr, Inhabited

/-- One thread (Table 02.1). `pc` is its next clause and `widx` the word index of its issue point (R48). -/
structure Thread where
  pc : DWord
  widx : Nat
  depth : Nat
  preds : BitVec 7
  regs : List (Nat × Word)
  pending : List Pending
  fp : BitVec 5
  srstep : Word
  mark : BitVec 16
  ckpt : Option Checkpoint
  streams : List Stream
  exited : Bool
  /-- the resume address of a trapped thread (R325) -/
  trapped : Option DWord
  wait : Option Wait
  /-- its wait ended while its team was halted or saved (R325) -/
  woken : Bool
  age : Nat
  /-- the last post it executed was refused with SPACE_FULL and it has not issued since (Table 26.2) -/
  spaceFull : Bool
  deriving DecidableEq, Repr, Inhabited

/-- A thread at team start (R39). -/
def Thread.start (code : DWord) : Thread where
  pc := code
  widx := 0
  depth := 0
  preds := 0
  regs := []
  pending := []
  fp := 0
  srstep := 0
  mark := 0
  ckpt := none
  streams := List.replicate 8 Stream.unbound
  exited := false
  trapped := none
  wait := none
  woken := false
  age := 0
  spaceFull := false

/-! ### Teams and launches -/

/-- A barrier: the number of its open phase and the members, as (team, thread), that have arrived in it (R58). -/
structure Barrier where
  phase : Word
  arrived : List (Nat × Nat)
  deriving DecidableEq, Repr, Inhabited

/-- A barrier at launch start (R39). -/
def Barrier.start : Barrier := ⟨0, []⟩

/-- The launch record, decoded (Table 02.2, Table 25.5). -/
structure LaunchRec where
  code : DWord
  width : Nat
  roles : Nat
  groups0 : Nat
  groups1 : Nat
  budget0 : Nat
  budget1 : Nat
  x : Nat
  y : Nat
  z : Nat
  cluster : Nat
  scratch : Nat
  tile : Nat
  stack : Nat
  params : List Byte
  slots : List DWord
  depths : List Nat
  /-- two bits per barrier: 0..15 team, 16..19 cluster, 20..21 grid -/
  bars : DWord
  coResident : Bool
  priority : Nat
  idem : Bool
  profile : Word
  haltLaunch : Bool
  key : DWord
  deriving DecidableEq, Repr, Inhabited

/-- Where a team stands (R41): its flat core, its team slot and the slice of each group. -/
structure Place where
  core : Nat
  slot : Nat
  slices : List Nat
  deriving DecidableEq, Repr, Inhabited

/-- A scratch or tile-store allocation: its bytes, the lines that are empty and not claimed, and the claims as
(line, tag) pairs (R191). -/
structure Store where
  bytes : Memory
  empties : List Nat
  claims : List (Nat × Nat)
  deriving DecidableEq, Repr, Inhabited

/-- An allocation at team start: every line is full (R39). -/
def Store.fresh : Store := ⟨[], [], []⟩

/-! ### Commands (R238-R264, R302-R320) -/

/-- A release or an acquire that a command carries (R227). -/
structure Sync where
  scope : Scope
  mask : BitVec 8
  deriving DecidableEq, Repr, Inhabited

/-- A copy, multicast or contribution (Table 16.3). `sslot` and `dslot` are the values of the slots it names and
`esize` an element's bytes where it does not convert. -/
structure CopyDesc where
  op : Nat
  skind : Nat
  dkind : Nat
  cvt : Bool
  sslot : Nat
  dslot : Nat
  esize : Nat
  ranks : Nat
  bufid : Nat
  sbase : Nat
  dbase : Nat
  ext : List Nat
  sstr : List Int
  dstr : List Int
  resid : Nat
  ctag : Nat
  expect : Nat
  cmeth : Nat
  deriving DecidableEq, Repr, Inhabited

/-- The lane forms (R314). -/
inductive LaneForm where
  | gath | scat | scatr | call | calln
  deriving DecidableEq, Repr, Inhabited

/-- What the lanes of a command share: form, element size in bytes, method, local side, pre-combining, and the
context of the launch. -/
structure LaneDesc where
  form : LaneForm
  size : Nat
  method : Nat
  tile : Bool
  comb : Bool
  deriving DecidableEq, Repr, Inhabited

/-- Where a lane stands (R253, R256). -/
inductive LaneSt where
  /-- not issued: the command has not started -/
  | idle
  /-- held in the request collector, by its number of entry -/
  | held (entry : Nat)
  /-- left the collector: its number of entry, the number of the turn in which it left, and the union of the colours that a
  merged read or write carries -/
  | issued (entry batch : Nat) (colours : BitVec 8)
  | parked
  | done
  /-- cancelled before it was performed -/
  | dropped
  deriving DecidableEq, Repr, Inhabited

/-- A lane of a command: home lane, thread, address, local offset or reply slot, arguments and ENQ's payload. -/
structure Lane where
  h : Nat
  t : Nat
  va : Nat
  loc : Nat
  arg0 : DWord
  arg1 : DWord
  payload : List Byte
  st : LaneSt
  deriving DecidableEq, Repr, Inhabited

/-- A matrix operation (Table 16.4); `aslot` and `bslot` are slot values. -/
structure MatDesc where
  fusion : Fusion
  steps : Nat
  aslot : Nat
  bslot : Nat
  abase : Nat
  bbase : Nat
  ascale : Nat
  azp : Nat
  bscale : Nat
  bzp : Nat
  c : List Nat
  deriving DecidableEq, Repr, Inhabited

/-- A tile conversion (Table 16.5); `kstep` is 32, 64 or 128. -/
structure ConvDesc where
  cbase : Nat
  rows : Nat
  cols : Nat
  isInt : Bool
  kstep : Nat
  dslot : Nat
  dbase : Nat
  dscale : Nat
  dzp : Nat
  deriving DecidableEq, Repr, Inhabited

inductive Body where
  | copy (d : CopyDesc)
  | lanes (d : LaneDesc)
  | mat (d : MatDesc)
  | zero (base bytes : Nat)
  | conv (d : ConvDesc)
  deriving DecidableEq, Repr, Inhabited

/-- The states of a tag that holds a command (Table 13.1). -/
inductive CmdSt where
  | waiting | running | done | failed
  deriving DecidableEq, Repr, Inhabited

/-- A fault that a command is parked on (R331): the record's die and number (none while it is deferred), the
faulting address, the range, the lanes that wait for its answer, and an answer received while the team was saved. -/
structure Park where
  die : Nat
  seq : Option Word
  va : Nat
  base : Nat
  size : Nat
  lanes : List Nat
  answer : Option DWord
  deriving DecidableEq, Repr, Inhabited

/-- A command (R238). -/
structure Cmd where
  tag : Nat
  /-- its place in the team order of acceptances -/
  seq : Nat
  st : CmdSt
  status : Nat
  code : Nat
  retired : Bool
  flags : BitVec 5
  foe : Bool
  relaxed : Bool
  colour : Nat
  /-- tags it counts as predecessors or covers by its release, and that have not ended -/
  waits : List Nat
  rel : Option Sync
  acq : Option Sync
  salt : Word
  /-- the posting thread -/
  thread : Nat
  body : Body
  /-- a copy's progress (R251) -/
  n : Nat
  lanes : List Lane
  parks : List Park
  /-- destination lines with the last element that writes to each (R250) -/
  lasts : List (Nat × Nat)
  /-- the REL actions are done; requests produced before this one must be acknowledged (R227, R361) -/
  relUpTo : Option Nat
  /-- how it ends when its issued lanes have been performed: status and code (R248, R333) -/
  ending : Option (Nat × Nat)
  /-- the worst status that a caldera answered (R292) -/
  bad : Nat
  /-- residual values that peers returned for the next unit, by device and DPA -/
  resid : List (LineKey × Nat × List Byte)
  /-- the unit's results are written but for residuals on peers -/
  resWait : Bool
  /-- a 4-bit zero point that shares its byte with the next group's -/
  carry : Nat
  /-- the bytes that a contribution has formed, offset in the area and byte, and the device and DPA of each block they
  lie in, as they were translated (R309) -/
  contrib : List (Nat × Byte)
  areas : List (Nat × Nat × Nat)
  deriving DecidableEq, Repr, Inhabited

/-- A fence that is accepted and incomplete (R223, R319). -/
structure Fence where
  thread : Nat
  seq : Nat
  kind : FenceKind
  scope : Scope
  mask : BitVec 8
  /-- covered commands that have not ended -/
  covers : List Nat
  /-- colours of covered commands that ended FAILED -/
  failed : BitVec 8
  relUpTo : Option Nat
  /-- the generation under which it completes at the earliest: the one begun, if it was accepted during calving (R226) -/
  under : Nat
  d : Opnd
  ctr : BitVec 3
  deriving DecidableEq, Repr, Inhabited

/-- One request to a caldera (Table 15.1). An entry is one lane of a wave. `team` is none for a request from
a peer, which `peer` names: the packet that carried it. -/
structure Request where
  team : Option TeamKey
  tag : Nat
  seq : Nat
  peer : Option Packet
  ctx : Nat
  /-- the core and die that sent it -/
  core : Nat
  key : LineKey
  entries : List CallArg
  /-- for each entry the home lanes it stands for, each with its argument (R258) -/
  homes : List (List (Nat × DWord))
  noReply : Bool
  deriving DecidableEq, Repr, Inhabited

/-- A reply on its way to the requester's slots (R292). -/
structure Landing where
  team : TeamKey
  tag : Nat
  homes : List (Nat × DWord)
  reply : CallReply
  deriving DecidableEq, Repr, Inhabited

/-- A sub-array at work (R265): steps taken, its 64 × 64 accumulators, what each carries within a group, and
how many rows of its block are written (R274). -/
structure SubRun where
  step : Nat
  acc : List Word
  isum : List Int
  /-- of a group whose scale is not finite: 0 nothing yet, 1 and 2 the infinities, 3 NaN -/
  special : List Nat
  rows : Nat
  deriving DecidableEq, Repr, Inhabited

/-- The command that the matrix engine runs, without sub-arrays for a ZERO or a CONVERT (R276, R278, R279). -/
structure MatRun where
  team : TeamKey
  tag : Nat
  subs : List SubRun
  deriving DecidableEq, Repr, Inhabited

/-- A fault record but for its sequence number (Tables 21.2 and 21.3); bytes 24..63 as five 64-bit fields. -/
structure FaultRec where
  type : Nat
  cause : Nat
  answer : Bool
  ctx : Nat
  launch : Nat
  team : Nat
  thread : Nat
  f24 : DWord
  f32 : DWord
  f40 : DWord
  f48 : DWord
  f56 : DWord
  /-- whom the record's number is told to once it is written: of a type-1 record, the parked command's place in its team's
  order of acceptances; of a type-2 record, the trap's in its team's order of traps; no part of the record's bytes -/
  link : Option Nat := none
  deriving DecidableEq, Repr, Inhabited

/-- A team (Table 02.1). `place` is none while the team is saved by pre-emption. -/
structure Team where
  key : TeamKey
  place : Option Place
  threads : List Thread
  scratch : Store
  tile : Store
  bars : List Barrier
  queues : List (List Word)
  /-- the buffer-free signals (R207) -/
  mcast : BitVec 4
  /-- the tags that are not FREE (R238) -/
  cmds : List Cmd
  fences : List Fence
  /-- acceptances so far (R212) -/
  accepted : Nat
  scrinfo : Word
  scrthread : Word
  tileinfo : Word
  tilethread : Word
  /-- halted by a trap (R325) -/
  halted : Bool
  /-- when it was placed last, as a count of placements (R45) -/
  placedAt : Nat
  /-- placed, and its first ready cycle has not come (R338, Table 26.2) -/
  unready : Bool
  /-- step 1 of R336 has been taken -/
  stopping : Bool
  /-- discarded (R340), now: its image is reduced; at least once (Table 26.3) -/
  reduced : Bool
  discarded : Bool
  /-- step 4 of R336: requests produced before this one must be acknowledged -/
  relUpTo : Option Nat
  /-- the number of its context image in device memory while it is saved (R337) -/
  image : Option Nat
  /-- the records of the traps for which it is halted, with their sequence numbers once they are written (Tables 21.2
  and 21.4) -/
  records : List (FaultRec × Option Word)
  /-- traps so far -/
  traps : Nat
  /-- stall-counter banks, 17 per group (R390) -/
  banks : List (List DWord)
  deriving DecidableEq, Repr, Inhabited

/-- An accepted launch. -/
structure Launch where
  num : Nat
  ctx : Nat
  rcd : LaunchRec
  /-- cluster barriers, by cluster number -/
  clusterBars : List (Nat × List Barrier)
  gridBars : List Barrier
  /-- the next team index to place for the first time -/
  nextTeam : Nat
  /-- its host stream and its place in the order of acceptances (R44) -/
  stream : Nat
  order : Nat
  /-- teams that have retired -/
  retired : Nat
  /-- cores that have held a team of the launch (R379, R395) -/
  held : List Nat
  /-- a trap under policy 1 has halted every team of the launch, those that are not placed yet included (R46) -/
  halted : Bool
  /-- what END reports, once the host has ended it (R327) -/
  ended : Bool
  /-- all teams have retired: the release of R379 waits for the requests produced before this one -/
  closing : Option (Option Nat)
  deriving DecidableEq, Repr, Inhabited

/-! ### Slices and cores -/

/-- A running bundle (R48, R49): its clause as fetched, the index of its next word and its members, ascending. -/
structure Bundle where
  team : TeamKey
  addr : DWord
  words : List DWord
  idx : Nat
  threads : List Nat
  /-- the members it started with -/
  all : List Nat
  /-- a thread executed YIELD, or the header's yield bit is set (R50) -/
  yielded : Bool
  deriving DecidableEq, Repr, Inhabited

/-- What a fetch gave (R70): the header's words, or the first byte that could not be fetched. -/
inductive FetchResult where
  | ok (header : DWord) (words : List DWord)
  | fault (byte : DWord)
  deriving DecidableEq, Repr, Inhabited

/-- A clause as fetched for a team (R70). -/
structure Fetched where
  team : TeamKey
  addr : DWord
  result : FetchResult
  deriving DecidableEq, Repr, Inhabited

/-- An issue slice: its running bundle, its previous bundle (team, members, yielded) and its fetched clauses. -/
structure Slice where
  bundle : Option Bundle
  prev : Option (TeamKey × List Nat × Bool)
  fetched : List Fetched
  /-- the (team slot, group) sampled last (R394) -/
  sampled : Option (Nat × Nat)
  /-- the cycle in which it was -/
  sampledIn : Option DWord
  deriving DecidableEq, Repr, Inhabited

/-- A slice after reset. -/
def Slice.reset : Slice := ⟨none, none, [], none, none⟩

/-- A translation held by a TLB (R235): a leaf of a context's table. -/
structure TlbEntry where
  ctx : Nat
  /-- virtual base and size of the page -/
  base : Nat
  size : Nat
  /-- the leaf entry (Table 12.6) -/
  entry : DWord
  deriving DecidableEq, Repr, Inhabited

/-- A write in a core's engine write queue (R220): bytes at a place of a line. -/
structure QueuedWrite where
  key : LineKey
  off : Nat
  bytes : List Byte
  colours : BitVec 8
  relaxed : Bool
  /-- the command that wrote it -/
  writer : Writer
  deriving DecidableEq, Repr, Inhabited

/-- A core: its slices, its cycle counter, its micro-TLB and its engine write queue (R12, R14, R15, R220). -/
structure Core where
  slices : List Slice
  cycle : DWord
  utlb : List TlbEntry
  wq : List QueuedWrite
  /-- the next number of a lane that enters the request collector, or of a turn in which lanes leave it (R256) -/
  entered : Nat
  /-- the running matrix command (R276) -/
  mat : Option MatRun
  deriving DecidableEq, Repr, Inhabited

/-- A core after reset (R12).
(DESIGN CHOICE, log 9) -/
def Core.reset : Core := ⟨List.replicate 4 Slice.reset, 0, [], [], 0, none⟩

/-! ### Dies -/

/-- A sector of a non-home copy (R13, R221): while it is dirty, the command that wrote to it last and the bytes that each
command wrote. -/
structure Sector where
  bytes : List Byte
  dirty : Bool
  writer : Option Writer
  wrote : List (Writer × BitVec 32)
  deriving DecidableEq, Repr, Inhabited

/-- A non-home copy of a line in a die's L2: its colour mask and the sectors held (R22, R221). -/
structure L2Line where
  key : LineKey
  colours : BitVec 8
  sectors : List (Nat × Sector)
  deriving DecidableEq, Repr, Inhabited

/-- A compute die. -/
structure Die where
  /-- non-home copies -/
  l2 : List L2Line
  tlb : List TlbEntry
  /-- base DPA and log2 of the record count of the fault ring (R328) -/
  ringBase : Nat
  ringLog : Nat
  /-- the sequence number of the next record -/
  seq : Word
  /-- records of types 1 and 2 that wait for a free slot (R328) -/
  deferred : List FaultRec
  /-- signals to the service cores of its I/O die that their firmware has not taken (R329) -/
  signals : Nat
  /-- the request buffers of the die's calderas, in order of arrival (R283) -/
  buffer : List Request
  deriving DecidableEq, Repr, Inhabited

/-- A die after reset, with its fault ring at DPA 0. -/
def Die.reset : Die := ⟨[], [], 0, 8, 0, [], 0, []⟩

/-- Compute die d after reset: the firmware places a ring of 2^8 records in the die's own memory (R328).
(DESIGN CHOICE, log 13) -/
def Die.start (d : Nat) : Die := { Die.reset with ringBase := d * 0x2000000000 + 0x17FF000000 }

/-- A context (R28, R382). -/
structure Context where
  num : Nat
  /-- DPA of the level-0 table (R231) -/
  root : Nat
  /-- the pages' peer sets, by number; a set not listed has 64 empty slots (R234) -/
  peers : List (Nat × List (BitVec 16))
  methods : List MethodEntry
  /-- code of the valid methods as the calderas hold it, by index (R293) -/
  code : List (Nat × List DWord)
  /-- the fault-event mask (R382) -/
  mask : Word
  /-- base and log2 capacity of the sample ring (R393) -/
  ring : Option (DWord × Nat)
  deriving DecidableEq, Repr, Inhabited

/-- An EVENT told to the host (R378): its kind, launch and team (0xFFFFFFFF for none) and body (Table 25.8). -/
structure HostEvent where
  code : Nat
  launch : Nat
  team : Nat
  bytes : List Byte
  deriving DecidableEq, Repr, Inhabited

/-! ### The fabric (R347-R373) -/

/-- Why a request to a peer was produced, and what its answer does. -/
inductive Why where
  /-- fills a sector of a die's L2 under these colours for these launches and cores (R221) -/
  | fill (die : Nat) (key : LineKey) (sector : Nat) (colours : BitVec 8) (askers : List (Nat × Nat))
  /-- filled a sector; an acquire or a home operation came first, so that its answer is not kept (R228, R229) -/
  | stale (askers : List (Nat × Nat))
  /-- writes back a sector that a launch's command wrote (R222) -/
  | back (launch : Nat)
  | call (r : Request)
  /-- reads or writes residual bytes at their home (R308); `seq` names the command by its acceptance -/
  | residRead (team : TeamKey) (seq : Nat) (key : LineKey) (off : Nat)
  | residWrite (team : TeamKey) (tag : Nat)
  /-- a contribution piece of the command `seq` that its switch has accepted or not yet (R309) -/
  | piece (team : TeamKey) (seq : Nat) (accepted : Bool)
  /-- zeroes a member's share of a page (R236), for the change of mappings with this number -/
  | zero (map : Nat)
  /-- reads piece `i` of `len` bytes, or writes, for the host operation with this number (R379) -/
  | hostRead (op i len : Nat)
  | hostWrite (op : Nat)
  /-- reads the control line of a ring for this sample, writes the sample's record, or writes a count of a ring's control
  line (R393) -/
  | ringLine (sample : Nat)
  | record (sample : Nat)
  | sample
  deriving DecidableEq, Repr, Inhabited

/-- A request produced and not yet acknowledged (R361): its number, whether it has been sent, and its packet. -/
structure OutPkt where
  id : Nat
  sent : Bool
  why : Why
  pkt : Packet
  deriving DecidableEq, Repr, Inhabited

/-- A path to a peer (R358): the next sequence number, and the number below which every reply has come. -/
structure SendPath where
  target : Nat
  plane : Nat
  next : BitVec 32
  deriving DecidableEq, Repr, Inhabited

/-- A path from a peer (R370): the contiguous mark, the window, what is accepted and waits to be performed, and the
replies it retains. -/
structure RecvPath where
  source : Nat
  plane : Nat
  mark : BitVec 32
  window : BitVec 256
  todo : List Packet
  kept : List Packet
  deriving DecidableEq, Repr, Inhabited

/-- The states of Table 23.5. -/
inductive CalvePhase where
  | normal | suspend | report | retransmit | install
  deriving DecidableEq, Repr, Inhabited

/-- A peer's report on the paths from this device, with its generation (R370). -/
structure Report where
  gen : Nat
  src : Nat
  plane : Nat
  mark : BitVec 32
  window : BitVec 256
  deriving DecidableEq, Repr, Inhabited

/-- A generation that the device has begun (R368): the union of its masks, its base generation and that map (R371). -/
structure Calved where
  gen : Nat
  mask : BitVec 8
  base : Nat
  baseMap : List Nat
  deriving DecidableEq, Repr, Inhabited

/-- A block of a combining entry: its sum as 32-bit values, the first byte's offset and the count (R363). -/
structure CombBlock where
  block : Nat
  first : Nat
  sum : List Word
  count : Nat
  deriving DecidableEq, Repr, Inhabited

/-- A combining entry (R363). -/
structure CombEntry where
  tag : Nat
  target : Nat
  pages : List (Nat × Nat)
  nb : Nat
  cmeth : Nat
  dfmt : Nat
  expect : Nat
  blocks : List CombBlock
  /-- blocks that have been delivered -/
  delivered : List Nat
  deriving DecidableEq, Repr, Inhabited

/-- A plane's switch, as far as the device depends on it: its combining entries, and the tags whose pieces are
forwarded uncombined with the counts forwarded for each block (R365).
(DEDUCED, log 76) -/
structure PlaneSwitch where
  entries : List CombEntry
  loose : List (Nat × List (Nat × Nat))
  deriving DecidableEq, Repr, Inhabited

/-- A flit that waits for a link: its target device, kind, channel and payload. -/
structure WaitFlit where
  target : Nat
  kind : BitVec 2
  vc : BitVec 2
  payload : List Byte
  deriving DecidableEq, Repr, Inhabited

/-- A link (R347-R352). -/
structure Link where
  up : Bool
  /-- lane failures so far, and the link retrains -/
  failed : Nat
  training : Bool
  /-- flits that wait for a credit or for room, oldest first -/
  waiting : List WaitFlit
  /-- for each channel, the flits sent whose credits have not come back -/
  used : List Nat
  /-- sequence number of the next flit, the flits not yet acknowledged with their target devices, those sent again, and the
  link-control flits sent -/
  next : BitVec 12
  replay : List (Nat × Flit)
  resent : List Flit
  ctl : List Flit
  /-- NAKs in a row for one number -/
  nak : Option (BitVec 12 × Nat)
  /-- the number it expects, whether it discards until that comes, and the payload received on each channel -/
  expect : BitVec 12
  skip : Bool
  rx : List (List Byte)
  deriving DecidableEq, Repr, Inhabited

/-- A link after reset.
(DESIGN CHOICE, log 123) -/
def Link.reset : Link := ⟨true, 0, false, [], [0, 0, 0], 0, [], [], [], none, 0, false, [[], [], []]⟩

/-- The device's side of the fabric. -/
structure Fabric where
  gen : Nat
  map : List Nat
  /-- planes held dead -/
  dead : BitVec 8
  phase : CalvePhase
  /-- generations begun, the last first -/
  calved : List Calved
  reports : List Report
  /-- generations and devices whose DONE has come -/
  dones : List (Nat × Nat)
  /-- devices told missing, and those that the host has removed since (R373) -/
  missing : List Nat
  removed : List Nat
  /-- the number of the next request -/
  nextId : Nat
  out : List OutPkt
  sends : List SendPath
  recvs : List RecvPath
  /-- replies and acknowledgements sent, and control messages: calving messages by their kind and arguments -/
  sentReplies : List Packet
  control : List (Nat × List Nat)
  switches : List PlaneSwitch
  /-- pieces that the planes' switches deliver to this device -/
  deliveries : List (Nat × Piece)
  links : List Link
  deriving DecidableEq, Repr, Inhabited

/-- The fabric after reset: the identity map of generation 0 (R356). -/
def Fabric.reset : Fabric where
  gen := 0
  map := [0, 1, 2, 3, 4, 5, 6, 7]
  dead := 0
  phase := .normal
  calved := []
  reports := []
  dones := []
  missing := []
  removed := []
  nextId := 0
  out := []
  sends := []
  recvs := []
  sentReplies := []
  control := []
  switches := List.replicate 8 ⟨[], []⟩
  deliveries := []
  links := List.replicate 32 Link.reset

/-! ### The host side (R374-R387, R396) -/

/-- A frame that waits for the window (R376): stream, message code, more bit and payload. -/
structure HeldFrame where
  stream : Nat
  code : Nat
  more : Bool
  payload : List Byte
  deriving DecidableEq, Repr, Inhabited

/-- A message received in part (R378): stream, code and sequence number of its first frame, and payload. -/
structure PartMsg where
  stream : Nat
  code : Nat
  seq : BitVec 16
  payload : List Byte
  deriving DecidableEq, Repr, Inhabited

/-- A message from the host that waits to be acted on, in the order of its stream (R376). -/
inductive HostMsg where
  /-- a request as the device acts on it -/
  | act (i : Instr)
  /-- a selecting HELLO, whose frame has already started the numbering of its port afresh (R378) -/
  | hello (i : Instr)
  /-- a message that cannot be read: where its answer goes, its code and its payload -/
  | unread (q : Rq) (code : Nat) (payload : List Byte)
  deriving DecidableEq, Repr, Inhabited

/-- A direction pair of a host port (R376). -/
structure Port where
  /-- the number expected next, the number of the next frame sent and the frames not acknowledged, as sent -/
  expect : BitVec 16
  next : BitVec 16
  unacked : List (BitVec 16 × Frame)
  /-- frames beyond the window -/
  queue : List HeldFrame
  /-- every frame put on the wire, oldest first -/
  wire : List Frame
  /-- retransmit timeout in microseconds -/
  timeout : Nat
  /-- frames of another EtherType (R374) -/
  foreign : Nat
  parts : List PartMsg
  deriving DecidableEq, Repr, Inhabited

/-- A host port after reset (R376).
(DESIGN CHOICE, log 17) -/
def Port.reset : Port := ⟨0, 0, [], [], [], 0, 0, []⟩

/-- A monitor (R396). -/
structure Mon where
  count : DWord
  low : Word
  high : Word
  buckets : List Word
  deriving DecidableEq, Repr, Inhabited

/--
(DESIGN CHOICE, log 124) -/
def Mon.reset : Mon := ⟨0, 0xFFFFFFFF, 0, List.replicate 16 0⟩

/-- A spare brought in, or due at the next reset (R387): kind (Table 25.8), die and index. -/
structure Spare where
  kind : Nat
  die : Nat
  index : Nat
  deriving DecidableEq, Repr, Inhabited

/-- Errors of a core since reset (R387). -/
structure CoreErrors where
  core : Nat
  hard : Nat
  soft : Nat
  deriving DecidableEq, Repr, Inhabited

/-- A leaf to install: virtual address, page size and entry. -/
structure LeafReq where
  va : Nat
  size : Nat
  entry : DWord
  deriving DecidableEq, Repr, Inhabited

/-- A range of device memory: its device (none is this one), first DPA and length. -/
structure Range where
  dev : Option Nat
  dpa : Nat
  len : Nat
  deriving DecidableEq, Repr, Inhabited

/-- A change of mappings under way (R236, R237): the request, the places of the old pages (all of the context's when
`whole`), the new leaves, whether they are zeroed, and whether the zeroing has begun. -/
structure Remap where
  num : Nat
  rq : Rq
  code : Nat
  ctx : Nat
  old : List Range
  whole : Bool
  leaves : List LeafReq
  zero : Bool
  zeroing : Bool
  deriving DecidableEq, Repr, Inhabited

/-- A host request whose accesses at peers are not all answered (R379): its response's code and the pieces it reads,
those that have not come being none; they are the response's body, or the code of a method table to install (R293). -/
structure HostOp where
  num : Nat
  rq : Rq
  code : Nat
  parts : List (Option (List Byte))
  install : Option (Nat × List MethodEntry)
  deriving DecidableEq, Repr, Inhabited

/-- How far a sample has come: it waits for earlier ones of its ring, has asked a peer for the ring's control line, or its
record is being written at a peer, `written` having been this. -/
inductive SampleStage where
  | waits
  | asked
  | stores (written : Nat)
  deriving DecidableEq, Repr, Inhabited

/-- A sample whose record is not counted yet (R394): its number, its context and its record. -/
structure SampleJob where
  num : Nat
  ctx : Nat
  record : List Byte
  stage : SampleStage
  deriving DecidableEq, Repr, Inhabited

/-- The firmware's and the service cores' state. -/
structure Service where
  /-- the device runs: power is on and bring-up is complete (R388) -/
  running : Bool
  /-- the boot ROM's loader answers (R384) -/
  loader : Bool
  /-- the host has set the device number -/
  numbered : Bool
  /-- the flash image, and whether its signature verifies -/
  flash : List Byte
  flashOk : Bool
  /-- the image that runs since the last reset -/
  image : List Byte
  /-- the staging area (R384) -/
  staging : Memory
  /-- one-time keys used (R386) -/
  keysUsed : Nat
  /-- service cores retired (R24) -/
  retired : List Nat
  /-- spares in use, and spares to bring in at the next reset (R387) -/
  usedSpares : List Spare
  dueSpares : List Spare
  coreErrors : List CoreErrors
  /-- the next launch number and acceptance order -/
  nextLaunch : Nat
  nextOrder : Nat
  placements : Nat
  /-- the next free 4 KiB frame for page tables -/
  nextFrame : Nat
  remaps : List Remap
  hostOps : List HostOp
  nextMap : Nat
  monitors : List Mon
  /-- the number of the next latency that a monitor takes; the model's own -/
  nextNote : Nat
  /-- the port that carries each stream's messages (R376) -/
  streamPorts : List (Nat × Nat)
  /-- corrected errors by memory kind, causes 3..7 -/
  corrected : List DWord
  /-- contexts whose sample ring takes no more samples (R394) -/
  sampleStop : List Nat
  /-- records were dropped since the previous record of a context's sample ring -/
  sampleDrop : List Nat
  /-- samples on their way to their rings, oldest first (R394) -/
  samples : List SampleJob
  deriving DecidableEq, Repr, Inhabited

/-- The service side after reset.
(DESIGN CHOICE, log 16; DESIGN CHOICE, log 18) -/
def Service.reset : Service where
  running := true
  loader := false
  numbered := false
  flash := []
  flashOk := true
  image := []
  staging := []
  keysUsed := 0
  retired := []
  usedSpares := []
  dueSpares := []
  coreErrors := []
  nextLaunch := 1
  nextOrder := 0
  placements := 0
  nextFrame := 0
  remaps := []
  hostOps := []
  nextMap := 0
  monitors := List.replicate 66 Mon.reset
  nextNote := 0
  streamPorts := []
  corrected := [0, 0, 0, 0, 0]
  sampleStop := []
  sampleDrop := []
  samples := []

/-- The machine. -/
structure State where
  /-- the agents' next steps, first first; the model's own -/
  agenda : List Turn
  /-- how many steps were chosen freely; the model's own -/
  turns : Nat
  /-- the slice that executes; the model's own -/
  focus : Nat × Nat
  mem : Memory
  /-- this device's number (R354) -/
  devno : Nat
  /-- the feature bits that the driver selected (R380) -/
  features : BitVec 256
  contexts : List Context
  launches : List Launch
  teams : List Team
  cores : List Core
  dies : List Die
  /-- locations that hold an uncorrectable error (R342) -/
  errors : List ErrLoc
  /-- the bytes that each engine command has written since to a line of device memory with an error (R298) -/
  rewritten : List ((Nat × Writer) × BitVec 128)
  events : List HostEvent
  /-- tree-event counts by (launch, core) (R395) -/
  tree : List ((Nat × Nat) × Nat)
  /-- requests that have left their collectors or the fabric and are in no caldera yet -/
  transit : List Request
  replies : List Landing
  fabric : Fabric
  ports : List Port
  /-- host messages received whole and not yet acted on -/
  inbox : List HostMsg
  service : Service
  deriving DecidableEq, Repr, Inhabited

/-- The machine right after reset.
(DESIGN CHOICE, log 8; DESIGN CHOICE, log 11; DESIGN CHOICE, log 12) -/
def State.reset : State where
  agenda := []
  turns := 0
  focus := (0, 0)
  mem := []
  devno := 0
  features := 0
  contexts := []
  launches := []
  teams := []
  cores := List.replicate 192 Core.reset
  dies := [Die.start 0, Die.start 1, Die.start 2, Die.start 3, Die.start 4, Die.start 5, Die.start 6, Die.start 7]
  errors := []
  rewritten := []
  events := []
  tree := []
  transit := []
  replies := []
  fabric := Fabric.reset
  ports := [Port.reset, Port.reset]
  inbox := []
  service := Service.reset

end Sys2Proof.Machine
end

