-- ==== Sys2Proof/Machine/Sparse.lean ====
section
/-! DEFINITION. Sparse maps in one canonical form: (key, value) pairs with rising keys and no entry at the default.
Memories and register files are such maps; wider accesses are little-endian (R3). -/

namespace Sys2Proof.Machine

/-- The value at a key; `d` where nothing is listed. -/
def sget {α : Type} (d : α) : List (Nat × α) → Nat → α
  | [], _ => d
  | (k, v) :: r, a => if a = k then v else sget d r a

/-- Sets the value at a key, keeping the form: a default is not listed. -/
def sset {α : Type} [DecidableEq α] (d : α) : List (Nat × α) → Nat → α → List (Nat × α)
  | [], a, v => if v = d then [] else [(a, v)]
  | (k, w) :: r, a, v =>
    if a < k then (if v = d then (k, w) :: r else (a, v) :: (k, w) :: r)
    else if a = k then (if v = d then r else (a, v) :: r)
    else (k, w) :: sset d r a v

/-- The canonical form of a sparse map. -/
abbrev swf {α : Type} (d : α) (l : List (Nat × α)) : Prop :=
  l.Pairwise (fun p q => p.1 < q.1) ∧ ∀ p ∈ l, p.2 ≠ d

/-- The canonical form of a memory: rising addresses, no listed zero. -/
abbrev Memory.wf (m : Memory) : Prop := swf (0 : Byte) m

/-- One byte; an address nothing has written reads zero. -/
def Memory.byte (m : Memory) (a : Nat) : Byte := sget 0 m a

def Memory.setByte (m : Memory) (a : Nat) (x : Byte) : Memory := sset 0 m a x

/-- `n` bytes from `a` upwards. -/
def Memory.read (m : Memory) (a n : Nat) : List Byte := (List.range n).map fun i => m.byte (a + i)

/-- Stores bytes from `a` upwards. -/
def Memory.write (m : Memory) (a : Nat) : List Byte → Memory
  | [] => m
  | x :: xs => Memory.write (m.setByte a x) (a + 1) xs

/-- A little-endian number of `n` bytes at `a` (R3). -/
def Memory.readNat (m : Memory) (a n : Nat) : Nat := leNat (m.read a n)

/-- Stores the low `n` bytes of a number at `a`, little-endian (R3). -/
def Memory.writeNat (m : Memory) (a n x : Nat) : Memory := m.write a (leBytes n x)

/-- Lists zero bytes nowhere in a range: `n` bytes from `a` read zero afterwards. -/
def Memory.clear (m : Memory) (a n : Nat) : Memory := m.filter fun p => !(decide (a ≤ p.1) && decide (p.1 < a + n))

/-- Applies `f` to every element with its position, counted from `n`. -/
def mapFrom {α : Type} (f : Nat → α → α) : Nat → List α → List α
  | _, [] => []
  | n, x :: xs => f n x :: mapFrom f (n + 1) xs

/-- Replaces the value under a key of an association list, or adds it at the end. -/
def aset {κ α : Type} [DecidableEq κ] : List (κ × α) → κ → α → List (κ × α)
  | [], k, v => [(k, v)]
  | (k', w) :: r, k, v => if k' = k then (k, v) :: r else (k', w) :: aset r k v

/-- The value under a key of an association list. -/
def aget? {κ α : Type} [DecidableEq κ] : List (κ × α) → κ → Option α
  | [], _ => none
  | (k', w) :: r, k => if k' = k then some w else aget? r k

/-- Removes the first element that meets a condition, and says which it was. -/
def takeFirst {α : Type} (p : α → Bool) : List α → Option (α × List α)
  | [] => none
  | x :: xs => if p x then some (x, xs) else (takeFirst p xs).map fun r => (r.1, x :: r.2)

end Sys2Proof.Machine
end

