-- ==== Sys2Proof/Machine/Message.lean ====
section
/-! DEFINITION. What the device sends to the host: frames, messages and EVENTs (R375-R378). -/

namespace Sys2Proof.Machine

/-- Payload bytes of a frame at most (Table 25.1). -/
def maxPayload : Nat := 9150

/-- The transport's EtherType (R374). -/
def transportType : BitVec 16 := 0x88B5

/-- A frame (Table 25.1). -/
def mkFrame (h : HeldFrame) (seq ack : BitVec 16) : Frame :=
  ⟨transportType,
   leBytes 1 1 ++ leBytes 1 h.code ++ leBytes 1 (if h.more then 1 else 0) ++ leBytes 1 0 ++ leBytes 2 ack.toNat ++
   leBytes 2 seq.toNat ++ leBytes 2 h.stream ++ leBytes 2 h.payload.length ++ leBytes 4 0 ++ h.payload⟩

/-- Sends held frames while the window of 64 is open (R376). -/
def Port.flush : Nat → Port → Port
  | 0, p => p
  | n + 1, p =>
    match p.queue with
    | [] => p
    | h :: rest =>
      if p.unacked.length < 64 then
        let f := mkFrame h p.next p.expect
        Port.flush n { p with
          next := p.next + 1, unacked := p.unacked ++ [(p.next, f)], wire := p.wire ++ [f], queue := rest }
      else p

/-- Cuts a payload into the frames of one message (R378). -/
def cutMessage (stream code : Nat) : Nat → List Byte → List HeldFrame
  | 0, _ => []
  | n + 1, l =>
    if l.length ≤ maxPayload then [{ stream := stream, code := code, more := false, payload := l }]
    else { stream := stream, code := code, more := true, payload := l.take maxPayload } :: cutMessage stream code n (l.drop maxPayload)

/-- Sends a message on a port. -/
def State.sendMessage (s : State) (port stream code : Nat) (payload : List Byte) : State :=
  { s with ports := s.ports.modify port fun p =>
      let q := p.queue ++ cutMessage stream code (payload.length / maxPayload + 1) payload
      Port.flush q.length { p with queue := q } }

/-- A stream's messages are carried on this port from now on (R376). -/
def State.bindStream (s : State) (stream port : Nat) : State :=
  { s with service := { s.service with streamPorts := aset s.service.streamPorts stream port } }

/-- The port of an EVENT's stream: the one that carries the stream's messages, or a free one (R376). -/
def State.eventPort (s : State) (stream : Nat) : Nat :=
  (aget? s.service.streamPorts stream).getD ((Config.eventRoute s.events.length).1 % 2)

/-- The stream of the next EVENT. -/
def State.eventStream (s : State) : Nat := (Config.eventRoute s.events.length).2 % 1024

/-- Tells the host of an event (R378), on the port that carries its stream (R376).
(DESIGN CHOICE, log 40) -/
def State.emit (s : State) (code launch team : Nat) (body : List Byte) : State :=
  let stream := s.eventStream
  let port := s.eventPort stream
  (({ s with events := s.events ++ [HostEvent.mk code launch team body] }).bindStream stream port).sendMessage port stream 7
    (leBytes 4 0 ++ leBytes 2 code ++ leBytes 2 0 ++ leBytes 4 launch ++ leBytes 4 team ++ body)

/-- No launch or no team, in a field of an event or a record.
(DEDUCED, log 121) -/
def noNumber : Nat := 0xFFFFFFFF

/-- A response (R378): the request's number, a status and the body, in the request's stream. -/
def State.respond (s : State) (q : Rq) (code status : Nat) (body : List Byte) : State :=
  s.sendMessage q.port q.stream code (leBytes 4 q.seq.toNat ++ leBytes 4 status ++ body)

end Sys2Proof.Machine
end

