-- ==== Sys2Proof/Machine/Ops.lean ====
section
/-! DEFINITION. The named places of the machine, fault records and events, and taking a trap and resuming from one
as one shared operation each. -/

namespace Sys2Proof.Machine

/-! ### The launch record's arithmetic (R31, R33, R34, R38) -/

def LaunchRec.groups (r : LaunchRec) : Nat := r.groups0 + r.groups1

def LaunchRec.teams (r : LaunchRec) : Nat := r.x * r.y * r.z

/-- The role of a group (R31). -/
def LaunchRec.roleOf (r : LaunchRec) (g : Nat) : Nat := if g < r.groups0 then 0 else 1

/-- The register budget of a role (R34). -/
def LaunchRec.budget (r : LaunchRec) (role : Nat) : Nat := if role = 0 then r.budget0 else r.budget1

def LaunchRec.threads (r : LaunchRec) : Nat := r.groups * r.width

/-- Group and home lane of thread index t (R31). -/
def LaunchRec.groupOf (r : LaunchRec) (t : Nat) : Nat := t / r.width

def LaunchRec.laneOf (r : LaunchRec) (t : Nat) : Nat := t % r.width

/-- The register budget of a thread. -/
def LaunchRec.budgetOf (r : LaunchRec) (t : Nat) : Nat := r.budget (r.roleOf (r.groupOf t))

/-- Rounds up to the allocation unit (R17). -/
def roundAlloc (n : Nat) : Nat := (n + (Config.allocUnit - 1)) / Config.allocUnit * Config.allocUnit

/-- The scratch allocation of a team: visible bytes and return stacks, rounded up (R38). -/
def LaunchRec.scratchAlloc (r : LaunchRec) : Nat := roundAlloc (r.scratch + r.threads * r.stack)

def LaunchRec.tileAlloc (r : LaunchRec) : Nat := roundAlloc r.tile

/-- Where the return stack of thread t begins (R38). -/
def LaunchRec.stackBase (r : LaunchRec) (t : Nat) : Nat := r.scratch + t * r.stack

/-- Membership code of a barrier: 0 all, 1 role 0, 2 role 1 (R35). -/
def LaunchRec.barMember (r : LaunchRec) (lvl : BarLevel) (n : Nat) : Nat :=
  let i := match lvl with
    | .team => n
    | .clus => 16 + n
    | .grid => 20 + n
  (r.bars.toNat / 4 ^ i) % 4

/-- A thread of the given role is counted by the barrier (R57). -/
def LaunchRec.isMember (r : LaunchRec) (lvl : BarLevel) (n role : Nat) : Bool :=
  match r.barMember lvl n with
  | 0 => true
  | 1 => role == 0
  | 2 => role == 1
  | _ => false

/-! ### Places -/

def State.coreAt (s : State) (c : Nat) : Core := (s.cores[c]?).getD Core.reset

def State.modCore (s : State) (c : Nat) (f : Core → Core) : State := { s with cores := s.cores.modify c f }

def State.sliceAt (s : State) (c l : Nat) : Slice := ((s.coreAt c).slices[l]?).getD Slice.reset

def State.modSlice (s : State) (c l : Nat) (f : Slice → Slice) : State :=
  s.modCore c fun k => { k with slices := k.slices.modify l f }

def State.dieAt (s : State) (d : Nat) : Die := (s.dies[d]?).getD Die.reset

def State.modDie (s : State) (d : Nat) (f : Die → Die) : State := { s with dies := s.dies.modify d f }

def State.team? (s : State) (k : TeamKey) : Option Team := s.teams.find? fun T => T.key == k

def State.modTeam (s : State) (k : TeamKey) (f : Team → Team) : State :=
  { s with teams := s.teams.map fun T => if T.key = k then f T else T }

def State.launch? (s : State) (n : Nat) : Option Launch := s.launches.find? fun L => L.num == n

def State.modLaunch (s : State) (n : Nat) (f : Launch → Launch) : State :=
  { s with launches := s.launches.map fun L => if L.num = n then f L else L }

/-- A thread by its logical identity (R33). -/
def State.thread? (s : State) (k : TeamKey) (t : Nat) : Option Thread :=
  (s.team? k).bind fun T => T.threads[t]?

def Team.modThread (T : Team) (t : Nat) (f : Thread → Thread) : Team := { T with threads := T.threads.modify t f }

/-- Applies `f` to the threads whose indices are listed. -/
def Team.onThreads (T : Team) (ts : List Nat) (f : Nat → Thread → Thread) : Team :=
  { T with threads := mapFrom (fun t th => if t ∈ ts then f t th else th) 0 T.threads }

/-- The flat core and die of a placed team (R11). -/
def Team.core (T : Team) : Nat := (T.place.map (·.core)).getD 0

def dieOf (core : Nat) : Nat := core / Config.coresPerDie

def Team.die (T : Team) : Nat := dieOf T.core

/-- The threads of the team that have not exited. -/
def Team.live (T : Team) : List Nat :=
  (List.range T.threads.length).filter fun t => ((T.threads[t]?).map (fun th => !th.exited)).getD false

/-- What a running word of the focused slice belongs to. -/
structure Cur where
  core : Nat
  sl : Nat
  b : Bundle
  T : Team
  L : Launch
  cycle : DWord
  deriving DecidableEq, Repr

/-- The running bundle of the focused slice with its team and launch. -/
def State.cur? (s : State) : Option Cur :=
  match (s.sliceAt s.focus.1 s.focus.2).bundle with
  | none => none
  | some b =>
    match s.team? b.team, s.launch? b.team.launch with
    | some T, some L => some ⟨s.focus.1, s.focus.2, b, T, L, (s.coreAt s.focus.1).cycle⟩
    | _, _ => none

/-- The word the bundle stands at, its address, and the address of the clause after this one (R67). -/
def Cur.word (c : Cur) : DWord := (c.b.words[c.b.idx]?).getD 0

def Cur.waddr (c : Cur) : DWord := c.b.addr + 8 + 8 * BitVec.ofNat 64 c.b.idx

def Cur.nextClause (c : Cur) : DWord := c.b.addr + 8 + 8 * BitVec.ofNat 64 c.b.words.length

def Cur.thread (c : Cur) (t : Nat) : Thread := (c.T.threads[t]?).getD (Thread.start 0)

/-! ### Monitors (R396) -/

/-- A monitor takes a value: count, minimum, maximum and a saturating bucket. -/
def Mon.note (m : Mon) (v : Word) : Mon where
  count := m.count + 1
  low := if v.toNat < m.low.toNat then v else m.low
  high := if m.high.toNat < v.toNat then v else m.high
  buckets := m.buckets.modify (min 15 (Nat.log2 v.toNat)) fun b => if b = 0xFFFFFFFF then b else b + 1

def State.noteMon (s : State) (i : Nat) (v : Word) : State :=
  { s with service := { s.service with monitors := s.service.monitors.modify i fun m => m.note v } }

/-- A latency is measured by the block's own clock, which is free. -/
def State.noteLatency (s : State) (i : Nat) : State :=
  let s' := s.noteMon i (Config.freeLatency i s.service.nextNote)
  { s' with service := { s'.service with nextNote := s.service.nextNote + 1 } }

/-! ### Waking (R63, R325) -/

/-- Ends a wait. In a team that is halted or saved the thread stays in its wait and is marked.
(DEDUCED, log 24) -/
def Thread.wake (held : Bool) (th : Thread) : Thread :=
  if held then { th with woken := true } else { th with wait := none, woken := false }

/-- Threads of the team may not be woken now: it is halted, or its places have been given up. -/
def Team.asleep (T : Team) : Bool := T.halted || T.place.isNone

/-- Wakes every thread parked on a line (R63, R192). -/
def Team.wakeLine (T : Team) (tile : Bool) (line : Nat) : Team :=
  { T with threads := T.threads.map fun th =>
      if th.wait = some (.line tile line) then th.wake T.asleep else th }

/-- Wakes every thread that waits to put into, or take from, a queue (R61). -/
def Team.wakeQueue (T : Team) (put : Bool) (q : Nat) : Team :=
  { T with threads := T.threads.map fun th =>
      if th.wait = some (.queue put q) then th.wake T.asleep else th }

/-! ### Lines (R191) -/

def Team.store (T : Team) (tile : Bool) : Store := if tile then T.tile else T.scratch

def Team.setStore (T : Team) (tile : Bool) (x : Store) : Team :=
  if tile then { T with tile := x } else { T with scratch := x }

def Store.claimed (x : Store) (line : Nat) : Bool := x.claims.any fun p => p.1 == line

/-- Empty and not claimed. -/
def Store.free (x : Store) (line : Nat) : Bool := !x.claimed line && x.empties.contains line

def Store.full (x : Store) (line : Nat) : Bool := !x.claimed line && !x.empties.contains line

def Store.fill (x : Store) (line : Nat) : Store := { x with empties := x.empties.filter (· ≠ line) }

def Store.drain (x : Store) (line : Nat) : Store :=
  if x.empties.contains line then x else { x with empties := line :: x.empties }

/-- Marks an unclaimed line full and wakes those parked on it (Table 10.1). -/
def Team.markFull (T : Team) (tile : Bool) (line : Nat) : Team :=
  if (T.store tile).free line then (T.setStore tile ((T.store tile).fill line)).wakeLine tile line else T

/-- Marks a full line empty and wakes those parked on it (Table 10.1). -/
def Team.markEmpty (T : Team) (tile : Bool) (line : Nat) : Team :=
  if (T.store tile).full line then (T.setStore tile ((T.store tile).drain line)).wakeLine tile line else T

/-! ### Events and fault records (R328-R330) -/

/-- The 64 bytes of a record (Tables 21.2 and 21.3). -/
def FaultRec.bytes (r : FaultRec) (seq : Word) : List Byte :=
  leBytes 1 r.type ++ leBytes 1 r.cause ++ leBytes 2 (if r.answer then 1 else 0) ++ leBytes 4 seq.toNat ++
  leBytes 4 r.ctx ++ leBytes 4 r.launch ++ leBytes 4 r.team ++ leBytes 4 r.thread ++
  leBytes 8 r.f24.toNat ++ leBytes 8 r.f32.toNat ++ leBytes 8 r.f40.toNat ++ leBytes 8 r.f48.toNat ++
  leBytes 8 r.f56.toNat

/-- Writes bytes of one line at their home (R219). -/
def State.homeWrite (s : State) (dpa : Nat) (bs : List Byte) : State := { s with mem := s.mem.write dpa bs }

/-- Fields of a ring's control line (R329). -/
def State.produced (s : State) (d : Nat) : Nat := s.mem.readNat (s.dieAt d).ringBase 8

def State.consumed (s : State) (d : Nat) : Nat := s.mem.readNat ((s.dieAt d).ringBase + 8) 8

/-- produced - consumed = 2^j (R329). -/
def State.ringFull (s : State) (d : Nat) : Bool :=
  s.produced d == s.consumed d + 2 ^ (s.dieAt d).ringLog

/-- Adds one to a 64-bit count of the control line, at its home (R329). -/
def State.bumpRing (s : State) (d off : Nat) : State :=
  let a := (s.dieAt d).ringBase + off
  s.homeWrite a (leBytes 8 (s.mem.readNat a 8 + 1))

/-- Writes a record whole into the next slot, then advances `produced` and signals the service cores of the die's I/O die
(R328, R329); the host is told of a trap record (R330, Table 25.8).
(DEDUCED, log 39) -/
def State.writeRecord (s : State) (d : Nat) (r : FaultRec) : State :=
  let D := s.dieAt d
  let a := D.ringBase + 128 + 64 * (s.produced d % 2 ^ D.ringLog)
  let s := ((s.homeWrite a (r.bytes D.seq)).bumpRing d 0).modDie d fun D => { D with seq := D.seq + 1, signals := D.signals + 1 }
  if r.type = 2 then s.emit 2 r.launch r.team (r.bytes D.seq) else s

/-- Sends a record to a die's ring: a full ring defers types 1 and 2 and drops the others, which it counts (R328). -/
def State.record (s : State) (d : Nat) (r : FaultRec) : State :=
  if r.type ≤ 2 then
    if s.ringFull d || !(s.dieAt d).deferred.isEmpty then
      s.modDie d fun D => { D with deferred := D.deferred ++ [r] }
    else s.writeRecord d r
  else if s.ringFull d then
    let s := s.bumpRing d 16
    s.emit 3 noNumber noNumber (leBytes 1 d ++ leBytes 7 0 ++ s.mem.read ((s.dieAt d).ringBase + 16) 8)
  else s.writeRecord d r

/-- The number that a record sent to a die's ring now receives at once; none where it is held back (R328). -/
def State.recordSeq (s : State) (d : Nat) : Option Word :=
  if s.ringFull d || !(s.dieAt d).deferred.isEmpty then none else some (s.dieAt d).seq

/-! ### Taking a trap and resuming from it (R324, R325, R327, R142) -/

/-- A trap as the device raises it. -/
structure TrapInfo where
  /-- cause code of Table 21.1 -/
  code : Nat
  clause : DWord
  waddr : DWord
  word : DWord
  /-- where a marked thread resumes -/
  resume : DWord
  /-- bytes 48..55 of the record: the resume address, or the faulting byte for code 0x0A (Table 21.3) -/
  rfield : DWord
  /-- TRAP or BKPT code -/
  sub : Nat
  /-- the thread the record names -/
  first : Nat
  /-- the threads marked trapped -/
  marked : List Nat
  deriving DecidableEq, Repr, Inhabited

/-- The type-2 record of a trap (Tables 21.2 and 21.3). -/
def TrapInfo.record (x : TrapInfo) (k : TeamKey) (ctx : Nat) : FaultRec where
  type := 2
  cause := x.code
  answer := false
  ctx := ctx
  launch := k.launch
  team := k.n
  thread := x.first
  f24 := x.clause
  f32 := x.waddr
  f40 := x.word
  f48 := x.rfield
  f56 := BitVec.ofNat 64 (x.sub + 65536 * x.marked.length)

/-- Marks a thread trapped at its resume address (R325); its next issue point is there. -/
def Thread.trapAt (a : DWord) (th : Thread) : Thread :=
  { th with trapped := some a, pc := a, widx := 0, wait := none, woken := false }

/-- Takes a trap (R325): the threads are marked, the team halts, or under policy 1 the launch, and one record goes to
the die's ring and stands in the team's trap state, with its number if it is written at once (Table 21.4). -/
def State.takeTrap (s : State) (k : TeamKey) (x : TrapInfo) : State :=
  match s.team? k, s.launch? k.launch with
  | some T, some L =>
    let s := s.modTeam k fun T => T.onThreads x.marked fun _ th => th.trapAt x.resume
    let s := if L.rcd.haltLaunch then
        { s with teams := s.teams.map fun T => if T.key.launch = k.launch then { T with halted := true } else T : State }.modLaunch
          k.launch fun L => { L with halted := true }
      else s.modTeam k fun T => { T with halted := true }
    let r := { x.record k L.ctx with link := some T.traps }
    (s.modTeam k fun U => { U with records := U.records ++ [(r, s.recordSeq T.die)], traps := U.traps + 1 }).record T.die r
  | _, _ => s

/-- Resumes a halted team (R327): a trapped thread at its resume address, every other where it stopped; waits that
ended meanwhile are over, and every age is zero. -/
def Team.resume (T : Team) : Team :=
  { T with
    halted := false
    records := []
    threads := T.threads.map fun th =>
      if th.woken then { th with trapped := none, age := 0, wait := none, woken := false }
      else { th with trapped := none, age := 0 } }

/-- Ends the focused slice's bundle; its threads stand where they were put. -/
def State.dropBundle (s : State) : State :=
  s.modSlice s.focus.1 s.focus.2 fun x =>
    match x.bundle with
    | some b => { x with bundle := none, prev := some (b.team, b.all, b.yielded) }
    | none => x

/-- A run-time trap of the running word (R142): the word has no effect for any thread of the bundle, and all of
them are marked. `first` is the lowest thread that traps; `next` says that they resume at the next clause.
(DEDUCED, log 22) -/
def State.runTrap (s : State) (c : Cur) (code first : Nat) (next : Bool) (sub : Nat) : State :=
  let resume := if next then c.nextClause else c.b.addr
  (s.takeTrap c.b.team
    ⟨code, c.b.addr, c.waddr, c.word, resume, resume, sub, first, c.b.threads⟩).dropBundle

end Sys2Proof.Machine
end

