-- ==== Sys2Proof/Machine/Operands.lean ====
section
/-! DEFINITION. Operand fields (R75-R78), the registers, predicates and stream registers each instruction reads and
writes, and how a thread's results are written (R74, R84). -/

namespace Sys2Proof.Machine

/-- What an instruction of one thread may read: its registers and predicates, the special registers as one value
each, the launch's format slots and what stochastic rounding takes (R141). -/
structure Env where
  regs : List (Nat × Word)
  preds : BitVec 7
  special : Nat → Word
  slots : List DWord
  srstep : Word
  /-- E<31:0> of element 0 and E<63:32> (R141) -/
  elem : Word
  team : Word
  /-- sr.seed xor sr.seedhi (R124) -/
  seed : Word

/-- What an instruction of one thread writes. `sr` says that it rounded with SR (R141). -/
structure Out where
  regs : List (Nat × Word)
  preds : List (Nat × Bool)
  flags : BitVec 5
  sr : Bool
  deriving DecidableEq, Repr, Inhabited

/-- No result. -/
def Out.none : Out := ⟨[], [], 0, false⟩

def Env.reg (e : Env) (i : Nat) : Word := sget 0 e.regs i

/-- A predicate code as a source; code 7 reads true (R140). -/
def Env.pred (e : Env) (p : PCode) : Bool := if p = 7 then true else e.preds.getLsbD p.toNat

/-- A 32-bit source (R75). -/
def Env.r32 (e : Env) : Opnd → Word
  | .v i => e.reg i.toNat
  | .k1 i => if i = 0 then 0 else e.special i.toNat

/-- A 64-bit source: a pair, the literal zero, or two special registers (R76, R77). -/
def Env.r64 (e : Env) : Opnd → DWord
  | .v i => e.reg (i.toNat + 1) ++ e.reg i.toNat
  | .k1 i => if i = 0 then 0 else e.special (i.toNat + 1) ++ e.special i.toNat

/-- Register `j` of a quad source; of kind 1 only the literal zero is a quad (R77). -/
def Env.quad (e : Env) (o : Opnd) (j : Nat) : Word :=
  match o with
  | .v i => e.reg (i.toNat + j)
  | .k1 _ => 0

/-- A 128-bit source (R76, R77). -/
def Env.r128 (e : Env) (o : Opnd) : QWord := e.quad o 3 ++ e.quad o 2 ++ e.quad o 1 ++ e.quad o 0

/-- A 32-bit result; the literal zero discards it (R138). -/
def w32 : Opnd → Word → List (Nat × Word)
  | .v i, x => [(i.toNat, x)]
  | .k1 _, _ => []

/-- A 64-bit result (R76). -/
def w64 : Opnd → DWord → List (Nat × Word)
  | .v i, x => [(i.toNat, x.extractLsb' 0 32), (i.toNat + 1, x.extractLsb' 32 32)]
  | .k1 _, _ => []

/-- A 128-bit result, from its four registers (R76). -/
def wquad (d : Opnd) (x0 x1 x2 x3 : Word) : List (Nat × Word) :=
  match d with
  | .v i => [(i.toNat, x0), (i.toNat + 1, x1), (i.toNat + 2, x2), (i.toNat + 3, x3)]
  | .k1 _ => []

def w128 (d : Opnd) (x : QWord) : List (Nat × Word) :=
  wquad d (x.extractLsb' 0 32) (x.extractLsb' 32 32) (x.extractLsb' 64 32) (x.extractLsb' 96 32)

/-- A predicate result; code 7 discards it (R140). -/
def wp (p : PCode) (x : Bool) : List (Nat × Bool) := if p = 7 then [] else [(p.toNat, x)]

/-- A register result and nothing else. -/
def Out.reg (r : List (Nat × Word)) : Out := ⟨r, [], 0, false⟩

/-- A predicate result and nothing else. -/
def Out.pred (p : List (Nat × Bool)) : Out := ⟨[], p, 0, false⟩

/-! ### Integer types (R139) -/

end Sys2Proof.Machine

namespace Sys2Proof

/-- Val(T, x) of the low bits of a 64-bit pattern (R139). -/
def ITy.val (t : ITy) (x : DWord) : Int :=
  let n : Int := (x.toNat % 2 ^ t.width : Nat)
  if t.signed && decide (2 ^ (t.width - 1) ≤ n) then n - 2 ^ t.width else n

/-- Wrap(T, r) (R139). -/
def ITy.wrap (t : ITy) (r : Int) : Int :=
  let n := r % 2 ^ t.width
  if t.signed && decide (2 ^ (t.width - 1) ≤ n) then n - 2 ^ t.width else n

/-- Lo(T) and Hi(T) (R139). -/
def ITy.lo (t : ITy) : Int := if t.signed then -(2 ^ (t.width - 1)) else 0

def ITy.hi (t : ITy) : Int := if t.signed then 2 ^ (t.width - 1) - 1 else 2 ^ t.width - 1

end Sys2Proof

namespace Sys2Proof.Machine

def clampI (lo hi x : Int) : Int := if x < lo then lo else if hi < x then hi else x

/-- The operand of type T: a pair for 64 bits, else one register (R139). -/
def Env.val (e : Env) (t : ITy) (o : Opnd) : Int :=
  if t.width = 64 then t.val (e.r64 o) else t.val ((e.r32 o).setWidth 64)

/-- Write(T, d, r): sign- or zero-extended to 32 bits below 32, a pair for 64 (R139). -/
def wty (t : ITy) (d : Opnd) (r : Int) : List (Nat × Word) :=
  if t.width = 64 then w64 d (BitVec.ofInt 64 r) else w32 d (BitVec.ofInt 32 r)

/-! ### Special registers (Table 04.4) -/

/-- The special registers of thread t; the cycle counter is sampled once for the bundle (R77, R78). -/
def specialReg (L : Launch) (T : Team) (cycle : DWord) (t : Nat) (th : Thread) (i : Nat) : Word :=
  let r := L.rcd
  let n := T.key.n
  let g := r.groupOf t
  let w := BitVec.ofNat 32
  match i with
  | 1 => w (r.laneOf t)
  | 2 => w t
  | 3 => w g
  | 4 => w (r.roleOf g)
  | 5 => w r.width
  | 6 => w th.depth
  | 7 => w r.groups
  | 8 => w (n % r.x)
  | 9 => w (n / r.x % r.y)
  | 10 => w (n / r.x / r.y)
  | 11 => w r.x
  | 12 => w r.y
  | 13 => w r.z
  | 14 => w n
  | 15 => w (n % r.cluster)
  | 16 => w r.cluster
  | 17 => w (n / r.cluster)
  | 18 => w (T.core % Config.coresPerDie)
  | 19 => w T.die
  | 20 => cycle.extractLsb' 0 32
  | 21 => cycle.extractLsb' 32 32
  | 22 => r.key.extractLsb' 0 32
  | 23 => r.key.extractLsb' 32 32
  | 24 => w L.num
  | 25 => w r.scratch
  | 26 => w r.tile
  | 27 => w r.stack
  | 28 => w r.params.length
  | _ => 0

/-- What thread t of the running bundle may read. -/
def Cur.envOf (c : Cur) (t : Nat) (th : Thread) : Env where
  regs := th.regs
  preds := th.preds
  special := specialReg c.L c.T c.cycle t th
  slots := c.L.rcd.slots
  srstep := th.srstep
  elem := BitVec.ofNat 32 (4 * t)
  team := BitVec.ofNat 32 c.T.key.n
  seed := c.L.rcd.key.extractLsb' 0 32 ^^^ c.L.rcd.key.extractLsb' 32 32

def Cur.env (c : Cur) (t : Nat) : Env := c.envOf t (c.thread t)

/-! ### What an instruction reads and writes (R76, R83, R85) -/

/-- Register operands with their widths in registers, predicates and stream registers, read and written. -/
structure Shape where
  srcs : List (Opnd × Nat) := []
  dsts : List (Opnd × Nat) := []
  pr : List PCode := []
  pw : List PCode := []
  sr : List SCode := []
  sw : List SCode := []
  deriving DecidableEq, Repr

end Sys2Proof.Machine

namespace Sys2Proof

/-- Registers of a type's operand. -/
def ITy.regs (t : ITy) : Nat := if t.width = 64 then 2 else 1

end Sys2Proof

namespace Sys2Proof.Machine

def x64w (x : Bool) : Nat := if x then 2 else 1

/-- Registers of a lane mask (R198). -/
def maskRegs (w : Nat) : Nat := w / 32

end Sys2Proof.Machine

namespace Sys2Proof

def MemW.regs : MemW → Nat
  | .ty t => t.regs
  | .b128 => 4

/-- Bytes a load or store moves (R193). -/
def MemW.bytes : MemW → Nat
  | .ty t => t.width / 8
  | .b128 => 16

def AOp.regs : AOp → Nat
  | .int _ t => t.regs
  | .fadd _ => 1

def GOp.regs : GOp → Nat
  | .int _ t => t.regs
  | _ => 1

def CvtSrc.regs : CvtSrc → Nat
  | .fp64 | .s64 | .n64 => 2
  | _ => 1

end Sys2Proof

namespace Sys2Proof.Machine

/-- The fmt field of a format slot (Table 07.2). -/
def slotFmt (slots : List DWord) (fs : BitVec 3) : Nat := ((slots[fs.toNat]?).getD 0).toNat % 32

/-- Bits of an element format (Tables 07.1 and 07.3). -/
def fmtBits : Nat → Nat
  | 0 | 16 | 17 => 32
  | 1 | 2 | 14 | 15 => 16
  | 3 | 18 | 19 => 64
  | 4 | 5 | 7 | 8 | 10 | 11 => 8
  | 6 | 9 | 12 | 13 => 4
  | _ => 0

/-- Registers that PACK writes and UNPK reads: a pair for 16-bit formats (R169, R170). -/
def packRegs (fmt : Nat) : Nat := if fmtBits fmt = 16 then 2 else 1

/-- Every predicate. -/
def allPreds : List PCode := [0, 1, 2, 3, 4, 5, 6]

/-- An instruction of sources `ss`, a destination of width `wd` and nothing else. -/
def Shape.dss (d : Opnd) (wd : Nat) (ss : List (Opnd × Nat)) : Shape := { srcs := ss, dsts := [(d, wd)] }

end Sys2Proof.Machine

namespace Sys2Proof

open Machine

/-- What each instruction word reads and writes; `width` is the launch's W and `slots` its format slots. IDEMBEG reads
p0-p6 into its checkpoint, and the registers that its mask names at run time (R180).
(DEDUCED, log 162) -/
def Instr.shape (width : Nat) (slots : List DWord) : Instr → Shape
  | .iadd _ t _ d a b | .isub _ t _ d a b | .imul _ t _ d a b | .imulh _ t d a b
  | .imin _ t d a b | .imax _ t d a b => .dss d t.regs [(a, t.regs), (b, t.regs)]
  | .iaddc _ pk d a b => { Shape.dss d 1 [(a, 1), (b, 1)] with pr := [pk], pw := [pk] }
  | .imad _ x d a b c => .dss d (x64w x) [(a, x64w x), (b, x64w x), (c, x64w x)]
  | .imadw _ _ d a b c => .dss d 2 [(a, 1), (b, 1), (c, 2)]
  | .iabs _ t _ d a | .ineg _ t _ d a => .dss d t.regs [(a, t.regs)]
  | .shl _ x d a b | .shr _ x d a b | .sar _ x d a b => .dss d (x64w x) [(a, x64w x), (b, 1)]
  | .rotl _ d a b => .dss d 1 [(a, 1), (b, 1)]
  | .and _ x d a b | .or _ x d a b | .xor _ x d a b | .andn _ x d a b =>
    .dss d (x64w x) [(a, x64w x), (b, x64w x)]
  | .not _ x d a | .mov _ x d a => .dss d (x64w x) [(a, x64w x)]
  | .lop3 _ x _ d a b => .dss d (x64w x) [(a, x64w x), (b, x64w x), (d, x64w x)]
  | .popc _ d a | .clz _ d a | .ctz _ d a | .brev _ d a => .dss d 1 [(a, 1)]
  | .bfx _ _ d a b => .dss d 1 [(a, 1), (b, 1)]
  | .bfi _ d a b c | .bperm _ d a b c | .rngx _ d a b c => .dss d 1 [(a, 1), (b, 1), (c, 1)]
  | .iset _ t _ pd a b => { srcs := [(a, t.regs), (b, t.regs)], pw := [pd] }
  | .sel _ pk d a b => { Shape.dss d 1 [(a, 1), (b, 1)] with pr := [pk] }
  | .movi _ _ d => .dss d 1 []
  | .pset _ _ pd pa pb => { pr := [pa, pb], pw := [pd] }
  | .pmov _ (.get d) => { dsts := [(d, 1)], pr := allPreds }
  | .pmov _ (.set a) => { srcs := [(a, 1)], pw := allPreds }
  | .fadd _ _ d a b | .fsub _ _ d a b | .fmul _ _ d a b | .fdiv _ _ d a b
  | .hadd2 _ _ _ d a b | .hmul2 _ _ _ d a b => .dss d 1 [(a, 1), (b, 1)]
  | .ffma _ _ d a b c | .hfma2 _ _ _ d a b c => .dss d 1 [(a, 1), (b, 1), (c, 1)]
  | .fmin _ d a b | .fmax _ d a b => .dss d 1 [(a, 1), (b, 1)]
  | .fset _ _ pd a b => { srcs := [(a, 1), (b, 1)], pw := [pd] }
  | .fclass _ _ d a | .frnd _ _ _ d a | .frcp _ _ d a | .frsq _ _ d a | .fsqrt _ _ d a
  | .fex2 _ d a | .flg2 _ d a | .fsin _ d a | .fcos _ d a | .ftanh _ d a => .dss d 1 [(a, 1)]
  | .dadd _ _ d a b | .dmul _ _ d a b => .dss d 2 [(a, 2), (b, 2)]
  | .dfma _ _ d a b c => .dss d 2 [(a, 2), (b, 2), (c, 2)]
  | .dmin _ d a b | .dmax _ d a b => .dss d 2 [(a, 2), (b, 2)]
  | .dset _ _ pd a b => { srcs := [(a, 2), (b, 2)], pw := [pd] }
  | .drcp _ _ d a => .dss d 2 [(a, 2)]
  | .cvt _ fs src _ d a => .dss d (if fmtBits (slotFmt slots fs) = 64 then 2 else 1) [(a, src.regs)]
  | .qnt _ _ _ d a b => .dss d 1 [(a, 4), (b, 1)]
  | .dqnt _ _ _ d a b => .dss d 4 [(a, 1), (b, 1)]
  | .pack _ fs _ _ d a => .dss d (packRegs (slotFmt slots fs)) [(a, 4)]
  | .unpk _ fs _ d a => .dss d 4 [(a, packRegs (slotFmt slots fs))]
  | .gvote _ (.ballot d) pa => { dsts := [(d, maskRegs width)], pr := [pa] }
  | .gvote _ (.all pd) pa | .gvote _ (.any pd) pa | .gvote _ (.uni pd) pa => { pr := [pa], pw := [pd] }
  | .gshfl _ _ x d a b => .dss d (x64w x) [(a, x64w x), (b, 1)]
  | .gred _ op d a | .gscan _ op _ d a => .dss d op.regs [(a, op.regs)]
  | .gelect _ pk d => { dsts := [(d, 1)], pw := [pk] }
  | .gmatch _ x pk d a => { Shape.dss d (maskRegs width) [(a, x64w x)] with pw := [pk] }
  | .lds _ w _ d a | .ldt _ w _ d a => .dss d w.regs [(a, 1)]
  | .sts _ w _ _ v a | .stt _ w _ _ v a => { srcs := [(v, w.regs), (a, 1)] }
  | .atoms _ op d a b => .dss d op.regs [(a, 1), (b, op.regs)]
  | .cass _ x d a b c => .dss d (x64w x) [(a, 1), (b, x64w x), (c, x64w x)]
  | .waitf _ _ _ _ a | .markf _ _ _ a | .marke _ _ _ a => { srcs := [(a, 1)] }
  | .probef _ _ pd _ a => { srcs := [(a, 1)], pw := [pd] }
  | .bara _ _ _ d => { dsts := [(d, 1)] }
  | .barw _ _ _ a => { srcs := [(a, 1)] }
  | .barq _ _ _ pd a => { srcs := [(a, 1)], pw := [pd] }
  | .qput _ _ a => { srcs := [(a, 1)] }
  | .qget _ _ d | .qpeek _ _ d => { dsts := [(d, 1)] }
  | .sopen _ f a => { srcs := [(a, 4)], sw := [f] }
  | .sadv _ f a => { srcs := [(a, 1)], sr := [f], sw := [f] }
  | .stend _ pd f => { pw := [pd], sr := [f] }
  | .sclose _ f => { sw := [f] }
  | .scrd _ _ d f => { dsts := [(d, 1)], sr := [f] }
  | .sisect _ d fa fb | .sunion _ d fa fb => { dsts := [(d, 4)], sr := [fa, fb], sw := [fa, fb] }
  | .cpost _ d a | .mpost _ _ d a | .mzero _ d a | .mcvt _ d a => .dss d 1 [(a, 1)]
  | .vgath _ d a b c | .vscat _ d a b c | .vscatr _ d a b c => .dss d 1 [(a, 2), (b, 1), (c, 2)]
  | .ocall _ _ a2 d a b c => .dss d 1 [(a, 4), (b, 1), (c, if a2 then 4 else 2)]
  | .ocalln _ _ a2 d a c => .dss d 1 [(a, 4), (c, if a2 then 4 else 2)]
  | .cfence _ _ _ _ d => { dsts := [(d, 1)] }
  | .cwaitt _ _ d a | .cstat _ _ d a | .ccancel _ d a => .dss d 1 [(a, 1)]
  | .brx _ _ a => { srcs := [(a, 1)] }
  | .callx _ a => { srcs := [(a, 2)] }
  | .idembeg _ _ a => { srcs := [(a, 1)], pr := allPreds }
  | .mfsr _ _ d => { dsts := [(d, 1)] }
  | .mtsr _ _ a => { srcs := [(a, 1)] }
  | .pmark _ a => { srcs := [(a, 1)] }
  | _ => {}

end Sys2Proof

namespace Sys2Proof.Machine

/-- The registers that an operand of a width covers (R83). -/
def opndRegs : Opnd × Nat → List Nat
  | (.v i, n) => (List.range n).map (i.toNat + ·)
  | (.k1 _, _) => []

/-- Registers read. -/
def Shape.regsRead (x : Shape) : List Nat := x.srcs.flatMap opndRegs

/-- Registers written. -/
def Shape.regsWritten (x : Shape) : List Nat := x.dsts.flatMap opndRegs

/-- Predicate numbers of a list of codes; code 7 names none. -/
def predNums (l : List PCode) : List Nat := (l.filter (· ≠ 7)).map (·.toNat)

/-! ### Writing results (R74, R84, R85) -/

/-- Sets predicate `i`. -/
def setPred (p : BitVec 7) (i : Nat) (x : Bool) : BitVec 7 :=
  if x then p ||| BitVec.ofNat 7 (2 ^ i) else p &&& ~~~(BitVec.ofNat 7 (2 ^ i))

/-- Writes register results. -/
def writeRegs (m : List (Nat × Word)) (l : List (Nat × Word)) : List (Nat × Word) :=
  l.foldl (fun m p => sset 0 m p.1 p.2) m

/-- Writes predicate results. -/
def writePreds (m : BitVec 7) (l : List (Nat × Bool)) : BitVec 7 := l.foldl (fun m p => setPred m p.1 p.2) m

/-- Writes stream-register results. -/
def writeStreams (m : List Stream) (l : List (Nat × Stream)) : List Stream := l.foldl (fun m p => m.set p.1 p.2) m

/-- Writes register, predicate and stream-register results at once. -/
def Thread.results (th : Thread) (p : Pending) : Thread :=
  { th with
    regs := writeRegs th.regs p.regs
    preds := writePreds th.preds p.preds
    streams := writeStreams th.streams p.streams }

/-- The value of counter kj: its instructions whose results are not all written (R84). -/
def Thread.counter (th : Thread) (j : BitVec 3) : Nat := (th.pending.filter fun p => p.ctr == j).length

/-- Results of an instruction with counter field 0 are written; those of a counted one stay outstanding and count
on its counter (R84, R85).
(DEDUCED, log 7) -/
def Thread.deliver (ctr : BitVec 3) (regs : List (Nat × Word)) (preds : List (Nat × Bool))
    (streams : List (Nat × Stream)) (th : Thread) : Thread :=
  if ctr = 0 then th.results ⟨ctr, regs, preds, streams⟩
  else { th with pending := th.pending ++ [⟨ctr, regs, preds, streams⟩] }

/-- A thread after an instruction with the given results: flags are sticky (R130) and an SR step is counted (R141). -/
def Thread.commit (h : Hdr) (o : Out) (th : Thread) : Thread :=
  (if o.sr then { th with fp := th.fp ||| o.flags, srstep := th.srstep + 1 }
   else { th with fp := th.fp ||| o.flags }).deliver h.ctr o.regs o.preds []

/-- The guard of a thread (R74). -/
def Thread.guard (h : Hdr) (th : Thread) : Bool :=
  if h.psel = 7 then !h.pneg else xor h.pneg (th.preds.getLsbD h.psel.toNat)

end Sys2Proof.Machine
end

