-- ==== Sys2Proof/Machine/Issue.lean ====
section
/-! DEFINITION. One word of a running bundle: what holds it back (R84, R85), how its effect reaches the threads
(R74, R189), parking (R63, R190) and leaving the clause (R49, R172). -/

namespace Sys2Proof.Machine

/-- The clause's word of a thread that is outstanding touches what this instruction reads or writes (R85). -/
def Pending.meets (p : Pending) (regs : List Nat) (preds : List Nat) (streams : List Nat) : Bool :=
  p.regs.any (fun x => regs.contains x.1) || p.preds.any (fun x => preds.contains x.1) ||
  p.streams.any (fun x => streams.contains x.1)

/-- Registers, predicates and stream registers that a word reads or writes, its guard included. -/
def touched (c : Cur) (i : Instr) (h : Hdr) : List Nat × List Nat × List Nat :=
  let x := i.shape c.L.rcd.width c.L.rcd.slots
  (x.regsRead ++ x.regsWritten, predNums (h.psel :: x.pr ++ x.pw), (x.sr ++ x.sw).map (·.toNat))

/-- The word does not issue yet: an outstanding write meets it (R85), or its counter is at 63 for an active thread
(R84).
(DESIGN CHOICE, log 6) -/
def Cur.held (c : Cur) (i : Instr) (h : Hdr) : Bool :=
  let (rs, ps, fs) := touched c i h
  c.b.threads.any fun t =>
    let th := c.thread t
    th.pending.any (fun p => p.meets rs ps fs) ||
    (h.ctr != 0 && th.guard h && decide (Config.maxCounter ≤ th.counter h.ctr))

/-- The members whose guard is true, ascending (R74). -/
def Cur.active (c : Cur) (h : Hdr) : List Nat := c.b.threads.filter fun t => (c.thread t).guard h

/-- The register holding an uncorrectable error that a thread's word reads (R344). -/
def State.regErrorOf (s : State) (c : Cur) (i : Instr) (t : Nat) : Option Nat :=
  (i.shape c.L.rcd.width c.L.rcd.slots).regsRead.find? fun r => s.errors.contains (.reg c.b.team t r)

/-- The first active thread that reads a register holding an uncorrectable error, with that register (R344). -/
def Cur.regError (s : State) (c : Cur) (i : Instr) (h : Hdr) : Option (Nat × Nat) :=
  if s.errors.isEmpty then none
  else (c.active h).findSome? fun t => (s.regErrorOf c i t).map fun r => (t, r)

/-- The record of data that a thread instruction met (R344): causes 5 scratch, 6 tile store, 7 register file. -/
def wordErrorRec (ctx : Nat) (k : TeamKey) (t cause loc : Nat) (waddr clause : DWord) : FaultRec :=
  { type := 4, cause := cause, answer := false, ctx := ctx, launch := k.launch, team := k.n, thread := t
    f24 := BitVec.ofNat 64 loc, f32 := waddr, f40 := clause, f48 := 0, f56 := 0 }

/-- The trap *team error* with its data-error record (R344). -/
def State.teamError (s : State) (c : Cur) (t cause : Nat) (loc : Nat) : State :=
  (s.runTrap c 0x10 t false 0).record c.T.die (wordErrorRec c.L.ctx c.b.team t cause loc c.waddr c.b.addr)

/-- Why a thread of the running word traps. -/
inductive WordStop where
  /-- a trap of the word, its code, and bytes 48..55 of its record (R142) -/
  | trap (code : Nat) (rfield : DWord)
  /-- *team error*, with the cause and the place that its second record names (R344) -/
  | error (cause loc : Nat)
  deriving DecidableEq, Repr

/-- The running word traps for a thread; all threads of the bundle resume at the clause (R142). -/
def State.stopWord (s : State) (c : Cur) (t : Nat) : WordStop → State
  | .trap code rfield =>
    (s.takeTrap c.b.team ⟨code, c.b.addr, c.waddr, c.word, c.b.addr, rfield, 0, t, c.b.threads⟩).dropBundle
  | .error cause loc => s.teamError c t cause loc

/-- Why a thread traps: a register in error that it reads, before a reason `own` of the word.
(DEDUCED, log 23) -/
def State.threadStop (s : State) (c : Cur) (i : Instr) (own : Nat → Option WordStop) (t : Nat) : Option WordStop :=
  if s.errors.isEmpty then own t else ((s.regErrorOf c i t).map fun r => .error 7 r).or (own t)

/-- The lowest active thread that traps, and why (R142). -/
def State.firstStop (s : State) (c : Cur) (i : Instr) (h : Hdr) (own : Nat → Option WordStop) : Option (Nat × WordStop) :=
  (c.active h).findSome? fun t => (s.threadStop c i own t).map fun x => (t, x)

/-- Writing a register anew clears its error (R344). -/
def State.clearRegErrors (s : State) (c : Cur) (i : Instr) (h : Hdr) : State :=
  if s.errors.isEmpty then s
  else
    let ws := (i.shape c.L.rcd.width c.L.rcd.slots).regsWritten
    { s with errors := s.errors.filter fun e =>
        match e with
        | .reg k t r => !(k == c.b.team && ws.contains r && (c.active h).contains t)
        | _ => true }

/-- Adds to the count of a tree event of a launch on a core that holds a team of it (R395).
(DEDUCED, log 33) -/
def State.tally (s : State) (L : Launch) (core ev n : Nat) : State :=
  let m := L.rcd.profile
  if m.getLsbD 18 && (m.toNat / 2 ^ 19) % 32 == ev &&
    s.teams.any (fun T => T.key.launch == L.num && T.place.isSome && T.core == core) then
    { s with tree := aset s.tree (L.num, core) (((aget? s.tree (L.num, core)).getD 0) + n) }
  else s

/-- The issue point at the running word (R48): words are numbered from 1 on, 0 being the header.
(DEDUCED, log 179) -/
def Cur.here (c : Cur) : DWord × Nat := (c.b.addr, c.b.idx + 1)

/-- The issue point after the running word. -/
def Cur.after (c : Cur) : DWord × Nat :=
  if c.b.idx + 1 < c.b.words.length then (c.b.addr, c.b.idx + 2) else (c.nextClause, 0)

/-- Where a thread goes when it parks at the running word: a retried wait resumes at the word itself, one that
completes in place at the next word or, after the last word, at the next clause (R190). -/
def Thread.parkAt (c : Cur) (w : Wait) (inPlace : Bool) (th : Thread) : Thread :=
  let p := if inPlace then c.after else c.here
  { th with wait := some w, woken := false, pc := p.1, widx := p.2 }

/-- The bundle moves past its word. `leave` lists members that parked; `next` gives the next clause of each member
that stays, used when the clause ends (R49, R172). -/
def State.advance (s : State) (c : Cur) (leave : List Nat) (next : Nat → DWord) : State :=
  let s := s.tally c.L c.core 17 c.b.threads.length
  let stay := c.b.threads.filter fun t => !leave.contains t
  if c.b.idx + 1 < c.b.words.length && !stay.isEmpty then
    s.modSlice c.core c.sl fun x => { x with bundle := x.bundle.map fun b => { b with idx := b.idx + 1, threads := stay } }
  else
    (s.modTeam c.b.team fun T => T.onThreads stay fun t th => { th with pc := next t, widx := 0 }).dropBundle

/-- Falls through to the next clause (R67). -/
def State.step1 (s : State) (c : Cur) : State := s.advance c [] fun _ => c.nextClause

/-- An instruction whose effect on a thread depends on that thread alone: every active thread's results are
computed from what it reads (R138, R143). -/
def aluWord (i : Instr) (out : Env → Out) (s : State) : Host.Outcome State Fault Refusal :=
  match i.hdr?, s.cur? with
  | some h, some c =>
    if c.held i h then .next s
    else match Cur.regError s c i h with
      | some (t, r) => .next (s.teamError c t 7 r)
      | none =>
        .next (((s.clearRegErrors c i h).modTeam c.b.team fun T =>
          T.onThreads c.b.threads fun t th =>
            if th.guard h then th.commit h (out (c.envOf t th)) else th).step1 c)
  | _, _ => .next s

/-- Runs a word that reaches beyond its thread: a held word waits; where active threads trap, for a register in error or as
`stop` says, the lowest is named and the word has no effect (R142); else `run` acts. -/
def issueWordOr (i : Instr) (stop : Hdr → Cur → State → Nat → Option WordStop) (run : Hdr → Cur → State → State) (s : State) :
    Host.Outcome State Fault Refusal :=
  match i.hdr?, s.cur? with
  | some h, some c =>
    if c.held i h then .next s
    else match s.firstStop c i h (stop h c s) with
      | some (t, x) => .next (s.stopWord c t x)
      | none => .next (run h c (s.clearRegErrors c i h))
  | _, _ => .next s

/-- As `issueWordOr`, for a word that nothing traps before it acts. -/
def issueWord (i : Instr) (run : Hdr → Cur → State → State) (s : State) : Host.Outcome State Fault Refusal :=
  issueWordOr i (fun _ _ _ _ => none) run s

end Sys2Proof.Machine
end

