-- ==== Sys2Proof/Machine/Flags.lean ====
section
/-! DEFINITION. The exception flags of the FP status word (Table 07.5) and what a rounded operation raises. -/

namespace Sys2Proof.Machine

/-- Table 07.5: bit 0 invalid, 1 division by zero, 2 overflow, 3 underflow, 4 inexact. -/
def fNV : BitVec 5 := 1
def fDZ : BitVec 5 := 2
def fOF : BitVec 5 := 4
def fUF : BitVec 5 := 8
def fNX : BitVec 5 := 16

/-- The flag if the condition holds. -/
def flagIf (f : BitVec 5) (b : Bool) : BitVec 5 := if b then f else 0

/-- NX when inexact, and UF when the exact value is tiny as well (R123, R156). -/
def roundFlags (inexact tiny : Bool) : BitVec 5 := flagIf fNX inexact ||| flagIf fUF (inexact && tiny)

end Sys2Proof.Machine
end

