-- ==== Sys2Proof/Machine/Logic.lean ====
section
/-! DEFINITION. Shifts, logic and bit operations (R147-R151), and the generator RNGX (R186). -/

namespace Sys2Proof.Machine

/-- An operation of two sources of 32 or 64 bits (R148). -/
def logicOut (f32 : Word → Word → Word) (f64 : DWord → DWord → DWord) (x64 : Bool) (d a b : Opnd) (e : Env) : Out :=
  if x64 then .reg (w64 d (f64 (e.r64 a) (e.r64 b))) else .reg (w32 d (f32 (e.r32 a) (e.r32 b)))

/-- A shift by a 32-bit count; a count of the width or more is decided here, not by the shifter (R147). -/
def shiftOut (f32 : Word → Nat → Word) (f64 : DWord → Nat → DWord) (x64 : Bool) (d a b : Opnd) (e : Env) : Out :=
  if x64 then .reg (w64 d (f64 (e.r64 a) (e.r32 b).toNat)) else .reg (w32 d (f32 (e.r32 a) (e.r32 b).toNat))

/-- Left shift; zero from the width on (R147). -/
def shlBits {w : Nat} (x : BitVec w) (n : Nat) : BitVec w := if n < w then x <<< n else 0

/-- Unsigned right shift; zero from the width on (R147). -/
def shrBits {w : Nat} (x : BitVec w) (n : Nat) : BitVec w := if n < w then x >>> n else 0

/-- Signed right shift; all sign bits from the width on (R147). -/
def sarBits {w : Nat} (x : BitVec w) (n : Nat) : BitVec w :=
  if n < w then x.sshiftRight n else if x.msb then BitVec.allOnes w else 0

def outShl := shiftOut shlBits shlBits
def outShr := shiftOut shrBits shrBits
def outSar := shiftOut sarBits sarBits
def outRotl (d a b : Opnd) (e : Env) : Out := .reg (w32 d ((e.r32 a).rotateLeft ((e.r32 b).toNat % 32)))
def outAnd := logicOut (· &&& ·) (· &&& ·)
def outOr := logicOut (· ||| ·) (· ||| ·)
def outXor := logicOut (· ^^^ ·) (· ^^^ ·)
def outAndn := logicOut (fun x y => x &&& ~~~y) (fun x y => x &&& ~~~y)
def outNot (x64 : Bool) (d a : Opnd) (e : Env) : Out := logicOut (fun x _ => ~~~x) (fun x _ => ~~~x) x64 d a a e

/-- Bit i of the result is fn<row>, row = 4 a<i> + 2 b<i> + dold<i> (R148): one term per row. -/
def lop3Bits {w : Nat} (fn : BitVec 8) (a b o : BitVec w) : BitVec w :=
  let row (i : Nat) (x : BitVec w) : BitVec w := if fn.getLsbD i then x else 0
  row 0 (~~~a &&& ~~~b &&& ~~~o) ||| row 1 (~~~a &&& ~~~b &&& o) ||| row 2 (~~~a &&& b &&& ~~~o) |||
  row 3 (~~~a &&& b &&& o) ||| row 4 (a &&& ~~~b &&& ~~~o) ||| row 5 (a &&& ~~~b &&& o) |||
  row 6 (a &&& b &&& ~~~o) ||| row 7 (a &&& b &&& o)

/-- The old destination is the third input (R148). -/
def outLop3 (x64 : Bool) (fn : BitVec 8) (d a b : Opnd) (e : Env) : Out :=
  if x64 then .reg (w64 d (lop3Bits fn (e.r64 a) (e.r64 b) (e.r64 d)))
  else .reg (w32 d (lop3Bits fn (e.r32 a) (e.r32 b) (e.r32 d)))

/-- Number of ones (R149). -/
def popc {w : Nat} (x : BitVec w) : Nat := ((List.range w).filter fun i => x.getLsbD i).length

/-- Zero bits above the highest one (R149). -/
def clz32 (x : Word) : Nat := if x = 0 then 32 else 31 - Nat.log2 x.toNat

/-- Zero bits below the lowest one (R149). -/
def ctz32 (x : Word) : Nat := ((List.range 32).find? fun i => x.getLsbD i).getD 32

def bitOut (f : Word → Word) (d a : Opnd) (e : Env) : Out := .reg (w32 d (f (e.r32 a)))

def outPopc := bitOut fun x => BitVec.ofNat 32 (popc x)
def outClz := bitOut fun x => BitVec.ofNat 32 (clz32 x)
def outCtz := bitOut fun x => BitVec.ofNat 32 (ctz32 x)
def outBrev := bitOut BitVec.reverse

/-- Position and effective length of a bit-field descriptor (R150). -/
def fieldPos (x : Word) : Nat := x.toNat % 32

def fieldLen (x : Word) : Nat := min (x.toNat / 256 % 64) (32 - fieldPos x)

/-- The low `n` bits set. -/
def lowMask (n : Nat) : Word := BitVec.ofNat 32 (2 ^ n - 1)

/-- BFX: the field, extended from its top bit for `.s32` (R150). -/
def bfxBits (uns : Bool) (a x : Word) : Word :=
  let n := fieldLen x
  let f := (a >>> fieldPos x) &&& lowMask n
  if !uns && decide (0 < n) && f.getLsbD (n - 1) then f ||| ~~~lowMask n else f

/-- BFI: the low n bits of a placed at p in b (R150). -/
def bfiBits (a b x : Word) : Word :=
  let m := lowMask (fieldLen x) <<< fieldPos x
  (b &&& ~~~m) ||| ((a <<< fieldPos x) &&& m)

def outBfx (uns : Bool) (d a b : Opnd) (e : Env) : Out := .reg (w32 d (bfxBits uns (e.r32 a) (e.r32 b)))
def outBfi (d a b c : Opnd) (e : Env) : Out := .reg (w32 d (bfiBits (e.r32 a) (e.r32 b) (e.r32 c)))

/-- One byte of BPERM: byte s<2:0> of b:a, or its sign when s<3> is set (R151). -/
def bpermByte (x : DWord) (sel : Nat) : Byte :=
  let y := (x >>> (8 * (sel % 8))).setWidth 8
  if 8 ≤ sel then (if y.msb then 0xFF else 0) else y

def bpermBits (a b c : Word) : Word :=
  let x : DWord := b ++ a
  let y (i : Nat) : Byte := bpermByte x (c.toNat / 16 ^ i % 16)
  y 3 ++ y 2 ++ y 1 ++ y 0

def outBperm (d a b c : Opnd) (e : Env) : Out := .reg (w32 d (bpermBits (e.r32 a) (e.r32 b) (e.r32 c)))

/-- One round of RNGX (R186). -/
def rngRound (x : Word × Word × Word) : Word × Word × Word :=
  let p : DWord := x.1.setWidth 64 * 0xD1B54A33
  (p.extractLsb' 32 32 ^^^ x.2.1 ^^^ x.2.2, p.extractLsb' 0 32, x.2.2 + 0x7F4A7C15)

/-- RNGX of three words (R186). -/
def rngx (a b c : Word) : Word :=
  let y := rngRound (rngRound (rngRound (a, b, c)))
  y.1 ^^^ y.2.1

def outRngx (d a b c : Opnd) (e : Env) : Out := .reg (w32 d (rngx (e.r32 a) (e.r32 b) (e.r32 c)))

def execShl (h : Hdr) (x64 : Bool) (d a b : Opnd) (s : State) : Host.Outcome State Fault Refusal :=
  aluWord (.shl h x64 d a b) (outShl x64 d a b) s

def execShr (h : Hdr) (x64 : Bool) (d a b : Opnd) (s : State) : Host.Outcome State Fault Refusal :=
  aluWord (.shr h x64 d a b) (outShr x64 d a b) s

def execSar (h : Hdr) (x64 : Bool) (d a b : Opnd) (s : State) : Host.Outcome State Fault Refusal :=
  aluWord (.sar h x64 d a b) (outSar x64 d a b) s

def execRotl (h : Hdr) (d a b : Opnd) (s : State) : Host.Outcome State Fault Refusal :=
  aluWord (.rotl h d a b) (outRotl d a b) s

def execAnd (h : Hdr) (x64 : Bool) (d a b : Opnd) (s : State) : Host.Outcome State Fault Refusal :=
  aluWord (.and h x64 d a b) (outAnd x64 d a b) s

def execOr (h : Hdr) (x64 : Bool) (d a b : Opnd) (s : State) : Host.Outcome State Fault Refusal :=
  aluWord (.or h x64 d a b) (outOr x64 d a b) s

def execXor (h : Hdr) (x64 : Bool) (d a b : Opnd) (s : State) : Host.Outcome State Fault Refusal :=
  aluWord (.xor h x64 d a b) (outXor x64 d a b) s

def execAndn (h : Hdr) (x64 : Bool) (d a b : Opnd) (s : State) : Host.Outcome State Fault Refusal :=
  aluWord (.andn h x64 d a b) (outAndn x64 d a b) s

def execNot (h : Hdr) (x64 : Bool) (d a : Opnd) (s : State) : Host.Outcome State Fault Refusal :=
  aluWord (.not h x64 d a) (outNot x64 d a) s

def execLop3 (h : Hdr) (x64 : Bool) (fn : BitVec 8) (d a b : Opnd) (s : State) : Host.Outcome State Fault Refusal :=
  aluWord (.lop3 h x64 fn d a b) (outLop3 x64 fn d a b) s

def execPopc (h : Hdr) (d a : Opnd) (s : State) : Host.Outcome State Fault Refusal :=
  aluWord (.popc h d a) (outPopc d a) s

def execClz (h : Hdr) (d a : Opnd) (s : State) : Host.Outcome State Fault Refusal :=
  aluWord (.clz h d a) (outClz d a) s

def execCtz (h : Hdr) (d a : Opnd) (s : State) : Host.Outcome State Fault Refusal :=
  aluWord (.ctz h d a) (outCtz d a) s

def execBrev (h : Hdr) (d a : Opnd) (s : State) : Host.Outcome State Fault Refusal :=
  aluWord (.brev h d a) (outBrev d a) s

def execBfx (h : Hdr) (uns : Bool) (d a b : Opnd) (s : State) : Host.Outcome State Fault Refusal :=
  aluWord (.bfx h uns d a b) (outBfx uns d a b) s

def execBfi (h : Hdr) (d a b c : Opnd) (s : State) : Host.Outcome State Fault Refusal :=
  aluWord (.bfi h d a b c) (outBfi d a b c) s

def execBperm (h : Hdr) (d a b c : Opnd) (s : State) : Host.Outcome State Fault Refusal :=
  aluWord (.bperm h d a b c) (outBperm d a b c) s

def execRngx (h : Hdr) (d a b c : Opnd) (s : State) : Host.Outcome State Fault Refusal :=
  aluWord (.rngx h d a b c) (outRngx d a b c) s

end Sys2Proof.Machine
end

