-- ==== Sys2Proof/Machine/Num.lean ====
section
/-! DEFINITION. Number formats, exact values and rounding (R112-R116, R123-R125, R157). A finite value is held
exactly as a sign, a natural number and a power of two. A value that no such triple equals (a quotient, a root) is held
by one that lies strictly between the same two candidates of every rounding: enough leading bits and a last bit of 1. -/

namespace Sys2Proof.Machine

/-- An operand or an exact result: a NaN, an infinity or (-1)^neg × m × 2^e. -/
inductive Num where
  | nan (sig : Bool)
  | inf (neg : Bool)
  | fin (neg : Bool) (m : Nat) (e : Int)
  deriving DecidableEq, Repr, Inhabited

/-- How a format ends above its finite values (Table 07.1). -/
inductive TopKind where
  /-- exponent all ones: infinity and NaN -/
  | ieee
  /-- only S.1111.111 is NaN -/
  | e4m3
  /-- no special encodings -/
  | none
  deriving DecidableEq, Repr, Inhabited

/-- A floating format (Table 07.1): exponent and fraction bits; its bias is 2^(ebits-1) - 1. -/
structure FFmt where
  ebits : Nat
  fbits : Nat
  top : TopKind
  deriving DecidableEq, Repr, Inhabited

def fp64 : FFmt := ⟨11, 52, .ieee⟩
def fp32 : FFmt := ⟨8, 23, .ieee⟩
def fp16 : FFmt := ⟨5, 10, .ieee⟩
def bf16 : FFmt := ⟨8, 7, .ieee⟩
def e5m2 : FFmt := ⟨5, 2, .ieee⟩
def e4m3 : FFmt := ⟨4, 3, .e4m3⟩
def e2m1 : FFmt := ⟨2, 1, .none⟩

def FFmt.bias (f : FFmt) : Nat := 2 ^ (f.ebits - 1) - 1

def FFmt.width (f : FFmt) : Nat := 1 + f.ebits + f.fbits

/-- Exponent of the least normal value. -/
def FFmt.emin (f : FFmt) : Int := 1 - (f.bias : Int)

/-- Exponent of the highest binade of finite values. -/
def FFmt.emax (f : FFmt) : Int :=
  match f.top with
  | .ieee => (2 ^ f.ebits - 2 : Nat) - (f.bias : Int)
  | _ => (2 ^ f.ebits - 1 : Nat) - (f.bias : Int)

/-- Significand of the largest finite value: the largest fraction of the top binade, in units of its spacing. -/
def FFmt.maxSig (f : FFmt) : Nat :=
  match f.top with
  | .e4m3 => 2 ^ (f.fbits + 1) - 2
  | _ => 2 ^ (f.fbits + 1) - 1

/-- The largest finite value. -/
def FFmt.max (f : FFmt) (neg : Bool) : Num := .fin neg f.maxSig (f.emax - f.fbits)

/-- The value that bits denote (R113). -/
def FFmt.decode (f : FFmt) (x : Nat) : Num :=
  let neg := x / 2 ^ (f.ebits + f.fbits) % 2 == 1
  let e := x / 2 ^ f.fbits % 2 ^ f.ebits
  let m := x % 2 ^ f.fbits
  let fin : Num := if e = 0 then .fin neg m (f.emin - f.fbits)
    else .fin neg (2 ^ f.fbits + m) ((e : Int) - f.bias - f.fbits)
  match f.top with
  | .ieee =>
    if e = 2 ^ f.ebits - 1 then
      (if m = 0 then .inf neg else .nan (decide (m < 2 ^ (f.fbits - 1))))
    else fin
  | .e4m3 => if e = 15 ∧ m = 7 then .nan false else fin
  | .none => fin

/-- The canonical NaN (R115); formats without one give +0 (R125). -/
def FFmt.canonNaN (f : FFmt) : Nat :=
  match f.top with
  | .ieee => (2 ^ f.ebits - 1) * 2 ^ f.fbits + 2 ^ (f.fbits - 1)
  | .e4m3 => 2 ^ (f.ebits + f.fbits) - 1
  | .none => 0

def FFmt.infBits (f : FFmt) (neg : Bool) : Nat :=
  (if neg then 2 ^ (f.ebits + f.fbits) else 0) + (2 ^ f.ebits - 1) * 2 ^ f.fbits

/-- The bits of a value that lies on the format's grid, within its range. -/
def FFmt.encode (f : FFmt) (x : Num) : Nat :=
  match x with
  | .nan _ => f.canonNaN
  | .inf neg => f.infBits neg
  | .fin neg m e =>
    let sgn := if neg then 2 ^ (f.ebits + f.fbits) else 0
    if m = 0 then sgn
    else
      -- the exponent of the leading bit decides between a normal and a subnormal encoding
      let le : Int := (Nat.log2 m : Int) + e
      let q : Int := (if le < f.emin then f.emin else le) - f.fbits
      let n := if q ≤ e then m * 2 ^ (e - q).toNat else m / 2 ^ (q - e).toNat
      if n < 2 ^ f.fbits then sgn + n
      else sgn + (q + f.fbits + f.bias).toNat * 2 ^ f.fbits + (n - 2 ^ f.fbits)

/-! ### Rounding (R123, R124) -/

/-- A rounding mode; SR carries the comparison value u of R124. -/
inductive RMode where
  | rne | rz | rdn | rup
  | sr (u : Nat)
  deriving DecidableEq, Repr, Inhabited

/-- Rounds the magnitude n + r/d (r < d) of a value of the given sign to a whole number of grid steps (R123). -/
def roundMag (mode : RMode) (neg : Bool) (n r d : Nat) : Nat :=
  if r = 0 then n
  else
    let up : Bool := match mode with
      | .rne => decide (d < 2 * r) || (decide (2 * r = d) && decide (n % 2 = 1))
      | .rz => false
      | .rdn => neg
      | .rup => !neg
      | .sr u =>
        -- for a negative value a is the neighbour of larger magnitude
        if neg then !decide (u < (d - r) * 2 ^ 32 / d) else decide (u < r * 2 ^ 32 / d)
    if up then n + 1 else n

/-- Rounds m × 2^e to a multiple of 2^q; also says whether it was exact. -/
def roundTo (mode : RMode) (neg : Bool) (m : Nat) (e q : Int) : Nat × Bool :=
  if q ≤ e then (m * 2 ^ (e - q).toNat, true)
  else
    let d := 2 ^ (q - e).toNat
    (roundMag mode neg (m / d) (m % d) d, m % d == 0)

/-- A rounded result: sign, multiple of 2^q, inexact, tiny. -/
structure Rounded where
  neg : Bool
  n : Nat
  q : Int
  inexact : Bool
  tiny : Bool
  deriving DecidableEq, Repr

/-- Round(fmt, mode, x) for a non-zero finite x on the grid extended upwards (R123), with its tininess: x is tiny when
its magnitude rounded with unbounded exponent is below the least normal, and a mode rounds the value with its sign.
(DEDUCED, log 167) -/
def FFmt.round (f : FFmt) (mode : RMode) (neg : Bool) (m : Nat) (e : Int) : Rounded :=
  let le : Int := (Nat.log2 m : Int) + e
  let q : Int := (if le < f.emin then f.emin else le) - f.fbits
  let r := roundTo mode neg m e q
  let qu : Int := le - f.fbits
  let ru := (roundTo mode neg m e qu).1
  -- ru × 2^qu < 2^emin
  let tiny := decide ((Nat.log2 ru : Int) + qu < f.emin)
  ⟨neg, r.1, q, !r.2, tiny⟩

/-- The rounded magnitude exceeds the largest finite value. -/
def FFmt.overflows (f : FFmt) (n : Nat) (q : Int) : Bool :=
  -- n × 2^q > maxSig × 2^(emax - fbits); q is at least the top spacing once the value is this large
  let qt : Int := f.emax - f.fbits
  if qt ≤ q then decide (f.maxSig < n * 2 ^ (q - qt).toNat)
  else decide (f.maxSig * 2 ^ (qt - q).toNat < n)

/-- A finished result of an arithmetic instruction: its bits and flags. -/
structure FRes where
  bits : Nat
  flags : BitVec 5
  deriving DecidableEq, Repr, Inhabited

/-- Rounds the exact result of an arithmetic instruction once, with IEEE overflow by direction (R156, R157). -/
def FFmt.finish (f : FFmt) (mode : RMode) (x : Num) : FRes :=
  match x with
  | .nan sig => ⟨f.canonNaN, flagIf fNV sig⟩
  | .inf neg => ⟨f.infBits neg, 0⟩
  | .fin neg m e =>
    if m = 0 then ⟨f.encode x, 0⟩
    else
      let r := f.round mode neg m e
      if f.overflows r.n r.q then
        let toMax := match mode with
          | .rne | .sr _ => false
          | .rz => true
          | .rdn => !neg
          | .rup => neg
        ⟨if toMax then f.encode (f.max neg) else f.infBits neg, fOF ||| fNX⟩
      else ⟨f.encode (.fin neg r.n r.q), roundFlags r.inexact r.tiny⟩

/-! ### Exact arithmetic -/

def Num.isNaN : Num → Bool
  | .nan _ => true
  | _ => false

def Num.isSig : Num → Bool
  | .nan s => s
  | _ => false

def Num.isFin : Num → Bool
  | .fin .. => true
  | _ => false

def Num.neg? : Num → Bool
  | .nan _ => false
  | .inf s => s
  | .fin s _ _ => s

/-- Negation of a value that is not a NaN. -/
def Num.negate : Num → Num
  | .nan s => .nan s
  | .inf s => .inf !s
  | .fin s m e => .fin (!s) m e

def Num.abs : Num → Num
  | .nan s => .nan s
  | .inf _ => .inf false
  | .fin _ m e => .fin false m e

/-- The signed significand of a finite value at exponent q ≤ e. -/
def scaled (neg : Bool) (m : Nat) (e q : Int) : Int :=
  let x : Int := (m * 2 ^ (e - q).toNat : Nat)
  if neg then -x else x

/-- Exact sum of finite values. An exact zero from unequal operands is + except under RDN (R116). -/
def addFin (mode : RMode) (s1 : Bool) (m1 : Nat) (e1 : Int) (s2 : Bool) (m2 : Nat) (e2 : Int) : Num :=
  if m1 = 0 ∧ m2 = 0 then
    .fin (if s1 == s2 then s1 else mode == .rdn) 0 0
  else
    let q := if e1 ≤ e2 then e1 else e2
    let x := scaled s1 m1 e1 q + scaled s2 m2 e2 q
    if x = 0 then .fin (mode == .rdn) 0 0 else .fin (decide (x < 0)) x.natAbs q

/-- Exact a + b. `nan true` marks an invalid operation, whatever NaN the operands hold (R156). -/
def Num.add (mode : RMode) (a b : Num) : Num :=
  if a.isNaN || b.isNaN then .nan (a.isSig || b.isSig)
  else match a, b with
    | .inf s, .inf t => if s == t then .inf s else .nan true
    | .inf s, _ => .inf s
    | _, .inf t => .inf t
    | .fin s1 m1 e1, .fin s2 m2 e2 => addFin mode s1 m1 e1 s2 m2 e2
    | x, _ => x

/-- Exact a − b. -/
def Num.sub (mode : RMode) (a b : Num) : Num := a.add mode b.negate

/-- Exact a × b. -/
def Num.mul (a b : Num) : Num :=
  if a.isNaN || b.isNaN then .nan (a.isSig || b.isSig)
  else match a, b with
    | .fin s1 m1 e1, .fin s2 m2 e2 => .fin (xor s1 s2) (m1 * m2) (e1 + e2)
    | .inf s, .fin t m _ => if m = 0 then .nan true else .inf (xor s t)
    | .fin t m _, .inf s => if m = 0 then .nan true else .inf (xor s t)
    | x, y => .inf (xor x.neg? y.neg?)

/-- Exact a × b + c; 0 × ∞ is invalid even when c is a quiet NaN (R156). -/
def Num.fma (mode : RMode) (a b c : Num) : Num :=
  let p := a.mul b
  if p.isNaN || c.isNaN then .nan (p.isSig || c.isSig) else p.add mode c

/-- A quotient of naturals × 2^e with `bits` leading bits and a last bit of 1 when it is not exact. -/
def divSticky (neg : Bool) (m1 m2 : Nat) (e : Int) (bits : Nat) : Num :=
  let k := bits + Nat.log2 m2 + 1
  let q := m1 * 2 ^ k / m2
  let r := m1 * 2 ^ k % m2
  .fin neg (2 * q + (if r = 0 then 0 else 1)) (e - k - 1)

/-- Bits that decide every rounding of every format: above twice the widest significand with 32 bits of SR. -/
def stickyBits : Nat := 192

/-- a / b with its DZ flag (R162). -/
def Num.div (a b : Num) : Num × BitVec 5 :=
  if a.isNaN || b.isNaN then (.nan (a.isSig || b.isSig), 0)
  else match a, b with
    | .inf _, .inf _ => (.nan true, 0)
    | .inf s, .fin t _ _ => (.inf (xor s t), 0)
    | .fin s _ _, .inf t => (.fin (xor s t) 0 0, 0)
    | .fin s m1 e1, .fin t m2 e2 =>
      if m2 = 0 then (if m1 = 0 then (.nan true, 0) else (.inf (xor s t), fDZ))
      else if m1 = 0 then (.fin (xor s t) 0 0, 0)
      else (divSticky (xor s t) m1 m2 (e1 - e2) stickyBits, 0)
    | x, _ => (x, 0)

/-- The integer square root of y, found bit by bit from bit `k` down. -/
def isqrt (y : Nat) : Nat → Nat → Nat
  | 0, r => r
  | k + 1, r => isqrt y k (if (r + 2 ^ k) * (r + 2 ^ k) ≤ y then r + 2 ^ k else r)

/-- √(m × 2^e) for m > 0, with a last bit of 1 when it is not exact. -/
def sqrtSticky (m : Nat) (e : Int) : Num :=
  -- an even exponent, then enough bits for the integer root
  let x := if e % 2 = 0 then m else 2 * m
  let e' := if e % 2 = 0 then e else e - 1
  let y := x * 4 ^ stickyBits
  let r := isqrt y (Nat.log2 y / 2 + 1) 0
  .fin false (2 * r + (if r * r = y then 0 else 1)) (e' / 2 - stickyBits - 1)

/-- √a (R162). -/
def Num.sqrt (a : Num) : Num :=
  match a with
  | .nan s => .nan s
  | .inf s => if s then .nan true else .inf false
  | .fin s m e => if m = 0 then .fin s 0 0 else if s then .nan true else sqrtSticky m e

/-- 1/√a with its DZ flag (R162). A reciprocal root is exact only for an even power of two; otherwise
1/√(m·2^e) = √(1/(m·2^e)), rooted from a quotient that keeps a last bit of 1. -/
def Num.rsqrt (a : Num) : Num × BitVec 5 :=
  match a with
  | .nan s => (.nan s, 0)
  | .inf s => if s then (.nan true, 0) else (.fin false 0 0, 0)
  | .fin s m e =>
    if m = 0 then (.inf s, fDZ)
    else if s then (.nan true, 0)
    else match divSticky false 1 m (-e) (2 * stickyBits + 64) with
      | .fin _ q e' => (sqrtSticky q e', 0)
      | x => (x, 0)

/-! ### Comparisons -/

/-- a < b for values that are not NaN; −0 equals +0. -/
def Num.lt (a b : Num) : Bool :=
  match a, b with
  | .inf s, .inf t => s && !t
  | .inf s, _ => s
  | _, .inf t => !t
  | .fin s1 m1 e1, .fin s2 m2 e2 =>
    let q := if e1 ≤ e2 then e1 else e2
    decide (scaled s1 m1 e1 q < scaled s2 m2 e2 q)
  | _, _ => false

def Num.eq (a b : Num) : Bool := !a.isNaN && !b.isNaN && !a.lt b && !b.lt a

/-- minimumNumber: −0 is less than +0, one NaN yields the other operand (R158). -/
def Num.minNum (a b : Num) : Num :=
  match a.isNaN, b.isNaN with
  | true, true => .nan false
  | true, false => b
  | false, true => a
  | false, false => if a.lt b then a else if b.lt a then b else if a.neg? then a else b

def Num.maxNum (a b : Num) : Num :=
  match a.isNaN, b.isNaN with
  | true, true => .nan false
  | true, false => b
  | false, true => a
  | false, false => if a.lt b then b else if b.lt a then a else if a.neg? then b else a

/-- A signalling operand sets NV (R158). -/
def sigFlag (a b : Num) : BitVec 5 := flagIf fNV (a.isSig || b.isSig)

/-- FSET's comparison with its flags (R159). -/
def fcmp (c : FCmp) (a b : Num) : Bool × BitVec 5 :=
  let un := a.isNaN || b.isNaN
  let quiet := sigFlag a b
  let loud := flagIf fNV un
  match c with
  | .eq => (!un && a.eq b, quiet)
  | .ne => (un || !a.eq b, quiet)
  | .lt => (!un && a.lt b, loud)
  | .le => (!un && !b.lt a, loud)
  | .gt => (!un && b.lt a, loud)
  | .ge => (!un && !a.lt b, loud)
  | .num => (!un, quiet)
  | .nan => (un, quiet)

/-! ### Rounding modes of instructions (R122, R124, R141) -/

/-- The comparison value of element i under SR (R124, R141).
(DEDUCED, log 32) -/
def Env.srValue (e : Env) (i : Nat) : Nat :=
  (rngx (e.elem + BitVec.ofNat 32 i) e.team (e.seed ^^^ e.srstep)).toNat

/-- The mode of a rounding code 0..4 (Table 07.2 and Table 04.5). -/
def Env.modeOf (e : Env) (code : Nat) (i : Nat) : RMode :=
  match code with
  | 0 => .rne | 1 => .rz | 2 => .rdn | 3 => .rup | _ => .sr (e.srValue i)

/-- The mode of an instruction's element i; code 5 takes the slot's round field (R122). -/
def Env.mode (e : Env) (r : Rnd) (fs : BitVec 3) (i : Nat) : RMode :=
  match r with
  | .rslot => e.modeOf (((e.slots[fs.toNat]?).getD 0).toNat / 4096 % 8) i
  | r => e.modeOf r.bits.toNat i

/-- The instruction rounds with SR (R141). -/
def Env.usesSr (e : Env) (r : Rnd) (fs : BitVec 3) : Bool :=
  match r with
  | .sr => true
  | .rslot => decide (4 ≤ ((e.slots[fs.toNat]?).getD 0).toNat / 4096 % 8)
  | _ => false

end Sys2Proof.Machine
end

