-- ==== Sys2Proof/Machine/Fp32.lean ====
section
/-! DEFINITION. FP32 arithmetic but for the transcendental functions (R156-R162). -/

namespace Sys2Proof.Machine

/-- A 32-bit operand as FP32. -/
def Env.f32 (e : Env) (o : Opnd) : Num := fp32.decode (e.r32 o).toNat

/-- An instruction of one FP32 result: its bits, flags and whether it rounded with SR. -/
def f32Out (e : Env) (rnd : Rnd) (d : Opnd) (x : FRes) : Out :=
  ⟨w32 d (BitVec.ofNat 32 x.bits), [], x.flags, e.usesSr rnd 0⟩

/-- Rounds the exact result of a two-source operation once (R156). -/
def f32Out2 (f : RMode → Num → Num → Num) (rnd : Rnd) (d a b : Opnd) (e : Env) : Out :=
  let mode := e.mode rnd 0 0
  f32Out e rnd d (fp32.finish mode (f mode (e.f32 a) (e.f32 b)))

def outFadd := f32Out2 Num.add
def outFsub := f32Out2 Num.sub
def outFmul := f32Out2 fun _ => Num.mul

def outFfma (rnd : Rnd) (d a b c : Opnd) (e : Env) : Out :=
  let mode := e.mode rnd 0 0
  f32Out e rnd d (fp32.finish mode (Num.fma mode (e.f32 a) (e.f32 b) (e.f32 c)))

/-- FMIN and FMAX return an operand; only a signalling NaN sets a flag (R158). -/
def fMinMax (f : FFmt) (g : Num → Num → Num) (x y : Num) : FRes := ⟨f.encode (g x y), sigFlag x y⟩

def outFmin (d a b : Opnd) (e : Env) : Out := f32Out e .rne d (fMinMax fp32 Num.minNum (e.f32 a) (e.f32 b))
def outFmax (d a b : Opnd) (e : Env) : Out := f32Out e .rne d (fMinMax fp32 Num.maxNum (e.f32 a) (e.f32 b))

def outFset (cmp : FCmp) (pd : PCode) (a b : Opnd) (e : Env) : Out :=
  let r := fcmp cmp (e.f32 a) (e.f32 b)
  ⟨[], wp pd r.1, r.2, false⟩

/-- The class bit of a value (R160). -/
def FFmt.classBit (f : FFmt) (x : Num) : Nat :=
  match x with
  | .nan s => if s then 0 else 1
  | .inf s => if s then 2 else 9
  | .fin s m e =>
    if m = 0 then (if s then 5 else 6)
    else if (Nat.log2 m : Int) + e < f.emin then (if s then 4 else 7)
    else (if s then 3 else 8)

def outFclass (src : ClassSrc) (d a : Opnd) (e : Env) : Out :=
  let x := (e.r32 a).toNat
  let k := match src with
    | .f32 => fp32.classBit (fp32.decode x)
    | .f16 => fp16.classBit (fp16.decode (x % 65536))
    | .bf16 => bf16.classBit (bf16.decode (x % 65536))
  .reg (w32 d (BitVec.ofNat 32 (2 ^ k)))

/-- Rounds to an integral value of the same format, keeping the sign (R161). -/
def FFmt.roundIntegral (f : FFmt) (mode : RMode) (exact : Bool) (x : Num) : FRes :=
  match x with
  | .nan s => ⟨f.canonNaN, flagIf fNV s⟩
  | .inf s => ⟨f.infBits s, 0⟩
  | .fin s m e =>
    let r := roundTo mode s m e 0
    ⟨f.encode (.fin s r.1 0), flagIf fNX (exact && !r.2)⟩

def outFrnd (rnd : Rnd) (exact : Bool) (d a : Opnd) (e : Env) : Out :=
  f32Out e rnd d (fp32.roundIntegral (e.mode rnd 0 0) exact (e.f32 a))

/-- A result with the flags of its special case (R162). -/
def FFmt.finishWith (f : FFmt) (mode : RMode) (x : Num × BitVec 5) : FRes :=
  let r := f.finish mode x.1
  ⟨r.bits, r.flags ||| x.2⟩

/-- The value 1. -/
def Num.one : Num := .fin false 1 0

def outFrcp (rnd : Rnd) (d a : Opnd) (e : Env) : Out :=
  f32Out e rnd d (fp32.finishWith (e.mode rnd 0 0) (Num.one.div (e.f32 a)))

def outFrsq (rnd : Rnd) (d a : Opnd) (e : Env) : Out :=
  f32Out e rnd d (fp32.finishWith (e.mode rnd 0 0) (e.f32 a).rsqrt)

def outFsqrt (rnd : Rnd) (d a : Opnd) (e : Env) : Out :=
  f32Out e rnd d (fp32.finish (e.mode rnd 0 0) (e.f32 a).sqrt)

def outFdiv (rnd : Rnd) (d a b : Opnd) (e : Env) : Out :=
  f32Out e rnd d (fp32.finishWith (e.mode rnd 0 0) ((e.f32 a).div (e.f32 b)))

def execFadd (h : Hdr) (rnd : Rnd) (d a b : Opnd) (s : State) : Host.Outcome State Fault Refusal :=
  aluWord (.fadd h rnd d a b) (outFadd rnd d a b) s

def execFsub (h : Hdr) (rnd : Rnd) (d a b : Opnd) (s : State) : Host.Outcome State Fault Refusal :=
  aluWord (.fsub h rnd d a b) (outFsub rnd d a b) s

def execFmul (h : Hdr) (rnd : Rnd) (d a b : Opnd) (s : State) : Host.Outcome State Fault Refusal :=
  aluWord (.fmul h rnd d a b) (outFmul rnd d a b) s

def execFfma (h : Hdr) (rnd : Rnd) (d a b c : Opnd) (s : State) : Host.Outcome State Fault Refusal :=
  aluWord (.ffma h rnd d a b c) (outFfma rnd d a b c) s

def execFmin (h : Hdr) (d a b : Opnd) (s : State) : Host.Outcome State Fault Refusal :=
  aluWord (.fmin h d a b) (outFmin d a b) s

def execFmax (h : Hdr) (d a b : Opnd) (s : State) : Host.Outcome State Fault Refusal :=
  aluWord (.fmax h d a b) (outFmax d a b) s

def execFset (h : Hdr) (cmp : FCmp) (pd : PCode) (a b : Opnd) (s : State) : Host.Outcome State Fault Refusal :=
  aluWord (.fset h cmp pd a b) (outFset cmp pd a b) s

def execFclass (h : Hdr) (src : ClassSrc) (d a : Opnd) (s : State) : Host.Outcome State Fault Refusal :=
  aluWord (.fclass h src d a) (outFclass src d a) s

def execFrnd (h : Hdr) (rnd : Rnd) (exact : Bool) (d a : Opnd) (s : State) : Host.Outcome State Fault Refusal :=
  aluWord (.frnd h rnd exact d a) (outFrnd rnd exact d a) s

def execFrcp (h : Hdr) (rnd : Rnd) (d a : Opnd) (s : State) : Host.Outcome State Fault Refusal :=
  aluWord (.frcp h rnd d a) (outFrcp rnd d a) s

def execFrsq (h : Hdr) (rnd : Rnd) (d a : Opnd) (s : State) : Host.Outcome State Fault Refusal :=
  aluWord (.frsq h rnd d a) (outFrsq rnd d a) s

def execFsqrt (h : Hdr) (rnd : Rnd) (d a : Opnd) (s : State) : Host.Outcome State Fault Refusal :=
  aluWord (.fsqrt h rnd d a) (outFsqrt rnd d a) s

def execFdiv (h : Hdr) (rnd : Rnd) (d a b : Opnd) (s : State) : Host.Outcome State Fault Refusal :=
  aluWord (.fdiv h rnd d a b) (outFdiv rnd d a b) s

end Sys2Proof.Machine
end

