-- ==== Sys2Proof/Machine/Integer.lean ====
section
/-! DEFINITION. Integer arithmetic (R144-R146). -/

namespace Sys2Proof.Machine

/-- Clamped under `.sat`, else wrapped (R144). -/
def ityFinish (t : ITy) (sat : Bool) (r : Int) : Int := if sat then clampI t.lo t.hi r else t.wrap r

/-- A typed operation of two sources (Table 09.1). -/
def intOut2 (f : Int → Int → Int) (t : ITy) (sat : Bool) (d a b : Opnd) (e : Env) : Out :=
  .reg (wty t d (ityFinish t sat (f (e.val t a) (e.val t b))))

/-- A typed operation of one source (Table 09.1). -/
def intOut1 (f : Int → Int) (t : ITy) (sat : Bool) (d a : Opnd) (e : Env) : Out :=
  .reg (wty t d (ityFinish t sat (f (e.val t a))))

/-- Min and Max (Table 09.1). -/
def minI (x y : Int) : Int := if x ≤ y then x else y

def maxI (x y : Int) : Int := if x ≤ y then y else x

/-- Floor(x × y / 2^w) (Table 09.1). -/
def mulHigh (w : Nat) (x y : Int) : Int := (x * y) / 2 ^ w

def outIadd := intOut2 (· + ·)
def outIsub := intOut2 (· - ·)
def outImul := intOut2 (· * ·)
def outImulh (t : ITy) (d a b : Opnd) (e : Env) : Out :=
  .reg (wty t d (mulHigh t.width (e.val t a) (e.val t b)))
def outImin (t : ITy) (d a b : Opnd) (e : Env) : Out := .reg (wty t d (minI (e.val t a) (e.val t b)))
def outImax (t : ITy) (d a b : Opnd) (e : Env) : Out := .reg (wty t d (maxI (e.val t a) (e.val t b)))
def outIabs := intOut1 fun x => (x.natAbs : Int)
def outIneg := intOut1 fun x => -x

/-- Add with carry through a predicate; code 7 names none (R145). -/
def outIaddc (pk : PCode) (d a b : Opnd) (e : Env) : Out :=
  let ci := if pk ≠ 7 ∧ e.pred pk then 1 else 0
  let s := (e.r32 a).toNat + (e.r32 b).toNat + ci
  ⟨w32 d (BitVec.ofNat 32 s), wp pk (decide (2 ^ 32 ≤ s)), 0, false⟩

/-- a × b + c modulo 2^w (R146). -/
def outImad (x64 : Bool) (d a b c : Opnd) (e : Env) : Out :=
  if x64 then .reg (w64 d (e.r64 a * e.r64 b + e.r64 c))
  else .reg (w32 d (e.r32 a * e.r32 b + e.r32 c))

/-- The 64-bit product of two 32-bit values plus a 64-bit pattern (R146). -/
def outImadw (uns : Bool) (d a b c : Opnd) (e : Env) : Out :=
  let t : ITy := if uns then .n32 else .s32
  .reg (w64 d (BitVec.ofInt 64 (e.val t a * e.val t b + (e.r64 c).toNat)))

def execIadd (h : Hdr) (t : ITy) (sat : Bool) (d a b : Opnd) (s : State) : Host.Outcome State Fault Refusal :=
  aluWord (.iadd h t sat d a b) (outIadd t sat d a b) s

def execIsub (h : Hdr) (t : ITy) (sat : Bool) (d a b : Opnd) (s : State) : Host.Outcome State Fault Refusal :=
  aluWord (.isub h t sat d a b) (outIsub t sat d a b) s

def execIaddc (h : Hdr) (pk : PCode) (d a b : Opnd) (s : State) : Host.Outcome State Fault Refusal :=
  aluWord (.iaddc h pk d a b) (outIaddc pk d a b) s

def execImul (h : Hdr) (t : ITy) (sat : Bool) (d a b : Opnd) (s : State) : Host.Outcome State Fault Refusal :=
  aluWord (.imul h t sat d a b) (outImul t sat d a b) s

def execImulh (h : Hdr) (t : ITy) (d a b : Opnd) (s : State) : Host.Outcome State Fault Refusal :=
  aluWord (.imulh h t d a b) (outImulh t d a b) s

def execImad (h : Hdr) (x64 : Bool) (d a b c : Opnd) (s : State) : Host.Outcome State Fault Refusal :=
  aluWord (.imad h x64 d a b c) (outImad x64 d a b c) s

def execImadw (h : Hdr) (uns : Bool) (d a b c : Opnd) (s : State) : Host.Outcome State Fault Refusal :=
  aluWord (.imadw h uns d a b c) (outImadw uns d a b c) s

def execImin (h : Hdr) (t : ITy) (d a b : Opnd) (s : State) : Host.Outcome State Fault Refusal :=
  aluWord (.imin h t d a b) (outImin t d a b) s

def execImax (h : Hdr) (t : ITy) (d a b : Opnd) (s : State) : Host.Outcome State Fault Refusal :=
  aluWord (.imax h t d a b) (outImax t d a b) s

def execIabs (h : Hdr) (t : ITy) (sat : Bool) (d a : Opnd) (s : State) : Host.Outcome State Fault Refusal :=
  aluWord (.iabs h t sat d a) (outIabs t sat d a) s

def execIneg (h : Hdr) (t : ITy) (sat : Bool) (d a : Opnd) (s : State) : Host.Outcome State Fault Refusal :=
  aluWord (.ineg h t sat d a) (outIneg t sat d a) s

end Sys2Proof.Machine
end

