-- ==== Sys2Proof/Machine/Scratch.lean ====
section
/-! DEFINITION. Scratch and tile store: effective offsets, line states, loads, stores, atomics and the full/empty
instructions (R188-R196), with parking through the wait table (R63, R64). -/

namespace Sys2Proof.Machine

/-- The effective offset (R188); `off` counts accesses of z bytes. -/
def effOffset (base : Word) (off : BitVec 10) (z : Nat) : Nat :=
  let o := ((base.toNat : Int) + off.toInt * z) % 2 ^ 32
  o.toNat - o.toNat % z

/-- Program-visible bytes of a space (R188). -/
def LaunchRec.visible (r : LaunchRec) (tile : Bool) : Nat := if tile then r.tile else r.scratch

def LaunchRec.inRange (r : LaunchRec) (tile : Bool) (o z : Nat) : Bool := decide (o + z ≤ r.visible tile)

/-- Records the first access out of range (R26, R184).
(DEDUCED, log 28) -/
def Team.recordRange (T : Team) (tile write : Bool) (o t : Nat) : Team :=
  let x : Word := 0x80000000 ||| (if write then 0x40000000 else 0) ||| BitVec.ofNat 32 (o % 2 ^ 24)
  if tile then
    if T.tileinfo.getLsbD 31 then T else { T with tileinfo := x, tilethread := BitVec.ofNat 32 t }
  else if T.scrinfo.getLsbD 31 then T else { T with scrinfo := x, scrthread := BitVec.ofNat 32 t }

/-- The lines that threads of the team are parked on. -/
def Team.waitLines (T : Team) : List (Bool × Nat) :=
  (T.threads.filterMap fun th =>
    match th.wait with
    | some (.line tile line) => if th.woken then none else some (tile, line)
    | _ => none).eraseDups

/-- Entries of a core's wait table that other teams hold (R63). -/
def State.othersWaiting (s : State) (core : Nat) (k : TeamKey) : Nat :=
  (s.teams.map fun T => if T.place.isSome && T.core == core && T.key != k then T.waitLines.length else 0).sum

/-- Parks a thread on a line, or turns it away when the wait table is full and has no entry for it (R63, R64). -/
def Team.parkLine (T : Team) (c : Cur) (others t : Nat) (tile : Bool) (line : Nat) : Team :=
  let mine := T.waitLines
  let w : Wait := if mine.contains (tile, line) || decide (others + mine.length < Config.waitEntries)
    then .line tile line else .retry Config.retryCycles
  T.modThread t (Thread.parkAt c w false)

/-- Commits results to a thread of the team. -/
def Team.commit (T : Team) (h : Hdr) (t : Nat) (o : Out) : Team := T.modThread t (Thread.commit h o)

/-- The threads of the bundle that wait after the word. -/
def Cur.parked (c : Cur) (s : State) : List Nat :=
  c.b.threads.filter fun t => ((s.thread? c.b.team t).bind (·.wait)).isSome

/-- Runs an access word: active threads in ascending (group, home lane) order, each on the team as the threads before
left it (R189); those that park leave the bundle. `stop` tells of a thread that would read an uncorrectable error, with the
cause and the offset of its line (R344). -/
def accessWord (i : Instr) (stop : Hdr → Cur → State → Nat → Option WordStop)
    (f : Hdr → Cur → Nat → Nat → Team → Team) (s : State) : Host.Outcome State Fault Refusal :=
  issueWordOr i stop (fun h c s =>
    let others := s.othersWaiting c.core c.b.team
    let s' := s.modTeam c.b.team fun T => (c.active h).foldl (fun T t => f h c others t T) T
    s'.advance c (c.parked s') fun _ => c.nextClause) s

/-- No thread can meet an error. -/
def noError (_ : Hdr) (_ : Cur) (_ : State) (_ : Nat) : Option WordStop := none

/-- A thread that would read a full line in range which holds an error (R344). -/
def lineError (tile : Bool) (off : Cur → Nat → Nat) (z : Nat) (_ : Hdr) (c : Cur) (s : State) (t : Nat) :
    Option WordStop :=
  if s.errors.isEmpty then none
  else
    let o := off c t
    let line := o / 128
    let e : ErrLoc := if tile then .tile c.b.team line else .scratch c.b.team line
    if c.L.rcd.inRange tile o z && (c.T.store tile).full line && s.errors.contains e then
      some (.error (if tile then 6 else 5) (line * 128))
    else none

/-- Reads z bytes of a space. -/
def Team.readStore (T : Team) (tile : Bool) (o z : Nat) : Nat := (T.store tile).bytes.readNat o z

/-- Writes the low z bytes of a number to a space (R189: one single-copy access). -/
def Team.writeStore (T : Team) (tile : Bool) (o z x : Nat) : Team :=
  let st := T.store tile
  T.setStore tile { st with bytes := st.bytes.writeNat o z x }

/-- The result of a load of a width (R193). -/
def loadResult (w : MemW) (d : Opnd) (x : Nat) : List (Nat × Word) :=
  match w with
  | .b128 => w128 d (BitVec.ofNat 128 x)
  | .ty t => wty t d (t.val (BitVec.ofNat 64 x))

/-- The data of a store of a width (R193). -/
def storeData (e : Env) (w : MemW) (v : Opnd) : Nat :=
  match w with
  | .b128 => (e.r128 v).toNat
  | .ty t => if t.width = 64 then (e.r64 v).toNat else (e.r32 v).toNat % 2 ^ t.width

/-- One thread's load (R193, Table 10.1). -/
def loadThread (tile : Bool) (w : MemW) (off : BitVec 10) (d a : Opnd) (h : Hdr) (c : Cur) (others t : Nat)
    (T : Team) : Team :=
  let z := w.bytes
  let o := effOffset ((c.env t).r32 a) off z
  if !c.L.rcd.inRange tile o z then (T.recordRange tile false o t).commit h t (.reg (loadResult w d 0))
  else if (T.store tile).full (o / 128) then T.commit h t (.reg (loadResult w d (T.readStore tile o z)))
  else T.parkLine c others t tile (o / 128)

/-- A store of this mode performs in the line's state (Table 10.1). -/
def Store.storable (x : Store) (mode : StMode) (line : Nat) : Bool :=
  match mode with
  | .plain => x.full line
  | .ewr | .fill => !x.claimed line

/-- One thread's store (R193, Table 10.1). -/
def storeThread (tile : Bool) (w : MemW) (mode : StMode) (off : BitVec 10) (v a : Opnd) (h : Hdr) (c : Cur)
    (others t : Nat) (T : Team) : Team :=
  let z := w.bytes
  let e := c.env t
  let o := effOffset (e.r32 a) off z
  if !c.L.rcd.inRange tile o z then (T.recordRange tile true o t).commit h t .none
  else if (T.store tile).storable mode (o / 128) then
    let T := (T.writeStore tile o z (storeData e w v)).commit h t .none
    if mode = .fill then T.markFull tile (o / 128) else T
  else T.parkLine c others t tile (o / 128)

/-- The new value of an atomic, as bits, with its flags (Table 10.3). -/
def atomNew (op : AOp) (e : Env) (old v : Nat) : Nat × BitVec 5 :=
  match op with
  | .int k t =>
    let w := t.width
    let x := t.val (BitVec.ofNat 64 old)
    let y := t.val (BitVec.ofNat 64 v)
    let bits (r : Int) : Nat := (t.wrap r % 2 ^ w).toNat
    match k with
    | .add => (bits (x + y), 0)
    | .min => (bits (minI x y), 0)
    | .max => (bits (maxI x y), 0)
    | .and => (old &&& v, 0)
    | .or => (old ||| v, 0)
    | .xor => (old ^^^ v, 0)
    | .swap => (v, 0)
  | .fadd r =>
    let mode := e.mode r 0 0
    let z := fp32.finish mode (Num.add mode (fp32.decode old) (fp32.decode v))
    (z.bits, z.flags)

/-- One thread's read-modify-write (R194). -/
def atomThread (op : AOp) (d a b : Opnd) (h : Hdr) (c : Cur) (others t : Nat) (T : Team) : Team :=
  let z := 4 * op.regs
  let e := c.env t
  let o := effOffset (e.r32 a) 0 z
  let res (x : Nat) : List (Nat × Word) := if z = 8 then w64 d (BitVec.ofNat 64 x) else w32 d (BitVec.ofNat 32 x)
  if !c.L.rcd.inRange false o z then (T.recordRange false true o t).commit h t (.reg (res 0))
  else if (T.store false).full (o / 128) then
    let old := T.readStore false o z
    let v := if z = 8 then (e.r64 b).toNat else (e.r32 b).toNat
    let r := atomNew op e old v
    (T.writeStore false o z r.1).commit h t ⟨res old, [], r.2, false⟩
  else T.parkLine c others t false (o / 128)

/-- One thread's compare-and-swap (R195). -/
def cassThread (x64 : Bool) (d a b n : Opnd) (h : Hdr) (c : Cur) (others t : Nat) (T : Team) : Team :=
  let z := if x64 then 8 else 4
  let e := c.env t
  let o := effOffset (e.r32 a) 0 z
  let res (x : Nat) : List (Nat × Word) := if x64 then w64 d (BitVec.ofNat 64 x) else w32 d (BitVec.ofNat 32 x)
  let src (q : Opnd) : Nat := if x64 then (e.r64 q).toNat else (e.r32 q).toNat
  if !c.L.rcd.inRange false o z then (T.recordRange false true o t).commit h t (.reg (res 0))
  else if (T.store false).full (o / 128) then
    let old := T.readStore false o z
    let T := if old = src b then T.writeStore false o z (src n) else T
    T.commit h t (.reg (res old))
  else T.parkLine c others t false (o / 128)

/-- The line that a full/empty instruction addresses (R196). -/
def lineOffset (c : Cur) (a : Opnd) (off : BitVec 10) (t : Nat) : Nat := effOffset ((c.env t).r32 a) off 128

/-- WAITF and WAITF.empty (Table 10.1). -/
def waitfThread (tile empty : Bool) (off : BitVec 10) (a : Opnd) (h : Hdr) (c : Cur) (others t : Nat) (T : Team) :
    Team :=
  let o := lineOffset c a off t
  if !c.L.rcd.inRange tile o 128 then (T.recordRange tile false o t).commit h t .none
  else if (if empty then (T.store tile).free (o / 128) else (T.store tile).full (o / 128)) then T.commit h t .none
  else T.parkLine c others t tile (o / 128)

/-- MARKF and MARKE (Table 10.1); both are recorded as writes (R188). -/
def markThread (tile toFull : Bool) (off : BitVec 10) (a : Opnd) (h : Hdr) (c : Cur) (_others t : Nat) (T : Team) :
    Team :=
  let o := lineOffset c a off t
  let T :=
    if !c.L.rcd.inRange tile o 128 then T.recordRange tile true o t
    else if toFull then T.markFull tile (o / 128)
    else T.markEmpty tile (o / 128)
  T.commit h t .none

/-- PROBEF (Table 10.1); out of range it reads true (R192). -/
def probeThread (tile : Bool) (pd : PCode) (off : BitVec 10) (a : Opnd) (h : Hdr) (c : Cur) (_others t : Nat)
    (T : Team) : Team :=
  let o := lineOffset c a off t
  if !c.L.rcd.inRange tile o 128 then (T.recordRange tile false o t).commit h t (.pred (wp pd true))
  else T.commit h t (.pred (wp pd ((T.store tile).full (o / 128))))

/-- Stores clear the error of a line they write anew (R344).
(DEDUCED, log 29) -/
def State.clearLineErrors (s : State) (tile : Bool) (mode : StMode) (c : Cur) (h : Hdr) (off : Cur → Nat → Nat) (z : Nat) :
    State :=
  if s.errors.isEmpty then s
  else
    let writes (t : Nat) : Bool := c.L.rcd.inRange tile (off c t) z && (c.T.store tile).storable mode (off c t / 128)
    let lines := ((c.active h).filter writes).map fun t => off c t / 128
    { s with errors := s.errors.filter fun e =>
        match e with
        | .scratch k l => tile || !(k == c.b.team && lines.contains l)
        | .tile k l => !tile || !(k == c.b.team && lines.contains l)
        | _ => true }

/-- A store word: as an access word that reads nothing, and its lines' errors end (R344). -/
def storeWord (i : Instr) (tile : Bool) (mode : StMode) (off : Cur → Nat → Nat) (z : Nat)
    (f : Hdr → Cur → Nat → Nat → Team → Team) (s : State) : Host.Outcome State Fault Refusal :=
  match i.hdr?, s.cur? with
  | some h, some c =>
    if c.held i h || (Cur.regError s c i h).isSome then accessWord i noError f s
    else accessWord i noError f (s.clearLineErrors tile mode c h off z)
  | _, _ => .next s

def execLds (h : Hdr) (w : MemW) (off : BitVec 10) (d a : Opnd) (s : State) : Host.Outcome State Fault Refusal :=
  accessWord (.lds h w off d a) (lineError false (fun c t => effOffset ((c.env t).r32 a) off w.bytes) w.bytes)
    (loadThread false w off d a) s

def execSts (h : Hdr) (w : MemW) (mode : StMode) (off : BitVec 10) (v a : Opnd) (s : State) :
    Host.Outcome State Fault Refusal :=
  storeWord (.sts h w mode off v a) false mode (fun c t => effOffset ((c.env t).r32 a) off w.bytes) w.bytes
    (storeThread false w mode off v a) s

def execAtoms (h : Hdr) (op : AOp) (d a b : Opnd) (s : State) : Host.Outcome State Fault Refusal :=
  accessWord (.atoms h op d a b)
    (lineError false (fun c t => effOffset ((c.env t).r32 a) 0 (4 * op.regs)) (4 * op.regs)) (atomThread op d a b) s

def execCass (h : Hdr) (x64 : Bool) (d a b c : Opnd) (s : State) : Host.Outcome State Fault Refusal :=
  accessWord (.cass h x64 d a b c)
    (lineError false (fun q t => effOffset ((q.env t).r32 a) 0 (if x64 then 8 else 4)) (if x64 then 8 else 4))
    (cassThread x64 d a b c) s

def execLdt (h : Hdr) (w : MemW) (off : BitVec 10) (d a : Opnd) (s : State) : Host.Outcome State Fault Refusal :=
  accessWord (.ldt h w off d a) (lineError true (fun c t => effOffset ((c.env t).r32 a) off w.bytes) w.bytes)
    (loadThread true w off d a) s

def execStt (h : Hdr) (w : MemW) (mode : StMode) (off : BitVec 10) (v a : Opnd) (s : State) :
    Host.Outcome State Fault Refusal :=
  storeWord (.stt h w mode off v a) true mode (fun c t => effOffset ((c.env t).r32 a) off w.bytes) w.bytes
    (storeThread true w mode off v a) s

def execWaitf (h : Hdr) (tile empty : Bool) (off : BitVec 10) (a : Opnd) (s : State) :
    Host.Outcome State Fault Refusal :=
  accessWord (.waitf h tile empty off a) noError (waitfThread tile empty off a) s

def execMarkf (h : Hdr) (tile : Bool) (off : BitVec 10) (a : Opnd) (s : State) : Host.Outcome State Fault Refusal :=
  accessWord (.markf h tile off a) noError (markThread tile true off a) s

def execMarke (h : Hdr) (tile : Bool) (off : BitVec 10) (a : Opnd) (s : State) : Host.Outcome State Fault Refusal :=
  accessWord (.marke h tile off a) noError (markThread tile false off a) s

def execProbef (h : Hdr) (tile : Bool) (pd : PCode) (off : BitVec 10) (a : Opnd) (s : State) :
    Host.Outcome State Fault Refusal :=
  accessWord (.probef h tile pd off a) noError (probeThread tile pd off a) s

end Sys2Proof.Machine
end

