-- ==== Sys2Proof/Machine/Barrier.lean ====
section
/-! DEFINITION. Barriers (R57-R60, R204, R205), role queues (R61, R62, R206) and multicast arming (R207). -/

namespace Sys2Proof.Machine

/-- The team is in the scope of a barrier that a thread of team k reaches (R57). -/
def inScope (L : Launch) (lvl : BarLevel) (k k' : TeamKey) : Bool :=
  k'.launch == k.launch &&
  match lvl with
  | .team => k'.n == k.n
  | .clus => k'.n / L.rcd.cluster == k.n / L.rcd.cluster
  | .grid => true

/-- Members of a barrier that have not exited, as (team, thread) (R58). -/
def State.members (s : State) (L : Launch) (lvl : BarLevel) (n : Nat) (k : TeamKey) : List (Nat × Nat) :=
  (s.teams.filter fun T => inScope L lvl k T.key).flatMap fun T =>
    (T.live.filter fun t => L.rcd.isMember lvl n (L.rcd.roleOf (L.rcd.groupOf t))).map fun t => (T.key.n, t)

/-- The barrier that a thread of team k names. -/
def State.barrier (s : State) (lvl : BarLevel) (n : Nat) (k : TeamKey) : Barrier :=
  match lvl with
  | .team => ((s.team? k).bind fun T => T.bars[n]?).getD Barrier.start
  | .clus =>
    ((s.launch? k.launch).bind fun L =>
      (aget? L.clusterBars (k.n / L.rcd.cluster)).bind fun l => l[n]?).getD Barrier.start
  | .grid => ((s.launch? k.launch).bind fun L => L.gridBars[n]?).getD Barrier.start

def State.setBarrier (s : State) (lvl : BarLevel) (n : Nat) (k : TeamKey) (b : Barrier) : State :=
  match lvl with
  | .team => s.modTeam k fun T => { T with bars := T.bars.set n b }
  | .clus => s.modLaunch k.launch fun L =>
    let q := k.n / L.rcd.cluster
    let bs := (aget? L.clusterBars q).getD (List.replicate 4 Barrier.start)
    { L with clusterBars := aset L.clusterBars q (bs.set n b) }
  | .grid => s.modLaunch k.launch fun L => { L with gridBars := L.gridBars.set n b }

/-- Phase x has completed when P is open (R204).
(DEDUCED, log 26) -/
def phaseDone (p x : Word) : Bool := decide (1 ≤ (p - x).toNat) && decide ((p - x).toNat ≤ 2 ^ 31)

/-- Releases a thread from a barrier whose open phase is now `p`. A second arrival arrives in it (R59): BARA writes
the phase and goes on, BAR waits for it. In a team that sleeps the thread is marked and acts when it is resumed.
(DESIGN CHOICE, log 192) -/
def Thread.release (lvl : BarLevel) (n : Nat) (p : Word) (asleep : Bool) (th : Thread) : Thread :=
  match th.wait with
  | some (.barrier l m x) => if l == lvl && m == n && phaseDone p x then th.wake asleep else th
  | some (.rearrive l m bara d ctr npc nidx) =>
    if l == lvl && m == n then
      if asleep then { th with woken := true }
      else if bara then
        { th with wait := none, pc := npc, widx := nidx }.deliver ctr (w32 d p) [] []
      else { th with wait := some (.barrier l m p), pc := npc, widx := nidx }.deliver ctr [] [] []
    else th
  | _ => th

/-- A thread that will arrive again as soon as the open phase completes (R59). -/
def Thread.rearrives (lvl : BarLevel) (n : Nat) (th : Thread) : Bool :=
  match th.wait with
  | some (.rearrive l m ..) => l == lvl && m == n && !th.woken
  | _ => false

/-- Completes the open phase if every member that has not exited has arrived in it (R58); `fuel` bounds the phases
that complete at once.
(DEDUCED, log 25) -/
def State.settleBarrier (L : Launch) (lvl : BarLevel) (n : Nat) (k : TeamKey) : Nat → State → State
  | 0, s => s
  | fuel + 1, s =>
    let b := s.barrier lvl n k
    let ms := s.members L lvl n k
    if !ms.isEmpty && ms.all b.arrived.contains then
      let p := b.phase + 1
      let again := (s.teams.filter fun T => inScope L lvl k T.key && !T.asleep).flatMap fun T =>
        ((List.range T.threads.length).filter fun t =>
          ((T.threads[t]?).map (Thread.rearrives lvl n)).getD false).map fun t => (T.key.n, t)
      let free (T : Team) : Team :=
        if inScope L lvl k T.key then { T with threads := T.threads.map (Thread.release lvl n p T.asleep) } else T
      let s := { s with teams := s.teams.map free }
      State.settleBarrier L lvl n k fuel (s.setBarrier lvl n k ⟨p, again⟩)
    else s

/-- Phases that can complete at once: a second arrival is counted in the next phase, and an exit may complete that. -/
def settleFuel : Nat := 3

/-- A thread is not a member, or names a grid barrier of a launch that is not co-resident (R57, R205). -/
def Cur.barOffends (c : Cur) (lvl : BarLevel) (n : Nat) (t : Nat) : Bool :=
  (lvl == .grid && !c.L.rcd.coResident) || !c.L.rcd.isMember lvl n (c.L.rcd.roleOf (c.L.rcd.groupOf t))

/-- The lowest active thread that may not name the barrier. -/
def Cur.barOffender (c : Cur) (h : Hdr) (lvl : BarLevel) (n : Nat) : Option Nat := (c.active h).find? (c.barOffends lvl n)

/-- A barrier word: its members trap together (R142) or `run` acts, and threads that wait leave the bundle. -/
def barrierWord (i : Instr) (lvl : BarLevel) (n : BitVec 4) (run : Hdr → Cur → State → State) (s : State) :
    Host.Outcome State Fault Refusal :=
  issueWordOr i (fun _ c _ t => if c.barOffends lvl n.toNat t then some (.trap 2 c.b.addr) else none) (fun h c s =>
    let s' := run h c s
    s'.advance c (c.parked s') fun _ => c.nextClause) s

/-- Active threads arrive: BAR parks each for the open phase, BARA writes the phase; a thread that has arrived in
the open phase waits to arrive in the next (R204, R59). -/
def arriveAll (lvl : BarLevel) (n : Nat) (bara : Bool) (d : Opnd) (h : Hdr) (c : Cur) (s : State) : State :=
  let k := c.b.team
  let b := s.barrier lvl n k
  let act := c.active h
  let second := act.filter fun t => b.arrived.contains (k.n, t)
  let first := act.filter fun t => !b.arrived.contains (k.n, t)
  let s := s.setBarrier lvl n k { b with arrived := b.arrived ++ first.map fun t => (k.n, t) }
  let s := s.modTeam k fun T =>
    T.onThreads act fun t th =>
      if second.contains t then
        th.parkAt c (.rearrive lvl n bara d h.ctr c.after.1 c.after.2) false
      else if bara then th.deliver h.ctr (w32 d b.phase) [] []
      else (th.deliver h.ctr [] [] []).parkAt c (.barrier lvl n b.phase) true
  State.settleBarrier c.L lvl n k settleFuel s

def execBar (h : Hdr) (lvl : BarLevel) (n : BitVec 4) (s : State) : Host.Outcome State Fault Refusal :=
  barrierWord (.bar h lvl n) lvl n (arriveAll lvl n.toNat false (.k1 0)) s

def execBara (h : Hdr) (lvl : BarLevel) (n : BitVec 4) (d : Opnd) (s : State) : Host.Outcome State Fault Refusal :=
  barrierWord (.bara h lvl n d) lvl n (arriveAll lvl n.toNat true d) s

def execBarw (h : Hdr) (lvl : BarLevel) (n : BitVec 4) (a : Opnd) (s : State) : Host.Outcome State Fault Refusal :=
  barrierWord (.barw h lvl n a) lvl n (fun h c s =>
    let p := (s.barrier lvl n.toNat c.b.team).phase
    s.modTeam c.b.team fun T => T.onThreads (c.active h) fun t th =>
      let x := (c.env t).r32 a
      let th := th.deliver h.ctr [] [] []
      if phaseDone p x then th else th.parkAt c (.barrier lvl n.toNat x) true) s

def execBarq (h : Hdr) (lvl : BarLevel) (n : BitVec 4) (pd : PCode) (a : Opnd) (s : State) :
    Host.Outcome State Fault Refusal :=
  barrierWord (.barq h lvl n pd a) lvl n (fun h c s =>
    let p := (s.barrier lvl n.toNat c.b.team).phase
    s.modTeam c.b.team fun T => T.onThreads (c.active h) fun t th =>
      th.commit h (.pred (wp pd (phaseDone p ((c.env t).r32 a))))) s

/-! ### Role queues (R61, R206) -/

/-- A queue word: active threads act in ascending order, each as far as slots or tokens allow. -/
def queueWord (i : Instr) (f : Hdr → Cur → Nat → Team → Team) (s : State) : Host.Outcome State Fault Refusal :=
  accessWord i noError (fun h c _ t T => f h c t T) s

def Team.queue (T : Team) (q : Nat) : List Word := (T.queues[q]?).getD []

def LaunchRec.depth (r : LaunchRec) (q : Nat) : Nat := (r.depths[q]?).getD 0

def Team.parkQueue (T : Team) (c : Cur) (t : Nat) (put : Bool) (q : Nat) : Team :=
  T.modThread t (Thread.parkAt c (.queue put q) false)

/-- Appends a token and wakes the threads that wait for one. -/
def qputThread (q : Nat) (a : Opnd) (h : Hdr) (c : Cur) (t : Nat) (T : Team) : Team :=
  if (T.queue q).length < c.L.rcd.depth q then
    (({ T with queues := T.queues.set q (T.queue q ++ [(c.env t).r32 a]) }).wakeQueue false q).commit h t .none
  else T.parkQueue c t true q

/-- Removes the oldest token and wakes the threads that wait for a slot. -/
def qgetThread (q : Nat) (d : Opnd) (h : Hdr) (c : Cur) (t : Nat) (T : Team) : Team :=
  match T.queue q with
  | x :: r => (({ T with queues := T.queues.set q r }).wakeQueue true q).commit h t (.reg (w32 d x))
  | [] => T.parkQueue c t false q

/-- Reads the oldest token. -/
def qpeekThread (q : Nat) (d : Opnd) (h : Hdr) (c : Cur) (t : Nat) (T : Team) : Team :=
  match T.queue q with
  | x :: _ => T.commit h t (.reg (w32 d x))
  | [] => T.parkQueue c t false q

def execQput (h : Hdr) (q : BitVec 2) (a : Opnd) (s : State) : Host.Outcome State Fault Refusal :=
  queueWord (.qput h q a) (qputThread q.toNat a) s

def execQget (h : Hdr) (q : BitVec 2) (d : Opnd) (s : State) : Host.Outcome State Fault Refusal :=
  queueWord (.qget h q d) (qgetThread q.toNat d) s

def execQpeek (h : Hdr) (q : BitVec 2) (d : Opnd) (s : State) : Host.Outcome State Fault Refusal :=
  queueWord (.qpeek h q d) (qpeekThread q.toNat d) s

/-- MCARM raises the team's buffer-free signal if any thread is active (R207). -/
def execMcarm (h : Hdr) (n : BitVec 2) (s : State) : Host.Outcome State Fault Refusal :=
  accessWord (.mcarm h n) noError
    (fun h _ _ t T => ({ T with mcast := T.mcast ||| BitVec.ofNat 4 (2 ^ n.toNat) }).commit h t .none) s

end Sys2Proof.Machine
end

