-- ==== Sys2Proof/Machine/Builtins.lean ====
section
/-! DEFINITION. The built-in methods 0..20 of objects (Table 15.2) and what .comb joins (R258, R259). -/

namespace Sys2Proof.Machine

/-- What a method gives for one element: its new value, the reply's value and aux word, and flags. -/
structure MethodOut where
  new : Nat
  value : Nat
  aux : Nat
  flags : BitVec 5
  deriving DecidableEq, Repr, Inhabited

/-- The value under a type of the low bits of a number, and back. -/
def asInt (t : ITy) (x : Nat) : Int := t.val (BitVec.ofNat 64 x)

def ofIntBits (size : Nat) (x : Int) : Nat := (x % 2 ^ (8 * size)).toNat

/-- Built-in methods 0..20 on an element of `size` bytes (Table 15.2). -/
def builtin (m size e a b : Nat) : MethodOut :=
  let w := 8 * size
  let a := a % 2 ^ w
  let b := b % 2 ^ w
  let upd (x : Nat) : MethodOut := ⟨x, e, 0, 0⟩
  let ints (t : ITy) (f : Int → Int → Int) : MethodOut := upd (ofIntBits size (f (asInt t e) (asInt t a)))
  let flt (g : Num → Num → Num) : MethodOut :=
    let z := fMinMax fp32 g (fp32.decode e) (fp32.decode a)
    ⟨z.bits, e, 0, z.flags⟩
  match m with
  | 0 => upd e
  | 1 => ⟨a, 0, 0, 0⟩
  | 2 => ints .s32 (· + ·)
  | 3 => ints .s64 (· + ·)
  | 4 =>
    let z := fp32.finish .rne (Num.add .rne (fp32.decode e) (fp32.decode a))
    ⟨z.bits, e, 0, z.flags⟩
  | 5 => ints .s32 minI
  | 6 => ints .n32 minI
  | 7 => ints .s64 minI
  | 8 => ints .n64 minI
  | 9 => flt Num.minNum
  | 10 => ints .s32 maxI
  | 11 => ints .n32 maxI
  | 12 => ints .s64 maxI
  | 13 => ints .n64 maxI
  | 14 => flt Num.maxNum
  | 15 => upd (e &&& a)
  | 16 => upd (e ||| a)
  | 17 => upd (e ^^^ a)
  | 18 => upd a
  | 19 => if e = a then ⟨b, e, 1, 0⟩ else ⟨e, e, 0, 0⟩
  | _ => if e + a ≤ b then ⟨e + a, e, 1, 0⟩ else ⟨e, e, 0, 0⟩

/-- Methods that .comb joins into one request (R258). -/
def joins (m : Nat) : Bool := m == 2 || m == 3 || (decide (5 ≤ m) && decide (m ≤ 17))

/-- f of R258: the method's new value; its flags are those of the joining. -/
def joinArg (m size x y : Nat) : Nat := (builtin m size x y 0).new

def joinFlags (m size x y : Nat) : BitVec 5 := (builtin m size x y 0).flags

/-- The argument of a joined request (R258). -/
def joinArgs (m size : Nat) : List Nat → Nat
  | [] => 0
  | x :: xs => xs.foldl (joinArg m size) x

/-- The replies of joined lanes: each finds the value that those before it leave (R258). -/
def spreadReplies (m size : Nat) : Nat → List Nat → List (Nat × BitVec 5)
  | _, [] => []
  | acc, x :: xs => (acc, joinFlags m size acc x) :: spreadReplies m size (joinArg m size acc x) xs

end Sys2Proof.Machine
end

