-- ==== Sys2Proof/Machine/Collective.lean ====
section
/-! DEFINITION. Group collectives: arrival, convergence, mismatch and results (R55, R56, R197-R203). -/

namespace Sys2Proof.Machine

/-- One home lane of a collective: what its thread reads, and whether it is active. -/
structure Voter where
  env : Env
  active : Bool

/-- Results of a lane mask of width W (R198). -/
def wmask (w : Nat) (d : Opnd) (x : Nat) : List (Nat × Word) :=
  if w = 32 then w32 d (BitVec.ofNat 32 x)
  else if w = 64 then w64 d (BitVec.ofNat 64 x)
  else w128 d (BitVec.ofNat 128 x)

/-- The mask of the lanes that meet a condition; `n` is the number of the first lane. -/
def laneMask (f : Nat → Voter → Bool) : Nat → List Voter → Nat
  | _, [] => 0
  | n, l :: ls => (if f n l then 2 ^ n else 0) + laneMask f (n + 1) ls

/-- GVOTE (R199). -/
def voteOut (form : VoteForm) (pa : PCode) (w : Nat) (ls : List Voter) : Out :=
  let act := ls.filter (·.active)
  let xs := act.map fun l => l.env.pred pa
  match form with
  | .all pd => .pred (wp pd (xs.all id))
  | .any pd => .pred (wp pd (xs.any id))
  | .uni pd => .pred (wp pd (xs.all id || xs.all not))
  | .ballot d => .reg (wmask w d (laneMask (fun _ l => l.active && l.env.pred pa) 0 ls))

/-- The source lane of GSHFL, if it is one of the group's (R200). -/
def shflSource (mode : ShflMode) (w h y : Nat) : Option Nat :=
  let s : Option Nat := match mode with
    | .idx => some y
    | .up => if y ≤ h then some (h - y) else none
    | .down => some (h + y)
    | .xor => some (h ^^^ y)
  s.bind fun s => if s < w then some s else none

/-- GSHFL for lane h (R200). -/
def shflOut (mode : ShflMode) (x64 : Bool) (d a b : Opnd) (w : Nat) (ls : List Voter) (h : Nat) (me : Voter) : Out :=
  let src := (shflSource mode w h (me.env.r32 b).toNat).bind fun s => ls[s]?
  let e := (src.map (·.env)).getD me.env
  if x64 then .reg (w64 d (e.r64 a)) else .reg (w32 d (e.r32 a))

/-- The bits of a typed integer result for the next step of a fold. -/
def ITyBits (t : ITy) (x : Int) : Nat := (x % 2 ^ t.width).toNat

/-- One step of GRED or GSCAN on bit patterns, with its flags (Table 10.4). -/
def redStep (op : GOp) (x y : Nat) : Nat × BitVec 5 :=
  match op with
  | .int k t =>
    let u := t.val (BitVec.ofNat 64 x)
    let v := t.val (BitVec.ofNat 64 y)
    match k with
    | .add => (ITyBits t (u + v), 0)
    | .min => (ITyBits t (minI u v), 0)
    | .max => (ITyBits t (maxI u v), 0)
    | .and => (x &&& y, 0)
    | .or => (x ||| y, 0)
  | .fadd r =>
    let mode : RMode := match r with
      | .rz => .rz | .rdn => .rdn | .rup => .rup | _ => .rne
    let z := fp32.finish mode (Num.add mode (fp32.decode x) (fp32.decode y))
    (z.bits, z.flags)
  | .fmin => let z := fMinMax fp32 Num.minNum (fp32.decode x) (fp32.decode y); (z.bits, z.flags)
  | .fmax => let z := fMinMax fp32 Num.maxNum (fp32.decode x) (fp32.decode y); (z.bits, z.flags)

/-- The identity of an operation, as bits (Table 10.4). -/
def redUnit : GOp → Nat
  | .int .add _ | .int .or _ => 0
  | .int .min t => ITyBits t t.hi
  | .int .max t => ITyBits t t.lo
  | .int .and t => 2 ^ t.width - 1
  | .fadd _ => 0x80000000
  | .fmin => 0x7F800000
  | .fmax => 0xFF800000

/-- An input of GRED or GSCAN: the low bits of its type. -/
def redInput (op : GOp) (a : Opnd) (e : Env) : Nat :=
  match op with
  | .int _ t => if t.width = 64 then (e.r64 a).toNat else (e.r32 a).toNat % 2 ^ t.width
  | _ => (e.r32 a).toNat

/-- The state of the fold before and after each lane, in ascending lane order (R201); inactive lanes pass it on. -/
def redScan (op : GOp) (a : Opnd) : Nat × BitVec 5 → List Voter → List ((Nat × BitVec 5) × (Nat × BitVec 5))
  | _, [] => []
  | s, l :: ls =>
    if l.active then
      let r := redStep op s.1 (redInput op a l.env)
      let s' := (r.1, s.2 ||| r.2)
      (s, s') :: redScan op a s' ls
    else (s, s) :: redScan op a s ls

/-- The result of a typed fold as register writes. -/
def redWrite (op : GOp) (d : Opnd) (x : Nat) : List (Nat × Word) :=
  match op with
  | .int _ t => wty t d (t.val (BitVec.ofNat 64 x))
  | _ => w32 d (BitVec.ofNat 32 x)

/-- GRED: every active lane receives the whole fold and its flags (R201). -/
def redOut (op : GOp) (d a : Opnd) (ls : List Voter) : Out :=
  let r := ((redScan op a (redUnit op, 0) ls).getLast?.map (·.2)).getD (redUnit op, 0)
  ⟨redWrite op d r.1, [], r.2, false⟩

/-- GSCAN for lane h (R201). -/
def scanOut (op : GOp) (excl : Bool) (d a : Opnd) (ls : List Voter) (h : Nat) : Out :=
  let p := ((redScan op a (redUnit op, 0) ls)[h]?).getD ((0, 0), (0, 0))
  let r := if excl then p.1 else p.2
  ⟨redWrite op d r.1, [], r.2, false⟩

/-- The lowest active lane (R202). -/
def electedLane (ls : List Voter) : Nat := (ls.findIdx? (·.active)).getD 0

def electOut (pk : PCode) (d : Opnd) (ls : List Voter) (h : Nat) : Out :=
  ⟨w32 d (BitVec.ofNat 32 (electedLane ls)), wp pk (h == electedLane ls), 0, false⟩

/-- GMATCH for one lane (R203). -/
def matchOut (x64 : Bool) (pk : PCode) (d a : Opnd) (w : Nat) (ls : List Voter) (me : Voter) : Out :=
  let v (e : Env) : DWord := if x64 then e.r64 a else (e.r32 a).setWidth 64
  ⟨wmask w d (laneMask (fun _ l => l.active && v l.env == v me.env) 0 ls),
    wp pk ((ls.filter (·.active)).all fun l => v l.env == v me.env), 0, false⟩

/-- The result of a collective for active lane h (R199-R203). -/
def collectiveOut (i : Instr) (w : Nat) (ls : List Voter) (h : Nat) (me : Voter) : Out :=
  match i with
  | .gvote _ form pa => voteOut form pa w ls
  | .gshfl _ mode x64 d a b => shflOut mode x64 d a b w ls h me
  | .gred _ op d a => redOut op d a ls
  | .gscan _ op excl d a => scanOut op excl d a ls h
  | .gelect _ pk d => electOut pk d ls h
  | .gmatch _ x64 pk d a => matchOut x64 pk d a w ls me
  | _ => .none

/-- A thread that has not exited waits at a collective; its word, address and guard. -/
def Thread.atCollective (th : Thread) : Option (DWord × Nat × DWord × Bool) :=
  if th.woken || th.exited then none
  else match th.wait with
    | some (.collective cl i w act) => some (cl, i, w, act)
    | _ => none

/-- The threads of group g. -/
def LaunchRec.groupThreads (r : LaunchRec) (g : Nat) : List Nat := (List.range r.width).map (g * r.width + ·)

/-- The lanes of a group whose collective executes (R55, R197). -/
def Team.lanes (T : Team) (L : Launch) (cycle : DWord) (g : Nat) : List Voter :=
  (L.rcd.groupThreads g).map fun t =>
    let th := (T.threads[t]?).getD (Thread.start 0)
    { env := { regs := th.regs, preds := th.preds, special := specialReg L T cycle t th, slots := [],
               srstep := 0, elem := 0, team := 0, seed := 0 },
      active := ((th.atCollective.map fun x => x.2.2.2).getD false) }

/-- The word at which every thread of group g that has not exited waits: its clause, its place there and itself (R55). -/
def Team.gathered (T : Team) (L : Launch) (g : Nat) : Option (DWord × Nat × DWord) :=
  let ws := ((L.rcd.groupThreads g).filter T.live.contains).map fun t => ((T.threads[t]?).bind Thread.atCollective)
  match ws with
  | some (cl, i, w, _) :: _ => if ws.all fun x => x.map (fun y => (y.1, y.2.1)) == some (cl, i) then some (cl, i, w) else none
  | _ => none

/-- The registers that active lane h reads, with the lanes that hold them: GSHFL reads b of its own lane and a of its
source lane (R200), the others read their own. -/
def collectiveReads (i : Instr) (r : LaunchRec) (h : Nat) (me : Voter) : List (Nat × Nat) :=
  match i with
  | .gshfl _ mode x64 _ a b =>
    let src := (shflSource mode r.width h (me.env.r32 b).toNat).getD h
    (opndRegs (b, 1)).map (fun n => (h, n)) ++ (opndRegs (a, if x64 then 2 else 1)).map fun n => (src, n)
  | _ => (i.shape r.width r.slots).regsRead.map fun n => (h, n)

/-- The first active lane of a gathered group whose collective would read a register that holds an uncorrectable error, as
its thread, with that register (R344). -/
def State.groupError (s : State) (k : TeamKey) (g : Nat) : Option (Nat × Nat) :=
  if s.errors.isEmpty then none
  else match s.team? k, s.launch? k.launch with
  | some T, some L =>
    match (T.gathered L g).map fun x => decodeWord x.2.2 with
    | some (.ok i) =>
      let ls := T.lanes L (s.coreAt T.core).cycle g
      ((List.range ls.length).zip ls).findSome? fun x =>
        if x.2.active then
          ((collectiveReads i L.rcd x.1 x.2).find? fun p => s.errors.contains (.reg k (g * L.rcd.width + p.1) p.2)).map
            fun p => (g * L.rcd.width + x.1, p.2)
        else none
    | _ => none
  | _, _ => none

/-- The active lanes of a group write their registers anew, which ends their errors (R344). -/
def State.clearGroupErrors (s : State) (T : Team) (L : Launch) (g : Nat) (i : Instr) : State :=
  if s.errors.isEmpty then s
  else
    let ws := (i.shape L.rcd.width L.rcd.slots).regsWritten
    let acts := (L.rcd.groupThreads g).filter fun t =>
      (((T.threads[t]?).bind Thread.atCollective).map fun x => x.2.2.2).getD false
    { s with errors := s.errors.filter fun e =>
        match e with
        | .reg k t r => !(k == T.key && ws.contains r && acts.contains t)
        | _ => true }

/-- Executes the collective of group g: inputs are read at once, active lanes receive their results, and every waiting
thread becomes ready (R197). -/
def Team.runCollective (T : Team) (L : Launch) (cycle : DWord) (g : Nat) (i : Instr) (h : Hdr) : Team :=
  let ls := T.lanes L cycle g
  T.onThreads (L.rcd.groupThreads g) fun t th =>
    if th.exited then th
    else
      let lane := L.rcd.laneOf t
      let th := match ls[lane]? with
        | some me => if me.active then th.commit h (collectiveOut i L.rcd.width ls lane me) else th
        | none => th
      th.wake T.asleep

/-- Looks at group g once a thread arrived or exited: the collective executes when every thread that has not exited
waits at one address; at different addresses the thread with the lowest home lane traps (R55, R56). A waiting thread that
would read an uncorrectable error traps alone as well (R344).
(DEDUCED, log 27) -/
def State.settleGroup (s : State) (k : TeamKey) (g : Nat) : State :=
  match s.team? k, s.launch? k.launch with
  | some T, some L =>
    let live := (L.rcd.groupThreads g).filter T.live.contains
    let ws := live.map fun t => ((T.threads[t]?).bind Thread.atCollective)
    match live, ws with
    | t :: _, some (cl, i, w, _) :: _ =>
      if ws.all Option.isSome then
        let waddr := cl + 8 + 8 * BitVec.ofNat 64 i
        if (T.gathered L g).isSome then
          match s.groupError k g, decodeWord w with
          | some (u, r), _ =>
            (s.takeTrap k ⟨0x10, cl, waddr, w, cl, cl, 0, u, [u]⟩).record T.die (wordErrorRec L.ctx k u 7 r waddr cl)
          | none, .ok ins =>
            match ins.hdr? with
            | some h => (s.clearGroupErrors T L g ins).modTeam k fun T => T.runCollective L (s.coreAt T.core).cycle g ins h
            | none => s
          | none, .error _ => s
        else s.takeTrap k ⟨7, cl, waddr, w, cl, cl, 0, t, [t]⟩
      else s
    | _, _ => s
  | _, _ => s

/-- The groups of a bundle's threads. -/
def Cur.groups (c : Cur) : List Nat := (c.b.threads.map c.L.rcd.groupOf).eraseDups

/-- The bundle holds every thread of the thread's group that has not exited. -/
def Cur.holdsGroup (c : Cur) (t : Nat) : Bool :=
  ((c.L.rcd.groupThreads (c.L.rcd.groupOf t)).filter c.T.live.contains).all c.b.threads.contains

/-- Every thread of the bundle, its guard true or not, waits at the collective. -/
def arriveCollective (i : Instr) (h : Hdr) (c : Cur) (s : State) : State :=
  let word := (encode i).getD c.word
  s.modTeam c.b.team fun T => T.onThreads c.b.threads fun _ th =>
    th.parkAt c (.collective c.b.addr c.b.idx word (th.guard h)) true

/-- A collective that would execute with this bundle's arrival, and in which one of its threads would read an uncorrectable
error, traps as R142 gives before anything arrives (R344).
(DEDUCED, log 180) -/
def collectiveStop (i : Instr) (h : Hdr) (c : Cur) (s : State) : Option State :=
  (c.groups.findSome? fun g => ((arriveCollective i h c s).groupError c.b.team g).filter fun x =>
    c.b.threads.contains x.1).map fun x => s.teamError c x.1 7 x.2

/-- Arrives at a collective; groups that are whole execute. Threads of a group that the bundle holds whole never wait and
stay in it, in a team that is halted too (R49, R55, R197). -/
def collectiveRun (i : Instr) (h : Hdr) (c : Cur) (s : State) : State :=
  let k := c.b.team
  let s' := c.groups.foldl (fun s g => s.settleGroup k g) (arriveCollective i h c s)
  let s' := s'.modTeam k fun T => T.onThreads (c.b.threads.filter c.holdsGroup) fun _ th =>
    if th.woken then { th with wait := none, woken := false } else th
  let parked := c.parked s'
  s'.advance c (c.b.threads.filter fun t => parked.contains t || !c.holdsGroup t ||
    (((s'.thread? k t).bind (·.trapped)).isSome)) fun _ => c.nextClause

/-- A collective word: its registers are read when it executes (R197). -/
def collectiveWord (i : Instr) (s : State) : Host.Outcome State Fault Refusal :=
  match i.hdr?, s.cur? with
  | some h, some c => if c.held i h then .next s else .next ((collectiveStop i h c s).getD (collectiveRun i h c s))
  | _, _ => .next s

def execGvote (h : Hdr) (form : VoteForm) (pa : PCode) (s : State) : Host.Outcome State Fault Refusal :=
  collectiveWord (.gvote h form pa) s

def execGshfl (h : Hdr) (mode : ShflMode) (x64 : Bool) (d a b : Opnd) (s : State) :
    Host.Outcome State Fault Refusal :=
  collectiveWord (.gshfl h mode x64 d a b) s

def execGred (h : Hdr) (op : GOp) (d a : Opnd) (s : State) : Host.Outcome State Fault Refusal :=
  collectiveWord (.gred h op d a) s

def execGscan (h : Hdr) (op : GOp) (excl : Bool) (d a : Opnd) (s : State) : Host.Outcome State Fault Refusal :=
  collectiveWord (.gscan h op excl d a) s

def execGelect (h : Hdr) (pk : PCode) (d : Opnd) (s : State) : Host.Outcome State Fault Refusal :=
  collectiveWord (.gelect h pk d) s

def execGmatch (h : Hdr) (x64 : Bool) (pk : PCode) (d a : Opnd) (s : State) : Host.Outcome State Fault Refusal :=
  collectiveWord (.gmatch h x64 pk d a) s

end Sys2Proof.Machine
end

