-- ==== Sys2Proof/Machine/Translate.lean ====
section
/-! DEFINITION. Homes (R19-R21), translation (R231-R235) and what instruction fetch reads (R70). -/

namespace Sys2Proof.Machine

/-- The die that holds a DPA (Table 01.3). -/
def dpaDie (x : Nat) : Nat := x / 2 ^ 37 % 8

/-- The DPA holds memory (R20). -/
def dpaPopulated (x : Nat) : Bool := decide (x < 2 ^ 40) && decide (x % 2 ^ 37 < Config.populated)

/-- The home L2 slice of a DPA on its die (R21). -/
def homeSlice (x : Nat) : Nat :=
  let p (k : Nat) : Nat := x / 2 ^ k % 32
  p 7 ^^^ p 12 ^^^ p 17 ^^^ p 22 ^^^ p 27 ^^^ p 32

/-- The HBM4 stack that stores a DPA (R21). -/
def homeStack (x : Nat) : Nat := 2 * dpaDie x + (x / 2 ^ 8 % 2 ^^^ x / 2 ^ 17 % 2)

/-- Where a translation leads: a device (none is this one), a DPA there, and what the leaf permits. -/
structure Where where
  dev : Option Nat
  dpa : Nat
  rd : Bool
  wr : Bool
  ex : Bool
  obj : Bool
  deriving DecidableEq, Repr, Inhabited

/-- A translation, or a fault with its cause (1 not present, 2 malformed, 3 permission), the virtual range that the
faulting entry covers and the peer that it leads to (R233, R331). -/
inductive TrResult where
  | ok (w : Where)
  | fault (cause base size : Nat) (dev : Option Nat)
  deriving DecidableEq, Repr, Inhabited

/-- A leaf found by a walk, or the fault it met (R231-R233). -/
inductive WalkResult where
  | leaf (base size : Nat) (entry : DWord)
  | fault (cause base size : Nat)
  deriving DecidableEq, Repr, Inhabited

/-- The number of peers of a stripe code (Table 12.6). -/
def stripeCount (c : Nat) : Nat :=
  match c with
  | 0 => 1
  | 8 => 3 | 9 => 5 | 10 => 7 | 11 => 11 | 12 => 13 | 13 => 31
  | c => 2 ^ (c - 1)

def entryStripe (e : Nat) : Nat := e / 2 ^ 48 % 64
def entrySet (e : Nat) : Nat := e / 2 ^ 40 % 256
def entryAddr (e : Nat) : Nat := e / 2 ^ 12 % 2 ^ 28 * 4096
def entryBit (e i : Nat) : Bool := e / 2 ^ i % 2 == 1

/-- Slot j of a peer set; 0xFFFF is no member (R234). -/
def Context.slot (c : Context) (set j : Nat) : Nat :=
  match aget? c.peers set with
  | some l => ((l[j]?).getD 0xFFFF).toNat
  | none => 0xFFFF

/-- Every slot of the stripe names a member (R233). -/
def Context.setOk (c : Context) (e : Nat) : Bool :=
  entryStripe e == 0 || (List.range (stripeCount (entryStripe e))).all fun j => c.slot (entrySet e) j != 0xFFFF

/-- An entry's reserved fields are zero and its stripe code is defined (Table 12.6). -/
def entryReservedOk (e : Nat) : Bool :=
  decide (e / 2 ^ 54 % 1024 = 0) && decide (e / 2 ^ 6 % 64 = 0) && decide (entryStripe e ≤ 13) &&
  (entryStripe e != 0 || entrySet e == 0)

/-- log2 of the virtual range that an entry of a level covers (Table 12.5, R331). -/
def levelShift : Nat → Nat
  | 0 => 39
  | 1 => 30
  | 2 => 21
  | _ => 16

/-- Entries of a level's table (Table 12.5). -/
def levelEntries : Nat → Nat
  | 0 => 131072
  | 3 => 32
  | _ => 512

/-- The cause of the uncorrectable error that a read at a home meets (Table 21.2): 3 in the HBM4, 4 in the home slice. -/
def State.badAt (s : State) (dpa : Nat) : Option Nat :=
  if s.errors.isEmpty then none
  else if s.errors.contains (.hbm (dpa / 128)) then some 3
  else if s.errors.contains (.l2 (dpaDie dpa) ⟨none, dpa / 128⟩ (dpa % 128 / 32)) then some 4
  else none

/-- A page-table entry as a walker reads it at its home (R235). What it reads where that memory holds an uncorrectable
error is not stated.
(DESIGN CHOICE, log 144) -/
def State.tableEntry (s : State) (a : Nat) : Nat :=
  match s.badAt a with
  | none => s.mem.readNat a 8
  | some _ => (Config.freeField 11 a).toNat + 2 ^ 32 * (Config.freeField 12 a).toNat

/-- One level of a walk; `fuel` counts the levels that are left. -/
def walkLevel (s : State) (c : Context) (va : Nat) : Nat → Nat → Nat → WalkResult
  | 0, _, _ => .fault 2 va 1
  | fuel + 1, level, table =>
    let sh := levelShift level
    let base := va / 2 ^ sh * 2 ^ sh
    let a := table + 8 * (va / 2 ^ sh % levelEntries level)
    let e := s.tableEntry a
    if !dpaPopulated a then .fault 1 base (2 ^ sh)
    else if !entryBit e 0 then .fault 1 base (2 ^ sh)
    else if !entryReservedOk e then .fault 2 base (2 ^ sh)
    else if entryBit e 1 then
      if level = 0 then .fault 2 base (2 ^ sh)
      else if entryAddr e % 2 ^ sh ≠ 0 then .fault 2 base (2 ^ sh)
      else if !c.setOk e then .fault 2 base (2 ^ sh)
      else .leaf base (2 ^ sh) (BitVec.ofNat 64 e)
    else if level = 3 then .fault 2 base (2 ^ sh)
    else walkLevel s c va fuel (level + 1) (entryAddr e)

/-- A walk from the context's root (R231). -/
def walk (s : State) (c : Context) (va : Nat) : WalkResult := walkLevel s c va 4 0 c.root

/-- Exclusive or of the k-bit pieces of b up to bit 21 (R234). -/
def foldPieces (k : Nat) : Nat → Nat → Nat
  | 0, _ => 0
  | n + 1, b => (b % 2 ^ k) ^^^ foldPieces k n (b / 2 ^ k)

/-- The stripe member of block b among N peers (R234). -/
def stripeMember (code b : Nat) : Nat :=
  if code ≤ 1 then 0
  else if code ≤ 7 then foldPieces (code - 1) 22 (b % 2 ^ 22)
  else b % stripeCount code

/-- The place of a virtual address under a leaf (R234). -/
def leafPlace (c : Context) (devno base : Nat) (entry : DWord) (va : Nat) : Where :=
  let e := entry.toNat
  let off := va - base
  let perm (w : Option Nat) (d : Nat) : Where :=
    ⟨w, d, entryBit e 2, entryBit e 3, entryBit e 4, entryBit e 5⟩
  if entryStripe e = 0 then perm none (entryAddr e + off)
  else
    let n := stripeCount (entryStripe e)
    let b := off / 256
    let dev := c.slot (entrySet e) (stripeMember (entryStripe e) b)
    perm (if dev = devno then none else some dev) (entryAddr e + b / n * 256 + va % 256)

def TlbEntry.hit (x : TlbEntry) (ctx va : Nat) : Bool :=
  x.ctx == ctx && decide (x.base ≤ va) && decide (va < x.base + x.size)

/-- What an access does to its place (Table 21.3). -/
inductive Access where
  | read | write | home | resRead | resWrite | fetch
  deriving DecidableEq, Repr, Inhabited

/-- Permission of an access (R233, R70). -/
def Where.permits (w : Where) : Access → Bool
  | .read | .resRead => w.rd
  | .write | .resWrite => w.wr
  | .home => w.rd && w.wr && w.obj
  | .fetch => w.ex

/-- The outcome of an access at a place found: unpopulated places are not present (R20, R233). -/
def checkPlace (w : Where) (acc : Access) (base size : Nat) : TrResult :=
  if !dpaPopulated w.dpa then .fault 1 base size w.dev
  else if !w.permits acc then .fault 3 base size w.dev
  else .ok w

def State.context? (s : State) (n : Nat) : Option Context := s.contexts.find? fun c => c.num == n

/-- The place of an address under a TLB entry, with its permission; a stripe whose set has lost a member is malformed
(R233, R234). -/
def State.underEntry (s : State) (c : Context) (x : TlbEntry) (va : Nat) (acc : Access) : TrResult :=
  if c.setOk x.entry.toNat then checkPlace (leafPlace c s.devno x.base x.entry va) acc x.base x.size
  else .fault 2 x.base x.size none

/-- Adds an entry to a TLB of n entries; a full one gives up an entry. -/
def putTlb (n victim : Nat) (l : List TlbEntry) (x : TlbEntry) : List TlbEntry :=
  if l.contains x then l else if l.length < n then l ++ [x] else l.set (victim % n) x

/-- The leaf of an address as a die has it: from its TLB, else by a walk (R235). -/
def State.dieEntry (s : State) (d : Nat) (c : Context) (va : Nat) : WalkResult :=
  match (s.dieAt d).tlb.find? fun x => x.hit c.num va with
  | some x => .leaf x.base x.size x.entry
  | none => walk s c va

/-- The die's TLB takes the leaf of an address that it misses, if there is one (R235). -/
def State.loadDie (s : State) (d ctx va victim : Nat) : State :=
  match s.context? ctx with
  | none => s
  | some c =>
    if (s.dieAt d).tlb.any fun x => x.hit ctx va then s
    else match walk s c va with
      | .fault .. => s
      | .leaf base size e => s.modDie d fun D => { D with tlb := putTlb 16384 victim D.tlb ⟨ctx, base, size, e⟩ }

/-- A translation through a die's TLB (R70, R235). A context that does not exist maps nothing. -/
def State.translateOn (s : State) (d ctx va : Nat) (acc : Access) : TrResult :=
  match s.context? ctx with
  | none => .fault 1 0 (2 ^ 56) none
  | some c =>
    match s.dieEntry d c va with
    | .fault cause base size => .fault cause base size none
    | .leaf base size e => s.underEntry c ⟨ctx, base, size, e⟩ va acc

/-- A translation by a walk (R231-R234). A context that does not exist maps nothing. -/
def State.translate (s : State) (ctx va : Nat) (acc : Access) : TrResult :=
  match s.context? ctx with
  | none => .fault 1 0 (2 ^ 56) none
  | some c =>
    match walk s c va with
    | .fault cause base size => .fault cause base size none
    | .leaf base size e => checkPlace (leafPlace c s.devno base e va) acc base size

/-- The line of a place and the offset in it. -/
def Where.key (w : Where) : LineKey := ⟨w.dev, w.dpa / Config.lineBytes⟩

def Where.off (w : Where) : Nat := w.dpa % Config.lineBytes

/-- The die's copy of a sector, if it holds one (R221). -/
def Die.sector? (d : Die) (k : LineKey) (i : Nat) : Option Sector :=
  (d.l2.find? fun l => l.key == k).bind fun l => aget? l.sectors i

/-- A byte as die D sees it without filling: its copy, else the home of this device; none for a peer's byte that D does
not hold. What a fetch reads where that holds an uncorrectable error is not stated.
(DEDUCED, log 20) -/
def State.peekByte (s : State) (d : Nat) (w : Where) : Option Byte :=
  let bad : Byte := (Config.freeField 13 w.dpa).setWidth 8
  match (s.dieAt d).sector? w.key (w.off / 32) with
  | some x => some (if s.errors.contains (.l2 d w.key (w.off / 32)) then bad else (x.bytes[w.off % 32]?).getD 0)
  | none =>
    if w.dev.isSome then none
    else some (if (s.badAt w.dpa).isSome then bad else s.mem.byte w.dpa)

/-- What fetching one byte gives (R70). -/
inductive FetchByte where
  | ok (b : Byte)
  | fault
  /-- a peer's byte that the die does not hold yet -/
  | away (w : Where)
  deriving DecidableEq, Repr, Inhabited

/-- Fetching one byte through the die's TLB (R70). -/
def State.fetchByte (s : State) (ctx d va : Nat) : FetchByte :=
  if 2 ^ 56 ≤ va then .fault
  else match s.translateOn d ctx va .fetch with
    | .fault .. => .fault
    | .ok w =>
      match s.peekByte d w with
      | some b => .ok b
      | none => .away w

/-- Fetches n bytes: the bytes, the address of the first that cannot be fetched, or the first that is away. -/
inductive FetchBytes where
  | ok (bs : List Byte)
  | fault (va : Nat)
  | away (w : Where)
  deriving DecidableEq, Repr, Inhabited

def State.fetchBytes (s : State) (ctx d : Nat) : Nat → Nat → FetchBytes
  | 0, _ => .ok []
  | n + 1, va =>
    match s.fetchByte ctx d va with
    | .fault => .fault va
    | .away w => .away w
    | .ok b =>
      match s.fetchBytes ctx d n (va + 1) with
      | .ok bs => .ok (b :: bs)
      | x => x

/-- The die's TLB after a fetch of n bytes, which lie on two pages at most; the entry that a full TLB gives up is free (R70,
R235).
(DESIGN CHOICE, log 181) -/
def State.fetchLoads (s : State) (ctx d n va : Nat) : State :=
  let victim (a : Nat) : Nat := (Config.freeField 15 (a + 2 ^ 64 * s.turns)).toNat
  (s.loadDie d ctx va (victim va)).loadDie d ctx (va + n - 1) (victim (va + n - 1))

end Sys2Proof.Machine
end

