-- ==== Sys2Proof/Machine/Planes.lean ====
section
/-! DEFINITION. Planes, packets to peers and what is outstanding on them (R353-R361), with the flits that carry packets
(R350, R351). -/

namespace Sys2Proof.Machine

/-- Exclusive or of the 3-bit pieces of x, the lowest n of them. -/
def fold3 : Nat → Nat → Nat
  | 0, _ => 0
  | n + 1, x => (x % 8) ^^^ fold3 n (x / 8)

/-- The index into the plane map for a target device and a DPA (R355). -/
def planeHash (target x : Nat) : Nat := fold3 11 (x % 2 ^ 40 / 256) ^^^ fold3 4 (target % 4096)

/-- The plane of a packet under a map (R355). -/
def planeOf (map : List Nat) (target x : Nat) : Nat := (map[planeHash target x]?).getD 0

def State.modFabric (s : State) (f : Fabric → Fabric) : State := { s with fabric := f s.fabric }

/-- The generation begun last. -/
def Fabric.begun (f : Fabric) : Nat := (f.calved.headD ⟨0, 0, 0, []⟩).gen

/-- The next sequence number of a path (R358). -/
def Fabric.next (f : Fabric) (target plane : Nat) : BitVec 32 :=
  ((f.sends.find? fun p => p.target == target && p.plane == plane).map (·.next)).getD 0

/-- Counts a request of a path. -/
def Fabric.bump (f : Fabric) (target plane : Nat) : Fabric :=
  if f.sends.any fun p => p.target == target && p.plane == plane then
    { f with sends := f.sends.map fun p =>
        if p.target == target && p.plane == plane then { p with next := p.next + 1 } else p }
  else { f with sends := f.sends ++ [⟨target, plane, 1⟩] }

/-- A number stands before another in the numbering modulo 2^32 (R358). -/
def before32 (a b : BitVec 32) : Bool := (a - b).msb

/-- The lowest number of a path that has not been answered (Table 23.3, rack). -/
def Fabric.rack (f : Fabric) (target plane : Nat) : BitVec 32 :=
  (f.out.filter fun o => o.sent && o.pkt.target == target && o.pkt.plane == plane).foldl (fun m o =>
    if before32 o.pkt.pseq m then o.pkt.pseq else m) (f.next target plane)

/-- A relaxed request of a path is outstanding (R360). -/
def Fabric.relaxedOut (f : Fabric) (target plane : Nat) : Bool :=
  f.out.any fun o => o.sent && o.pkt.relaxed && o.pkt.target == target && o.pkt.plane == plane

/-- The next number of a path lies within 256 of the last below which every request has been answered, which the target's
contiguous mark has reached (R360). -/
def Fabric.inWindow (f : Fabric) (target plane : Nat) : Bool :=
  decide ((f.next target plane - f.rack target plane).toNat < 256)

/-! ### Flits (Table 23.2, R351) -/

/-- CRC-32 of IEEE 802.3, bit by bit: reflected polynomial 0xEDB88320. -/
def crcBits : Nat → Word → Word
  | 0, c => c
  | n + 1, c => crcBits n (if c.getLsbD 0 then (c >>> 1) ^^^ 0xEDB88320 else c >>> 1)

def crc32 (bs : List Byte) : Word := ~~~(bs.foldl (fun c b => crcBits 8 (c ^^^ b.setWidth 32)) 0xFFFFFFFF)

/-- Bytes 0..59 of a flit. -/
def flitBody (f : Flit) : List Byte :=
  leBytes 1 (f.kind.toNat + 4 * f.vc.toNat) ++ leBytes 2 f.lseq.toNat ++ [f.credit] ++
  (f.payload ++ List.replicate 56 0).take 56

def flitGood (f : Flit) : Bool := f.crc == crc32 (flitBody f)

/-- A flit with its check. -/
def mkFlit (kind vc : BitVec 2) (lseq : BitVec 12) (credit : Byte) (payload : List Byte) : Flit :=
  let f : Flit := ⟨kind, vc, lseq, credit, payload, 0⟩
  { f with crc := crc32 (flitBody f) }

/-- The 32 header bytes of a packet of n flits (Table 23.3). -/
def packetHeader (p : Packet) (n : Nat) : List Byte :=
  leBytes 1 p.kind ++ leBytes 1 ((if p.relaxed then 1 else 0) + (if p.retrans then 2 else 0)) ++ leBytes 2 n ++
  leBytes 2 p.source ++ leBytes 2 p.target ++ leBytes 4 p.gen ++ leBytes 4 p.pseq.toNat ++ leBytes 4 p.rack.toNat ++
  leBytes 8 p.addr ++ leBytes 4 p.context

/-- Cuts bytes into pieces of 56. -/
def cut56 : Nat → List Byte → List (List Byte)
  | 0, _ => []
  | n + 1, l => if l.isEmpty then [] else l.take 56 :: cut56 n (l.drop 56)

/-- The payloads of a packet's 1 to 64 flits. Their bytes after the header are not given by the manual. -/
def packetPayloads (p : Packet) : List (List Byte) :=
  let what := match p.body with
    | .calving code args => code :: args
    | _ => []
  let rest := (Config.packetRest p.kind p.addr ([p.source, p.target, p.pseq.toNat] ++ what)).take (64 * 56 - 32)
  let n := (32 + rest.length + 55) / 56
  cut56 64 (packetHeader p n ++ rest)

/-- The channel of a packet: 0 for requests, 1 for replies, 2 for acknowledgements and calving (R350). -/
def packetVc (p : Packet) : BitVec 2 := if p.kind = 8 then 1 else if p.kind = 9 || p.kind = 16 then 2 else 0

/-- The flits of one packet: a first flit and continuations (Table 23.2). -/
def packetFlits (p : Packet) : List WaitFlit :=
  mapFrom (fun i x => { x with kind := if i = 0 then 1 else 2 }) 0
    ((packetPayloads p).map fun x => ⟨p.target, 1, packetVc p, x⟩)

/-- A link sends a flit if its channel has a credit, no earlier flit of the channel waits and the replay buffer has room;
else the flit waits (R350, R351). -/
def Link.offer (l : Link) (w : WaitFlit) : Link :=
  let c := w.vc.toNat
  if l.waiting.any (fun x => x.vc == w.vc) || decide (Config.replayFlits ≤ l.replay.length) ||
    decide (Config.linkCredits c ≤ (l.used[c]?).getD 0) then { l with waiting := l.waiting ++ [w] }
  else { l with
    next := l.next + 1
    used := l.used.modify c (· + 1)
    replay := l.replay ++ [(w.target, mkFlit w.kind w.vc l.next 0 w.payload)] }

/-- A link that is up and not training sends what it can of the flits that wait; no channel holds back another (R350).
(DESIGN CHOICE, log 59) -/
def Link.drive (l : Link) : Link :=
  if !l.up || l.training then l else l.waiting.foldl Link.offer { l with waiting := [] }

def Fabric.link (f : Fabric) (i : Nat) : Link := (f.links[i]?).getD Link.reset

def Fabric.modLink (f : Fabric) (i : Nat) (g : Link → Link) : Fabric := { f with links := f.links.modify i g }

/-- The links of a plane that are up. -/
def Fabric.liveLinks (f : Fabric) (plane : Nat) : List Nat :=
  ((List.range 4).map (4 * plane + ·)).filter fun i => (f.link i).up

/-- The link of a plane that what goes to a target takes (R358): the first that is up in a fixed order, so that a route
moves only when its link goes down (R352). -/
def Fabric.route (f : Fabric) (plane target : Nat) : Option Nat :=
  ((List.range 4).map (fun n => 4 * plane + Config.freeLink plane target n % 4) ++ f.liveLinks plane).find? fun i =>
    (f.link i).up

/-- Flits join those that wait for a link, which sends what it can. -/
def Fabric.queueFlits (f : Fabric) (i : Nat) (ws : List WaitFlit) : Fabric :=
  f.modLink i fun l => { l with waiting := l.waiting ++ ws }.drive

/-- Hands a packet to a link of a plane: a relaxed one to any (R360), the others to the one of their route (R358). -/
def Fabric.transmitOn (f : Fabric) (plane : Nat) (p : Packet) : Fabric :=
  let live := f.liveLinks plane
  match if p.relaxed then live[Config.freeLink plane p.target (4 + f.nextId) % live.length]? else f.route plane p.target with
  | none => f
  | some i => f.queueFlits i (packetFlits p)

def Fabric.transmit (f : Fabric) (p : Packet) : Fabric := f.transmitOn p.plane p

/-- The planes that are not held dead. -/
def Fabric.livePlanes (f : Fabric) : List Nat := (List.range 8).filter fun i => !f.dead.getLsbD i

/-! ### Producing requests (R359-R361) -/

/-- The command whose home operation or residual write a request is, by team and tag. -/
def Why.command : Why → Option (TeamKey × Nat)
  | .call r => r.team.map fun k => (k, r.tag)
  | .residWrite k tag => some (k, tag)
  | _ => none

/-- A relaxed request of the same command that has been sent to the same line and is not answered. -/
def Fabric.relaxedTwin (f : Fabric) (w : Why) (p : Packet) : Bool :=
  w.command.isSome && f.out.any fun o => o.sent && o.pkt.relaxed && o.why.command == w.command &&
    o.pkt.target == p.target && o.pkt.addr / 128 == p.addr / 128

/-- A request may be sent now: no calving, or it is one to be sent again in RETRANSMIT (R369), and its relaxed window is
open (R360). Relaxed requests of one command
to one line are sent one at a time, which keeps the order of two writes to a common byte. A request that is not relaxed
waits for the window too while a relaxed one of its path is outstanding, so that the target can record its number.
(DEDUCED, log 148) -/
def Fabric.maySend (f : Fabric) (w : Why) (p : Packet) : Bool :=
  (f.phase == .normal || (f.phase == .retransmit && p.retrans)) &&
  (if p.relaxed then f.inWindow p.target p.plane && !f.relaxedTwin w p
   else !f.relaxedOut p.target p.plane || f.inWindow p.target p.plane)

/-- A request as it is sent: on the plane its address selects, with the generation of the map, numbered on its path
(Table 23.3). -/
def Fabric.stamp (f : Fabric) (p : Packet) : Packet :=
  let plane := planeOf f.map p.target p.addr
  { p with plane := plane, gen := if f.phase == .retransmit then f.begun else f.gen, pseq := f.next p.target plane, rack := f.rack p.target plane }

/-- Sends the requests that are held and may be sent, oldest first. -/
def Fabric.sendHeld (f : Fabric) : Fabric :=
  f.out.foldl (fun f o =>
    let p := f.stamp o.pkt
    if o.sent || !f.maySend o.why p then f
    else
      let f := (f.bump p.target p.plane).transmit p
      { f with out := f.out.map fun x => if x.id = o.id then { x with sent := true, pkt := p } else x }) f

/-- Produces a request to a peer (R361). -/
def State.produce (s : State) (why : Why) (kind : Nat) (relaxed : Bool) (target addr ctx : Nat) (body : PacketBody) :
    State :=
  let p : Packet := ⟨kind, relaxed, false, s.devno, target, s.fabric.gen, 0, 0, addr, ctx, 0, body⟩
  s.modFabric fun f =>
    Fabric.sendHeld { f with nextId := f.nextId + 1, out := f.out ++ [⟨f.nextId, false, why, p⟩] }

/-- A request from a peer that has been performed is answered on its plane, and the answer is retained (R357, R361,
R370). When that plane is dead, the answer is sent on a live one.
(DEDUCED, log 77) -/
def Fabric.answer (f : Fabric) (devno : Nat) (q : Packet) (kind : Nat) (body : PacketBody) : Fabric :=
  let p : Packet := ⟨kind, q.relaxed, f.dead.getLsbD q.plane, devno, q.source, f.gen, q.pseq, f.rack q.source q.plane, q.addr, q.context, q.plane, body⟩
  { f.transmitOn (if p.retrans then f.livePlanes.headD q.plane else q.plane) p with
    sentReplies := f.sentReplies ++ [p]
    recvs := f.recvs.map fun r =>
      if r.source = q.source ∧ r.plane = q.plane then { r with kept := r.kept ++ [p] } else r }

def State.answerPeer (s : State) (q : Packet) (kind : Nat) (body : PacketBody) : State :=
  s.modFabric fun f => f.answer s.devno q kind body

/-- Every request produced before number n has been acknowledged (R361). -/
def Fabric.acked (f : Fabric) (n : Nat) : Bool := f.out.all fun o => decide (n ≤ o.id)

/-- The plane wait of a FAB release also lasts while the device is calving (R372). -/
def Fabric.settled (f : Fabric) (n : Nat) : Bool := f.acked n && f.phase == .normal

end Sys2Proof.Machine
end

