-- ==== Sys2Proof/Machine/L2.lean ====
section
/-! DEFINITION. Device memory as a die sees it: homes, the copies in its L2, the cores' engine write queues, releases and
acquires (R219-R225, R229), and the L2's own steps. -/

namespace Sys2Proof.Machine

/-- The line's home is on this die of this device (R20). -/
def isHome (d : Nat) (k : LineKey) : Bool := k.dev.isNone && dpaDie (k.line * 128) == d

/-- Adds to a tree event's count, by launch number (R395). -/
def State.tallyOf (s : State) (launch core ev n : Nat) : State :=
  match s.launch? launch with
  | some L => s.tally L core ev n
  | none => s

/-! ### Errors in memory (R342, R343) -/

def State.clearError (s : State) (e : ErrLoc) : State :=
  if s.errors.isEmpty then s else { s with errors := s.errors.filter (· ≠ e) }

/-- The bits of n bytes from offset `off` in a line. -/
def lineMask (off n : Nat) : BitVec 128 := BitVec.ofNat 128 ((2 ^ n - 1) * 2 ^ off)

/-- An error of a line of this device, in the HBM4 or in its home slice. -/
def errOfLine (line : Nat) : ErrLoc → Bool
  | .hbm l => l == line
  | .l2 d k _ => d == dpaDie (line * 128) && k == ⟨none, line⟩
  | _ => false

/-- A line of this device has been replaced whole: its errors end (R298). -/
def State.lineReplaced (s : State) (line : Nat) : State :=
  { s with
    errors := s.errors.filter fun e => !errOfLine line e
    rewritten := s.rewritten.filter fun x => x.1.1 != line }

/-- Joins masks to those that a list holds under their keys. -/
def joinMasks {α : Type} {w : Nat} [DecidableEq α] (l : List (α × BitVec w)) (xs : List (α × BitVec w)) : List (α × BitVec w) :=
  xs.foldl (fun l x => aset l x.1 (((aget? l x.1).getD 0) ||| x.2)) l

/-- Commands have replaced the bytes of their masks in an erroneous line; once one of them has replaced all 128, the
error ends (R298).
(DEDUCED, log 54) -/
def State.noteRewrite (s : State) (line : Nat) (ws : List (Writer × BitVec 128)) : State :=
  if s.errors.any (errOfLine line) then
    let r := joinMasks s.rewritten (ws.map fun x => ((line, x.1), x.2))
    if r.any fun x => x.1.1 == line && x.2 == BitVec.allOnes 128 then s.lineReplaced line
    else { s with rewritten := r }
  else s

/-- Masks that count from offset n of a line on, as masks of the line. -/
def shiftMasks (n : Nat) (ws : List (Writer × BitVec 128)) : List (Writer × BitVec 128) :=
  ws.map fun x => (x.1, x.2.shiftLeft n)

/-- Bytes that engine commands wrote arrive at their home; each mask counts from the first of them (R219, R298). -/
def State.engineWrite (s : State) (ws : List (Writer × BitVec 128)) (dpa : Nat) (bs : List Byte) : State :=
  (s.noteRewrite (dpa / 128) (shiftMasks (dpa % 128) ws)).homeWrite dpa bs

/-! ### Copies in an L2 (R221, R222) -/

/-- The die's L2 holds the line or has room for one more (R13). Room is made by the L2's own steps, L2_WRITE_BACK and
L2_DROP_CLEAN (R222).
(DEDUCED, log 145) -/
def Die.room (D : Die) (k : LineKey) : Bool :=
  (D.l2.any fun l => l.key == k) || decide (D.l2.length < Config.l2Lines)

/-- Puts a sector into a die's copy of a line and joins colours to its mask. -/
def Die.put (D : Die) (k : LineKey) (i : Nat) (x : Sector) (colours : BitVec 8) : Die :=
  if D.l2.any fun l => l.key == k then
    { D with l2 := D.l2.map fun l =>
        if l.key = k then { l with colours := l.colours ||| colours, sectors := aset l.sectors i x } else l }
  else { D with l2 := D.l2 ++ [⟨k, colours, [(i, x)]⟩] }

/-- Drops the sectors of the copies that a predicate names; a line without sectors is gone, and its mask with it. -/
def Die.drop (D : Die) (p : L2Line → Nat → Sector → Bool) : Die :=
  { D with l2 := (D.l2.map fun l => { l with sectors := l.sectors.filter fun x => !p l x.1 x.2 }).filter fun l =>
      !l.sectors.isEmpty }

/-- Drops sectors of a die, with the errors in them. -/
def State.dropSectors (s : State) (d : Nat) (p : L2Line → Nat → Sector → Bool) : State :=
  let s := s.modDie d fun D => D.drop p
  if s.errors.isEmpty then s
  else { s with errors := s.errors.filter fun e =>
      match e with
      | .l2 d' k i => !(d' == d) || isHome d k || ((s.dieAt d).sector? k i).isSome
      | _ => true }

/-- A colour as a mask. -/
def colourBit (c : Nat) : BitVec 8 := BitVec.ofNat 8 (2 ^ (c % 8))

/-- What reading gives: bytes, nothing yet, or an uncorrectable error: its cause (3 HBM, 4 L2 sector, 5 scratch, 6 tile
store), its line and, in a team's own memory, its offset. -/
inductive Rd where
  | ok (bs : List Byte)
  | wait
  | bad (cause : Nat) (key : LineKey) (off : Nat)
  deriving DecidableEq, Repr, Inhabited

/-- Why a sector is wanted: under which colours, by relaxed requests or not, in which context, and for which launch on
which core. -/
structure Wish where
  colours : BitVec 8
  relaxed : Bool
  ctx : Nat
  asker : Nat × Nat
  deriving DecidableEq, Repr, Inhabited

/-- The request fills this sector of die d. -/
def Why.fills (d : Nat) (k : LineKey) (i : Nat) : Why → Bool
  | .fill d' k' i' _ _ => d' == d && k' == k && i' == i
  | _ => false

/-- Another wish for the sector that a request fills. -/
def Why.joinFill (w : Wish) : Why → Why
  | .fill d k i c ls => .fill d k i (c ||| w.colours) (if ls.contains w.asker then ls else ls ++ [w.asker])
  | x => x

/-- A home operation from die d on a peer's line is outstanding whose order with a fill is open, as one of the two is
relaxed (R229, R360). -/
def State.callOut (s : State) (d : Nat) (k : LineKey) (relaxed : Bool) : Bool :=
  s.fabric.out.any fun o =>
    match o.why with
    | .call r => r.key == k && r.peer.isNone && dieOf r.core == d && (relaxed || o.pkt.relaxed)
    | _ => false

/-- Asks a peer for a sector once; a second wish joins the first (R221). It is not asked for while it could be read before
a home operation of the die that is performed later (R229).
(DEDUCED, log 146) -/
def State.askSector (s : State) (d : Nat) (k : LineKey) (i : Nat) (w : Wish) : State :=
  match k.dev with
  | none => s
  | some T =>
    if s.fabric.out.any (fun o => o.why.fills d k i) then
      let join (o : OutPkt) : OutPkt := if o.why.fills d k i then { o with why := o.why.joinFill w } else o
      s.modFabric fun f => { f with out := f.out.map join }
    else if s.callOut d k w.relaxed then s
    else s.produce (.fill d k i w.colours [w.asker]) 1 w.relaxed T (k.line * 128 + 32 * i) w.ctx (.read 32)

/-- The answers of fills that a condition names are not kept: what waits for them asks again (R228, R229). -/
def State.spoilFills (s : State) (p : Nat → LineKey → BitVec 8 → Bool) : State :=
  let spoil (o : OutPkt) : OutPkt :=
    match o.why with
    | .fill d k _ c ls => if p d k c then { o with why := .stale ls } else o
    | _ => o
  s.modFabric fun f => { f with out := f.out.map spoil }

/-- Fills a sector from home: at once within the package if there is room, by a request to a peer (R221). The flag says
whether it was filled. -/
def State.fillSector (s : State) (d : Nat) (k : LineKey) (i : Nat) (w : Wish) : State × Bool :=
  match k.dev with
  | some _ => (s.askSector d k i w, false)
  | none =>
    if (s.dieAt d).room k then
      (s.modDie d fun D => D.put k i ⟨s.mem.read (k.line * 128 + 32 * i) 32, false, none, []⟩ w.colours, true)
    else (s, false)

/-- A sector that instruction fetch or a table read waits for (R70, R221). -/
def State.requestSector (s : State) (T : Team) (ctx : Nat) (w : Where) : State :=
  s.askSector T.die w.key (w.off / 32) ⟨0, false, ctx, T.key.launch, T.core⟩

/-- Bytes that a core has written and its queue still holds (R220). -/
def overlay (q : List QueuedWrite) (k : LineKey) (off : Nat) (bs : List Byte) : List Byte :=
  q.foldl (fun bs w =>
    if w.key = k then mapFrom (fun i b => if w.off ≤ i ∧ i < w.off + w.bytes.length then (w.bytes[i - w.off]?).getD b else b) off bs
    else bs) bs

/-- Who accesses device memory: core, die, team, acceptance number of the command, context, colours and the relaxed
bit. -/
structure Agent where
  core : Nat
  die : Nat
  team : TeamKey
  seq : Nat
  ctx : Nat
  colours : BitVec 8
  relaxed : Bool
  deriving DecidableEq, Repr, Inhabited

def Agent.wish (g : Agent) : Wish := ⟨g.colours, g.relaxed, g.ctx, g.team.launch, g.core⟩

def Agent.writer (g : Agent) : Writer := ⟨none, g.team, g.seq, g.ctx⟩

/-- Reads n bytes of one sector as an engine of the agent's core does (R220, R221). An error noted for a sector that the
die does not hold is a peer's answer that its memory could not be read; it meets one reader. -/
def State.readAt (s : State) (g : Agent) (k : LineKey) (off n : Nat) : Rd × State :=
  let i := off / 32
  let q := (s.coreAt g.core).wq
  let homeAddr := k.line * 128 + off
  if s.errors.contains (.l2 g.die k i) then
    if isHome g.die k || ((s.dieAt g.die).sector? k i).isSome then (.bad 4 k off, s)
    else (.bad 3 k off, s.clearError (.l2 g.die k i))
  else if isHome g.die k then
    match s.badAt homeAddr with
    | some cause => (.bad cause k off, s)
    | none => (.ok (overlay q k off (s.mem.read homeAddr n)), s)
  else match (s.dieAt g.die).sector? k i with
    | some x => (.ok (overlay q k off ((x.bytes.drop (off % 32)).take n)), s)
    | none =>
      match if k.dev.isNone then s.badAt homeAddr else none with
      | some cause => (.bad cause k off, s)
      | none =>
        match s.fillSector g.die k i g.wish with
        | (s, false) => (.wait, s)
        | (s, true) =>
          (.ok (overlay q k off ((s.mem.read homeAddr n))), s.tallyOf g.team.launch g.core 22 1)

/-- A write to part of a sector of a peer completes when its die holds the sector, which is asked for otherwise (R221,
R398). The flag says whether it is held, or is not needed.
(DEDUCED, log 143) -/
def State.fillFor (s : State) (g : Agent) (k : LineKey) (off n : Nat) : State × Bool :=
  let i := off / 32
  if k.dev.isNone || n == 32 || ((s.dieAt g.die).sector? k i).isSome || s.errors.contains (.l2 g.die k i) then (s, true)
  else (s.askSector g.die k i g.wish, false)

/-- A completed write enters the core's engine write queue (R220). -/
def State.enqueue (s : State) (g : Agent) (k : LineKey) (off : Nat) (bs : List Byte) : State :=
  s.modCore g.core fun c => { c with wq := c.wq ++ [⟨k, off, bs, g.colours, g.relaxed, g.writer⟩] }

/-- Replaces bytes of a sector. -/
def patch (bs : List Byte) (off : Nat) (xs : List Byte) : List Byte :=
  mapFrom (fun i b => if off ≤ i ∧ i < off + xs.length then (xs[i - off]?).getD b else b) 0 bs

/-- Bytes around a write to a sector whose home could not be read: the manual gives none.
(DEDUCED, log 64) -/
def freeSector (n : Nat) : List Byte := (List.range 32).map fun i => (Config.freeField 0 (32 * n + i)).setWidth 8

/-- Drains the oldest write of a core's queue into the L2 of its die (Table 12.1); a part of a sector that lies on a
peer and is not held waits for its fill, and one whose line has no room waits for it. The flag says whether a write
drained. -/
def State.drainOne (s : State) (core : Nat) : State × Bool :=
  match (s.coreAt core).wq with
  | [] => (s, false)
  | w :: rest =>
    let d := dieOf core
    let i := w.off / 32
    let pop (s : State) : State := s.modCore core fun c => { c with wq := rest }
    let put (s : State) (old : List Byte) : State :=
      let wrote := joinMasks ((((s.dieAt d).sector? w.key i).map (·.wrote)).getD [])
        [(w.writer, (lineMask (w.off % 32) w.bytes.length).setWidth 32)]
      (pop s).modDie d fun D => D.put w.key i ⟨patch old (w.off % 32) w.bytes, true, some w.writer, wrote⟩ w.colours
    if isHome d w.key then
      (pop (s.engineWrite [(w.writer, lineMask 0 w.bytes.length)] (w.key.line * 128 + w.off) w.bytes), true)
    else match (s.dieAt d).sector? w.key i with
      | some x => (put s x.bytes, true)
      | none =>
        if !(s.dieAt d).room w.key then (s, false)
        else if w.bytes.length = 32 then (put (s.clearError (.l2 d w.key i)) (List.replicate 32 0), true)
        else if s.errors.contains (.l2 d w.key i) || (w.key.dev.isNone && (s.badAt (w.key.line * 128 + w.off)).isSome) then
          (put (s.clearError (.l2 d w.key i)) (freeSector s.fabric.nextId), true)
        else match s.fillSector d w.key i ⟨w.colours, w.relaxed, w.writer.ctx, w.writer.team.launch, core⟩ with
          | (s, false) => (s, false)
          | (s, true) =>
            (put (s.tallyOf w.writer.team.launch core 22 1) (s.mem.read (w.key.line * 128 + 32 * i) 32), true)

/-- Drains writes until the queue is empty or its oldest waits for a fill; `n` bounds their number. -/
def State.drainSome (core : Nat) : Nat → State → State
  | 0, s => s
  | n + 1, s =>
    match s.drainOne core with
    | (s, true) => State.drainSome core n s
    | (s, false) => s

def State.drainCore (s : State) (core : Nat) : State := State.drainSome core (s.coreAt core).wq.length s

/-- Drains the queues of every core of a die. -/
def State.drainDie (s : State) (d : Nat) : State :=
  (List.range Config.coresPerDie).foldl (fun s c => s.drainCore (d * Config.coresPerDie + c)) s

/-- A type-4 record of a memory location that no thread names (R330, R343). -/
def dataErrorRec (cause : Nat) (ctx launch : Nat) (k : LineKey) : FaultRec where
  type := 4
  cause := cause
  answer := false
  ctx := ctx
  launch := launch
  team := 0xFFFFFFFF
  thread := 0xFFFFFFFF
  f24 := BitVec.ofNat 64 (k.line * 128 % 2 ^ 40)
  f32 := BitVec.ofNat 64 (k.dev.getD 0xFFFFFFFF)
  f40 := 0
  f48 := 0
  f56 := 0

/-- Writes a dirty sector back whole (R222). One that holds an error is not written, and a record names its line
(R343); the record's context and launch are not stated.
(DEDUCED, log 53) -/
def State.writeBack (s : State) (d : Nat) (k : LineKey) (i : Nat) : State :=
  match (s.dieAt d).sector? k i with
  | none => s
  | some x =>
    if !x.dirty then s
    else if s.errors.contains (.l2 d k i) then
      let n := (s.dieAt d).seq.toNat
      s.record d (dataErrorRec 4 (Config.freeField 1 n).toNat (Config.freeField 2 n).toNat k)
    else
      let s := s.modDie d fun D => D.put k i { x with dirty := false, writer := none, wrote := [] } 0
      let ws := x.wrote.map fun y => (y.1, y.2.setWidth 128)
      match k.dev with
      | none => s.engineWrite ws (k.line * 128 + 32 * i) x.bytes
      | some T =>
        s.produce (.back ((x.writer.map (·.team.launch)).getD 0)) 2 false T (k.line * 128 + 32 * i)
          ((x.writer.map (·.ctx)).getD 0) (.write ((List.range 32).zip x.bytes) ws)

/-- Writes back the dirty sectors of a die's copies that a predicate names; tells how many it has written. -/
def State.writeBackAll (s : State) (d : Nat) (p : L2Line → Bool) : State × Nat :=
  let todo := ((s.dieAt d).l2.filter p).flatMap fun l => (l.sectors.filter fun x => x.2.dirty).map fun x => (l.key, x.1)
  (todo.foldl (fun s x => s.writeBack d x.1 x.2) s, (todo.filter fun x => !s.errors.contains (.l2 d x.1 x.2)).length)

/-- A die's copy of a line is written back and dropped before a home operation from that die, and a fill of it that is
under way is not kept (R229). -/
def State.yieldLine (s : State) (d : Nat) (k : LineKey) : State :=
  ((s.writeBackAll d fun l => l.key == k).1.dropSectors d fun l _ _ => l.key == k).spoilFills fun d' k' _ => d' == d && k' == k

/-! ### Releases and acquires (Table 12.2) -/

/-- The scope reaches beyond the die. -/
def pkgWide : Scope → Bool
  | .pkg | .fab => true
  | _ => false

/-- The REL actions after the queues have drained: dirty sectors on the dirty lists of the mask's colours are written
back, which counts for a launch on a core (R223, R224, R395). -/
def State.releaseDie (s : State) (d launch core : Nat) (mask : BitVec 8) : State :=
  let r := s.writeBackAll d fun l => l.colours &&& mask != 0
  r.1.tallyOf launch core 23 r.2

/-- The ACQ actions: clean sectors of non-home lines under the mask's colours are dropped, lines on peers only at
scope FAB (R223, R225), where the answers of fills under way are not kept either (R228). -/
def State.acquireDie (s : State) (d : Nat) (scope : Scope) (mask : BitVec 8) : State :=
  if pkgWide scope then
    let s := s.dropSectors d fun l _ x => !x.dirty && l.colours &&& mask != 0 && (scope == .fab || l.key.dev.isNone)
    if scope = .fab then s.spoilFills fun d' _ c => d' == d && c &&& mask != 0 else s
  else s

/-- Performs the REL actions for a team's core as far as they can go: none while a queued write waits for a fill. Gives
the number below which requests must be acknowledged (0 below scope FAB).
(DEDUCED, log 56) -/
def State.doRelease (s : State) (core launch : Nat) (scope : Scope) (mask : BitVec 8) : State × Option Nat :=
  if scope = .team then (s, some 0)
  else
    let s := if mask = 0 then s else s.drainCore core
    if mask != 0 && !(s.coreAt core).wq.isEmpty then (s, none)
    else
      let s := if pkgWide scope then s.releaseDie (dieOf core) launch core mask else s
      (s, some (if scope = .fab then s.fabric.nextId else 0))

end Sys2Proof.Machine
end

