-- ==== Sys2Proof/Machine/Life.lean ====
section
/-! DEFINITION. What follows an exit: barriers, collectives, retiring teams and completing launches (R46, R55, R58). -/

namespace Sys2Proof.Machine

/-- All of the team's threads have exited. -/
def Team.allExited (T : Team) : Bool := T.threads.all (·.exited)

/-- Every barrier by level and number (R57). -/
def allBarriers : List (BarLevel × Nat) :=
  (List.range 16).map (fun n => (.team, n)) ++ (List.range 4).map (fun n => (.clus, n)) ++
  (List.range 2).map (fun n => (.grid, n))

/-- Exits count as arrivals (R58): completes every phase of the team's barriers that is now whole. -/
def State.settleBarriers (s : State) (k : TeamKey) : State :=
  match s.launch? k.launch with
  | some L => allBarriers.foldl (fun s p => State.settleBarrier L p.1 p.2 k settleFuel s) s
  | none => s

/-- A command is in flight while it is WAITING or RUNNING (R46, R239). -/
def Cmd.live (c : Cmd) : Bool := c.st == .waiting || c.st == .running

/-- Threads of a group that have exited, and those that have not. -/
def Team.groupThreads (T : Team) (r : LaunchRec) (g : Nat) : List Thread := (T.threads.drop (g * r.width)).take r.width

/-- Bytes of a bank of the exit record: *issued*, then the reasons by code (Table 26.3). -/
def bankBytes (g : Nat) (bank : List DWord) : List Byte :=
  leBytes 2 g ++ leBytes 6 0 ++ (List.range 17).flatMap (fun i => leBytes 8 ((bank[i]?).getD 0).toNat) ++
  List.replicate 112 0

/-- The exit record of a team (Table 26.3). -/
def exitRecord (L : Launch) (T : Team) : List Byte :=
  leBytes 4 L.num ++ leBytes 4 T.key.n ++ leBytes 2 L.rcd.groups ++
  leBytes 2 ((if T.halted then 1 else 0) + (if T.discarded then 2 else 0)) ++ List.replicate 52 0 ++
  (List.range L.rcd.groups).flatMap fun g => bankBytes g ((T.banks[g]?).getD [])

/-- Sends a team's exit record if the launch's mask asks for it (R392). -/
def State.sendExit (s : State) (L : Launch) (T : Team) : State :=
  if L.rcd.profile.getLsbD 17 then s.emit 4 L.num T.key.n (exitRecord L T) else s

/-- The tree reading: sum, minimum, maximum over the cores that held a team, and their number (R395). -/
def State.treeReading (s : State) (L : Launch) : List Byte :=
  if L.rcd.profile.getLsbD 18 then
    let xs := L.held.map fun c => (aget? s.tree (L.num, c)).getD 0
    let lo := xs.foldl min (xs.headD 0)
    leBytes 8 xs.sum ++ leBytes 8 lo ++ leBytes 8 (xs.foldl max 0) ++ leBytes 4 xs.length ++ leBytes 4 0
  else List.replicate 32 0

/-- Completes a launch: the host learns its status, and nothing of it stays (R46, R395). -/
def State.completeLaunch (s : State) (L : Launch) (status : Nat) : State :=
  let s := s.emit 1 L.num noNumber (leBytes 1 status ++ leBytes 7 0 ++ s.treeReading L)
  { s with
    launches := s.launches.filter fun M => M.num != L.num
    teams := s.teams.filter fun T => T.key.launch != L.num
    tree := s.tree.filter fun x => x.1.1 != L.num }

/-- The release of a launch whose teams have all retired, on every die that held one (R379), as far as it can go; when
the planes have acknowledged everything produced before, the host is told DONE. -/
def State.closeLaunch (s : State) (n : Nat) : State :=
  match s.launch? n with
  | none => s
  | some L =>
    match L.closing with
    | none => s
    | some (some upTo) => if s.fabric.settled upTo then s.completeLaunch L 0 else s
    | some none =>
      let s := L.held.foldl (fun s c => s.drainCore c) s
      if L.held.all fun c => (s.coreAt c).wq.isEmpty then
        let s := (L.held.map dieOf).eraseDups.foldl (fun s d => s.releaseDie d n ((L.held.find? fun c => dieOf c == d).getD 0) 0xFF) s
        let upTo := s.fabric.nextId
        if s.fabric.settled upTo then s.completeLaunch L 0
        else s.modLaunch n fun L => { L with closing := some (some upTo) }
      else s

/-- A launch that the host has ended completes HALTED when none of its commands is in flight (R327). -/
def State.closeEnded (s : State) (n : Nat) : State :=
  match s.launch? n with
  | some L =>
    if L.ended && s.teams.all fun T => T.key.launch != n || T.cmds.all fun c => !c.live then s.completeLaunch L 1 else s
  | none => s

/-- Removes the clauses that slices hold fetched for a team, so that it fetches them again (R90). -/
def State.dropFetched (s : State) (k : TeamKey) : State :=
  let drop (x : Slice) : Slice := { x with fetched := x.fetched.filter fun f => f.team != k }
  { s with cores := s.cores.map fun c => { c with slices := c.slices.map drop } }

/-- Removes what slices hold of a team. -/
def State.forgetTeam (s : State) (k : TeamKey) : State :=
  let mine (x : Slice) : Slice :=
    { x with
      fetched := x.fetched.filter fun f => f.team != k
      prev := if (x.prev.map fun p => p.1) = some k then none else x.prev }
  { s with cores := s.cores.map fun c => { c with slices := c.slices.map mine } }

/-- A team with all threads exited and no command in flight retires (R46); a halted one stays resident until it is
resumed.
(DEDUCED, log 38) -/
def State.tryRetire (s : State) (k : TeamKey) : State :=
  match s.team? k, s.launch? k.launch with
  | some T, some L =>
    if L.ended then s.closeEnded L.num
    else if T.allExited && !T.halted && T.cmds.all fun c => !c.live then
      let s := (s.sendExit L T).forgetTeam k
      let s := { s with teams := s.teams.filter fun U => U.key != k }
      let s := s.modLaunch L.num fun L => { L with retired := L.retired + 1 }
      if L.retired + 1 = L.rcd.teams then
        (s.modLaunch L.num fun L => { L with closing := some none }).closeLaunch L.num
      else s
    else s
  | _, _ => s

/-- What follows the exit of threads of some groups of a team. -/
def State.afterExit (s : State) (k : TeamKey) (groups : List Nat) : State :=
  (groups.foldl (fun s g => s.settleGroup k g) (s.settleBarriers k)).tryRetire k

end Sys2Proof.Machine
end

