-- ==== Sys2Proof/Machine/Commands.lean ====
section
/-! DEFINITION. The dependence table (R238-R250): accepting commands, claiming and filling lines, and ending commands with
all that follows from an end. -/

namespace Sys2Proof.Machine

def Team.cmd? (T : Team) (tag : Nat) : Option Cmd := T.cmds.find? fun c => c.tag == tag

def Team.modCmd (T : Team) (tag : Nat) (f : Cmd → Cmd) : Team :=
  { T with cmds := T.cmds.map fun c => if c.tag = tag then f c else c }

def State.cmd? (s : State) (k : TeamKey) (tag : Nat) : Option Cmd := (s.team? k).bind fun T => T.cmd? tag

def State.modCmd (s : State) (k : TeamKey) (tag : Nat) (f : Cmd → Cmd) : State := s.modTeam k fun T => T.modCmd tag f

/-! ### Claims (R191, R214, R249, R250) -/

/-- A command claims lines of a space: each becomes empty and claimed, and those parked on it retry (R191, R192). A
claimant is named by its tag; a multicast of cluster rank k by 256 × (k + 1) + tag. -/
def Team.claim (T : Team) (tile : Bool) (who : Nat) (lines : List Nat) : Team :=
  lines.foldl (fun T line =>
    let x := T.store tile
    let T' := T.setStore tile { x.fill line with claims := x.claims ++ [(line, who)] }
    if x.claimed line then T' else T'.wakeLine tile line) T

/-- A claimant has finished with a line, which is full once no claimant remains (R214, R250). -/
def Team.finishLine (T : Team) (tile : Bool) (who line : Nat) : Team :=
  let x := T.store tile
  let T := T.setStore tile { x with claims := x.claims.filter (· ≠ (line, who)) }
  if (T.store tile).claimed line then T else T.wakeLine tile line

/-- The lines that a claimant still claims. -/
def Store.linesOf (x : Store) (who : Nat) : List Nat := (x.claims.filter fun p => p.2 == who).map (·.1)

/-- Releases every line of a claimant (R250). -/
def Team.releaseLines (T : Team) (who : Nat) : Team :=
  let go (tile : Bool) (T : Team) : Team :=
    ((T.store tile).linesOf who).foldl (fun T line => T.finishLine tile who line) T
  go true (go false T)

/-! ### Multicast (R260-R263) -/

/-- A copy that is a multicast. -/
def Cmd.mcast? (c : Cmd) : Option CopyDesc :=
  match c.body with
  | .copy d => if d.op = 2 then some d else none
  | _ => none

/-- The team of a cluster rank. -/
def rankKey (L : Launch) (k : TeamKey) (rank : Nat) : TeamKey := ⟨k.launch, k.n / L.rcd.cluster * L.rcd.cluster + rank⟩

/-- The receivers that a rank mask names. -/
def receivers (L : Launch) (k : TeamKey) (ranks : Nat) : List TeamKey :=
  ((List.range 8).filter fun r => ranks / 2 ^ r % 2 == 1).map (rankKey L k)

/-- A multicast's name as a claimant.
(DEDUCED, log 62) -/
def claimant (L : Launch) (k : TeamKey) (c : Cmd) : Nat :=
  if c.mcast?.isSome then 256 * (k.n % L.rcd.cluster + 1) + c.tag else c.tag

/-- The teams in which a command claims lines. -/
def claimTeams (L : Launch) (k : TeamKey) (c : Cmd) : List TeamKey :=
  match c.mcast? with
  | some d => receivers L k d.ranks
  | none => [k]

/-! ### Ending (R246-R250) -/

/-- A command leaves the WAITING and RUNNING states: its status and state are set, and one that ends DONE with
free-on-end frees its tag (R239). -/
def Team.setEnd (T : Team) (tag status code : Nat) : Team :=
  let done : Bool := status == 0
  let T := { T with cmds := T.cmds.filter fun c => !(c.tag == tag && c.foe && done) }
  T.modCmd tag fun c =>
    { c with st := if done then .done else .failed, status := status, code := code, parks := [], waits := [], ending := none }

/-- Fences that cover the command no longer wait for it, and report its colour if it failed (R226). -/
def Team.noteFences (T : Team) (tag colour : Nat) (failed : Bool) : Team :=
  { T with fences := T.fences.map fun f =>
      if f.covers.contains tag then
        { f with covers := f.covers.filter (· ≠ tag), failed := if failed then f.failed ||| colourBit colour else f.failed }
      else f }

/-- A thread that waits for a tag to end retries (R321). -/
def Team.wakeTag (T : Team) (tag : Nat) : Team :=
  { T with threads := T.threads.map fun th =>
      match th.wait with
      | some (.tag x ..) => if x = tag then th.wake T.asleep else th
      | _ => th }

/-- Ends a command and, if it fails, those that count it or cover it by their release (R246, R227); `n` bounds the
chain. -/
def State.endChain (k : TeamKey) : Nat → Nat → Nat → Nat → State → State
  | 0, _, _, _, s => s
  | n + 1, tag, status, code, s =>
    match s.team? k, s.launch? k.launch with
    | some T, some L =>
      match T.cmd? tag with
      | none => s
      | some c =>
        if !c.live then s
        else
          let s := match c.st, c.acq, T.place with
            | .running, some a, some _ => s.acquireDie T.die a.scope a.mask
            | _, _, _ => s
          let s := (claimTeams L k c).foldl (fun s r => s.modTeam r fun T => T.releaseLines (claimant L k c)) s
          let s := s.modTeam k fun T => ((T.setEnd tag status code).noteFences tag c.colour (status != 0)).wakeTag tag
          let idle (m : MatRun) : Bool := m.team == k && m.tag == tag
          let s := s.modCore T.core fun x => if (x.mat.map idle).getD false then { x with mat := none } else x
          if status = 0 then
            s.modTeam k fun T => { T with cmds := T.cmds.map fun c => { c with waits := c.waits.filter (· ≠ tag) } }
          else
            let next := (T.cmds.filter fun c => c.st == .waiting && c.waits.contains tag).map (·.tag)
            next.foldl (fun s t => State.endChain k n t 1 0 s) s
    | _, _ => s

/-- Ends a command (R247); the team may then retire (R46). Status 0 is DONE. -/
def State.endCmd (s : State) (k : TeamKey) (tag status code : Nat) : State :=
  (State.endChain k 257 tag status code s).tryRetire k

/-- Joins flags to a command's status word (R131). -/
def State.cmdFlags (s : State) (k : TeamKey) (tag : Nat) (fl : BitVec 5) : State :=
  s.modCmd k tag fun c => { c with flags := c.flags ||| fl }

/-! ### Accepting (R238-R244, R249) -/

/-- What a post asks for once its checks are passed. -/
structure Post where
  foe : Bool
  relaxed : Bool
  colour : Nat
  preds : List Nat
  rel : Option Sync
  acq : Option Sync
  salt : Word
  thread : Nat
  body : Body
  lanes : List Lane
  /-- lines to claim: space, and lines with the last element that writes to each -/
  tile : Bool
  lasts : List (Nat × Nat)
  deriving DecidableEq, Repr, Inhabited

/-- The lowest FREE tag (R240). -/
def Team.freeTag (T : Team) : Option Nat := (List.range Config.tagsPerTeam).find? fun t => (T.cmd? t).isNone

/-- Held commands that a release mask covers (R217). -/
def Team.covered (T : Team) (mask : BitVec 8) : List Cmd := T.cmds.filter fun c => mask &&& colourBit c.colour != 0

/-- Accepts a command on a free tag: counts its predecessors, covers by its release, claims its lines, and ends it at
once if one of those has failed (R244, R227, R249). -/
def State.accept (s : State) (k : TeamKey) (p : Post) (tag : Nat) : State :=
  match s.team? k with
  | none => s
  | some T =>
    let named := T.cmds.filter fun c => p.preds.contains c.tag
    let cov := match p.rel with
      | some r => T.covered r.mask
      | none => []
    let both := named ++ cov
    let failed := both.any fun c => c.st == .failed
    let waits := ((both.filter Cmd.live).map (·.tag)).eraseDups
    let c : Cmd :=
      { tag := tag, seq := T.accepted, st := .waiting, status := 0, code := 0, retired := false, flags := 0, foe := p.foe,
        relaxed := p.relaxed, colour := p.colour, waits := waits, rel := p.rel, acq := p.acq, salt := p.salt,
        thread := p.thread, body := p.body, n := 0, lanes := p.lanes, parks := [], lasts := p.lasts, relUpTo := none,
        ending := none, bad := 0, resid := [], resWait := false, carry := 0, contrib := [], areas := [] }
    let lines := if c.mcast?.isSome then [] else p.lasts.map (·.1)
    let s := s.modTeam k fun T =>
      ({ T with cmds := T.cmds ++ [c], accepted := T.accepted + 1 }).claim p.tile tag lines
    if failed then s.endCmd k tag 1 0 else s

/-! ### Status words and results of posts (Tables 13.2 and 16.7) -/

/-- The status word of a tag; FREE reads zero (R320). -/
def Team.statusWord (T : Team) (tag : Nat) : Word :=
  match T.cmd? tag with
  | none => 0
  | some c =>
    let st := match c.st with
      | .waiting => 1
      | .running => 2
      | .done => 3
      | .failed => 4
    let parked := if c.st == .running && !c.parks.isEmpty then 64 else 0
    BitVec.ofNat 32 (c.code * 2 ^ 24 + st * 2 ^ 16 + c.status * 256 + (if c.retired then 128 else 0) + parked +
      c.flags.toNat)

/-- Reasons of Table 13.3 by their place in the order. -/
def reasonCode : Nat → Nat
  | 1 => 2 | 2 => 8 | 3 => 7 | 4 => 4 | 5 => 5 | 6 => 3 | 7 => 6 | _ => 1

/-- An error word (Table 13.2). -/
def errorWord (order place : Nat) : Word :=
  BitVec.ofNat 32 (2 ^ 31 + (place % 256) * 256 + reasonCode order)

end Sys2Proof.Machine
end

