-- ==== Sys2Proof/Machine/Quant.lean ====
section
/-! DEFINITION. Conversion, scaled blocks and groups, and format slots (R117-R122, R125-R129). -/

namespace Sys2Proof.Machine

/-- A conversion target: a floating format or an integer of a width (Table 07.3). -/
inductive Tgt where
  | flt (f : FFmt)
  | int (signed : Bool) (n : Nat)
  deriving DecidableEq, Repr, Inhabited

/-- The element format of a code; MX codes give their element format (Table 07.3). -/
def tgtOf : Nat → Tgt
  | 0 => .flt fp32 | 1 => .flt fp16 | 2 => .flt bf16 | 3 => .flt fp64
  | 4 | 7 => .flt e4m3 | 5 | 8 => .flt e5m2 | 6 | 9 => .flt e2m1
  | 10 => .int true 8 | 11 => .int false 8 | 12 => .int true 4 | 13 => .int false 4
  | 14 => .int true 16 | 15 => .int false 16 | 16 => .int true 32 | 17 => .int false 32
  | 18 => .int true 64 | _ => .int false 64

def Tgt.width : Tgt → Nat
  | .flt f => f.width
  | .int _ n => n

def Tgt.isInt : Tgt → Bool
  | .int .. => true
  | .flt _ => false

/-- Bounds of an integer target (R125). -/
def intLo (signed : Bool) (n : Nat) : Int := if signed then -(2 ^ (n - 1)) else 0

def intHi (signed : Bool) (n : Nat) : Int := if signed then 2 ^ (n - 1) - 1 else 2 ^ n - 1

/-- The exact value of an integer. -/
def Num.ofInt (x : Int) : Num := .fin (decide (x < 0)) x.natAbs 0

/-- The low n bits of an integer's two's complement. -/
def intBits (n : Nat) (x : Int) : Nat := (x % 2 ^ n).toNat

/-- The value that a code of a target denotes. -/
def Tgt.decode (t : Tgt) (x : Nat) : Num :=
  match t with
  | .flt f => f.decode x
  | .int signed n =>
    let y := x % 2 ^ n
    .ofInt (if signed && decide (2 ^ (n - 1) ≤ y) then (y : Int) - 2 ^ n else y)

/-- The integer that a finite value rounds to, and whether exactly (R123). -/
def roundInt (mode : RMode) (s : Bool) (m : Nat) (e : Int) : Int × Bool :=
  let r := roundTo mode s m e 0
  (if s then -(r.1 : Int) else r.1, r.2)

/-- Convert to a floating format (R125, Table 07.4).
(DEDUCED, log 30) -/
def convertFlt (f : FFmt) (mode : RMode) (sat : Bool) (x : Num) : FRes :=
  match x with
  | .nan sig =>
    match f.top with
    | .none => ⟨0, fNV⟩
    | _ => ⟨f.canonNaN, flagIf fNV sig⟩
  | .inf s =>
    if sat then ⟨f.encode (f.max s), fNX⟩
    else match f.top with
      | .ieee => ⟨f.infBits s, 0⟩
      | .e4m3 => ⟨f.canonNaN, fNV⟩
      | .none => ⟨f.encode (f.max s), fNV⟩
  | .fin s m e =>
    if m = 0 then ⟨f.encode (.fin s 0 0), 0⟩
    else
      let r := f.round mode s m e
      if f.overflows r.n r.q then
        if sat then ⟨f.encode (f.max s), fOF ||| fNX⟩
        else match f.top with
          | .ieee => ⟨f.infBits s, fOF ||| fNX⟩
          | .e4m3 => ⟨f.canonNaN, fOF ||| fNX⟩
          | .none => ⟨f.encode (f.max s), fOF ||| fNX ||| fNV⟩
      else ⟨f.encode (.fin s r.n r.q), roundFlags r.inexact r.tiny⟩

/-- Convert to an integer type (R125, Table 07.4). -/
def convertInt (signed : Bool) (n : Nat) (mode : RMode) (sat : Bool) (x : Num) : FRes :=
  let lo := intLo signed n
  let hi := intHi signed n
  match x with
  | .nan _ => ⟨0, fNV⟩
  | .inf s => ⟨intBits n (if s then lo else hi), if sat then fNX else fNV⟩
  | .fin s m e =>
    let r := roundInt mode s m e
    if r.1 < lo ∨ hi < r.1 then ⟨intBits n (clampI lo hi r.1), if sat then fNX else fNX ||| fNV⟩
    else ⟨intBits n r.1, flagIf fNX (!r.2)⟩

/-- Convert(fmt, mode, sat, x) (R125): the code's bits and the flags. -/
def convert (t : Tgt) (mode : RMode) (sat : Bool) (x : Num) : FRes :=
  match t with
  | .flt f => convertFlt f mode sat x
  | .int signed n => convertInt signed n mode sat x

/-! ### Format slots (Table 07.2) -/

def slotVal (slots : List DWord) (fs : Nat) : Nat := ((slots[fs]?).getD 0).toNat

def slotSat (x : Nat) : Bool := x / 2 ^ 15 % 2 == 1
def slotRound (x : Nat) : Nat := x / 2 ^ 12 % 8
def slotZp (x : Nat) : Bool := x / 2 ^ 11 % 2 == 1
def slotPlace (x : Nat) : Nat := x / 2 ^ 9 % 4
def slotGroupCode (x : Nat) : Nat := x / 2 ^ 7 % 4

/-- Group size: 0, 32, 64 or 128. -/
def slotGroup (x : Nat) : Nat :=
  match slotGroupCode x with
  | 0 => 0 | 1 => 32 | 2 => 64 | _ => 128

/-- MX element formats (Table 07.3). -/
def isMx (fmt : Nat) : Bool := fmt == 7 || fmt == 8 || fmt == 9

/-- Integer formats that groups may scale (R121). -/
def isGroupable (fmt : Nat) : Bool := fmt == 10 || fmt == 11 || fmt == 12 || fmt == 13

/-- A slot that a launch may hold (R120, R121). -/
def slotValid (x : Nat) : Bool :=
  let fmt := x % 32
  decide (x / 65536 = 0) && decide (x / 32 % 4 = 0) && decide (fmt ≤ 19) && decide (slotRound x ≤ 4) &&
  decide (slotPlace x ≤ 1) &&
  (if isMx fmt then slotGroupCode x == 1 && !slotZp x
   else if slotGroupCode x == 0 then !slotZp x && slotPlace x == 0
   else if fmt == 11 || fmt == 13 then slotZp x
   else if fmt == 10 || fmt == 12 then !slotZp x
   else false)

/-! ### Quantisation (R126, R127, R117, R118) -/

/-- x / 2^k, exactly. -/
def Num.scale (x : Num) (k : Int) : Num :=
  match x with
  | .fin s m e => .fin s m (e - k)
  | y => y

/-- A block's or group's codes with its scale, its zero point and the flags. -/
structure Quant where
  scale : Nat
  zero : Nat
  codes : List Nat
  flags : BitVec 5
  deriving DecidableEq, Repr, Inhabited

/-- Converts a list element by element, the mode by position; flags are joined. -/
def convertAll (t : Tgt) (mode : Nat → RMode) (sat : Bool) (xs : List Num) : List Nat × BitVec 5 :=
  let rs := (List.range xs.length).map fun i => convert t (mode i) sat ((xs[i]?).getD (.fin false 0 0))
  (rs.map (·.bits), rs.foldl (fun f r => f ||| r.flags) 0)

/-- The largest magnitude of finite values. -/
def maxAbs (xs : List Num) : Num := xs.foldl (fun a x => if a.lt x.abs then x.abs else a) (.fin false 0 0)

/-- Floor(Log2(m)) of a finite non-zero value. -/
def floorLog2 : Num → Int
  | .fin _ m e => (Nat.log2 m : Int) + e
  | _ => 0

/-- QuantMX (R126); E is the block's exponent. -/
def quantMX (f : FFmt) (mode : Nat → RMode) (sat : Bool) (xs : List Num) : Quant :=
  if xs.any fun x => !x.isFin then ⟨0xFF, 0, xs.map fun _ => 0, fNV⟩
  else
    let m := maxAbs xs
    match m with
    | .fin _ 0 _ =>
      let r := convertAll (.flt f) mode sat xs
      ⟨0, 0, r.1, r.2⟩
    | _ =>
      let emax : Int := match f.ebits with
        | 2 => 2
        | 4 => 8
        | _ => 15
      let e := clampI (-127) 127 (floorLog2 m - emax)
      let r := convertAll (.flt f) mode sat (xs.map fun x => x.scale e)
      ⟨(e + 127).toNat, 0, r.1, r.2⟩

/-- A quotient of finite values; the divisor is not zero. -/
def Num.quot (a b : Num) : Num := (a.div b).1

/-- RoundF16: to FP16 in RNE, clamped to ±65,504, which sets OF where it acts (R127). -/
def roundF16 (x : Num) : FRes :=
  match x with
  | .fin s m e =>
    if m = 0 then ⟨fp16.encode (.fin s 0 0), 0⟩
    else
      let r := fp16.round .rne s m e
      if fp16.overflows r.n r.q then ⟨fp16.encode (fp16.max s), fOF⟩ else ⟨fp16.encode (.fin s r.n r.q), 0⟩
  | y => ⟨fp16.encode y, 0⟩

/-- Rounds x / sigma to an integer, adds z and clamps; NX when it is rounded or clamped (R127, R167). -/
def quantElem (mode : RMode) (x sigma : Num) (z lo hi : Int) : Int × BitVec 5 :=
  match x.quot sigma with
  | .fin s m e =>
    let r := roundInt mode s m e
    let y := r.1 + z
    (clampI lo hi y, flagIf fNX (!r.2 || decide (y < lo) || decide (hi < y)))
  | _ => (0, 0)

/-- QuantGroup (R127); the scale is FP16 bits. -/
def quantGroup (n : Nat) (zp : Bool) (mode : Nat → RMode) (xs : List Num) : Quant :=
  if xs.any fun x => !x.isFin then ⟨0x7E00, 0, xs.map fun _ => 0, fNV⟩
  else
    let zero : Num := .fin false 0 0
    -- a zero scale becomes 1.0 for equal inputs, else the least FP16
    let pick (flat : Bool) (r : FRes) : FRes :=
      if flat then ⟨0x3C00, r.flags⟩ else if r.bits % 2 ^ 15 = 0 then ⟨1, r.flags⟩ else r
    let elems (sigma : Nat) (z lo hi : Int) : List (Int × BitVec 5) :=
      (List.range xs.length).map fun i => quantElem (mode i) ((xs[i]?).getD zero) (fp16.decode sigma) z lo hi
    if zp then
      let lo := xs.foldl (fun a x => if x.lt a then x else a) zero
      let hi := xs.foldl (fun a x => if a.lt x then x else a) zero
      let qmax : Int := 2 ^ n - 1
      let sg := pick (!lo.lt hi) (roundF16 ((Num.sub .rne hi lo).quot (.ofInt qmax)))
      let z := match lo.negate.quot (fp16.decode sg.bits) with
        | .fin s m e => clampI 0 qmax (roundInt .rne s m e).1
        | _ => 0
      let r := elems sg.bits z 0 qmax
      ⟨sg.bits, z.toNat, r.map fun p => p.1.toNat, r.foldl (fun f p => f ||| p.2) sg.flags⟩
    else
      let a := maxAbs xs
      let sg := pick (!zero.lt a) (roundF16 (a.quot (.ofInt (2 ^ (n - 1) - 1))))
      let r := elems sg.bits 0 (-(2 ^ (n - 1))) (2 ^ (n - 1) - 1)
      ⟨sg.bits, 0, r.map fun p => intBits n p.1, r.foldl (fun f p => f ||| p.2) sg.flags⟩

/-- The exact value of an MX element (R117).
(DESIGN CHOICE, log 184) -/
def mxValue (f : FFmt) (scale code : Nat) : Num :=
  if scale = 0xFF then .nan false else (f.decode code).scale (127 - (scale : Int))

/-- The exact value of a group's element under IEEE rules for the scale (R118). -/
def groupValue (t : Tgt) (sigma : Num) (z code : Nat) : Num :=
  match t.decode code with
  | .fin s m e => sigma.mul (Num.add .rne (.fin s m e) (Num.ofInt (-(z : Int))))
  | y => y

end Sys2Proof.Machine
end

