-- ==== Sys2Proof/Machine/Layout.lean ====
section
/-! DEFINITION. Where the elements of a copy lie (R306, R307), with the trailers of grouped and MX rows (R119), and
where matrix operands lie (R270, R271). -/

namespace Sys2Proof.Machine

/-- One side of a copy: kind (0 scratch, 1 tile store, 2 device), base, strides, and the slot where it converts. -/
structure Side where
  kind : Nat
  base : Nat
  str : List Int
  cvt : Bool
  slot : Nat
  esize : Nat
  deriving DecidableEq, Repr, Inhabited

def CopyDesc.src (d : CopyDesc) : Side := ⟨d.skind, d.sbase, d.sstr, d.cvt, d.sslot, d.esize⟩

def CopyDesc.dst (d : CopyDesc) : Side := ⟨d.dkind, d.dbase, d.dstr, d.cvt, d.dslot, d.esize⟩

/-- The element format of a slot. -/
def slotCode (x : Nat) : Nat := x % 32

/-- Elements that share a scale: 32 for MX, the group size, else 0. -/
def slotRun (x : Nat) : Nat := if isMx (slotCode x) then 32 else slotGroup x

/-- Elements of the smallest unit of progress that a slot allows (R252). -/
def slotUnit (x : Nat) : Nat := if slotRun x ≠ 0 then slotRun x else if fmtBits (slotCode x) = 4 then 2 else 1

/-- A side is packed (R307). -/
def Side.packed (x : Side) : Bool := x.cvt && slotUnit x.slot != 1

/-- Bits of an element. -/
def Side.bits (x : Side) : Nat := if x.cvt then fmtBits (slotCode x.slot) else 8 * x.esize

/-- Bytes of an element; 4-bit elements are handled in pairs. -/
def Side.bytes (x : Side) : Nat := if x.bits = 4 then 1 else x.bits / 8

/-- Bytes of one scale: E8M0 or FP16. -/
def slotScaleBytes (x : Nat) : Nat := if isMx (slotCode x) then 1 else if slotGroup x ≠ 0 then 2 else 0

/-- The product of extents (R305). -/
def CopyDesc.count (d : CopyDesc) : Nat := d.ext.foldl (· * ·) 1

def CopyDesc.ext0 (d : CopyDesc) : Nat := d.ext.headD 1

/-- Elements of one unit of progress (R252).
(DEDUCED, log 48) -/
def CopyDesc.unit (d : CopyDesc) : Nat := if d.cvt then max (slotUnit d.sslot) (slotUnit d.dslot) else 1

/-- Σ i_k × str_k over the dimensions, for the index e (R306). -/
def strideSum : List Nat → List Int → Nat → Int
  | x :: xs, y :: ys, e => ((e % x : Nat) : Int) * y + strideSum xs ys (e / x)
  | _, _, _ => 0

/-- Bytes of the elements of one packed row, of its scales and of its zero points (R307). -/
def rowData (bits n : Nat) : Nat := (n * bits + 7) / 8

def rowScales (slot n : Nat) : Nat := if slotRun slot = 0 then 0 else n / slotRun slot * slotScaleBytes slot

def rowZeros (slot n : Nat) : Nat :=
  if slotZp slot then (n / slotGroup slot * fmtBits (slotCode slot) + 7) / 8 else 0

def rowBytes (x : Side) (n : Nat) : Nat := rowData x.bits n + rowScales x.slot n + rowZeros x.slot n

/-- Where the row that holds element e begins. -/
def Side.row (x : Side) (ext : List Nat) (e : Nat) : Int :=
  x.base + strideSum (ext.drop 1) (x.str.drop 1) (e / ext.headD 1)

/-- Where element e lies; of a 4-bit pair, the byte. -/
def Side.elem (x : Side) (ext : List Nat) (e : Nat) : Int :=
  if x.packed then x.row ext e + ((e % ext.headD 1 * x.bits / 8 : Nat) : Int)
  else x.base + strideSum ext x.str e

/-- Where the scale of the run that holds element e lies. -/
def Side.scaleAt (x : Side) (ext : List Nat) (e : Nat) : Int :=
  let n := ext.headD 1
  x.row ext e + ((rowData x.bits n + e % n / slotRun x.slot * slotScaleBytes x.slot : Nat) : Int)

/-- Where the zero point of the run that holds element e lies; the run's number within the row says which half of a
byte holds a 4-bit one. -/
def Side.zeroAt (x : Side) (ext : List Nat) (e : Nat) : Int :=
  let n := ext.headD 1
  x.row ext e + ((rowData x.bits n + rowScales x.slot n + e % n / slotRun x.slot * x.bits / 8 : Nat) : Int)

/-- The places of the elements e, e+1, … (n of them) in one row: address and bytes. Pairs appear once. -/
def Side.dataItems (x : Side) (ext : List Nat) (e n : Nat) : List (Int × Nat) :=
  if x.bits = 4 then (List.range (n / 2)).map fun i => (x.elem ext (e + 2 * i), 1)
  else (List.range n).map fun i => (x.elem ext (e + i), x.bytes)

/-- The places of the scales of n elements from e. -/
def Side.scaleItems (x : Side) (ext : List Nat) (e n : Nat) : List (Int × Nat) :=
  if x.packed && slotRun x.slot != 0 then
    (List.range (n / slotRun x.slot)).map fun i => (x.scaleAt ext (e + i * slotRun x.slot), slotScaleBytes x.slot)
  else []

/-- The places of their zero points. -/
def Side.zeroItems (x : Side) (ext : List Nat) (e n : Nat) : List (Int × Nat) :=
  if x.packed && slotZp x.slot then
    (List.range (n / slotRun x.slot)).map fun i => (x.zeroAt ext (e + i * slotRun x.slot), 1)
  else []

/-- Every place of n elements from e. -/
def Side.items (x : Side) (ext : List Nat) (e n : Nat) : List (Int × Nat) :=
  x.dataItems ext e n ++ x.scaleItems ext e n ++ x.zeroItems ext e n

/-- Lowest and highest address of a side, the end exclusive. -/
def Side.span (x : Side) (ext : List Nat) : Int × Int :=
  let reach (f : Int → Int) : Int := (List.zipWith (fun (n : Nat) (y : Int) => f (((n : Int) - 1) * y)) ext x.str).foldl (· + ·) 0
  let size : Nat := if x.packed then rowBytes x (ext.headD 1) else x.bytes
  (x.base + reach (minI 0), x.base + reach (maxI 0) + size)

/-- The lines of a local destination with the last element that writes to each (R249, R250). -/
def copyLasts (x : Side) (ext : List Nat) (unit : Nat) : Nat → Nat → List (Nat × Nat) → List (Nat × Nat)
  | 0, _, l => l
  | n + 1, e, l =>
    copyLasts x ext unit n (e + unit) ((x.items ext e unit).foldl (fun l p => aset l (p.1.toNat / 128) (e + unit - 1)) l)

/-- Lines that n bytes from a cover. -/
def linesOfRange (a n : Nat) : List Nat := if n = 0 then [] else (List.range ((a + n - 1) / 128 - a / 128 + 1)).map (a / 128 + ·)

/-! ### Matrix operands (R267, R270-R272) -/

def fusionRows : Fusion → Nat
  | .f1x4 => 1 | .f2x2 => 2 | .f4x1 => 4 | .ind => 4

def fusionCols : Fusion → Nat
  | .f1x4 => 4 | .f2x2 => 2 | .f4x1 => 1 | .ind => 4

/-- Row and column block of a sub-array (Table 14.2). -/
def fusionBlock (f : Fusion) (sub : Nat) : Nat × Nat :=
  match f with
  | .f1x4 => (0, sub)
  | .f2x2 => (sub / 2, sub % 2)
  | .f4x1 => (sub, 0)
  | .ind => (sub, sub)

/-- Columns of a C tile (R272). -/
def fusionN : Fusion → Nat
  | .f1x4 => 256 | .f2x2 => 128 | .f4x1 => 64 | .ind => 64

/-- Bytes of one C tile. -/
def fusionTile : Fusion → Nat
  | .ind => 64 * 64 * 4
  | _ => 4 * 64 * 64 * 4

/-- Bytes between slab rows (R270). -/
def slabPitch (slot kstep : Nat) : Nat := kstep * fmtBits (slotCode slot) / 8 + (if slotRun slot ≠ 0 && slotPlace slot = 1 then 16 else 0)

/-- A slab's bytes (R270). -/
def slabBytes (slot kstep : Nat) : Nat := 64 * slabPitch slot kstep

/-- Offset of the slab row that holds row i of block b at step s, among nb blocks (R270). -/
def slabRow (base slot kstep nb s i : Nat) : Nat := base + (s * nb + i / 64) * slabBytes slot kstep + i % 64 * slabPitch slot kstep

/-- Kstep of an operand pair, none for a pair that is no row of Table 14.1. -/
def pairKstep (a b : Nat) : Option Nat :=
  let fa := slotCode a
  let fb := slotCode b
  let fp8 (f : Nat) : Bool := f == 4 || f == 5
  let mx8 (f : Nat) : Bool := f == 7 || f == 8
  let i8 (f : Nat) : Bool := f == 10 || f == 11
  let i4 (f : Nat) : Bool := f == 12 || f == 13
  if fa == 2 && fb == 2 then some 32
  else if fp8 fa && fp8 fb then some 64
  else if mx8 fa && mx8 fb then some 64
  else if fa == 9 && fb == 9 then some 128
  else if (fa == 9 && mx8 fb) || (mx8 fa && fb == 9) then some 64
  else if slotGroup a == slotGroup b then
    if i4 fa && i4 fb then some 128
    else if (i8 fa || i4 fa) && (i8 fb || i4 fb) then some 64
    else none
  else none

/-- A separate scale array is used: grouped or MX, placement 0 (R271). -/
def usesScale (slot : Nat) : Bool := slotRun slot != 0 && slotPlace slot == 0

def usesZero (slot : Nat) : Bool := usesScale slot && slotZp slot

/-- Bytes of a separate scale array of `rows` rows of k elements, and of its zero points (R271). -/
def scaleBytes (slot rows k : Nat) : Nat := rows * (k / slotRun slot) * slotScaleBytes slot

def zeroBytes (slot rows k : Nat) : Nat := (rows * (k / slotRun slot) * fmtBits (slotCode slot) + 7) / 8

end Sys2Proof.Machine
end

