-- ==== Sys2Proof/Machine/Posts.lean ====
section
/-! DEFINITION. CPOST, MPOST, MZERO and MCVT: descriptors, their checks and posting (R240-R243, R300-R313). -/

namespace Sys2Proof.Machine

/-- Bytes o..o+n-1 of a descriptor as a number. -/
def dfield (d : List Byte) (o n : Nat) : Nat := leNat ((d.drop o).take n)

/-- Bits lo..lo+w-1 of byte o. -/
def dbits (d : List Byte) (o lo w : Nat) : Nat := dfield d o 1 / 2 ^ lo % 2 ^ w

/-- A failed check: its place in the order of Table 13.3 and its byte offset or lane. -/
abbrev Chk := Nat × Nat

def chk (order place : Nat) (bad : Bool) : List Chk := if bad then [(order, place)] else []

/-- The first failure: by order, then by offset (R243, R304). -/
def firstChk : List Chk → Option Chk
  | [] => none
  | x :: xs =>
    match firstChk xs with
    | none => some x
    | some y => if x.1 < y.1 || (x.1 == y.1 && x.2 ≤ y.2) then some x else some y

/-- A signed 32-bit field. -/
def dint (d : List Byte) (o : Nat) : Int := (BitVec.ofNat 32 (dfield d o 4)).toInt

def scopeOf : Nat → Scope
  | 0 => .team | 1 => .die | 2 => .pkg | _ => .fab

/-- A release or an acquire field: enabled, scope and mask. -/
def syncOf (en scope mask : Nat) : Option Sync := if en = 1 then some ⟨scopeOf scope, BitVec.ofNat 8 mask⟩ else none

/-- Feature bits that posts use (Table 25.4). -/
def State.feature (s : State) (i : Nat) : Bool := s.features.getLsbD i

/-! ### The header (R302) -/

/-- Checks of a header for the operations that an instruction posts. -/
def headerChk (ops : List Nat) (relaxOk : Bool) (d : List Byte) : List Chk :=
  chk 1 0 (!ops.contains (dfield d 0 1)) ++
  chk 1 1 (dbits d 1 2 6 != 0) ++ chk 1 2 (dbits d 2 3 5 != 0) ++ chk 1 3 (dfield d 3 1 != 0) ++
  chk 1 4 (dbits d 5 0 7 != 0 || (dbits d 5 7 1 == 0 && dfield d 4 1 != 0)) ++
  chk 1 6 (dbits d 7 0 7 != 0 || (dbits d 7 7 1 == 0 && dfield d 6 1 != 0)) ++
  chk 1 8 (dbits d 9 2 1 == 0 && dfield d 8 1 != 0) ++
  chk 1 9 (dbits d 9 3 5 != 0 || (dbits d 9 2 1 == 0 && dbits d 9 0 2 != 0)) ++
  chk 1 10 (dbits d 11 2 1 == 0 && dfield d 10 1 != 0) ++
  chk 1 11 (dbits d 11 3 5 != 0 || (dbits d 11 2 1 == 0 && dbits d 11 0 2 != 0)) ++
  chk 3 1 (dbits d 1 1 1 == 1 && !relaxOk)

/-- The settings of a header with a body and the lines it claims. -/
def headerPost (d : List Byte) (t : Nat) (body : Body) (tile : Bool) (lasts : List (Nat × Nat)) : Post where
  foe := dbits d 1 0 1 == 1
  relaxed := dbits d 1 1 1 == 1
  colour := dbits d 2 0 3
  preds := (if dbits d 5 7 1 = 1 then [dfield d 4 1] else []) ++ (if dbits d 7 7 1 = 1 then [dfield d 6 1] else [])
  rel := syncOf (dbits d 9 2 1) (dbits d 9 0 2) (dfield d 8 1)
  acq := syncOf (dbits d 11 2 1) (dbits d 11 0 2) (dfield d 10 1)
  salt := BitVec.ofNat 32 (dfield d 12 4)
  thread := t
  body := body
  lanes := []
  tile := tile
  lasts := lasts

/-! ### Copies (R305-R309) -/

def copyDim (d : List Byte) : Nat := dbits d 16 0 3

/-- The copy that a descriptor gives, read with its launch's slots. -/
def copyOf (slots : List DWord) (d : List Byte) : CopyDesc where
  op := dfield d 0 1
  skind := dbits d 17 0 2
  dkind := dbits d 17 4 2
  cvt := dbits d 18 7 1 == 1
  sslot := slotVal slots (dbits d 18 0 3)
  dslot := slotVal slots (dbits d 18 4 3)
  esize := 2 ^ dbits d 19 0 3
  ranks := dfield d 20 1
  bufid := dbits d 21 0 2
  sbase := dfield d 24 8
  dbase := dfield d 32 8
  ext := (List.range (copyDim d)).map fun k => dfield d (40 + 2 * k) 2
  sstr := (List.range (copyDim d)).map fun k => dint d (56 + 4 * k)
  dstr := (List.range (copyDim d)).map fun k => dint d (84 + 4 * k)
  resid := dfield d 112 8
  ctag := dfield d 120 2 % 4096
  expect := dfield d 122 2
  cmeth := dfield d 124 1

/-- MALFORMED checks of a copy's body (Table 16.3, R305, R309): an expect of 0 and a cmeth that has no meaning are among
them.
(DEDUCED, log 42) -/
def copyMalformed (d : List Byte) (x : CopyDesc) : List Chk :=
  let op := x.op
  let n := copyDim d
  chk 1 16 (n == 0 || dbits d 16 3 5 != 0) ++
  chk 1 17 (x.skind == 3 || x.dkind == 3 || dbits d 17 2 2 != 0 || dbits d 17 6 2 != 0 || (op == 3 && x.dkind != 2)) ++
  chk 1 18 (dbits d 18 3 1 != 0) ++
  chk 1 19 (dbits d 19 3 5 != 0 || (if x.cvt then dbits d 19 0 3 != 0 else decide (4 < dbits d 19 0 3))) ++
  chk 1 20 (op != 2 && x.ranks != 0) ++
  chk 1 21 (dbits d 21 2 6 != 0 || (op != 2 && x.bufid != 0)) ++
  chk 1 22 (dfield d 22 2 != 0) ++
  chk 1 24 (x.skind != 2 && decide (2 ^ 21 ≤ x.sbase)) ++
  chk 1 32 (x.dkind != 2 && decide (2 ^ 21 ≤ x.dbase)) ++
  (List.range 7).flatMap (fun k =>
    chk 1 (40 + 2 * k) ((k < n) == (dfield d (40 + 2 * k) 2 == 0)) ++
    chk 1 (56 + 4 * k) (decide (n ≤ k) && dfield d (56 + 4 * k) 4 != 0) ++
    chk 1 (84 + 4 * k) (decide (n ≤ k) && dfield d (84 + 4 * k) 4 != 0)) ++
  chk 1 40 (decide (2 ^ 32 - 1 < x.count)) ++
  chk 1 54 (dfield d 54 2 != 0) ++
  chk 1 112 (x.resid != 0 && !x.cvt) ++
  (if op = 3 then
    chk 1 120 (dbits d 121 4 4 != 0) ++ chk 1 122 (x.expect == 0) ++ chk 1 124 (x.cmeth != 2 && x.cmeth != 4) ++
    chk 1 40 (decide (8 * 4096 < x.count * x.dst.bits))
   else chk 1 120 (dfield d 120 2 != 0) ++ chk 1 122 (x.expect != 0) ++ chk 1 124 (x.cmeth != 0)) ++
  chk 1 125 (dfield d 125 3 != 0)

/-- FORMAT checks of one packed side (R307); `o` is the offset of its strides. -/
def sideFormat (x : Side) (ext0 o : Nat) : List Chk :=
  if x.packed then
    chk 2 o (x.str.headD 0 != 0) ++ chk 2 18 (slotRun x.slot != 0 && slotPlace x.slot != 1) ++
    chk 2 40 (ext0 % slotUnit x.slot != 0)
  else []

/-- A contribution's destination format fits its method (R309). Where it does not convert, the destination slot still
names the format that its switch adds, and an element is as wide as that.
(DEDUCED, log 43) -/
def contribFormat (x : CopyDesc) : Bool :=
  (x.cvt || 8 * x.esize == fmtBits (slotCode x.dslot)) && (if x.cmeth = 2 then slotCode x.dslot == 16 else [0, 2, 4, 5].contains (slotCode x.dslot))

/-- ADDRESS, OUT_OF_RANGE and MISALIGNED checks of one side; `b` and `o` are the offsets of base and strides.
(DEDUCED, log 44) -/
def sideChk (r : LaunchRec) (x : Side) (ext : List Nat) (b o : Nat) : List Chk :=
  let sp := x.span ext
  let align : Nat := if x.packed then 4 else x.bytes
  let skip : Nat := if x.packed then 1 else 0
  chk 4 b (x.kind == 2 && decide (2 ^ 56 ≤ x.base)) ++
  chk 5 b (x.kind != 2 && (decide (sp.1 < 0) || decide ((r.visible (x.kind == 1) : Int) < sp.2))) ++
  chk 6 b (x.base % align != 0) ++
  (List.range x.str.length).flatMap fun k =>
    chk 6 (o + 4 * k) (decide (skip ≤ k) && ((x.str[k]?).getD 0) % (align : Int) != 0)

/-- Every check of a copy's body. -/
def copyChk (feat : Nat → Bool) (r : LaunchRec) (d : List Byte) (x : CopyDesc) : List Chk :=
  copyMalformed d x ++ sideFormat x.src x.ext0 56 ++ sideFormat x.dst x.ext0 84 ++
  chk 2 18 (x.op == 3 && !contribFormat x) ++
  chk 3 0 ((x.op == 2 && !feat 7) || (x.op == 3 && !feat 5)) ++
  chk 3 18 (x.cvt && slotRound x.dslot == 4 && !feat 2) ++
  sideChk r x.src x.ext 24 56 ++ sideChk r x.dst x.ext 32 84 ++
  chk 4 112 (decide (2 ^ 56 ≤ x.resid)) ++ chk 6 112 (x.resid % 4 != 0) ++
  (if x.op = 2 then
    chk 7 20 (x.ranks == 0 || decide (2 ^ r.cluster ≤ x.ranks)) ++ chk 7 17 (x.dkind != 0)
   else [])

/-- The lines of a copy's local destination. -/
def CopyDesc.lasts (x : CopyDesc) : List (Nat × Nat) :=
  if x.dkind = 2 then [] else copyLasts x.dst x.ext x.unit (x.count / x.unit) 0 []

/-- What parsing a descriptor gives: failed checks and the post. -/
abbrev Parsed := List Chk × Post

def parseCopy (feat : Nat → Bool) (r : LaunchRec) (t : Nat) (d : List Byte) : Parsed :=
  let x := copyOf r.slots d
  let bad := headerChk [1, 2, 3] (feat 1) d ++ copyChk feat r d x
  (bad, headerPost d t (.copy x) (x.dkind == 1) (if bad.isEmpty then x.lasts else []))

/-! ### Matrix descriptors (R311-R313) -/

def matOf (slots : List DWord) (f : Fusion) (d : List Byte) : MatDesc where
  fusion := f
  steps := dfield d 16 2
  aslot := slotVal slots (dbits d 18 0 3)
  bslot := slotVal slots (dbits d 18 4 3)
  abase := dfield d 20 4
  bbase := dfield d 24 4
  ascale := dfield d 28 4
  azp := dfield d 32 4
  bscale := dfield d 36 4
  bzp := dfield d 40 4
  c := (List.range (if f = .ind then 4 else 1)).map fun k => dfield d (44 + 4 * k) 4

/-- K of an operation (R269). -/
def MatDesc.k (x : MatDesc) : Nat := x.steps * (pairKstep x.aslot x.bslot).getD 0

/-- A range of scratch or tile store lies within the visible bytes. -/
def rangeBad (r : LaunchRec) (tile : Bool) (a n : Nat) : Bool := decide (r.visible tile < a + n)

/-- Checks of one operand: base and separate arrays (R270, R271). -/
def operandChk (r : LaunchRec) (slot kstep steps nb base scale zp ob os oz : Nat) : List Chk :=
  let rows := 64 * nb
  let k := steps * kstep
  chk 1 os (scale != 0 && !usesScale slot) ++ chk 1 oz (zp != 0 && !usesZero slot) ++
  chk 5 ob (rangeBad r false base (steps * nb * slabBytes slot kstep)) ++
  chk 5 os (usesScale slot && rangeBad r false scale (scaleBytes slot rows k)) ++
  chk 5 oz (usesZero slot && rangeBad r false zp (zeroBytes slot rows k)) ++
  chk 6 ob (base % 128 != 0) ++ chk 6 os (usesScale slot && scale % 4 != 0) ++ chk 6 oz (usesZero slot && zp % 4 != 0)

/-- The tile of base k overlaps an earlier one (R268). -/
def tileOverlap (c : List Nat) (k : Nat) : Bool :=
  (c.take k).any fun a => decide (a < c.getD k 0 + 16384) && decide (c.getD k 0 < a + 16384)

def matChk (r : LaunchRec) (d : List Byte) (x : MatDesc) : List Chk :=
  let ks := (pairKstep x.aslot x.bslot).getD 0
  let g := slotGroup x.aslot
  chk 1 16 (x.steps == 0 || decide (2048 < x.steps)) ++ chk 1 18 (dbits d 18 3 1 != 0 || dbits d 18 7 1 != 0) ++
  chk 1 19 (dfield d 19 1 != 0) ++
  (List.range 4).flatMap (fun k =>
    chk 1 (44 + 4 * k) (if x.fusion = .ind then tileOverlap x.c k else k != 0 && dfield d (44 + 4 * k) 4 != 0)) ++
  chk 1 60 (dfield d 60 68 != 0) ++
  chk 2 18 ((pairKstep x.aslot x.bslot).isNone || (g != 0 && x.k % g != 0)) ++
  operandChk r x.aslot ks x.steps (fusionRows x.fusion) x.abase x.ascale x.azp 20 28 32 ++
  operandChk r x.bslot ks x.steps (fusionCols x.fusion) x.bbase x.bscale x.bzp 24 36 40 ++
  (List.range x.c.length).flatMap fun k =>
    let c := x.c.getD k 0
    chk 5 (44 + 4 * k) (rangeBad r true c (fusionTile x.fusion)) ++ chk 6 (44 + 4 * k) (c % 128 != 0)

/-- The lines of C (R274). -/
def MatDesc.lines (x : MatDesc) : List (Nat × Nat) :=
  (x.c.flatMap fun c => linesOfRange c (fusionTile x.fusion)).map fun l => (l, 0)

def parseMat (f : Fusion) (feat : Nat → Bool) (r : LaunchRec) (t : Nat) (d : List Byte) : Parsed :=
  let x := matOf r.slots f d
  let bad := headerChk [0x10] (feat 1) d ++ matChk r d x
  (bad, headerPost d t (.mat x) true (if bad.isEmpty then x.lines else []))

def zeroChk (r : LaunchRec) (d : List Byte) : List Chk :=
  let base := dfield d 16 4
  let n := dfield d 20 4
  chk 1 20 (n % 128 != 0 || n == 0 || decide (786432 < n)) ++ chk 1 24 (dfield d 24 104 != 0) ++
  chk 5 16 (rangeBad r true base n) ++ chk 6 16 (base % 128 != 0)

def parseZero (feat : Nat → Bool) (r : LaunchRec) (t : Nat) (d : List Byte) : Parsed :=
  let base := dfield d 16 4
  let n := dfield d 20 4
  let bad := headerChk [0x11] (feat 1) d ++ zeroChk r d
  (bad, headerPost d t (.zero base n) true (if bad.isEmpty then (linesOfRange base n).map fun l => (l, 0) else []))

def convOf (slots : List DWord) (d : List Byte) : ConvDesc where
  cbase := dfield d 16 4
  rows := dfield d 20 2
  cols := dfield d 22 2
  isInt := dbits d 24 0 1 == 1
  kstep := 32 * 2 ^ dbits d 24 1 2
  dslot := slotVal slots (dbits d 25 0 3)
  dbase := dfield d 28 4
  dscale := dfield d 32 4
  dzp := dfield d 36 4

/-- Bytes of a conversion's slabs (R270 with K' = N). -/
def ConvDesc.slabs (x : ConvDesc) : Nat := x.cols / x.kstep * (x.rows / 64) * slabBytes x.dslot x.kstep

/-- Every check of a conversion's body (Table 16.5, R313, R279). Rows and columns outside their ranges are MALFORMED.
(DESIGN CHOICE, log 161) -/
def convChk (feat : Nat → Bool) (r : LaunchRec) (d : List Byte) (x : ConvDesc) : List Chk :=
  let g := slotRun x.dslot
  chk 1 20 (x.rows % 64 != 0 || x.rows == 0 || decide (4096 < x.rows)) ++
  chk 1 22 (decide (x.cols < 32) || decide (4096 < x.cols)) ++
  chk 1 24 (dbits d 24 3 5 != 0 || dbits d 24 1 2 == 3) ++ chk 1 25 (dbits d 25 3 5 != 0) ++
  chk 1 26 (dfield d 26 2 != 0) ++ chk 1 32 (x.dscale != 0 && !usesScale x.dslot) ++
  chk 1 36 (x.dzp != 0 && !usesZero x.dslot) ++ chk 1 40 (dfield d 40 88 != 0) ++
  chk 2 22 (x.cols % x.kstep != 0 || (g != 0 && x.cols % g != 0)) ++
  chk 2 25 ([3, 18, 19].contains (slotCode x.dslot)) ++
  chk 3 25 (slotRound x.dslot == 4 && !feat 2) ++
  chk 5 16 (rangeBad r true x.cbase (x.rows * x.cols * 4)) ++ chk 5 28 (rangeBad r false x.dbase x.slabs) ++
  chk 5 32 (usesScale x.dslot && rangeBad r false x.dscale (scaleBytes x.dslot x.rows x.cols)) ++
  chk 5 36 (usesZero x.dslot && rangeBad r false x.dzp (zeroBytes x.dslot x.rows x.cols)) ++
  chk 6 16 (x.cbase % 128 != 0) ++ chk 6 28 (x.dbase % 128 != 0) ++
  chk 6 32 (usesScale x.dslot && x.dscale % 4 != 0) ++ chk 6 36 (usesZero x.dslot && x.dzp % 4 != 0)

/-- The lines a conversion writes. -/
def ConvDesc.lines (x : ConvDesc) : List (Nat × Nat) :=
  let l := linesOfRange x.dbase x.slabs ++
    (if usesScale x.dslot then linesOfRange x.dscale (scaleBytes x.dslot x.rows x.cols) else []) ++
    (if usesZero x.dslot then linesOfRange x.dzp (zeroBytes x.dslot x.rows x.cols) else [])
  l.eraseDups.map fun l => (l, 0)

def parseConv (feat : Nat → Bool) (r : LaunchRec) (t : Nat) (d : List Byte) : Parsed :=
  let x := convOf r.slots d
  let bad := headerChk [0x12] (feat 1) d ++ convChk feat r d x
  (bad, headerPost d t (.conv x) false (if bad.isEmpty then x.lines else []))

/-! ### Posting -/

/-- Runs a word whose active threads act on the whole machine in ascending order, each on the state as the threads
before left it; those that park leave the bundle (R189, R240). -/
def engineWord (i : Instr) (stop : Hdr → Cur → State → Nat → Option WordStop)
    (f : Hdr → Cur → State → State) (s : State) : Host.Outcome State Fault Refusal :=
  issueWordOr i stop (fun h c s =>
    let s' := f h c s
    s'.advance c (c.parked s') fun _ => c.nextClause) s

/-- Writes a result to a thread of the running bundle's team. -/
def State.give (s : State) (c : Cur) (h : Hdr) (t : Nat) (d : Opnd) (x : Word) : State :=
  s.modTeam c.b.team fun T => T.commit h t (.reg (w32 d x))

/-- The result of a post for its threads: a tag or an error word; posts are counted, and SPACE_FULL is remembered
(R242, R395, Table 26.2). -/
def State.answerPost (s : State) (c : Cur) (h : Hdr) (ts : List Nat) (d : Opnd) (x : Word) : State :=
  let refused := x.getLsbD 31
  let s := ts.foldl (fun s t => s.give c h t d x) s
  let s := s.modTeam c.b.team fun T => T.onThreads ts fun _ th => { th with spaceFull := x == errorWord 8 0 }
  s.tally c.L c.core (if refused then 19 else 18) 1

/-- Posts what was parsed: the first failed check gives an error word, else the lowest FREE tag is taken (R240-R243). -/
def State.post (s : State) (c : Cur) (h : Hdr) (ts : List Nat) (d : Opnd) (bad : List Chk) (p : Post) : State :=
  match firstChk bad with
  | some x => s.answerPost c h ts d (errorWord x.1 x.2)
  | none =>
    match (s.team? c.b.team).bind Team.freeTag with
    | none => s.answerPost c h ts d (errorWord 8 0)
    | some tag => (s.answerPost c h ts d (BitVec.ofNat 32 tag)).accept c.b.team p tag

/-- One thread's post from a descriptor (R301). -/
def postThread (parse : (Nat → Bool) → LaunchRec → Nat → List Byte → Parsed) (d a : Opnd) (h : Hdr) (c : Cur)
    (s : State) (t : Nat) : State :=
  match s.team? c.b.team with
  | none => s
  | some T =>
    let o := effOffset ((c.env t).r32 a) 0 128
    if !c.L.rcd.inRange false o 128 then s.answerPost c h [t] d (errorWord 5 0)
    else if !T.scratch.full (o / 128) then
      s.modTeam c.b.team fun T => T.parkLine c (s.othersWaiting c.core c.b.team) t false (o / 128)
    else
      let p := parse s.feature c.L.rcd t (T.scratch.bytes.read o 128)
      s.post c h [t] d p.1 p.2

/-- A descriptor post by every active thread (R241). -/
def postWord (i : Instr) (parse : (Nat → Bool) → LaunchRec → Nat → List Byte → Parsed) (d a : Opnd) (s : State) :
    Host.Outcome State Fault Refusal :=
  engineWord i (lineError false (fun c t => effOffset ((c.env t).r32 a) 0 128) 128)
    (fun h c s => (c.active h).foldl (postThread parse d a h c) s) s

def execCpost (h : Hdr) (d a : Opnd) (s : State) : Host.Outcome State Fault Refusal :=
  postWord (.cpost h d a) parseCopy d a s

def execMpost (h : Hdr) (fusion : Fusion) (d a : Opnd) (s : State) : Host.Outcome State Fault Refusal :=
  postWord (.mpost h fusion d a) (parseMat fusion) d a s

def execMzero (h : Hdr) (d a : Opnd) (s : State) : Host.Outcome State Fault Refusal :=
  postWord (.mzero h d a) parseZero d a s

def execMcvt (h : Hdr) (d a : Opnd) (s : State) : Host.Outcome State Fault Refusal :=
  postWord (.mcvt h d a) parseConv d a s

end Sys2Proof.Machine
end

