-- ==== Sys2Proof/Machine/LanePosts.lean ====
section
/-! DEFINITION. VGATH, VSCAT, VSCATR, OCALL and OCALLN: the lane control word, the lanes' checks and posting (R241,
R281, R314-R318). -/

namespace Sys2Proof.Machine

/-- A field of the control word (Table 16.6). -/
def cfield (w : DWord) (lo n : Nat) : Nat := w.toNat / 2 ^ lo % 2 ^ n

/-- Methods ENQ and DEQ. -/
def isEnq (m : Nat) : Bool := m == 21

def isDeq (m : Nat) : Bool := m == 22

/-- The element size that a method fixes (Table 15.2); none where the size field gives it. -/
def fixedSize (m : Nat) : Option Nat :=
  if m == 3 || m == 7 || m == 8 || m == 12 || m == 13 then some 8
  else if (decide (2 ≤ m) && decide (m ≤ 14)) || m == 20 then some 4
  else if isEnq m || isDeq m then some 0
  else none

/-- The element size of a lane form; none for a malformed method or size field (R314). -/
def laneSize (form : LaneForm) (m z : Nat) : Option Nat :=
  let open4 : Option Nat := if z = 2 then some 4 else if z = 3 then some 8 else none
  let byMethod : Option Nat := match fixedSize m with
    | some n => if z = 0 then some n else none
    | none => open4
  match form with
  | .gath | .scat => if m = 0 ∧ z ≤ 4 then some (2 ^ z) else none
  | .scatr => if 2 ≤ m ∧ m ≤ 17 then byMethod else none
  | .call | .calln => if m ≤ 22 ∨ 32 ≤ m then byMethod else none

def LaneForm.isCall : LaneForm → Bool
  | .call | .calln => true
  | _ => false

/-- Bytes of a reply slot (R291). -/
def slotBytes (m : Nat) : Nat := if isDeq m then 64 else 16

/-- Checks of the control word; all report the lane whose word was read (R314). -/
def controlChk (feat : Nat → Bool) (form : LaneForm) (w : DWord) (h0 : Nat) : List Chk :=
  let m := cfield w 26 6
  chk 1 h0 (cfield w 54 10 != 0 || cfield w 3 8 != 0 || (laneSize form m (cfield w 23 3)).isNone ||
    (form.isCall && cfield w 22 1 != 0) || (cfield w 21 1 == 0 && cfield w 13 8 != 0) ||
    (cfield w 53 1 == 0 && (cfield w 51 2 != 0 || cfield w 43 8 != 0)) ||
    (cfield w 42 1 == 0 && (cfield w 40 2 != 0 || cfield w 32 8 != 0))) ++
  chk 3 h0 ((cfield w 12 1 == 1 && !feat 1) || (decide (32 ≤ m) && !feat 0))

/-- Checks of one lane (R315).
(DEDUCED, log 45) -/
def laneChk (r : LaunchRec) (form : LaneForm) (m z : Nat) (tile : Bool) (x : Lane) : List Chk :=
  let off := x.va % 128
  let z := if z = 0 then 1 else z
  chk 4 x.h (decide (2 ^ 56 ≤ x.va)) ++
  (match form with
   | .gath | .scat | .scatr =>
     chk 5 x.h (rangeBad r tile x.loc z) ++ chk 6 x.h (x.loc % z != 0 || x.va % z != 0)
   | .call | .calln =>
     let payload := x.arg0.toNat % 2 ^ 32
     chk 6 x.h (off % z != 0 || ((isEnq m || isDeq m) && off != 0)) ++
     (if form = .call then
       chk 5 x.h (rangeBad r false x.loc (slotBytes m)) ++ chk 6 x.h (x.loc % slotBytes m != 0)
      else []) ++
     (if isEnq m then chk 5 x.h (rangeBad r false payload 32) ++ chk 6 x.h (payload % 32 != 0) else []))

/-- The operands of a lane form: address, local offset or reply slot, control, and whether .a2 is given. -/
structure LaneOps where
  a : Opnd
  b : Opnd
  c : Opnd
  a2 : Bool
  comb : Bool
  deriving DecidableEq, Repr, Inhabited

/-- A 64-bit value of a quad operand. -/
def Env.quad64 (e : Env) (o : Opnd) (j : Nat) : DWord := e.quad o (j + 1) ++ e.quad o j

/-- The lane of a thread (R315). -/
def laneOf (form : LaneForm) (x : LaneOps) (r : LaunchRec) (e : Env) (t : Nat) : Lane where
  h := r.laneOf t
  t := t
  va := (if form.isCall then e.quad64 x.a 0 else e.r64 x.a).toNat
  loc := if form = .calln then 0 else (e.r32 x.b).toNat
  arg0 := if form.isCall then e.quad64 x.a 2 else 0
  arg1 := if x.a2 then e.quad64 x.c 2 else 0
  payload := []
  st := .idle

/-- The lines of the lanes' destination slots (R249). -/
def laneLines (form : LaneForm) (lanes : List Lane) : List (Nat × Nat) :=
  match form with
  | .gath | .call => (lanes.map fun x => x.loc / 128).eraseDups.map fun l => (l, 0)
  | _ => []

/-- What the active threads of one group post: the checks that fail, and the command. The lowest thread's control word
counts, and ENQ's payloads are read at acceptance (R241, R314, R318). -/
def parseLanes (form : LaneForm) (x : LaneOps) (c : Cur) (scratch : Memory) (feat : Nat → Bool) (t0 : Nat)
    (ts : List Nat) : Parsed :=
  let e0 := c.env t0
  let w := if x.a2 then e0.quad64 x.c 0 else e0.r64 x.c
  let m := cfield w 26 6
  let z := (laneSize form m (cfield w 23 3)).getD 1
  let tile := !form.isCall && cfield w 22 1 == 1
  let lanes := ts.map fun t =>
    let l := laneOf form x c.L.rcd (c.env t) t
    if form.isCall && isEnq m then { l with payload := scratch.read (l.arg0.toNat % 2 ^ 32) 32 } else l
  (controlChk feat form w (c.L.rcd.laneOf t0) ++ lanes.flatMap (laneChk c.L.rcd form m z tile),
   { foe := cfield w 11 1 == 1, relaxed := cfield w 12 1 == 1, colour := cfield w 0 3,
     preds := if cfield w 21 1 = 1 then [cfield w 13 8] else [],
     rel := syncOf (cfield w 42 1) (cfield w 40 2) (cfield w 32 8),
     acq := syncOf (cfield w 53 1) (cfield w 51 2) (cfield w 43 8),
     salt := 0, thread := t0, body := .lanes ⟨form, z, m, tile, x.comb⟩, lanes := lanes,
     tile := tile, lasts := laneLines form lanes })

/-- One group's post. -/
def postGroup (form : LaneForm) (x : LaneOps) (d : Opnd) (h : Hdr) (c : Cur) (s : State) (ts : List Nat) : State :=
  match ts with
  | [] => s
  | t0 :: _ =>
    let p := parseLanes form x c (((s.team? c.b.team).map (·.scratch.bytes)).getD []) s.feature t0 ts
    s.post c h ts d p.1 p.2

/-- A thread whose ENQ payload holds an uncorrectable error: the payloads of the posts that will be accepted are
read (R314, R344). -/
def enqError (form : LaneForm) (x : LaneOps) (h : Hdr) (c : Cur) (s : State) (t : Nat) : Option WordStop :=
  if s.errors.isEmpty || !form.isCall then none
  else
    let act := c.active h
    let posts := (act.map c.L.rcd.groupOf).eraseDups.map fun g => act.filter fun t => c.L.rcd.groupOf t == g
    let parse (ts : List Nat) : Parsed := parseLanes form x c c.T.scratch.bytes s.feature (ts.headD 0) ts
    let taken := (posts.filter fun ts => (firstChk (parse ts).1).isNone).take (Config.tagsPerTeam - c.T.cmds.length)
    if !taken.flatten.contains t then none
    else
      let l := laneOf form x c.L.rcd (c.env t) t
      let line := l.arg0.toNat % 2 ^ 32 / 128
      let w := let t0 := ((posts.find? (·.contains t)).bind List.head?).getD t
        if x.a2 then (c.env t0).quad64 x.c 0 else (c.env t0).r64 x.c
      if isEnq (cfield w 26 6) && s.errors.contains (.scratch c.b.team line) then some (.error 5 (line * 128)) else none

/-- A lane form: one command for each group with active threads, in ascending order (R240, R241). -/
def laneWord (i : Instr) (form : LaneForm) (x : LaneOps) (d : Opnd) (s : State) : Host.Outcome State Fault Refusal :=
  engineWord i (enqError form x) (fun h c s =>
    let act := c.active h
    let groups := (act.map c.L.rcd.groupOf).eraseDups
    groups.foldl (fun s g => postGroup form x d h c s (act.filter fun t => c.L.rcd.groupOf t == g)) s) s

def execVgath (h : Hdr) (d a b c : Opnd) (s : State) : Host.Outcome State Fault Refusal :=
  laneWord (.vgath h d a b c) .gath ⟨a, b, c, false, false⟩ d s

def execVscat (h : Hdr) (d a b c : Opnd) (s : State) : Host.Outcome State Fault Refusal :=
  laneWord (.vscat h d a b c) .scat ⟨a, b, c, false, false⟩ d s

def execVscatr (h : Hdr) (d a b c : Opnd) (s : State) : Host.Outcome State Fault Refusal :=
  laneWord (.vscatr h d a b c) .scatr ⟨a, b, c, false, false⟩ d s

def execOcall (h : Hdr) (comb a2 : Bool) (d a b c : Opnd) (s : State) : Host.Outcome State Fault Refusal :=
  laneWord (.ocall h comb a2 d a b c) .call ⟨a, b, c, a2, comb⟩ d s

def execOcalln (h : Hdr) (comb a2 : Bool) (d a c : Opnd) (s : State) : Host.Outcome State Fault Refusal :=
  laneWord (.ocalln h comb a2 d a c) .calln ⟨a, .k1 0, c, a2, comb⟩ d s

end Sys2Proof.Machine
end

