-- ==== Sys2Proof/Machine/Tags.lean ====
section
/-! DEFINITION. Fences and tags: CFENCE, CWAITT, CSTAT, CCANCEL (R223, R226, R248, R319-R323) and FENCE_COMPLETE. -/

namespace Sys2Proof.Machine

/-! ### CFENCE (R319) -/

/-- One thread's fence: it covers the held commands of its colours, those that failed are reported, and the thread
waits in place (R217, R223, R226). -/
def fenceThread (kind : FenceKind) (scope : Scope) (mask : BitVec 8) (d : Opnd) (h : Hdr) (c : Cur) (s : State)
    (t : Nat) : State :=
  s.modTeam c.b.team fun T =>
    let cov := T.covered mask
    let f : Fence :=
      { thread := t, seq := T.accepted, kind := kind, scope := scope, mask := mask,
        covers := (cov.filter Cmd.live).map (·.tag),
        failed := (cov.filter fun x => x.st == .failed).foldl (fun m x => m ||| colourBit x.colour) 0,
        relUpTo := none, under := if s.fabric.phase = .normal then 0 else s.fabric.begun, d := d, ctr := h.ctr }
    ({ T with fences := T.fences ++ [f], accepted := T.accepted + 1 }).modThread t
      (Thread.parkAt c (.fence T.accepted) true)

def execCfence (h : Hdr) (kind : FenceKind) (scope : Scope) (mask : BitVec 8) (d : Opnd) (s : State) :
    Host.Outcome State Fault Refusal :=
  engineWord (.cfence h kind scope mask d) noError
    (fun h c s => (c.active h).foldl (fenceThread kind scope mask d h c) s) s

/-- The fence has performed all of its actions: it leaves the team, its thread receives the result word and goes on
(R319, R325). -/
def State.endFence (s : State) (k : TeamKey) (f : Fence) : State :=
  s.modTeam k fun T =>
    ({ T with fences := T.fences.filter fun g => g.seq != f.seq }).modThread f.thread fun th =>
      (th.deliver f.ctr (w32 f.d (f.failed.setWidth 32)) [] []).wake T.asleep

/-- FENCE_COMPLETE: once every covered command has ended, the fence of a thread performs its REL actions, waits for the
planes at scope FAB, performs its ACQ actions and completes (R223, Table 12.2); one accepted during calving completes under
the new generation only, one of scope FAB in no calving (R226, R372). -/
def execFenceComplete (team : TeamKey) (t : Nat) (s : State) : Host.Outcome State Fault Refusal :=
  match s.team? team with
  | none => .next s
  | some T =>
    match T.fences.find? fun f => f.thread == t with
    | none => .next s
    | some f =>
      if T.place.isNone || !f.covers.isEmpty then .next s
      else
        let acq (s : State) : State := if f.kind = .rel then s else s.acquireDie T.die f.scope f.mask
        let upTo (s : State) : State × Option Nat :=
          match f.relUpTo with
          | some n => (s, some n)
          | none => if f.kind = .acq then (s, some (if f.scope = .fab && f.mask = 0 then s.fabric.nextId else 0))
            else s.doRelease T.core team.launch f.scope f.mask
        match upTo s with
        | (s, none) => .next s
        | (s, some n) =>
          if s.fabric.acked n && (f.scope != .fab || s.fabric.phase == .normal) && decide (f.under ≤ s.fabric.gen) then .next ((acq s).endFence team f)
          else .next (s.modTeam team fun T => { T with fences := T.fences.map fun g =>
            if g.seq = f.seq then { g with relUpTo := some n } else g })

/-! ### CWAITT, CSTAT and CCANCEL (R321) -/

/-- Releases a tag whose command has ended (R239). -/
def Team.release (T : Team) (tag : Nat) : Team := { T with cmds := T.cmds.filter fun c => c.tag != tag || c.live }

/-- Reads a tag: an error word passes through; else `f` acts. -/
def tagThread (d a : Opnd) (f : Nat → State → State) (h : Hdr) (c : Cur) (s : State) (t : Nat) : State :=
  let x := (c.env t).r32 a
  if x.getLsbD 31 then s.give c h t d x else f (x.toNat % 256) s

/-- The status word as it stands. -/
def State.status (s : State) (k : TeamKey) (tag : Nat) : Word := ((s.team? k).map fun T => T.statusWord tag).getD 0

/-- The tag's command has not ended. -/
def State.tagLive (s : State) (k : TeamKey) (tag : Nat) : Bool := ((s.cmd? k tag).map Cmd.live).getD false

def relIf (rel : Bool) (k : TeamKey) (tag : Nat) (s : State) : State :=
  if rel then s.modTeam k fun T => T.release tag else s

/-- CWAITT waits, to be retried, while the command has not ended (R321, R190). -/
def execCwaitt (h : Hdr) (rel : Bool) (d a : Opnd) (s : State) : Host.Outcome State Fault Refusal :=
  engineWord (.cwaitt h rel d a) noError (fun h c s => (c.active h).foldl (fun s t =>
    tagThread d a (fun tag s =>
      if s.tagLive c.b.team tag then
        s.modTeam c.b.team fun T => T.modThread t (Thread.parkAt c (.tag tag rel d h.ctr) false)
      else relIf rel c.b.team tag (s.give c h t d (s.status c.b.team tag))) h c s t) s) s

def execCstat (h : Hdr) (rel : Bool) (d a : Opnd) (s : State) : Host.Outcome State Fault Refusal :=
  engineWord (.cstat h rel d a) noError (fun h c s => (c.active h).foldl (fun s t =>
    tagThread d a (fun tag s => relIf rel c.b.team tag (s.give c h t d (s.status c.b.team tag))) h c s t) s) s

/-- A lane that has left for a caldera is not recalled (R248).
(DEDUCED, log 197) -/
def Cmd.sent (c : Cmd) (x : Lane) : Bool :=
  match c.body, x.st with
  | .lanes d, .issued .. => d.form.isCall || d.form == .scatr
  | _, _ => false

/-- A lane that has been issued and not performed. -/
def Lane.flying (x : Lane) : Bool :=
  match x.st with
  | .issued .. => true
  | _ => false

/-- A lane that is in the collector or issued. -/
def Lane.pending (x : Lane) : Bool :=
  match x.st with
  | .held _ | .issued .. => true
  | _ => false

/-- A lane that waits for nothing more. -/
def Lane.over (x : Lane) : Bool := x.st == .done || x.st == .dropped

/-- Drops the lanes that are neither performed nor kept. -/
def Cmd.dropLanes (c : Cmd) (keep : Lane → Bool) : Cmd :=
  { c with lanes := c.lanes.map fun x => if x.st == .done || keep x then x else { x with st := .dropped } }

/-- A sub-array is within the writing of its block. -/
def SubRun.midBlock (r : SubRun) : Bool := decide (0 < r.rows) && decide (r.rows < 64)

/-- A matrix command has written a block in part (R276). -/
def State.blockBegun (s : State) (k : TeamKey) (tag : Nat) : Bool :=
  s.cores.any fun q => q.mat.any fun m => m.team == k && m.tag == tag &&
    m.subs.any SubRun.midBlock

/-- What a command has begun must end first: a unit whose residual write to a peer is under way (R251, R361), or a block
of a matrix command (R276). -/
def State.cmdBusy (s : State) (k : TeamKey) (c : Cmd) : Bool := c.resWait || s.blockBegun k c.tag

/-- The status and code with which a command ends: METHOD_FAULT precedes DATA_ERROR (R320). -/
def Cmd.endAs (c : Cmd) (status code : Nat) : Nat × Nat := if status = 5 ∧ c.bad = 4 then (4, 0) else (status, code)

/-- Stops a command with a status, keeping what is issued and not recalled (R248, R333), with the answers that kept lanes
wait to act on: it ends at once, or when the last of that has been performed. -/
def State.stopCmd (s : State) (k : TeamKey) (tag status code : Nat) (keep : Cmd → Lane → Bool) : State :=
  match s.cmd? k tag with
  | none => s
  | some c =>
    if !c.live then s
    else
      let left := c.lanes.any (keep c)
      let s := s.modCmd k tag fun c => { c.dropLanes (keep c) with
        parks := c.parks.filter fun p => c.lanes.any fun x => x.st == .parked && keep c x && p.lanes.contains x.h }
      if c.st == .running && (left || s.cmdBusy k c) then s.modCmd k tag fun c => { c with ending := some (status, code) }
      else
        let e := c.endAs status code
        s.endCmd k tag e.1 e.2

/-- Cancels a command (R248). -/
def State.cancelCmd (s : State) (k : TeamKey) (tag : Nat) : State :=
  match s.cmd? k tag with
  | some c => if c.live && c.ending.isNone then s.stopCmd k tag 2 0 Cmd.sent else s
  | none => s

/-- CCANCEL writes the status word as it stood, then acts (R321, R248). -/
def execCcancel (h : Hdr) (d a : Opnd) (s : State) : Host.Outcome State Fault Refusal :=
  engineWord (.ccancel h d a) noError (fun h c s => (c.active h).foldl (fun s t =>
    tagThread d a (fun tag s => (s.give c h t d (s.status c.b.team tag)).cancelCmd c.b.team tag) h c s t) s) s

end Sys2Proof.Machine
end

