-- ==== Sys2Proof/Machine/Engines.lean ====
section
/-! DEFINITION. What every engine does: it translates through the TLBs (R235), parks on faults and is answered (R328-R334),
reads at homes (R308), and starts commands (R245). -/

namespace Sys2Proof.Machine

/-! ### Translation (R235) -/

/-- An access of an engine: address (a sum may leave the address space, R306), kind, and the side of its command. -/
structure Acc where
  va : Int
  acc : Access
  side : Nat
  deriving DecidableEq, Repr, Inhabited

/-- What the core's micro-TLB says of an access. -/
inductive Resolved where
  | ok (w : Where)
  | miss
  | fault (cause base size : Nat) (dev : Option Nat)
  deriving DecidableEq, Repr, Inhabited

def TrResult.resolved : TrResult → Resolved
  | .ok w => .ok w
  | .fault c b n d => .fault c b n d

/-- An access through a core's micro-TLB; an address outside the space is not present (R306). -/
def State.resolve (s : State) (core ctx : Nat) (a : Acc) : Resolved :=
  if a.va < 0 ∨ 2 ^ 56 ≤ a.va then .fault 1 (a.va % 2 ^ 64).toNat 1 none
  else match s.context? ctx with
    | none => .fault 1 0 (2 ^ 56) none
    | some c =>
      match (s.coreAt core).utlb.find? fun x => x.hit ctx a.va.toNat with
      | none => .miss
      | some x => (s.underEntry c x a.va.toNat a.acc).resolved

/-- Fetches the translation of an address into the core's micro-TLB: from the die's TLB, else by a walk, which may
fault (R235). -/
def State.loadTlb (s : State) (core ctx va victim : Nat) : State × Resolved :=
  match s.context? ctx with
  | none => (s, .fault 1 0 (2 ^ 56) none)
  | some c =>
    let d := dieOf core
    match s.dieEntry d c va with
    | .fault cause base size => (s, .fault cause base size none)
    | .leaf base size e =>
      ((s.loadDie d ctx va victim).modCore core fun q => { q with utlb := putTlb 256 victim q.utlb ⟨ctx, base, size, e⟩ }, .miss)

/-! ### Faults (R331) -/

def accessCode : Access → Nat
  | .read | .fetch => 0
  | .write => 1
  | .home => 2
  | .resRead => 3
  | .resWrite => 4

/-- A type-1 record (Tables 21.2 and 21.3). `what` is a copy's element index or a lane mask.
(DEDUCED, log 46) -/
def faultRec (k : TeamKey) (ctx tag thread : Nat) (a : Acc) (cause what : Nat) (dev : Option Nat) : FaultRec where
  type := 1
  cause := cause
  answer := true
  ctx := ctx
  launch := k.launch
  team := k.n
  thread := thread
  f24 := BitVec.ofInt 64 a.va
  f32 := BitVec.ofNat 64 what
  f40 := BitVec.ofNat 64 (what / 2 ^ 64)
  f48 := BitVec.ofNat 64 (tag + accessCode a.acc * 2 ^ 16 + a.side * 2 ^ 24 + (dev.getD noNumber) * 2 ^ 32)
  f56 := 0

/-- A mask of lanes. -/
def laneBits (l : List Nat) : Nat := l.foldl (fun m h => m ||| 2 ^ h) 0

/-- Parks a command on a fault and sends its record (R251, R253, R328, R331). -/
def State.park (s : State) (T : Team) (L : Launch) (c : Cmd) (a : Acc) (cause base size : Nat) (dev : Option Nat)
    (lanes : List Nat) (thread : Nat) : State :=
  let d := T.die
  let p : Park := ⟨d, s.recordSeq d, (a.va % 2 ^ 64).toNat, base, size, lanes, none⟩
  let what := if c.lanes.isEmpty then c.n else laneBits lanes
  let s := s.record d { faultRec T.key L.ctx c.tag thread a cause what dev with link := some c.seq }
  let s := s.tally L T.core 20 (if c.lanes.isEmpty then 1 else lanes.length)
  s.modCmd T.key c.tag fun c =>
    { c with
      parks := c.parks ++ [p]
      lanes := c.lanes.map fun x => if lanes.contains x.h then { x with st := .parked } else x }

/-- The firmware takes a die's signals and moves `consumed` past the records that it has finished reading; how many of
them these are is free (R329).
(DEDUCED, log 170) -/
def State.firmwareReads (s : State) (die : Nat) : State :=
  let n := s.produced die - s.consumed die
  let k := (Config.freeField 14 (s.produced die)).toNat % (n + 1)
  (s.homeWrite ((s.dieAt die).ringBase + 8) (leBytes 8 (s.consumed die + k))).modDie die fun D => { D with signals := 0 }

/-- FAULT_RECORD_DEFERRED: when a slot frees, the oldest record held back is written (R328), and the command that it was
raised for, if it is parked still, or the trap state of its team, learns its number (R332, Table 21.4). Where no slot is free, or no record is held back, the firmware reads on first (R329). -/
def execFaultRecordDeferred (die : Nat) (s : State) : Host.Outcome State Fault Refusal :=
  match (s.dieAt die).deferred with
  | [] => .next (s.firmwareReads die)
  | r :: rest =>
    let s := if s.ringFull die then s.firmwareReads die else s
    if s.ringFull die then .next s
    else
      let seq := (s.dieAt die).seq
      let s := (s.modDie die fun D => { D with deferred := rest }).writeRecord die r
      if r.type = 1 then
        .next (s.modCmd ⟨r.launch, r.team⟩ (r.f48.toNat % 256) fun c =>
          if r.link = some c.seq then
            { c with parks := c.parks.map fun p =>
                if p.die = die ∧ p.seq = none ∧ p.va = r.f24.toNat then { p with seq := some seq } else p }
          else c)
      else if r.type = 2 then
        .next (s.modTeam ⟨r.launch, r.team⟩ fun T => { T with
          records := T.records.map fun x => if x.1.link = r.link ∧ x.2 = none then (x.1, some seq) else x })
      else .next s

/-! ### The firmware's answers (R332, R333) -/

/-- The command that waits for the answer to a record, which no earlier answer has settled. -/
def State.parkedOn (s : State) (die : Nat) (seq : Word) : Option (TeamKey × Nat × Park) :=
  s.teams.findSome? fun T => T.cmds.findSome? fun c =>
    if c.live then
      (c.parks.find? fun p => p.die == die && p.seq == some seq && p.answer.isNone).map fun p => (T.key, c.tag, p)
    else none

/-- The number after the last lane that has entered a core's collector; each lane that enters takes one. -/
def enterLanes (n : Nat) (p : Lane → Bool) : List Lane → List Lane × Nat
  | [] => ([], n)
  | x :: xs =>
    if p x then
      let r := enterLanes (n + 1) p xs
      ({ x with st := .held n } :: r.1, r.2)
    else
      let r := enterLanes n p xs
      (x :: r.1, r.2)

/-- A lane that a core's collector holds, by number of entry, team, tag and home lane. -/
structure HeldLane where
  entry : Nat
  team : TeamKey
  tag : Nat
  h : Nat
  deriving DecidableEq, Repr, Inhabited

/-- The lanes that a core's collector holds. -/
def State.heldLanes (s : State) (core : Nat) : List HeldLane :=
  (s.teams.filter fun T => T.place.isSome && T.core == core && !T.stopping).flatMap fun T => T.cmds.flatMap fun c =>
    if c.live then c.lanes.filterMap fun x =>
      match x.st with
      | .held e => some ⟨e, T.key, c.tag, x.h⟩
      | _ => none
    else []

/-- The collector of a core has room for n more lanes (R15).
(DEDUCED, log 152) -/
def State.collectorTakes (s : State) (core n : Nat) : Bool :=
  decide ((s.heldLanes core).length + n ≤ Config.collectorRequests)

/-- Lanes of a command enter the collector of its core (R256). -/
def State.collect (s : State) (k : TeamKey) (tag : Nat) (p : Lane → Bool) : State :=
  match s.team? k, s.cmd? k tag with
  | some T, some c =>
    let r := enterLanes (s.coreAt T.core).entered p c.lanes
    (s.modCore T.core fun q => { q with entered := r.2 }).modCmd k tag fun c => { c with lanes := r.1 }
  | _, _ => s

/-- RESUME is the action of an answer that is kept. -/
def Park.resumes (p : Park) : Bool := p.answer.any fun w => w.toNat / 2 ^ 32 % 256 == 1

/-- What a command whose record p is answered CANCEL still waits for: lanes that have been issued, and lanes on other
pages that the collector holds or that a RESUME has answered (R333).
(DEDUCED, log 182) -/
def cancelKeeps (p : Park) (c : Cmd) (x : Lane) : Bool :=
  x.flying || (x.pending && !(decide (p.base ≤ x.va) && decide (x.va < p.base + p.size))) ||
  (x.st == .parked && c.parks.any fun q => q.resumes && q.lanes.contains x.h)

/-- Applies an answer to a parked command: RESUME translates again, once the collector has room, CANCEL ends it
FAULT_CANCELLED (R333). -/
def State.applyAnswer (s : State) (k : TeamKey) (tag : Nat) (p : Park) (w : DWord) : State :=
  let parks (f : List Park → List Park) : State := s.modCmd k tag fun c => { c with parks := f c.parks }
  if w.toNat / 2 ^ 32 % 256 = 1 then
    if s.collectorTakes (((s.team? k).map Team.core).getD 0) p.lanes.length then
      (parks fun l => l.filter (· ≠ p)).collect k tag fun x => p.lanes.contains x.h && x.st == .parked
    else parks fun l => l.map fun q => if q = p then { q with answer := some w } else q
  else s.stopCmd k tag 3 (w.toNat / 2 ^ 40 % 256) (cancelKeeps p)

/-- Lanes of running commands of a team that is placed enter the collector as it has room, and answers that are kept are
applied (R256, R333, R338). -/
def State.admitLanes (s : State) (k : TeamKey) : State :=
  (((s.team? k).map (·.cmds)).getD []).foldl (fun s c =>
    if c.st != .running then s
    else
      let n := (c.lanes.filter fun x => x.st == .idle).length
      let s := if n ≠ 0 ∧ s.collectorTakes (((s.team? k).map Team.core).getD 0) n then s.collect k c.tag fun x => x.st == .idle
        else s
      c.parks.foldl (fun s p => match p.answer with
        | some w => s.applyAnswer k c.tag p w
        | none => s) s) s

/-- An answer at a die's fault response port (R329, R332). One for a team that is saved is kept until it is placed
again (R338). -/
def State.answer (s : State) (die : Nat) (w : DWord) : State :=
  let action := w.toNat / 2 ^ 32 % 256
  match s.parkedOn die (w.setWidth 32) with
  | some (k, tag, p) =>
    if w.toNat / 2 ^ 48 ≠ 0 ∨ (action ≠ 1 ∧ action ≠ 2) then s.bumpRing die 24
    else if ((s.team? k).bind (·.place)).isSome then s.applyAnswer k tag p w
    else s.modCmd k tag fun c => { c with parks := c.parks.map fun q => if q = p then { q with answer := some w } else q }
  | none => s.bumpRing die 24

/-- The action of an answer is CANCEL. -/
def isCancel (w : DWord) : Bool := w.toNat / 2 ^ 32 % 256 == 2

/-- FAULT_ANSWER_RESUME: an answer word whose action is not CANCEL; one with another action than RESUME is ignored. -/
def execFaultAnswerResume (die : Nat) (w : DWord) (s : State) : Host.Outcome State Fault Refusal :=
  if isCancel w then .next s else .next (s.answer die w)

/-- FAULT_ANSWER_CANCEL. -/
def execFaultAnswerCancel (die : Nat) (w : DWord) (s : State) : Host.Outcome State Fault Refusal :=
  if isCancel w then .next (s.answer die w) else .next s

/-! ### Home reads and data errors -/

/-- Reads bytes of one line of this device at their home, as a home operation from a die does: the die's own writes and
copy go first (R229). -/
def State.readHome (s : State) (core : Nat) (k : LineKey) (off n : Nat) : Rd × State :=
  let s := (s.drainCore core)
  if (s.coreAt core).wq.any fun w => w.key == k then (.wait, s)
  else
    let s := s.yieldLine (dieOf core) k
    match s.badAt (k.line * 128 + off) with
    | some cause => (.bad cause k off, s)
    | none => (.ok (s.mem.read (k.line * 128 + off) n), s)

/-- Writes bytes of one line of this device at their home (R229, R308). -/
def State.writeHome (s : State) (w : Writer) (core : Nat) (k : LineKey) (off : Nat) (bs : List Byte) : State :=
  (s.yieldLine (dieOf core) k).engineWrite [(w, lineMask 0 bs.length)] (k.line * 128 + off) bs

/-- A type-4 record of data that a command met (R343): the place is a line of memory for causes 3 and 4, and an offset
in the team's scratch or tile store for causes 5 and 6, where no instruction word is at hand.
(DEDUCED, log 52) -/
def State.dataError (s : State) (T : Team) (L : Launch) (c : Cmd) (cause : Nat) (k : LineKey) (off : Nat) : State :=
  let r := dataErrorRec cause L.ctx T.key.launch k
  s.record T.die (if cause ≤ 4 then r else
    { r with team := T.key.n, thread := c.thread, f24 := BitVec.ofNat 64 (off / 128 * 128), f32 := 0 })

/-! ### Starting commands (R245) -/

/-- A fence accepted before the command and not complete holds it back (R218). -/
def Team.fenceHeld (T : Team) (c : Cmd) : Bool :=
  T.fences.any fun f => decide (f.seq < c.seq) && f.mask &&& colourBit c.colour != 0

/-- The conditions of R245 that need no action. -/
def Team.mayStart (T : Team) (c : Cmd) : Bool :=
  c.st == .waiting && c.waits.isEmpty && !T.fenceHeld c && T.place.isSome && !T.stopping

/-- The release of a command that may start: its REL actions, then the plane wait (R227). The flag says that it is
over. -/
def State.startRelease (s : State) (T : Team) (c : Cmd) : State × Bool :=
  match c.rel with
  | none => (s, true)
  | some r =>
    let settle (s : State) (n : Nat) : Bool := s.fabric.acked n && (r.scope != .fab || s.fabric.phase == .normal)
    match c.relUpTo with
    | some n => (s, settle s n)
    | none =>
      match s.doRelease T.core T.key.launch r.scope r.mask with
      | (s, none) => (s, false)
      | (s, some n) => (s.modCmd T.key c.tag fun c => { c with relUpTo := some n }, settle s n)

/-- The accumulators of a sub-array at the start of a matrix command (R273). -/
def loadBlock (T : Team) (x : MatDesc) (sub : Nat) : List Word :=
  let n := fusionN x.fusion
  let rc := fusionBlock x.fusion sub
  let base := match x.fusion with
    | .ind => (x.c[sub]?).getD 0
    | _ => (x.c.headD 0) + 4 * (rc.1 * 64 * n + rc.2 * 64)
  (List.range 4096).map fun i => BitVec.ofNat 32 (T.tile.bytes.readNat (base + 4 * (i / 64 * n + i % 64)) 4)

/-- A command leaves WAITING: its lanes enter the collector, a matrix operation takes the sub-arrays (R256, R276). -/
def State.begin (s : State) (T : Team) (c : Cmd) : State :=
  let s := s.modCmd T.key c.tag fun c => { c with st := .running }
  match c.body with
  | .lanes _ => s.collect T.key c.tag fun x => x.st == .idle
  | .mat x =>
    s.modCore T.core fun q => { q with
      mat := some ⟨T.key, c.tag, (List.range 4).map fun i => ⟨0, loadBlock T x i, List.replicate 4096 0, List.replicate 4096 0, 0⟩⟩ }
  | .zero .. | .conv _ => s.modCore T.core fun q => { q with mat := some ⟨T.key, c.tag, []⟩ }
  | .copy _ => s

/-- What the command needs is free: the matrix engine runs one command at a time, so that a command starts when the one
before has ended (R276), and the collector has room for its lanes (R15).
(DESIGN CHOICE, log 153) -/
def State.engineFree (s : State) (T : Team) (c : Cmd) : Bool :=
  match c.body with
  | .mat _ | .zero .. | .conv _ => (s.coreAt T.core).mat.isNone
  | .lanes _ => s.collectorTakes T.core (c.lanes.filter fun x => x.st == .idle).length
  | .copy _ => true

/-- COMMAND_START: a WAITING command whose conditions hold performs its release and starts (R245, R227). A multicast
starts by MULTICAST_RELEASE. -/
def execCommandStart (team : TeamKey) (tag : Nat) (s : State) : Host.Outcome State Fault Refusal :=
  match s.team? team, s.cmd? team tag with
  | some T, some c =>
    if T.mayStart c && s.engineFree T c && c.mcast?.isNone then
      match s.startRelease T c with
      | (s, true) => .next (s.begin T c)
      | (s, false) => .next s
    else .next s
  | _, _ => .next s

/-- A receiver's input at the AND-tree: armed, or retired (R261). -/
def State.inputHigh (s : State) (L : Launch) (d : CopyDesc) (k : TeamKey) : Bool :=
  match s.team? k with
  | some T => T.mcast.getLsbD d.bufid && !T.halted && T.place.isSome
  | none => decide (k.n < L.nextTeam)

/-- MULTICAST_RELEASE: when every receiver is armed or has retired, the signals are lowered, the lines are claimed in
every receiver that is there, and the copy starts (R261, R262). -/
def execMulticastRelease (team : TeamKey) (tag : Nat) (s : State) : Host.Outcome State Fault Refusal :=
  match s.team? team, s.cmd? team tag, s.launch? team.launch with
  | some T, some c, some L =>
    match c.mcast? with
    | some d =>
      if T.mayStart c then
        match s.startRelease T c with
        | (s, false) => .next s
        | (s, true) =>
          let rs := receivers L team d.ranks
          if rs.all (s.inputHigh L d) then
            let lower (R : Team) : Team := { R with mcast := R.mcast &&& ~~~(BitVec.ofNat 4 (2 ^ d.bufid)) }
            let s := rs.foldl (fun s r => s.modTeam r fun R =>
              (lower R).claim false (claimant L team c) (c.lasts.map (·.1))) s
            .next (s.begin T c)
          else .next s
      else .next s
    | none => .next s
  | _, _, _ => .next s

end Sys2Proof.Machine
end

