-- ==== Sys2Proof/Machine/Peers.lean ====
section
/-! DEFINITION. Requests from peers (R356-R362, R370) and contribution pieces that land here (R366, R367). -/

namespace Sys2Proof.Machine

/-! ### Accepting (R370) -/

/-- Numbers that follow the mark and are accepted move the mark. -/
def RecvPath.advance : Nat → RecvPath → RecvPath
  | 0, r => r
  | n + 1, r =>
    if r.window.getLsbD 0 then RecvPath.advance n { r with mark := r.mark + 1, window := r.window >>> 1 } else r

/-- Records a number; none if it is accepted already or lies beyond the window.
(DESIGN CHOICE, log 187) -/
def RecvPath.accept (r : RecvPath) (n : BitVec 32) : Option RecvPath :=
  let i := (n - r.mark - 1).toNat
  if i < 256 ∧ r.window.getLsbD i = false then
    some (RecvPath.advance 256 { r with window := r.window ||| (1 <<< i) })
  else none

/-- A path on which nothing has arrived. -/
def RecvPath.fresh (source plane : Nat) : RecvPath := ⟨source, plane, 0xFFFFFFFF, 0, [], []⟩

def Fabric.recv (f : Fabric) (source plane : Nat) : RecvPath :=
  (f.recvs.find? fun r => r.source == source && r.plane == plane).getD (.fresh source plane)

def Fabric.setRecv (f : Fabric) (x : RecvPath) : Fabric :=
  if f.recvs.any fun r => r.source == x.source && r.plane == x.plane then
    { f with recvs := f.recvs.map fun r => if r.source = x.source ∧ r.plane = x.plane then x else r }
  else { f with recvs := f.recvs ++ [x] }

/-- Every number up to this one has been accepted. -/
def RecvPath.reached (r : RecvPath) (n : BitVec 32) : Bool := !before32 r.mark n

/-! ### Writes at home -/

/-- A line meets a range. -/
def Range.holds (r : Range) (k : LineKey) : Bool :=
  k.dev == r.dev && decide (r.dpa < k.line * 128 + 128) && decide (k.line * 128 < r.dpa + r.len)

/-- Drops every copy of a range's lines in the package's L2s; dirty sectors are discarded (R236). -/
def State.dropCopies (s : State) (r : Range) : State :=
  (List.range Config.dies).foldl (fun s d => s.dropSectors d fun l _ _ => r.holds l.key) s

/-- Zeroes bytes of this device at their homes, after every copy has been dropped (R236); errors of lines that are
replaced whole end (R298). -/
def State.zeroHome (s : State) (dpa n : Nat) : State :=
  let s := s.dropCopies ⟨none, dpa, n⟩
  { s with
    mem := s.mem.clear dpa n
    errors := s.errors.filter fun e =>
      match e with
      | .hbm l => !(decide (dpa ≤ l * 128) && decide (l * 128 + 128 ≤ dpa + n))
      | .l2 _ k _ => !(k.dev.isNone && decide (dpa ≤ k.line * 128) && decide (k.line * 128 + 128 ≤ dpa + n))
      | _ => true }

/-- Writes single bytes at their homes. -/
def State.homeBytes (s : State) (dpa : Nat) (bs : List (Nat × Byte)) : State :=
  bs.foldl (fun s b => s.homeWrite (dpa + b.1) [b.2]) s

/-- A peer's write arrives at its home, with what each of the peer's commands wrote of it (R298). -/
def State.peerBytes (s : State) (source dpa : Nat) (bs : List (Nat × Byte)) (ws : List (Writer × BitVec 128)) : State :=
  (s.noteRewrite (dpa / 128) (shiftMasks (dpa % 128) (ws.map fun x => ({ x.1 with dev := some source }, x.2)))).homeBytes dpa bs

/-- The DPA of an offset from the base of an area. -/
def areaDpa : List (Nat × Nat) → Nat → Nat
  | [], off => off
  | [x], off => x.2 + (off - x.1)
  | x :: y :: l, off => if off < y.1 then x.2 + (off - x.1) else areaDpa (y :: l) off

/-- Writes a contribution's bytes from an offset of its area on, each at its home; a line that they replace whole loses its
errors (R298). -/
def State.areaWrite (s : State) (p : Piece) (off : Nat) (bs : List Byte) : State :=
  let at_ := (List.range bs.length).map fun i => areaDpa p.pages ((off + i) % 2 ^ 56)
  let lines := at_.map (· / 128)
  (lines.eraseDups.filter fun l => lines.count l == 128).foldl State.lineReplaced (s.homeBytes 0 (at_.zip bs))

/-- The landing word's offset: the area rounded up to 128 bytes (R366). -/
def landingOff (nb : Nat) : Nat := (nb + 127) / 128 * 128

/-- Writes a little-endian number at its home. -/
def State.homeNat (s : State) (dpa n x : Nat) : State := s.homeWrite dpa (leBytes n x)

/-- A delivered piece lands (R366): a full delivery in the result area, any other in a fallback slot it takes; then its
count is added to the landing word. Every place is found by its offset from the area's base. -/
def State.land (s : State) (p : Piece) : State :=
  let na := landingOff p.nb
  let word := areaDpa p.pages na
  let s :=
    if p.full then s.areaWrite p p.first p.data
    else
      let k := s.mem.readNat (word + 4) 4
      let s := s.homeNat (word + 4) 4 (k + 1)
      let slot := na + 128 + k * (na + 128)
      ((s.areaWrite p (slot + 128 + p.first) p.data).areaWrite p slot (leBytes 4 (if p.block < 32 then 2 ^ p.block else 0))).areaWrite p
        (slot + 4) (leBytes 4 p.count)
  s.homeNat word 4 (s.mem.readNat word 4 + p.count)

/-! ### Caldera buffers (R21, R283) -/

/-- The home die and slice of a request's object (R21). -/
def Request.die (r : Request) : Nat := dpaDie (r.key.line * 128)

def Request.slice (r : Request) : Nat := homeSlice (r.key.line * 128)

/-- The waiting requests of one caldera, in order of arrival. -/
def State.waiting (s : State) (die slice : Nat) : List Request := (s.dieAt die).buffer.filter fun r => r.slice == slice

/-- Entries that requests occupy (R283). -/
def entriesOf (l : List Request) : Nat := (l.map fun r => r.entries.length).sum

/-- The buffer of a request's caldera has room for it beside those that wait there and those on their way (R283). -/
def State.calderaTakes (s : State) (r : Request) : Bool :=
  decide (entriesOf (s.waiting r.die r.slice) +
    entriesOf (s.transit.filter fun q => q.die == r.die && q.slice == r.slice) + r.entries.length ≤ 512)

/-! ### Performing (R358, R361, R362) -/

/-- Calls of a path that are on their way to a caldera or wait in its buffer. -/
def State.peerCalls (s : State) (source plane : Nat) : List Request :=
  (s.transit ++ s.dies.flatMap (·.buffer)).filter fun r =>
    match r.peer with
    | some q => q.source == source && q.plane == plane && !q.relaxed
    | none => false

/-- A home operation from a peer, as its caldera receives it (R362). -/
def peerRequest (p : Packet) (lanes : List CallArg) (noReply : Bool) : Request where
  team := none
  tag := 0
  seq := 0
  peer := some p
  ctx := p.context
  core := 0
  key := ⟨none, p.addr / 128⟩
  entries := lanes
  homes := lanes.map fun _ => []
  noReply := noReply

/-- Performs an accepted request at its home and answers it; a call goes to its caldera, which answers (R361).
(DEDUCED, log 63) -/
def State.performPeer (s : State) (p : Packet) : State :=
  match p.body with
  | .read n =>
    if (s.badAt p.addr).isSome then s.answerPeer p 8 .ack
    else s.answerPeer p 8 (.data (s.mem.read p.addr n))
  | .write bs ws => (s.peerBytes p.source p.addr bs ws).answerPeer p 9 .ack
  | .zero n => (s.zeroHome p.addr n).answerPeer p 9 .ack
  | .piece q => (s.land q).answerPeer p 9 .ack
  | .call lanes noReply => { s with transit := s.transit ++ [peerRequest p lanes noReply] }
  | .data _ | .callReply _ | .ack | .calving .. => s

/-- A call's caldera has room for it; else it waits in the request channel of its plane (R283, R362). -/
def State.callFits (s : State) (p : Packet) : Bool :=
  match p.body with
  | .call lanes noReply => s.calderaTakes (peerRequest p lanes noReply)
  | _ => true

/-- The ports of a plane are closed: it is dead here (R356, R369). -/
def Fabric.closed (f : Fabric) (plane : Nat) : Bool := f.dead.getLsbD plane

/-- A request may be performed: a non-relaxed one once all before it on its path have been, except that calls to one
object may wait at its caldera together (R358). Behind closed ports nothing more is accepted, and it waits for the
accepted ones alone (R370).
(DEDUCED, log 65) -/
def State.peerReady (s : State) (r : RecvPath) (p : Packet) : Bool :=
  s.callFits p && (p.relaxed ||
  (r.reached p.pseq || s.fabric.closed r.plane) && (r.todo.all fun q => q.relaxed || !before32 q.pseq p.pseq) &&
    (s.peerCalls r.source r.plane).all fun c =>
      match p.body with
      | .call .. => c.key.line == p.addr / 128
      | _ => false)

/-- Performs what may be performed of a path. -/
def State.pumpPath (source plane : Nat) : Nat → State → State
  | 0, s => s
  | n + 1, s =>
    let r := s.fabric.recv source plane
    match r.todo.find? (s.peerReady r) with
    | none => s
    | some p =>
      let s := s.modFabric fun f => f.setRecv { r with todo := r.todo.filter (· ≠ p) }
      State.pumpPath source plane n (s.performPeer p)

def State.pump (s : State) (source plane : Nat) : State :=
  State.pumpPath source plane (s.fabric.recv source plane).todo.length s

/-- Performs what may be performed of every path. -/
def State.pumpAll (s : State) : State :=
  (s.fabric.recvs.map fun r => (r.source, r.plane)).foldl (fun s x => s.pump x.1 x.2) s

/-- Performs what may be performed of the paths whose ports are closed (R370). -/
def State.pumpClosed (s : State) : State :=
  ((s.fabric.recvs.filter fun r => s.fabric.closed r.plane).map fun r => (r.source, r.plane)).foldl (fun s x => s.pump x.1 x.2) s

end Sys2Proof.Machine

namespace Sys2Proof

/-- A request packet (Table 23.3). -/
def packetAsks (p : Packet) : Bool := decide (1 ≤ p.kind) && decide (p.kind ≤ 4)

end Sys2Proof

namespace Sys2Proof.Machine

/-- FABRIC_REQUEST: a request packet reaches this device on a plane whose ports are open and is accepted once (R356,
R370); it is performed in the order of its path and answered. Its rack ends the retention of older answers. -/
def execFabricRequest (p : Packet) (s : State) : Host.Outcome State Fault Refusal :=
  if !packetAsks p || p.target != s.devno || s.fabric.closed p.plane then .next s
  else
    let r := s.fabric.recv p.source p.plane
    match r.accept p.pseq with
    | none => .next s
    | some r' =>
      let r' := { r' with todo := r'.todo ++ [p], kept := r'.kept.filter fun q => !before32 q.pseq p.rack }
      .next ((s.modFabric fun f => f.setRecv r').pump p.source p.plane)

end Sys2Proof.Machine
end

