-- ==== Sys2Proof/Machine/Tables.lean ====
section
/-! DEFINITION. Page tables as the firmware writes them (R231, R232), and what a change of mappings waits for (R236,
R237). -/

namespace Sys2Proof.Machine

/-! ### Entries -/

/-- Bytes of a page by its size code (Table 25.7). -/
def pageBytes : Nat → Nat
  | 0 => 2 ^ 16
  | 1 => 2 ^ 21
  | _ => 2 ^ 30

/-- The level of a page's leaf (Table 12.5). -/
def pageLevel : Nat → Nat
  | 0 => 3
  | 1 => 2
  | _ => 1

/-- DPA of a frame of the firmware's table store.
(DESIGN CHOICE, log 14) -/
def frameAddr (n : Nat) : Nat := 0xF7C0000000 + 4096 * n

def entryAt (table level va : Nat) : Nat := table + 8 * (va / 2 ^ levelShift level % levelEntries level)

/-- The entry of a level that translates an address, with its place; none where the tables above it end, or in a leaf
above it. -/
def findEntry (m : Memory) : Nat → Nat → Nat → Nat → Nat → Option Nat
  | 0, _, _, _, _ => none
  | fuel + 1, target, level, table, va =>
    let a := entryAt table level va
    if level = target then some a
    else
      let e := m.readNat a 8
      if entryBit e 0 && !entryBit e 1 then findEntry m fuel target (level + 1) (entryAddr e) va else none

/-- The leaf of a page of this size at an address. -/
def leafAt (m : Memory) (root size va : Nat) : Option Nat :=
  match findEntry m 4 (pageLevel size) 0 root va with
  | some a => if entryBit (m.readNat a 8) 0 && entryBit (m.readNat a 8) 1 then some (m.readNat a 8) else none
  | none => none

/-- A leaf of a larger page covers the address. -/
def coveredBy (m : Memory) (root size va : Nat) : Bool :=
  (List.range 3).any fun z => decide (size < z) && (leafAt m root z va).isSome

/-- A valid leaf stands in a table of this level or below it. -/
def anyLeaf (m : Memory) : Nat → Nat → Nat → Bool
  | 0, _, _ => false
  | fuel + 1, level, table =>
    (List.range (levelEntries level)).any fun i =>
      let e := m.readNat (table + 8 * i) 8
      entryBit e 0 && (entryBit e 1 || anyLeaf m fuel (level + 1) (entryAddr e))

/-- A smaller mapped page lies inside the page. -/
def holdsLeaves (m : Memory) (root size va : Nat) : Bool :=
  match findEntry m 4 (pageLevel size) 0 root va with
  | some a =>
    let e := m.readNat a 8
    entryBit e 0 && !entryBit e 1 && anyLeaf m (3 - pageLevel size) (pageLevel size + 1) (entryAddr e)
  | none => false

/-- Writes an entry of a level, adding tables on the way (R231). -/
def State.putEntry (target va entry : Nat) : Nat → Nat → Nat → State → State
  | 0, _, _, s => s
  | fuel + 1, level, table, s =>
    let a := entryAt table level va
    if level = target then s.homeWrite a (leBytes 8 entry)
    else
      let e := s.mem.readNat a 8
      if entryBit e 0 && !entryBit e 1 then State.putEntry target va entry fuel (level + 1) (entryAddr e) s
      else
        let f := frameAddr s.service.nextFrame
        let s := { s with service := { s.service with nextFrame := s.service.nextFrame + 1 } }
        let s := ({ s with mem := s.mem.clear f 4096 }).homeWrite a (leBytes 8 (f + 1))
        State.putEntry target va entry fuel (level + 1) f s

def State.putLeaf (s : State) (root size va entry : Nat) : State := State.putEntry (pageLevel size) va entry 4 0 root s

/-! ### Places of a page (R234) -/

/-- Bytes of a page of n bytes on member j of a stripe.
(DEDUCED, log 85) -/
def shareBytes (code n j : Nat) : Nat :=
  let k := stripeCount code
  256 * (n / 256 / k + (if j < n / 256 % k then 1 else 0))

/-- The places of a page under its leaf. -/
def leafRanges (c : Context) (devno entry n : Nat) : List Range :=
  if entryStripe entry = 0 then [⟨none, entryAddr entry, n⟩]
  else (List.range (stripeCount (entryStripe entry))).map fun j =>
    let d := c.slot (entrySet entry) j
    ⟨if d = devno then none else some d, entryAddr entry, shareBytes (entryStripe entry) n j⟩

/-- Two ranges share a byte. -/
def Range.meets (r q : Range) : Bool := r.dev == q.dev && decide (r.dpa < q.dpa + q.len) && decide (q.dpa < r.dpa + r.len)

/-- The leaves of a table of a level and of the tables below it, each with its level; only entries with a listed byte can
be valid. -/
def tableLeaves (m : Memory) : Nat → Nat → Nat → List (Nat × Nat)
  | 0, _, _ => []
  | fuel + 1, level, table =>
    let cells := m.filter fun p => decide (table ≤ p.1) && decide (p.1 < table + 8 * levelEntries level)
    ((cells.map fun p => (p.1 - table) / 8).eraseDups).flatMap fun i =>
      let e := m.readNat (table + 8 * i) 8
      if !entryBit e 0 then [] else if entryBit e 1 then [(level, e)] else tableLeaves m fuel (level + 1) (entryAddr e)

/-- What contexts map, the leaves that are still to be written among it, and where their level-0 tables lie. -/
def State.mappedRanges (s : State) : List Range :=
  s.contexts.flatMap fun c =>
    ⟨none, c.root, 2 ^ 20⟩ ::
    ((tableLeaves s.mem 4 0 c.root).flatMap fun x => leafRanges c s.devno x.2 (2 ^ levelShift x.1)) ++
    (s.service.remaps.filter fun x => x.ctx == c.num).flatMap fun x =>
      x.leaves.flatMap fun l => leafRanges c s.devno l.entry.toNat (pageBytes l.size)

/-! ### What a change of mappings waits for (R237) -/

/-- Invalidates the TLB entries of a context for the pages of a predicate. -/
def State.dropTlb (s : State) (p : TlbEntry → Bool) : State :=
  { s with
    cores := s.cores.map fun c => { c with utlb := c.utlb.filter fun x => !p x }
    dies := s.dies.map fun d => { d with tlb := d.tlb.filter fun x => !p x } }

/-- A request of this context reached its place by an old translation. -/
def Remap.meets (x : Remap) (ctx : Nat) (k : LineKey) : Bool := (x.whole && ctx == x.ctx) || x.old.any fun r => r.holds k

/-- Queued writes and dirty sectors of the old pages go home, as far as they can (R237). -/
def State.flushOld (s : State) (x : Remap) : State :=
  let s := (List.range Config.cores).foldl (fun s c =>
    if (s.coreAt c).wq.any fun w => x.whole || x.meets 0 w.key then s.drainCore c else s) s
  (List.range Config.dies).foldl (fun s d => (s.writeBackAll d fun l => x.whole || x.meets 0 l.key).1) s

/-- The runs of an area up to an offset, as ranges. -/
def areaRanges (dev : Option Nat) : List (Nat × Nat) → Nat → List Range
  | [], _ => []
  | [x], n => [⟨dev, x.2, n - x.1⟩]
  | x :: y :: l, n => ⟨dev, x.2, y.1 - x.1⟩ :: areaRanges dev (y :: l) n

/-- The bytes of a piece's area with what follows it (Table 23.4): the landing line and a fallback slot for each
contribution to each block. -/
def pieceReach (p : Piece) : Nat :=
  landingOff p.nb + 128 + p.expect * ((areaDpa p.pages 0 % 256 + p.nb + 255) / 256) * (landingOff p.nb + 128)

/-- The bytes that an outstanding request names: its line, its piece's area (R366), or the share that it zeroes. A
contribution's piece may name an area of this device. -/
def State.outRanges (s : State) (o : OutPkt) : List Range :=
  let dev := if o.pkt.target = s.devno then none else some o.pkt.target
  match o.pkt.body with
  | .piece p => areaRanges dev p.pages (pieceReach p)
  | .zero n => [⟨dev, o.pkt.addr, n⟩]
  | _ => [⟨dev, o.pkt.addr / 128 * 128, 128⟩]

/-- An outstanding request used an old translation, or writes back a sector that one was written through (R237, R382). -/
def State.outMeets (s : State) (x : Remap) (o : OutPkt) : Bool :=
  (x.whole && (o.pkt.context == x.ctx || match o.why with | .back _ => true | _ => false)) ||
  (s.outRanges o).any fun r => x.old.any fun q => q.meets r

/-- A destroyed context's table is cleared, its translations are dropped, and it is gone (R382).
(DEDUCED, log 105) -/
def State.removeContext (s : State) (c : Context) : State :=
  let s := { s with mem := s.mem.clear c.root (2 ^ 20), contexts := s.contexts.filter fun y => y.num != c.num }
  let s := s.dropTlb fun x => x.ctx == c.num
  { s with service := { s.service with
      sampleStop := s.service.sampleStop.filter (· ≠ c.num), sampleDrop := s.service.sampleDrop.filter (· ≠ c.num) } }

/-- A unit of a contribution waits for the residuals that a peer is to take, and its elements were translated by an old
translation (R237, R309). -/
def Cmd.formsOn (c : Cmd) (devno ctx : Nat) (x : Remap) : Bool :=
  c.st == .running && c.resWait && c.areas.any fun a =>
    x.meets ctx ⟨if a.2.1 = devno then none else some a.2.1, a.2.2 / 128⟩

/-- Everything that used the old translations has been performed and written back (R237).
(DEDUCED, log 84) -/
def State.oldQuiet (s : State) (x : Remap) : Bool :=
  !(x.whole && s.service.samples.any fun y => y.ctx == x.ctx) &&
  !((s.transit ++ s.dies.flatMap (·.buffer)).any fun r => r.peer.isNone && x.meets r.ctx r.key) &&
  !(s.cores.any fun c => c.wq.any fun w => x.whole || x.meets 0 w.key) &&
  !(s.teams.any fun T => T.cmds.any fun c => c.formsOn s.devno ((s.launch? T.key.launch).map (·.ctx) |>.getD 0) x) &&
  !(s.dies.any fun d => d.l2.any fun l => (x.whole || x.meets 0 l.key) && l.sectors.any fun p => p.2.dirty) &&
  !(s.fabric.out.any fun o =>
    match o.why with
    | .zero _ => false
    | _ => s.outMeets x o)

/-- Drops every copy of a range of a peer's lines in the package's L2s; the answers of fills under way there are not kept
(R236). -/
def State.forgetCopies (s : State) (r : Range) : State := (s.dropCopies r).spoilFills fun _ k _ => r.holds k

/-- The places of the pages that a change of mappings adds. -/
def Remap.newRanges (x : Remap) (c : Context) (devno : Nat) : List Range :=
  x.leaves.flatMap fun l => leafRanges c devno l.entry.toNat (pageBytes l.size)

/-- Zeroing of the new pages begins: shares on this device at once, those of peers by requests; copies of all lines are
dropped in this package (R236). -/
def State.beginZeroing (s : State) (c : Context) (x : Remap) : State :=
  (x.newRanges c s.devno).foldl (fun s r =>
    match r.dev with
    | none => s.zeroHome r.dpa r.len
    | some d => (s.forgetCopies r).produce (.zero x.num) 2 false d r.dpa x.ctx (.zero r.len)) s

/-- The members have acknowledged their zeroing: copies of their lines that were filled meanwhile are dropped too, before
the entries become valid (R236).
(DEDUCED, log 175) -/
def State.endZeroing (s : State) (c : Context) (x : Remap) : State :=
  if x.zero then ((x.newRanges c s.devno).filter (·.dev.isSome)).foldl State.forgetCopies s else s

/-- Takes a change of mappings as far as it can go; when it is over, the new leaves are written and the host is
answered. -/
def State.settleRemap (s : State) (x : Remap) : State :=
  let s := s.flushOld x
  let drop (s : State) : State :=
    { s with service := { s.service with remaps := s.service.remaps.filter fun y => y.num != x.num } }
  if !s.oldQuiet x then s
  else match s.context? x.ctx with
    | none => (drop s).respond x.rq x.code 0 []
    | some c =>
      let s :=
        if x.zero && !x.zeroing then
          let s := s.beginZeroing c x
          { s with service := { s.service with remaps := s.service.remaps.map fun y =>
              if y.num = x.num then { y with zeroing := true } else y } }
        else s
      let busy := s.fabric.out.any fun o => o.why == .zero x.num
      if busy then s
      else
        let s := x.leaves.foldl (fun s l => s.putLeaf c.root l.size l.va l.entry.toNat) (s.endZeroing c x)
        let s := if x.whole then s.removeContext c else s
        (drop s).respond x.rq x.code 0 []

/-- Takes every change of mappings as far as it can go. -/
def State.settleRemaps (s : State) : State :=
  s.service.remaps.foldl (fun s x =>
    match s.service.remaps.find? fun y => y.num == x.num with
    | some y => s.settleRemap y
    | none => s) s

/-- Begins a change of mappings. -/
def State.beginRemap (s : State) (x : Remap) : State :=
  let x := { x with num := s.service.nextMap }
  ({ s with service := { s.service with nextMap := s.service.nextMap + 1, remaps := s.service.remaps ++ [x] } }).settleRemap x

end Sys2Proof.Machine
end

