-- ==== Sys2Proof/Machine/Copy.lean ====
section
/-! DEFINITION. COPY_ELEMENT: tensor copies, multicasts and contributions, unit by unit (R251, R252, R255, R263, R305-R309,
R136). -/

namespace Sys2Proof.Machine

/-! ### The next unit's accesses -/

/-- Residual places of the unit (R308). -/
def residItems (d : CopyDesc) (e : Nat) : List Int :=
  if d.resid = 0 then [] else (List.range d.unit).map fun i => ((d.resid + 4 * (e + i) : Nat) : Int)

/-- The translations that a unit needs, in order: source, destination, residual read, residual write (R331).
(DEDUCED, log 49) -/
def unitAccesses (d : CopyDesc) (e : Nat) : List Acc :=
  (if d.skind = 2 then (d.src.items d.ext e d.unit).map fun p => ⟨p.1, .read, 0⟩ else []) ++
  (if d.dkind = 2 then (d.dst.items d.ext e d.unit).map fun p => ⟨p.1, .write, 1⟩ else []) ++
  (residItems d e).map (fun a => ⟨a, .resRead, 2⟩) ++ (residItems d e).map fun a => ⟨a, .resWrite, 2⟩

/-- The first access of a list that the micro-TLB does not resolve to a permitted place. -/
def State.firstBlocked (s : State) (core ctx : Nat) : List Acc → Option (Acc × Resolved)
  | [] => none
  | a :: as =>
    match s.resolve core ctx a with
    | .ok _ => s.firstBlocked core ctx as
    | r => some (a, r)

/-- The place of an address that the micro-TLB resolves. -/
def State.placeOf (s : State) (core ctx : Nat) (va : Int) (acc : Access) : Where :=
  match s.resolve core ctx ⟨va, acc, 0⟩ with
  | .ok w => w
  | _ => ⟨none, 0, false, false, false, false⟩

/-! ### Reading the unit -/

/-- A line of a local space that holds an error (R343). -/
def State.localBad (s : State) (k : TeamKey) (kind o : Nat) : Bool :=
  s.errors.contains (if kind = 1 then .tile k (o / 128) else .scratch k (o / 128))

/-- What reading a place of one side gives; local sides are read without consulting full/empty bits (R215). -/
def State.readSide (s : State) (T : Team) (g : Agent) (x : Side) (p : Int × Nat) : Rd × State :=
  if x.kind = 2 then
    let w := s.placeOf g.core g.ctx p.1 .read
    s.readAt g w.key w.off p.2
  else
    let o := p.1.toNat
    if s.localBad T.key x.kind o then (.bad (5 + x.kind) ⟨none, 0⟩ o, s)
    else (.ok ((T.store (x.kind == 1)).bytes.read o p.2), s)

/-- Reads places in order; every missing sector is asked for. -/
def State.readItems (T : Team) (g : Agent) (x : Side) : List (Int × Nat) → State → Rd × List Nat × State
  | [], s => (.ok [], [], s)
  | p :: ps, s =>
    match s.readSide T g x p with
    | (.bad c l o, s) => (.bad c l o, [], s)
    | (.wait, s) =>
      match State.readItems T g x ps s with
      | (.bad c q o, l, s) => (.bad c q o, l, s)
      | (_, l, s) => (.wait, l, s)
    | (.ok bs, s) =>
      match State.readItems T g x ps s with
      | (r, l, s) => (r, leNat bs :: l, s)

/-- Reads residual words at their homes; a peer's comes by a request and is kept for the unit (R308).
(DEDUCED, log 60) -/
def State.readResid (k : TeamKey) (c : Cmd) (g : Agent) : List Int → State → Rd × List Nat × State
  | [], s => (.ok [], [], s)
  | a :: as, s =>
    let w := s.placeOf g.core g.ctx a .resRead
    let here : Rd × State := match w.dev with
      | none => s.readHome g.core w.key w.off 4
      | some T =>
        match c.resid.find? fun x => x.1 == w.key && x.2.1 == w.off with
        | some x => (.ok x.2.2, s)
        | none =>
          let asked := s.fabric.out.any fun o => o.why == .residRead k c.seq w.key w.off
          if asked then (.wait, s)
          else
            let s := s.drainCore g.core
            if (s.coreAt g.core).wq.any fun q => q.key == w.key then (.wait, s)
            else (.wait, (s.yieldLine g.die w.key).produce (.residRead k c.seq w.key w.off) 3 c.relaxed T w.dpa g.ctx (.read 4))
    match here with
    | (.bad e q o, s) => (.bad e q o, [], s)
    | (.wait, s) =>
      match State.readResid k c g as s with
      | (.bad e q o, l, s) => (.bad e q o, l, s)
      | (_, l, s) => (.wait, l, s)
    | (.ok bs, s) =>
      match State.readResid k c g as s with
      | (r, l, s) => (r, leNat bs :: l, s)

/-! ### Converting the unit (R125-R128, R136, R308) -/

/-- The codes of n elements from the numbers read: pairs hold two (R114). -/
def unitCodes (bits : Nat) (l : List Nat) : List Nat :=
  if bits = 4 then l.flatMap fun b => [b % 16, b / 16 % 16] else l

/-- Zero point of run q of a row, from its byte. -/
def zeroOf (bits q byte : Nat) : Nat := if bits = 4 then (if q % 2 = 0 then byte % 16 else byte / 16 % 16) else byte

/-- The exact value of a code under a slot's scale and zero point (R113, R117, R118). -/
def codeValue (slot scale z code : Nat) : Num :=
  let fmt := slotCode slot
  let t := tgtOf fmt
  if isMx fmt then
    match t with
    | .flt f => mxValue f scale code
    | _ => t.decode code
  else if slotGroup slot ≠ 0 then groupValue t (fp16.decode scale) (if slotZp slot then z else 0) code
  else t.decode code

/-- The exact values of a unit's source elements. `q0` is the number of its first run in the row. -/
def unitValues (x : Side) (n q0 : Nat) (data scales zeros : List Nat) : List Num :=
  let codes := unitCodes x.bits data
  (List.range n).map fun i =>
    let q := if slotRun x.slot = 0 then 0 else i / slotRun x.slot
    codeValue x.slot ((scales[q]?).getD 0) (zeroOf x.bits (q0 + q) ((zeros[q]?).getD 0)) ((codes[i]?).getD 0)

/-- The mode of a slot's round field for element index E under a salt (R122, R124). -/
def engineMode (slot : Nat) (seed salt : Word) (e : Nat) : RMode :=
  match slotRound slot with
  | 0 => .rne | 1 => .rz | 2 => .rdn | 3 => .rup
  | _ => .sr (rngx (BitVec.ofNat 32 e) (BitVec.ofNat 32 (e / 2 ^ 32)) (seed ^^^ salt)).toNat

/-- What quantising a run gives: its codes with scale, zero point and flags; a plain format has neither. -/
def quantRun (slot : Nat) (mode : Nat → RMode) (xs : List Num) : Quant :=
  let fmt := slotCode slot
  if isMx fmt then
    match tgtOf fmt with
    | .flt f => quantMX f mode (slotSat slot) xs
    | _ => ⟨0, 0, [], 0⟩
  else if slotGroup slot ≠ 0 then quantGroup (fmtBits fmt) (slotZp slot) mode xs
  else
    let r := convertAll (tgtOf fmt) mode (slotSat slot) xs
    ⟨0, 0, r.1, r.2⟩

/-- Quantises n elements run by run. -/
def quantUnit (slot : Nat) (mode : Nat → RMode) (xs : List Num) : List Quant :=
  let run := if slotRun slot = 0 then xs.length else slotRun slot
  (List.range (xs.length / run)).map fun q => quantRun slot (fun i => mode (q * run + i)) ((xs.drop (q * run)).take run)

/-- y and the new residual of an element (R136); NV where x is a signalling NaN. -/
def residAdd (x : Num) (r : Nat) : Num × BitVec 5 :=
  let z := fp32.finish .rne (Num.add .rne x (fp32.decode r))
  (fp32.decode z.bits, flagIf fNV x.isSig)

def residNew (y q : Num) : Nat :=
  if y.isFin && q.isFin then (fp32.finish .rne (Num.sub .rne y q)).bits else 0

/-- The bytes of packed codes (R114). -/
def codeBytes (bits : Nat) (codes : List Nat) : List (List Byte) :=
  if bits = 4 then
    (List.range ((codes.length + 1) / 2)).map fun i => leBytes 1 ((codes[2 * i]?).getD 0 % 16 + 16 * ((codes[2 * i + 1]?).getD 0 % 16))
  else codes.map fun x => leBytes (bits / 8) x

/-- The zero points that are written with a unit: a 4-bit one waits for the second of its byte, or for the row's end.
Gives the writes and the one carried on.
(DEDUCED, log 51) -/
def zeroWrites (x : Side) (ext : List Nat) (e carry : Nat) : Nat → Nat → List Nat → List (Int × List Byte) × Nat
  | _, _, [] => ([], carry)
  | runs, q, z :: zs =>
    let a := x.zeroAt ext e
    let e' := e + slotRun x.slot
    if x.bits ≠ 4 then
      let r := zeroWrites x ext e' carry runs (q + 1) zs
      ((a, leBytes 1 z) :: r.1, r.2)
    else if q % 2 = 0 ∧ q + 1 < runs then zeroWrites x ext e' z runs (q + 1) zs
    else
      let b := if q % 2 = 0 then z else carry % 16 + 16 * z
      let r := zeroWrites x ext e' 0 runs (q + 1) zs
      ((a, leBytes 1 b) :: r.1, r.2)

/-- What a unit writes: destination bytes by place, residual words, flags and the carried zero point. -/
structure UnitOut where
  dst : List (Int × List Byte)
  resid : List Nat
  flags : BitVec 5
  carry : Nat
  deriving DecidableEq, Repr, Inhabited

/-- Converts a unit (R308, R136). -/
def convertUnit (d : CopyDesc) (seed salt : Word) (e carry : Nat) (xs : List Num) (res : List Nat) : UnitOut :=
  let x := d.dst
  let n := xs.length
  let ys := if d.resid = 0 then xs.map fun v => (v, (0 : BitVec 5)) else List.zipWith residAdd xs res
  let qs := quantUnit x.slot (fun i => engineMode x.slot seed salt (e + i)) (ys.map (·.1))
  let codes := qs.flatMap (·.codes)
  let run := if slotRun x.slot = 0 then n else slotRun x.slot
  let q0 := if slotRun x.slot = 0 then 0 else e % d.ext0 / slotRun x.slot
  let back (i : Nat) : Num :=
    let q := (qs[i / run]?).getD ⟨0, 0, [], 0⟩
    codeValue x.slot q.scale q.zero ((codes[i]?).getD 0)
  let news := if d.resid = 0 then [] else (List.range n).map fun i => residNew ((ys[i]?).getD (.nan false, 0)).1 (back i)
  let zs := if slotZp x.slot then zeroWrites x d.ext e carry (d.ext0 / run) q0 (qs.map (·.zero)) else ([], 0)
  ⟨(x.dataItems d.ext e n).map (·.1) |>.zip (codeBytes x.bits codes) |>.append
      (((x.scaleItems d.ext e n).map (·.1)).zip (qs.map fun q => leBytes (slotScaleBytes x.slot) q.scale)) |>.append zs.1,
    news, (ys.foldl (fun f y => f ||| y.2) 0) ||| (qs.foldl (fun f q => f ||| q.flags) 0), zs.2⟩

/-- A unit that is copied unchanged (R308). -/
def plainUnit (d : CopyDesc) (e : Nat) (data : List Nat) : UnitOut :=
  ⟨((d.dst.dataItems d.ext e d.unit).map (·.1)).zip (data.map fun x => leBytes d.esize x), [], 0, 0⟩

/-! ### Writing the unit -/

/-- The offset of an address from a contribution's base, modulo 2^56: a negative stride leads below the base (R305, R306).
(DEDUCED, log 50) -/
def contribOff (base : Nat) (a : Int) : Nat := ((a - base) % 2 ^ 56).toNat

/-- The 256-byte block of an offset, counted modulo 2^48 from the one that holds the base (R363). -/
def contribBlock (base off : Nat) : Nat := ((base + off) % 2 ^ 56 / 256 + 2 ^ 48 - base / 256) % 2 ^ 48

/-- The bytes a contribution has formed, by offset from its result area's base (R309). -/
def addContrib (base : Nat) (l : List (Nat × Byte)) (w : Int × List Byte) : List (Nat × Byte) :=
  (((List.range w.2.length).map fun i => contribOff base (w.1 + (i : Nat))).zip w.2).foldl (fun l p => aset l p.1 p.2) l

/-- Writes a place of the destination: local bytes in the team or every receiver that is there, which ends an error of the
line (R344), device bytes through the core's write queue (R214, R220, R263), a contribution's bytes to its pieces, with where
their block lies as it was translated (R309). -/
def State.writeDst (s : State) (k : TeamKey) (L : Launch) (c : Cmd) (d : CopyDesc) (g : Agent) (w : Int × List Byte) : State :=
  if d.op = 3 then
    let p := s.placeOf g.core g.ctx w.1 .write
    let block := contribBlock d.dbase (contribOff d.dbase w.1)
    s.modCmd k c.tag fun c => { c with
      contrib := addContrib d.dbase c.contrib w
      areas := aset c.areas block (p.dev.getD s.devno, p.dpa / 256 * 256) }
  else if d.dkind = 2 then
    let p := s.placeOf g.core g.ctx w.1 .write
    s.enqueue g p.key p.off w.2
  else
    let put (T : Team) : Team :=
      let st := T.store (d.dkind == 1)
      T.setStore (d.dkind == 1) { st with bytes := st.bytes.write w.1.toNat w.2 }
    (claimTeams L k c).foldl (fun s r =>
      (s.modTeam r put).clearError (if d.dkind = 1 then .tile r (w.1.toNat / 128) else .scratch r (w.1.toNat / 128))) s

/-- Fills what the destination's writes on peers need (R221); the flag says whether all is there. -/
def State.fillDst (s : State) (d : CopyDesc) (g : Agent) (ws : List (Int × List Byte)) : State × Bool :=
  if d.op = 3 ∨ d.dkind ≠ 2 then (s, true)
  else ws.foldl (fun x w =>
    let p := x.1.placeOf g.core g.ctx w.1 .write
    match x.1.fillFor g p.key p.off w.2.length with
    | (s, b) => (s, x.2 && b)) (s, true)

/-- Writes a residual word at its home; the flag says that an acknowledgement must come (R308, R361). -/
def State.writeResid (s : State) (k : TeamKey) (c : Cmd) (g : Agent) (a : Int) (x : Nat) : State × Bool :=
  let w := s.placeOf g.core g.ctx a .resWrite
  match w.dev with
  | none => (s.writeHome g.writer g.core w.key w.off (leBytes 4 x), false)
  | some T =>
    ((s.yieldLine g.die w.key).produce (.residWrite k c.tag) 3 c.relaxed T w.dpa g.ctx
      (.write ((List.range 4).zip (leBytes 4 x)) [(g.writer, lineMask 0 4)]), true)

def State.writeResids (k : TeamKey) (c : Cmd) (g : Agent) : List (Int × Nat) → State → State × Bool
  | [], s => (s, false)
  | p :: ps, s =>
    match s.writeResid k c g p.1 p.2 with
    | (s, b) =>
      match State.writeResids k c g ps s with
      | (s, b') => (s, b || b')

/-- Where offsets from an address on lie, up to a last one, as runs of a page or, under a stripe, of a block: each run on
the target with its offset and DPA (R234, R366). `fuel` bounds the runs. -/
def State.areaPages (s : State) (ctx target va : Nat) : Nat → Nat → Nat → List (Nat × Nat)
  | 0, _, _ => []
  | fuel + 1, off, len =>
    if len ≤ off then []
    else match s.context? ctx with
      | none => []
      | some c =>
        let a := (va + off) % 2 ^ 56
        match walk s c a with
        | .fault .. => []
        | .leaf base size e =>
          let w := leafPlace c s.devno base e a
          let next := if entryStripe e.toNat = 0 then off + (base + size - a) else off + (256 - a % 256)
          let rest := s.areaPages ctx target va fuel next len
          if w.dev.getD s.devno = target then (off % 2 ^ 56, w.dpa) :: rest else rest

/-- Adds a run to runs in ascending order; one at an offset that is listed adds nothing. -/
def insertRun (r : Nat × Nat) : List (Nat × Nat) → List (Nat × Nat)
  | [] => [r]
  | x :: l => if r.1 < x.1 then r :: x :: l else if r.1 = x.1 then x :: l else x :: insertRun r l

/-- The bytes of an area with what follows it (Table 23.4): the landing line and expect × B fallback slots. -/
def areaLength (d : CopyDesc) : Nat :=
  let nb := d.count * d.dst.bytes
  landingOff nb + 128 + d.expect * ((d.dbase % 256 + nb + 255) / 256) * (landingOff nb + 128)

/-- n bytes of a sparse list from an offset on; places not listed read zero. -/
def denseBytes (l : List (Nat × Byte)) (first n : Nat) : List Byte :=
  (List.range n).map fun i => (aget? l ((first + i) % 2 ^ 56)).getD 0

/-- The pieces of a contribution: one for each 256-byte block that its elements touch (R363), from the first byte there to
the last. -/
def contribPieces (d : CopyDesc) (l : List (Nat × Byte)) : List Piece :=
  let blocks := (l.map fun p => contribBlock d.dbase p.1).eraseDups
  blocks.map fun b =>
    let at_ := (l.filter fun p => contribBlock d.dbase p.1 == b).map fun p => (d.dbase + p.1) % 256
    let first := at_.foldl min (at_.headD 0)
    let last := at_.foldl max 0
    let off := (256 * b + first + 2 ^ 56 - d.dbase % 256) % 2 ^ 56
    { tag := d.ctag, target := 0, pages := [], nb := d.count * d.dst.bytes, cmeth := d.cmeth, dfmt := slotCode d.dslot,
      expect := d.expect, block := b, first := off, data := denseBytes l off (last + 1 - first), count := 1, full := false }

/-- Where the elements of a contribution from element e on lie, as offsets from its base. -/
def CopyDesc.contribOffs (d : CopyDesc) (e : Nat) : List Nat :=
  (d.dst.dataItems d.ext e (d.count - e)).map fun p => contribOff d.dbase p.1

/-- Where the area of a contribution on a target, what follows it and the blocks beyond it lie there: for a block with
elements outside all this, from its start as far on as a slot's place can be.
(DEDUCED, log 147) -/
def State.areaRuns (s : State) (ctx target : Nat) (d : CopyDesc) : List (Nat × Nat) :=
  let n := areaLength d
  let far := (((d.contribOffs 0).filter fun o => decide (n < o + d.dst.bytes)).map (contribBlock d.dbase)).eraseDups
  let runs := far.flatMap fun b =>
    let o := (256 * b + 2 ^ 56 - d.dbase % 256) % 2 ^ 56
    s.areaPages ctx target d.dbase (n / 256 + 4) o (o + 512 + n)
  runs.foldl (fun l r => insertRun r l) (s.areaPages ctx target d.dbase (n / 256 + 2) 0 n)

/-- Hands the pieces of a contribution's blocks that no later element touches to their planes; each block's device and
plane follow its own address, as its last element was translated (R309, R355, R363). The pieces carry where the area and
what follows it lie.
(DEDUCED, log 174) -/
def State.contribute (s : State) (k : TeamKey) (c : Cmd) (d : CopyDesc) (g : Agent) : State :=
  let later := ((d.contribOffs c.n).map (contribBlock d.dbase)).eraseDups
  let s := (contribPieces d (c.contrib.filter fun p => !later.contains (contribBlock d.dbase p.1))).foldl (fun s p =>
    let a := (aget? c.areas p.block).getD (s.devno, 0)
    let p := { p with target := a.1, pages := s.areaRuns g.ctx a.1 d }
    s.produce (.piece k c.seq false) 4 c.relaxed a.1 (a.2 + (d.dbase + p.first) % 256) g.ctx (.piece p)) s
  s.modCmd k c.tag fun c => { c with
    contrib := c.contrib.filter fun p => later.contains (contribBlock d.dbase p.1)
    areas := c.areas.filter fun a => later.contains a.1 }

/-- A unit is performed: the count rises, finished lines fill, and after the last unit the command ends (R250, R251);
a contribution hands over the blocks that are formed, and ends when its switches have accepted it (R309). -/
def State.unitDone (s : State) (k : TeamKey) (L : Launch) (tag : Nat) (d : CopyDesc) (g : Agent) : State :=
  match s.cmd? k tag with
  | none => s
  | some c =>
    let n := c.n + d.unit
    let finished := (c.lasts.filter fun p => decide (p.2 < n)).map (·.1)
    let gone := c.mcast?.isSome && (claimTeams L k c).any fun r => (s.team? r).isNone
    let s := s.modCmd k tag fun c =>
      { c with
        n := n, lasts := c.lasts.filter fun p => !decide (p.2 < n), resWait := false, resid := []
        retired := c.retired || gone }
    let s := (claimTeams L k c).foldl (fun s r => s.modTeam r fun T =>
      finished.foldl (fun T l => T.finishLine (d.dkind == 1) (claimant L k c) l) T) s
    match c.ending with
    | some (st, code) => s.endCmd k tag st code
    | none =>
      if d.op = 3 then s.contribute k ((s.cmd? k tag).getD c) d g
      else if n < d.count then s
      else s.endCmd k tag 0 0

/-- Who a command's accesses belong to. -/
def Cmd.agent (c : Cmd) (T : Team) (L : Launch) : Agent :=
  ⟨T.core, T.die, T.key, c.seq, L.ctx, colourBit c.colour, c.relaxed⟩

/-- Performs the next unit of a running copy whose accesses all translate: it waits while bytes of a peer have not come,
and ends DATA_ERROR where it reads an error (R343).
(DESIGN CHOICE, log 47; DESIGN CHOICE, log 190) -/
def State.copyUnit (s : State) (T : Team) (L : Launch) (c : Cmd) (d : CopyDesc) : State :=
  let k := T.key
  let g := c.agent T L
  let e := c.n
  let fail (s : State) (cause : Nat) (q : LineKey) (o : Nat) : State :=
    (s.dataError T L c cause q o).stopCmd k c.tag 5 0 fun _ _ => false
  match State.readItems T g d.src (d.src.dataItems d.ext e d.unit) s with
  | (.bad x q o, _, s) => fail s x q o
  | (r1, data, s) =>
    match State.readItems T g d.src (d.src.scaleItems d.ext e d.unit) s with
    | (.bad x q o, _, s) => fail s x q o
    | (r2, scales, s) =>
      match State.readItems T g d.src (d.src.zeroItems d.ext e d.unit) s with
      | (.bad x q o, _, s) => fail s x q o
      | (r3, zeros, s) =>
        match State.readResid k c g (residItems d e) s with
        | (.bad x q o, _, s) => fail s x q o
        | (r4, res, s) =>
          if r1 == .wait || r2 == .wait || r3 == .wait || r4 == .wait then s
          else
            let q0 := if slotRun d.sslot = 0 then 0 else e % d.ext0 / slotRun d.sslot
            let seed := L.rcd.key.extractLsb' 0 32 ^^^ L.rcd.key.extractLsb' 32 32
            let o := if d.cvt then convertUnit d seed c.salt e c.carry (unitValues d.src d.unit q0 data scales zeros) res
              else plainUnit d e data
            match s.fillDst d g o.dst with
            | (s, false) => s
            | (s, true) =>
              let s := (o.dst.foldl (fun s w => s.writeDst k L c d g w) s).modCmd k c.tag fun c =>
                { c with flags := c.flags ||| o.flags, carry := o.carry }
              match State.writeResids k c g ((residItems d e).zip o.resid) s with
              | (s, true) => s.modCmd k c.tag fun c => { c with resWait := true }
              | (s, false) => s.unitDone k L c.tag d g

/-- COPY_ELEMENT: a running copy that is not parked performs its next element or unit (R251, R252). -/
def execCopyElement (team : TeamKey) (tag : Nat) (s : State) : Host.Outcome State Fault Refusal :=
  match s.team? team, s.launch? team.launch, s.cmd? team tag with
  | some T, some L, some c =>
    match c.body with
    | .copy d =>
      if c.st != .running || !c.parks.isEmpty || T.place.isNone then .next s
      else if c.resWait then
        if s.fabric.out.any fun o => o.why == .residWrite team tag then .next s
        else .next (s.unitDone team L tag d (c.agent T L)).settleRemaps
      else if T.stopping || c.ending.isSome || decide (d.count ≤ c.n) then .next s
      else if (s.firstBlocked T.core L.ctx (unitAccesses d c.n)).isSome then .next s
      else .next (s.copyUnit T L c d)
    | _ => .next s
  | _, _, _ => .next s

end Sys2Proof.Machine
end

