-- ==== Sys2Proof/Machine/Collector.lean ====
section
/-! DEFINITION. Page walks for engine accesses (TRANSLATION_WALK), the request collector (R256-R259), lanes that are
performed (R253, R254, R316) and replies that land (R291, R292). -/

namespace Sys2Proof.Machine

/-! ### TRANSLATION_WALK (R235, R331) -/

/-- How a lane form accesses device memory: kind and side (Table 21.3). -/
def laneAccess : LaneForm → Access × Nat
  | .gath => (.read, 0)
  | .scat => (.write, 1)
  | _ => (.home, 1)

def laneAcc (f : LaneForm) (x : Lane) : Acc := ⟨x.va, (laneAccess f).1, (laneAccess f).2⟩

/-- Loads a translation where the micro-TLB misses; the result is a fault if there is one. -/
def State.walkAcc (s : State) (core ctx victim : Nat) (a : Acc) (r : Resolved) : State × Resolved :=
  match r with
  | .miss =>
    match s.loadTlb core ctx a.va.toNat victim with
    | (s, .miss) => (s, s.resolve core ctx a)
    | x => x
  | r => (s, r)

/-- The peer that an address leads to under an entry of the core's micro-TLB. -/
def State.tlbPeer (s : State) (core ctx va : Nat) : Option Nat :=
  match s.context? ctx, (s.coreAt core).utlb.find? fun x => x.hit ctx va with
  | some c, some x => if c.setOk x.entry.toNat then (leafPlace c s.devno x.base x.entry va).dev else none
  | _, _ => none

/-- A lane that faults: with the other lanes of its command whose addresses lie in the same range it forms one record,
which names the lowest of them and the peer that its address leads to, or it joins the record of that range that is not
answered (R331). Lanes count as faulted when they park (R395). -/
def State.parkLanes (s : State) (T : Team) (L : Launch) (c : Cmd) (d : LaneDesc) (x : Lane) (cause base size : Nat)
    : State :=
  match c.parks.find? fun p => p.base == base && p.size == size && p.answer.isNone with
  | some p =>
    (s.tally L T.core 20 1).modCmd T.key c.tag fun c =>
      { c with
        parks := c.parks.map fun q => if q = p then { q with lanes := q.lanes ++ [x.h] } else q
        lanes := c.lanes.map fun y => if y.h = x.h then { y with st := .parked } else y }
  | none =>
    let mine := c.lanes.filter fun y => y.pending && decide (base ≤ y.va) && decide (y.va < base + size) && !c.sent y
    let mine := if mine.isEmpty then [x] else mine
    let low := mine.headD x
    s.park T L c (laneAcc d.form low) cause base size (s.tlbPeer T.core L.ctx low.va) (mine.map (·.h)) low.t

/-- The place of an address, permitted or not; none where a walk faults. -/
def State.locate (s : State) (ctx va : Nat) : Option Where :=
  match s.context? ctx with
  | none => none
  | some c =>
    match walk s c va with
    | .leaf base _ e => some (leafPlace c s.devno base e va)
    | .fault .. => none

/-- Two lanes of one command reach a common byte (R254). -/
def State.overlaps (s : State) (ctx z : Nat) (x y : Lane) : Bool :=
  match s.locate ctx x.va, s.locate ctx y.va with
  | some p, some q => p.dev == q.dev && decide (p.dpa < q.dpa + z) && decide (q.dpa < p.dpa + z)
  | _, _ => false

/-- Issued lanes of a scatter that overlap a lower lane which has parked are in the collector again, so that they leave it
after that one (R254). -/
def State.recollect (s : State) (ctx : Nat) (d : LaneDesc) (k : TeamKey) (tag : Nat) : State :=
  if d.form = .scat then
    s.modCmd k tag fun c => { c with lanes := c.lanes.map fun x =>
      match x.st with
      | .issued e _ _ =>
        if c.lanes.any fun y => y.st == .parked && decide (y.h < x.h) && s.overlaps ctx d.size y x then { x with st := .held e }
        else x
      | _ => x }
  else s

/-- No lane of a command is under way any more and none is to come: it ends. -/
def State.endIfOver (s : State) (k : TeamKey) (tag : Nat) : State :=
  match s.cmd? k tag with
  | some c =>
    if c.lanes.all Lane.over then
      match c.ending with
      | some (st, code) =>
        let e := c.endAs st code
        s.endCmd k tag e.1 e.2
      | none => s.endCmd k tag c.bad 0
    else s
  | none => s

/-- TRANSLATION_WALK: the walk for the next access of a copy, or for a lane, completes; a fault parks the element or
the lanes (R235, R331). A command that is being stopped, or whose team is, has its issued lanes translated, since they are
waited for (R248, R333, R336), and of the former those that it still waits for; one of them that faults in a command that is
to end is dropped.
(DESIGN CHOICE, log 61; DEDUCED, log 157) -/
def execTranslationWalk (team : TeamKey) (tag lane victim : Nat) (s : State) : Host.Outcome State Fault Refusal :=
  match s.team? team, s.launch? team.launch, s.cmd? team tag with
  | some T, some L, some c =>
    let ends := T.stopping || c.ending.isSome
    if c.st != .running || T.place.isNone then .next s
    else match c.body with
      | .copy d =>
        if ends || !c.parks.isEmpty || c.resWait || decide (d.count ≤ c.n) then .next s
        else match s.firstBlocked T.core L.ctx (unitAccesses d c.n) with
          | none => .next s
          | some (a, r) =>
            match s.walkAcc T.core L.ctx victim a r with
            | (s, .fault cause base size dev) => .next (s.park T L c a cause base size dev [] c.thread)
            | (s, _) => .next s
      | .lanes d =>
        match c.lanes.find? fun x => x.h == lane && x.pending && !c.sent x && (!T.stopping || x.flying) with
        | none => .next s
        | some x =>
          match s.walkAcc T.core L.ctx victim (laneAcc d.form x) (s.resolve T.core L.ctx (laneAcc d.form x)) with
          | (s, .fault cause base size _) =>
            if c.ending.isSome then
              .next ((s.modCmd team tag fun c => { c with lanes := c.lanes.map fun y =>
                if y.h = x.h then { y with st := .dropped } else y }).endIfOver team tag)
            else .next ((s.parkLanes T L c d x cause base size).recollect L.ctx d team tag)
          | (s, _) => .next s
      | _ => .next s
  | _, _, _ => .next s

/-! ### Where lanes reach (R254, R286) -/

/-- A lower lane of the command that overlaps is not performed (R254). -/
def State.laneHeld (s : State) (ctx z : Nat) (c : Cmd) (x : Lane) : Bool :=
  c.lanes.any fun y => decide (y.h < x.h) && y.st != .done && y.st != .dropped && s.overlaps ctx z y x

/-- The object that a lane names (R280). -/
def State.objectOf (s : State) (ctx : Nat) (x : Lane) : Option LineKey := (s.locate ctx x.va).map Where.key

/-- A lane that has not left its core. -/
def Lane.waits (x : Lane) : Bool :=
  match x.st with
  | .idle | .held _ | .parked => true
  | _ => false

/-- The lane forms that a caldera performs. -/
def Cmd.atHome (c : Cmd) : Bool :=
  match c.body with
  | .lanes d => d.form.isCall || d.form == .scatr
  | _ => false

/-- An earlier request of the team to the same object has not been issued (R286): of a relaxed command only its own lanes
keep their order (R254, R360).
(DEDUCED, log 55) -/
def State.callHeld (s : State) (T : Team) (ctx : Nat) (c : Cmd) (x : Lane) : Bool :=
  let o := s.objectOf ctx x
  T.cmds.any fun b => b.live && b.atHome && (b.tag == c.tag || !(b.relaxed || c.relaxed)) && b.lanes.any fun y =>
    y.waits && (decide (b.seq < c.seq) || (b.tag == c.tag && decide (y.h < x.h))) && o.isSome && s.objectOf ctx y == o

/-- The lane leads to a peer. -/
def State.atPeer (s : State) (ctx : Nat) (x : Lane) : Bool := ((s.locate ctx x.va).bind (·.dev)).isSome

/-- A lower lane of the command for a peer is not parked and has not been issued: requests to peers go in ascending home
lane (R359).
(DEDUCED, log 158) -/
def State.peerCallHeld (s : State) (ctx : Nat) (c : Cmd) (x : Lane) : Bool :=
  s.atPeer ctx x && c.lanes.any fun y => decide (y.h < x.h) && y.waits && y.st != .parked && s.atPeer ctx y

/-! ### COLLECTOR_ISSUE (R256-R259) -/

/-- Inserts by entry number. -/
def insertHeld (x : HeldLane) : List HeldLane → List HeldLane
  | [] => [x]
  | y :: ys => if x.entry ≤ y.entry then x :: y :: ys else y :: insertHeld x ys

/-- The k oldest lanes that a core's collector holds. -/
def State.oldestHeld (s : State) (core k : Nat) : List HeldLane :=
  ((s.heldLanes core).foldl (fun l x => insertHeld x l) []).take k

def State.lane? (s : State) (k : TeamKey) (tag h : Nat) : Option Lane :=
  (s.cmd? k tag).bind fun c => c.lanes.find? fun x => x.h == h

def State.setLane (s : State) (k : TeamKey) (tag h : Nat) (st : LaneSt) : State :=
  s.modCmd k tag fun c => { c with lanes := c.lanes.map fun x => if x.h = h then { x with st := st } else x }

/-- A read or write that leaves the collector: its lane, form, line, sector and colour. -/
structure Leaving where
  lane : HeldLane
  form : LaneForm
  key : LineKey
  sector : Nat
  colour : Nat
  deriving DecidableEq, Repr, Inhabited

/-- A lower lane of a gather or scatter keeps a held one in the collector: one that is held too and does not leave before it,
on the same line or to a peer as well (R230, R359), or for a scatter one that is parked and overlaps it (R254). -/
def State.staysHeld (s : State) (ctx : Nat) (k : TeamKey) (c : Cmd) (d : LaneDesc) (x : Lane) (before : List Leaving) : Bool :=
  c.lanes.any fun y => decide (y.h < x.h) &&
    match y.st with
    | .held _ => !(before.any fun q => q.lane.team == k && q.lane.tag == c.tag && q.lane.h == y.h) &&
        ((s.objectOf ctx x).isSome && s.objectOf ctx y == s.objectOf ctx x || s.atPeer ctx x && s.atPeer ctx y)
    | .parked => d.form == .scat && s.overlaps ctx d.size y x
    | _ => false

/-- What a held read or write reaches, if it leaves after some others: its translation is at hand and no lower lane keeps
it. -/
def State.leaving (s : State) (core : Nat) (before : List Leaving) (x : HeldLane) : Option Leaving :=
  match s.cmd? x.team x.tag, s.launch? x.team.launch, s.lane? x.team x.tag x.h with
  | some c, some L, some l =>
    match c.body with
    | .lanes d =>
      if d.form = .gath ∨ d.form = .scat then
        match s.resolve core L.ctx (laneAcc d.form l) with
        | .ok w =>
          if s.staysHeld L.ctx x.team c d l before then none else some ⟨x, d.form, w.key, w.off / 32, c.colour⟩
        | _ => none
      else none
    | _ => none
  | _, _, _ => none

/-- The reads and writes that leave the collector of those listed, in order of entry. -/
def State.leavingAll (s : State) (core : Nat) (l : List HeldLane) : List Leaving :=
  l.foldl (fun acc x => acc ++ (s.leaving core acc x).toList) []

/-- Requests for one sector that leave together are merged (R256). -/
def Leaving.joins (x y : Leaving) : Bool := y.form == x.form && y.key == x.key && y.sector == x.sector

/-- The union of the colours of the requests merged with one (R256). -/
def unionColours (l : List Leaving) (x : Leaving) : BitVec 8 :=
  (l.filter x.joins).foldl (fun m y => m ||| colourBit y.colour) 0

/-- One lane as a request carries it (Table 15.1). -/
def callArg (d : LaneDesc) (x : Lane) (arg0 : Nat) : CallArg :=
  ⟨x.va % 128, d.size, d.method, BitVec.ofNat 64 arg0, x.arg1, x.payload⟩

/-- A lane's first argument: a register pair, or z bytes of local memory for VSCATR (R317). -/
def laneArg (T : Team) (d : LaneDesc) (x : Lane) : Nat :=
  if d.form = .scatr then (T.store d.tile).bytes.readNat x.loc d.size else x.arg0.toNat

/-- A lane that the collector holds. -/
def Lane.isHeld (x : Lane) : Bool :=
  match x.st with
  | .held _ => true
  | _ => false

/-- The lanes that leave with lane x: with .comb every held lane of the command at its element, in ascending home lane
(R258, R259); else itself. -/
def State.partners (s : State) (ctx : Nat) (c : Cmd) (d : LaneDesc) (x : Lane) : List Lane :=
  if d.comb && (joins d.method || d.method == 4) then
    c.lanes.filter fun y => y.isHeld && y.va % 128 == x.va % 128 && s.objectOf ctx y == s.objectOf ctx x
  else [x]

/-- The translations of all these lanes are at hand. -/
def State.allResolved (s : State) (core ctx : Nat) (f : LaneForm) (l : List Lane) : Bool :=
  l.all fun y =>
    match s.resolve core ctx (laneAcc f y) with
    | .ok _ => true
    | _ => false

/-- Cuts a list into pieces of at most 64. -/
def cut64 {α : Type} : Nat → List α → List (List α)
  | 0, _ => []
  | n + 1, l => if l.isEmpty then [] else l.take 64 :: cut64 n (l.drop 64)

/-- The requests of lanes at one element: joined into one, packed by 64, or one alone (R258, R259, R287). -/
def buildRequests (T : Team) (L : Launch) (c : Cmd) (d : LaneDesc) (key : LineKey) (ls : List Lane) : List Request :=
  let mk (es : List CallArg) (hs : List (List (Nat × DWord))) : Request :=
    ⟨some T.key, c.tag, c.seq, none, L.ctx, T.core, key, es, hs, d.form != .call⟩
  let args := ls.map (laneArg T d)
  let home (x : Lane) : Nat × DWord := (x.h, BitVec.ofNat 64 (laneArg T d x))
  match ls with
  | [] => []
  | x :: _ =>
    if d.comb && joins d.method then [mk [callArg d x (joinArgs d.method d.size args)] [ls.map home]]
    else (cut64 (ls.length + 1) ls).map fun part =>
      mk (part.map fun y => callArg d y (laneArg T d y)) (part.map fun y => [home y])

/-- Sends a request towards its caldera: through the package, where it is held back in the collector while the caldera's
buffer is full (R283), or to the peer that holds the object, after this die's copy of the line (R229, R282). The flag says
that it has left. -/
def State.sendRequest (s : State) (T : Team) (c : Cmd) (w : Where) (r : Request) : State × Bool :=
  match w.dev with
  | none => if s.calderaTakes r then ({ s with transit := s.transit ++ [r] }, true) else (s, false)
  | some dev =>
    let s := s.drainCore T.core
    if (s.coreAt T.core).wq.any fun q => q.key == r.key then (s, false)
    else ((s.yieldLine T.die r.key).produce (.call r) 3 c.relaxed dev (w.dpa / 128 * 128) r.ctx (.call r.entries r.noReply), true)

/-- A held lane leaves the collector alone, under the colours given. -/
def State.leaveLane (s : State) (k : TeamKey) (tag h : Nat) (colours : BitVec 8) : State :=
  s.modCmd k tag fun c => { c with lanes := c.lanes.map fun x =>
    match x.st with
    | .held e => if x.h = h then { x with st := .issued e e colours } else x
    | _ => x }

/-- Sends requests in order; stops at one that cannot leave yet. -/
def State.sendRequests (T : Team) (c : Cmd) (w : Where) : List Request → State → State
  | [], s => s
  | r :: rs, s =>
    match s.sendRequest T c w r with
    | (s, true) =>
      State.sendRequests T c w rs (r.homes.foldl (fun s hs => hs.foldl (fun s h =>
        s.leaveLane T.key c.tag h.1 (colourBit c.colour)) s) s)
    | (s, false) => s

/-- VSCATR reads its argument from local memory, which may hold an error (R343). -/
def State.argBad (s : State) (k : TeamKey) (d : LaneDesc) (x : Lane) : Bool :=
  d.form == .scatr && s.localBad k (if d.tile then 1 else 0) x.loc

/-- A command that met an error while a lane read data ends DATA_ERROR (R343). -/
def State.laneError (s : State) (T : Team) (L : Launch) (c : Cmd) (cause : Nat) (q : LineKey) (o : Nat) : State :=
  (s.dataError T L c cause q o).stopCmd T.key c.tag 5 0 Cmd.sent

/-- Issues one held lane whose translation is at hand (R256, R281), in a turn of this number. -/
def State.issueLane (core turn : Nat) (merged : List Leaving) (s : State) (x : HeldLane) : State :=
  match s.team? x.team, s.launch? x.team.launch, s.cmd? x.team x.tag, s.lane? x.team x.tag x.h with
  | some T, some L, some c, some l =>
    match c.body, l.st with
    | .lanes d, .held _ =>
      match s.resolve core L.ctx (laneAcc d.form l) with
      | .ok w =>
        match d.form with
        | .gath | .scat =>
          match merged.find? fun q => q.lane == x with
          | some q => s.setLane x.team x.tag x.h (.issued x.entry turn (unionColours merged q))
          | none => s
        | _ =>
          let ls := s.partners L.ctx c d l
          if s.callHeld T L.ctx c l || s.peerCallHeld L.ctx c l || !s.allResolved core L.ctx d.form ls then s
          else
            match ls.find? (s.argBad x.team d) with
            | some y => s.laneError T L c (if d.tile then 6 else 5) ⟨none, 0⟩ y.loc
            | none => State.sendRequests T c w (buildRequests T L c d w.key ls) s
      | _ => s
    | _, _ => s
  | _, _, _, _ => s

/-- Lanes that found no room enter a core's collector (R15, R256). -/
def State.admitCore (s : State) (core : Nat) : State :=
  ((s.teams.filter fun T => T.place.isSome && T.core == core && !T.stopping).map (·.key)).foldl State.admitLanes s

/-- COLLECTOR_ISSUE: the k oldest requests that a core's collector holds leave it, those of one sector merged (R256); a
lane whose page walk is not done stays, and one that a lower lane of its command keeps (R230, R254, R359). -/
def execCollectorIssue (core k : Nat) (s : State) : Host.Outcome State Fault Refusal :=
  let todo := s.oldestHeld core k
  let merged := s.leavingAll core todo
  let turn := (s.coreAt core).entered
  let s := if merged.isEmpty then s else s.modCore core fun q => { q with entered := turn + 1 }
  .next ((todo.foldl (State.issueLane core turn merged) s).admitCore core)

/-! ### Lanes performed (R250, R253, R292) -/

/-- Marks a lane performed. A line whose lanes are all performed fills, and the last lane ends its command (R250,
R292). -/
def State.laneDone (s : State) (k : TeamKey) (tag h : Nat) : State :=
  match s.cmd? k tag, s.lane? k tag h with
  | some c, some x =>
    let s := s.setLane k tag h .done
    let rest := c.lanes.filter fun y => y.h != h
    let line := x.loc / 128
    let claims := c.lasts.any fun p => p.1 == line
    let s : State :=
      match c.body with
      | .lanes d =>
        if claims && rest.all fun y => y.st == .done || y.loc / 128 != line then
          s.modTeam k fun T => T.finishLine d.tile tag line
        else s
      | _ => s
    s.endIfOver k tag
  | _, _ => s

/-- A lane left the collector no later than another. -/
def Lane.leftBy (y x : Lane) : Bool :=
  match y.st, x.st with
  | .issued _ m _, .issued _ n _ => decide (m ≤ n)
  | _, _ => false

/-- A lower lane of the command that left the collector no later acts on the same line and is not performed: the lanes of one
command that act on one line are applied in ascending order (R230); one that is parked holds none back but in R254.
(DEDUCED, log 151) -/
def State.lineHeld (s : State) (ctx : Nat) (c : Cmd) (x : Lane) : Bool :=
  let o := s.objectOf ctx x
  c.lanes.any fun y => decide (y.h < x.h) && y.leftBy x && o.isSome && s.objectOf ctx y == o

/-- A lower lane of the command that left the collector no later needs a sector of a peer that its die neither holds nor has
asked for: requests to peers go in ascending home lane (R359). -/
def State.peerLaneHeld (s : State) (ctx die : Nat) (c : Cmd) (x : Lane) : Bool :=
  s.atPeer ctx x && c.lanes.any fun y => decide (y.h < x.h) && y.leftBy x &&
    match s.locate ctx y.va with
    | some w => w.dev.isSome && ((s.dieAt die).sector? w.key (w.off / 32)).isNone &&
        !s.fabric.out.any fun o => o.why.fills die w.key (w.off / 32)
    | none => false

/-- The number of entry of a lane that left the collector in a turn. -/
def Lane.entryIn (turn : Nat) (x : Lane) : Option Nat :=
  match x.st with
  | .issued e n _ => if n = turn then some e else none
  | _ => none

/-- The sector that a lane names. -/
def State.sectorOf (s : State) (ctx : Nat) (x : Lane) : Option (LineKey × Nat) :=
  (s.locate ctx x.va).map fun w => (w.key, w.off / 32)

/-- A write of another command that was merged with the lane's and entered the collector earlier is not performed: of two
merged writes the later one prevails (R256). -/
def State.mergeHeld (s : State) (T : Team) (ctx : Nat) (c : Cmd) (x : Lane) : Bool :=
  match x.st with
  | .issued e turn _ =>
    let o := s.sectorOf ctx x
    s.teams.any fun U => U.place.isSome && U.core == T.core && U.cmds.any fun b =>
      !(U.key == T.key && b.tag == c.tag) && b.live &&
      match b.body, s.launch? U.key.launch with
      | .lanes d, some L => d.form == .scat && b.lanes.any fun y =>
          ((y.entryIn turn).any fun i => decide (i < e)) && o.isSome && s.sectorOf L.ctx y == o
      | _, _ => false
  | _ => false

/-- LANE_PERFORMED: an issued lane of a gather or scatter is performed (R253, R254, R316). A gather reads through the die's
L2, waiting for a peer's sector; a scatter reads its local bytes, waits for a peer's sector that it writes part of, and writes
through the core's queue. Lanes keep the orders of R230, R254, R256 and R359. -/
def execLanePerformed (team : TeamKey) (tag lane : Nat) (s : State) : Host.Outcome State Fault Refusal :=
  match s.team? team, s.launch? team.launch, s.cmd? team tag, s.lane? team tag lane with
  | some T, some L, some c, some x =>
    match c.body, x.st with
    | .lanes d, .issued _ _ colours =>
      match s.resolve T.core L.ctx (laneAcc d.form x) with
      | .ok w =>
        let g := { c.agent T L with colours := colours }
        if s.lineHeld L.ctx c x || s.peerLaneHeld L.ctx T.die c x then .next s
        else match d.form with
        | .gath =>
          match s.readAt g w.key w.off d.size with
          | (.bad cause q o, s) => .next (s.laneError T L c cause q o)
          | (.wait, s) => .next s
          | (.ok bs, s) =>
            let put (T : Team) : Team :=
              let st := T.store d.tile
              T.setStore d.tile { st with bytes := st.bytes.write x.loc bs }
            .next (((s.modTeam team put).clearError (if d.tile then .tile team (x.loc / 128) else .scratch team (x.loc / 128))).laneDone
              team tag lane)
        | .scat =>
          if s.laneHeld L.ctx d.size c x || s.mergeHeld T L.ctx c x then .next s
          else if s.localBad team (if d.tile then 1 else 0) x.loc then
            .next (s.laneError T L c (if d.tile then 6 else 5) ⟨none, 0⟩ x.loc)
          else
            match s.fillFor g w.key w.off d.size with
            | (s, false) => .next s
            | (s, true) =>
              .next ((s.enqueue g w.key w.off ((T.store d.tile).bytes.read x.loc d.size)).laneDone team tag lane)
        | _ => .next s
      | _ => .next s
    | _, _ => .next s
  | _, _, _, _ => .next s

/-! ### Replies (R291, R292) -/

/-- The bytes of a reply slot (Table 15.4). -/
def slotImage (r : CallReply) (value : DWord) : List Byte :=
  let bad := r.status == 0x10 || r.status == 0x11
  if isDeq r.method then
    (if r.status = 0 then (r.entry ++ List.replicate 32 0).take 32 else List.replicate 32 0) ++
    leBytes 8 (if bad then 0 else value.toNat) ++ leBytes 6 0 ++ leBytes 1 r.method ++ [r.status] ++ List.replicate 16 0
  else
    leBytes 8 (if bad then 0 else value.toNat) ++ leBytes 4 (if bad then 0 else r.aux.toNat) ++ leBytes 2 0 ++
    leBytes 1 r.method ++ [r.status]

/-- The status that a failed reply gives its command: METHOD_FAULT 4, DATA_ERROR 5, which METHOD_FAULT precedes. -/
def worse (bad : Nat) (status : Byte) : Nat :=
  if status = 0x10 ∨ bad = 4 then 4 else if status = 0x11 then 5 else bad

/-- A command notes the flags and the status of a reply. -/
def State.noteReply (s : State) (k : TeamKey) (tag : Nat) (status : Byte) (fl : BitVec 5) : State :=
  s.modCmd k tag fun c => { c with flags := c.flags ||| fl, bad := worse c.bad status }

/-- What each home lane of a request receives: its value and flags (R258).
(DESIGN CHOICE, log 191) -/
def laneReplies (size : Nat) (homes : List (Nat × DWord)) (r : CallReply) : List (Nat × DWord × BitVec 5) :=
  if homes.length ≤ 1 then homes.map fun h => (h.1, r.value, r.flags)
  else List.zipWith (fun h v => (h.1, BitVec.ofNat 64 v.1, v.2 ||| r.flags)) homes
    (spreadReplies r.method size r.value.toNat (homes.map fun h => h.2.toNat))

/-- Lanes of a request are performed: `write` puts each reply where it belongs. -/
def State.replyLanes (s : State) (k : TeamKey) (tag : Nat) (homes : List (Nat × DWord)) (r : CallReply) (slots : Bool) :
    State :=
  match s.cmd? k tag with
  | none => s
  | some c =>
    match c.body with
    | .lanes d =>
      (laneReplies d.size homes r).foldl (fun s v =>
        let s := s.noteReply k tag r.status v.2.2
        let s := match slots, s.lane? k tag v.1 with
          | true, some x => (s.modTeam k fun T =>
            { T with scratch := { T.scratch with bytes := T.scratch.bytes.write x.loc (slotImage r v.2.1) } }).clearError
              (.scratch k (x.loc / 128))
          | _, _ => s
        let s := match s.team? k with
          | some T =>
            let s := if d.form.isCall then s.tallyOf k.launch T.core 21 1 else s
            if slots then s.noteLatency (16 + T.die) else s
          | none => s
        s.laneDone k tag v.1) s
    | _ => s

/-- REPLY_LANDS: the k-th reply on its way is written whole into its slots, and its lanes are performed (R292). -/
def execReplyLands (k : Nat) (s : State) : Host.Outcome State Fault Refusal :=
  match s.replies[k]? with
  | none => .next s
  | some x =>
    .next (({ s with replies := s.replies.eraseIdx k }).replyLanes x.team x.tag x.homes x.reply true)

end Sys2Proof.Machine
end

