-- ==== Sys2Proof/Machine/Control.lean ====
section
/-! DEFINITION. Control transfer and idempotent regions (R172-R181), and the system instructions MFSR, MTSR and PMARK
(R182-R185). -/

namespace Sys2Proof.Machine

/-- A transfer word: `stop` gives the trap of an active thread, if it would trap (R142, R344); else `run` acts, and `target`
is each active thread's next clause. -/
def transferWord (i : Instr) (stop : Hdr → Cur → State → Nat → Option WordStop) (run : Hdr → Cur → State → State) (target : Cur → State → Nat → DWord) (s : State) :
    Host.Outcome State Fault Refusal :=
  issueWordOr i stop (fun h c s =>
    let tgt (t : Nat) : DWord := if (c.thread t).guard h then target c s t else c.nextClause
    (run h c s).advance c [] tgt) s

/-- A + 8 × off (R173). -/
def clauseTarget (c : Cur) {w : Nat} (off : BitVec w) : DWord := c.b.addr + 8 * off.signExtend 64

/-- Targets of BRX and CALLX have bits 2:0 and 63:56 zero (R175). -/
def targetOk (x : DWord) : Bool := x.extractLsb' 0 3 == 0 && x.extractLsb' 56 8 == 0

/-- A thread's return stack is full (R38). -/
def stackFull (c : Cur) (t : Nat) : Bool := decide (c.L.rcd.stack / 8 ≤ (c.thread t).depth)

/-- The first return-stack line with an uncorrectable error among n entries of a thread from `first` on (R344). -/
def stackError (c : Cur) (s : State) (t first n : Nat) : Option WordStop :=
  if s.errors.isEmpty then none
  else
    ((List.range n).find? fun i => s.errors.contains (.scratch c.b.team ((c.L.rcd.stackBase t + 8 * (first + i)) / 128))).map
      fun i => .error 5 ((c.L.rcd.stackBase t + 8 * (first + i)) / 128 * 128)

/-- Pushes the next clause of each active thread on its own stack (R173); that ends an error of its line (R344). -/
def pushReturns (h : Hdr) (c : Cur) (s : State) : State :=
  let s := (c.active h).foldl (fun s t =>
    s.clearError (.scratch c.b.team ((c.L.rcd.stackBase t + 8 * (c.thread t).depth) / 128))) s
  s.modTeam c.b.team fun T => (c.active h).foldl (fun T t =>
    let a := c.L.rcd.stackBase t + 8 * (c.thread t).depth
    (T.writeStore false a 8 c.nextClause.toNat).modThread t fun th => { th with depth := th.depth + 1 }) T

/-- The entry that RET pops (R176). -/
def popReturn (c : Cur) (s : State) (t : Nat) : DWord :=
  match s.team? c.b.team with
  | some T => BitVec.ofNat 64 (T.readStore false (c.L.rcd.stackBase t + 8 * ((c.thread t).depth - 1)) 8)
  | none => 0

/-- The address of the table word that BRX reads (R174). -/
def brxAddr (toff : BitVec 20) (a : Opnd) (c : Cur) (t : Nat) : DWord :=
  clauseTarget c toff + 8 * ((c.env t).r32 a).setWidth 64

/-- The table word, or the address of the first byte that cannot be fetched. -/
def brxWord (toff : BitVec 20) (a : Opnd) (c : Cur) (s : State) (t : Nat) : FetchBytes :=
  s.fetchBytes c.L.ctx c.T.die 8 (brxAddr toff a c t).toNat

/-- BRX traps on a table word that cannot be fetched, which the record names by the word's address, and on a bad target
(R174, R175). -/
def brxTrap (toff : BitVec 20) (a : Opnd) (c : Cur) (s : State) (t : Nat) : Option WordStop :=
  match brxWord toff a c s t with
  | .fault _ => some (.trap 0x0A (brxAddr toff a c t))
  | .ok bs => if targetOk (BitVec.ofNat 64 (leNat bs)) then none else some (.trap 2 c.b.addr)
  | .away _ => none

def brxTarget (toff : BitVec 20) (a : Opnd) (c : Cur) (s : State) (t : Nat) : DWord :=
  match brxWord toff a c s t with
  | .ok bs => BitVec.ofNat 64 (leNat bs)
  | _ => 0

def execBra (h : Hdr) (off : BitVec 30) (s : State) : Host.Outcome State Fault Refusal :=
  transferWord (.bra h off) noError (fun _ _ s => s) (fun c _ _ => clauseTarget c off) s

/-- A table word that lies on a peer and whose sector has not come, if no thread below its own traps. -/
def brxAway (h : Hdr) (toff : BitVec 20) (a : Opnd) (c : Cur) (s : State) : Option Where :=
  ((c.active h).findSome? fun t =>
    match s.threadStop c (.brx h toff a) (brxTrap toff a c s) t, brxWord toff a c s t with
    | some _, _ => some none
    | none, .away w => some (some w)
    | none, _ => none).join

/-- The die's TLB after the table words of the active threads have been read. -/
def brxLoads (toff : BitVec 20) (a : Opnd) (h : Hdr) (c : Cur) (s : State) : State :=
  (c.active h).foldl (fun s t => s.fetchLoads c.L.ctx c.T.die 8 (brxAddr toff a c t).toNat) s

/-- BRX, once nothing outstanding holds it, waits as a fetch does while a table word lies on a peer and its sector has not
come (R70, R85, R221). -/
def execBrx (h : Hdr) (toff : BitVec 20) (a : Opnd) (s : State) : Host.Outcome State Fault Refusal :=
  match s.cur?.bind fun c =>
      if c.held (.brx h toff a) h then none else (brxAway h toff a c s).map fun w => (c, w) with
  | some (c, w) => .next ((brxLoads toff a h c s).requestSector c.T c.L.ctx w)
  | none => transferWord (.brx h toff a) (fun _ => brxTrap toff a) (brxLoads toff a) (brxTarget toff a) s

def execCall (h : Hdr) (off : BitVec 30) (s : State) : Host.Outcome State Fault Refusal :=
  transferWord (.call h off) (fun _ c _ t => if stackFull c t then some (.trap 5 c.b.addr) else none) pushReturns
    (fun c _ _ => clauseTarget c off) s

/-- CALLX checks its target and its stack; for a thread that fails both, the bad target is named (R175). -/
def execCallx (h : Hdr) (a : Opnd) (s : State) : Host.Outcome State Fault Refusal :=
  transferWord (.callx h a)
    (fun _ c _ t =>
      if !targetOk ((c.env t).r64 a) then some (.trap 2 c.b.addr)
      else if stackFull c t then some (.trap 5 c.b.addr) else none)
    pushReturns (fun c _ t => (c.env t).r64 a) s

def execRet (h : Hdr) (s : State) : Host.Outcome State Fault Refusal :=
  transferWord (.ret h)
    (fun _ c s t => if (c.thread t).depth = 0 then some (.trap 6 c.b.addr) else stackError c s t ((c.thread t).depth - 1) 1)
    (fun h c s => s.modTeam c.b.team fun T =>
      T.onThreads (c.active h) fun _ th => { th with depth := th.depth - 1 }) popReturn s

/-- EXIT: the thread never issues again, and its outstanding results are discarded (R177); then barriers, collectives
and the team follow (R55, R58, R46). -/
def execExit (h : Hdr) (s : State) : Host.Outcome State Fault Refusal :=
  issueWord (.exit h) (fun h c s =>
    let act := c.active h
    let s := s.modTeam c.b.team fun T =>
      T.onThreads act fun _ th => { th with exited := true, pending := [], ckpt := none }
    (s.advance c [] fun _ => c.nextClause).afterExit c.b.team (act.map c.L.rcd.groupOf).eraseDups) s

/-- TRAP and BKPT: an active thread raises the trap, with the next clause as resume address (R178). -/
def softTrap (i : Instr) (cause : Nat) (code : BitVec 10) (s : State) : Host.Outcome State Fault Refusal :=
  issueWord i (fun h c s =>
    match c.active h with
    | t :: _ => s.runTrap c cause t true code.toNat
    | [] => s.step1 c) s

def execTrap (h : Hdr) (code : BitVec 10) (s : State) : Host.Outcome State Fault Refusal :=
  softTrap (.trap h code) 8 code s

def execBkpt (h : Hdr) (code : BitVec 10) (s : State) : Host.Outcome State Fault Refusal :=
  softTrap (.bkpt h code) 9 code s

def execNop (h : Hdr) (s : State) : Host.Outcome State Fault Refusal :=
  issueWord (.nop h) (fun _ c s => s.step1 c) s

/-- YIELD marks the bundle if a thread is active (R179, R50). -/
def execYield (h : Hdr) (s : State) : Host.Outcome State Fault Refusal :=
  issueWord (.yield h) (fun h c s =>
    (if (c.active h).isEmpty then s
     else s.modSlice c.core c.sl fun x =>
      { x with bundle := x.bundle.map fun b => { b with yielded := true } }).step1 c) s

/-! ### Idempotent regions (R180, R181) -/

/-- Base and mask of an IDEMBEG mask word (R180). -/
def idemBase (x : Word) : Nat := x.toNat / 65536 % 512

def idemMask (x : Word) : BitVec 16 := x.extractLsb' 0 16

/-- The registers that the mask names. -/
def idemRegs (x : Word) : List Nat := ((List.range 16).filter fun j => x.getLsbD j).map (idemBase x + ·)

/-- A named register is beyond the budget or beyond v511 (R180). -/
def idemBad (a : Opnd) (c : Cur) (t : Nat) : Bool :=
  (idemRegs ((c.env t).r32 a)).any fun i => decide (c.L.rcd.budgetOf t ≤ i) || decide (511 < i)

/-- An outstanding write to a named register holds IDEMBEG (R180, R85). -/
def idemHeld (h : Hdr) (a : Opnd) (c : Cur) : Bool :=
  (c.active h).any fun t =>
    (c.thread t).pending.any fun p => p.meets (idemRegs ((c.env t).r32 a)) [] []

/-- IDEMBEG traps on a mask that names a register beyond the budget (R180), and on an uncorrectable error that its
checkpoint would read, in a named register or in the return stack (R344). -/
def idemStop (a : Opnd) (c : Cur) (s : State) (t : Nat) : Option WordStop :=
  if idemBad a c t then some (.trap 3 c.b.addr)
  else if s.errors.isEmpty then none
  else match (idemRegs ((c.env t).r32 a)).find? fun r => s.errors.contains (.reg c.b.team t r) with
    | some r => some (.error 7 r)
    | none => stackError c s t 0 (c.thread t).depth

/-- The checkpoint of a thread (R180). -/
def checkpointOf (entry : DWord) (x : Word) (T : Team) (r : LaunchRec) (t : Nat) (th : Thread) : Checkpoint where
  entry := entry
  base := idemBase x
  mask := idemMask x
  regs := (idemRegs x).map fun i => (i, sget 0 th.regs i)
  preds := th.preds
  stack := (List.range th.depth).map fun i => BitVec.ofNat 64 (T.readStore false (r.stackBase t + 8 * i) 8)
  fp := th.fp
  srstep := th.srstep

/-- IDEMBEG: each active thread's checkpoint is made once no write to a register that it names is outstanding (R180, R85).
(DEDUCED, log 34) -/
def execIdembeg (h : Hdr) (eoff : BitVec 20) (a : Opnd) (s : State) : Host.Outcome State Fault Refusal :=
  match s.cur? with
  | none => .next s
  | some c =>
    if idemHeld h a c then .next s
    else issueWordOr (.idembeg h eoff a) (fun _ => idemStop a) (fun h c s =>
      (s.modTeam c.b.team fun T => T.onThreads (c.active h) fun t th =>
        { th with ckpt := some (checkpointOf (clauseTarget c eoff) ((c.env t).r32 a) T c.L.rcd t th) }.deliver
          h.ctr [] [] []).step1 c) s

def execIdemend (h : Hdr) (s : State) : Host.Outcome State Fault Refusal :=
  issueWord (.idemend h) (fun h c s =>
    (s.modTeam c.b.team fun T => T.onThreads (c.active h) fun _ th =>
      { th with ckpt := none }.deliver h.ctr [] [] []).step1 c) s

/-! ### System registers (Table 09.2) -/

/-- The value of a system register for a thread. -/
def sysReg (T : Team) (th : Thread) (num : Nat) : Word :=
  match num with
  | 0 => th.fp.setWidth 32
  | 1 => th.srstep
  | 2 => T.scrinfo
  | 3 => T.scrthread
  | 4 => T.tileinfo
  | 5 => T.tilethread
  | 6 => if th.ckpt.isSome then 1 else 0
  | 7 => th.mark.setWidth 32
  | _ => 0

/-- MTSR by one thread: bits 4:0 of the status word, the SR step, or clearing an out-of-range record (R183, R184). -/
def mtsrThread (num : Nat) (x : Word) (t : Nat) (T : Team) : Team :=
  match num with
  | 0 => T.modThread t fun th => { th with fp := x.extractLsb' 0 5 }
  | 1 => T.modThread t fun th => { th with srstep := x }
  | 2 => if x.getLsbD 31 then { T with scrinfo := 0, scrthread := 0 } else T
  | 4 => if x.getLsbD 31 then { T with tileinfo := 0, tilethread := 0 } else T
  | _ => T

def execMfsr (h : Hdr) (num : BitVec 10) (d : Opnd) (s : State) : Host.Outcome State Fault Refusal :=
  accessWord (.mfsr h num d) noError
    (fun h c _ t T => T.commit h t (.reg (w32 d (sysReg T (c.thread t) num.toNat)))) s

def execMtsr (h : Hdr) (num : BitVec 10) (a : Opnd) (s : State) : Host.Outcome State Fault Refusal :=
  accessWord (.mtsr h num a) noError
    (fun h c _ t T => (mtsrThread num.toNat ((c.env t).r32 a) t T).commit h t .none) s

def execPmark (h : Hdr) (a : Opnd) (s : State) : Host.Outcome State Fault Refusal :=
  accessWord (.pmark h a) noError
    (fun h c _ t T => (T.modThread t fun th => { th with mark := ((c.env t).r32 a).extractLsb' 0 16 }).commit
      h t .none) s

end Sys2Proof.Machine
end

