-- ==== Sys2Proof/Machine/Clause.lean ====
section
/-! DEFINITION. The clause header and the checks that a clause passes before it starts (R67-R71, R75-R77, R83, R89). -/

namespace Sys2Proof.Machine

/-- Fields of a clause header (Table 04.1). -/
def headerCount (x : DWord) : Nat := (x.extractLsb' 0 4).toNat + 1
def headerClass (x : DWord) : Nat := (x.extractLsb' 4 4).toNat
def headerYield (x : DWord) : Bool := x.getLsbD 15

/-- Counter kj is named in the wait mask, j = 1..7 (Table 04.1). -/
def headerWaits (x : DWord) (j : Nat) : Bool := x.getLsbD (7 + j)

def headerOk (x : DWord) : Bool := x.extractLsb' 16 48 == 0 && decide (headerClass x ≤ 4)

/-- Opcodes of the base set (Table 04.2). -/
def baseSet (op : Nat) : Bool :=
  (decide (0x001 ≤ op) && decide (op ≤ 0x04F)) || (decide (0x060 ≤ op) && decide (op ≤ 0x07F)) ||
  (decide (0x0A0 ≤ op) && decide (op ≤ 0x0BF)) || op == 0x1C2

/-- A class admits an opcode; the transfer instructions, NOP and YIELD may stand in every class (R69, Table 04.2). -/
def classAdmits (cl op : Nat) : Bool :=
  baseSet op || (decide (0x1A0 ≤ op) && decide (op ≤ 0x1A9)) ||
  (match cl with
   | 1 => (decide (0x050 ≤ op) && decide (op ≤ 0x05F)) || (decide (0x080 ≤ op) && decide (op ≤ 0x09F))
   | 2 => decide (0x0C0 ≤ op) && decide (op ≤ 0x13F)
   | 3 => decide (0x140 ≤ op) && decide (op ≤ 0x19F)
   | 4 => decide (0x1A0 ≤ op) && decide (op ≤ 0x1DF)
   | _ => false)


/-- An index of a kind-1 source of a width may be read (R75, R77). -/
def srcIndexOk : Opnd × Nat → Bool
  | (.v _, _) => true
  | (.k1 i, w) =>
    let n := i.toNat
    if n = 0 then true
    else match w with
      | 1 => decide (n ≤ 28)
      | 2 => decide (n % 2 = 0) && decide (n + 1 ≤ 28)
      | _ => false

/-- A kind-1 destination is the literal zero (R75). -/
def dstIndexOk : Opnd × Nat → Bool
  | (.v _, _) => true
  | (.k1 i, _) => i == 0

/-- Pairs are even and quads multiples of 4 (R76). -/
def alignOk : Opnd × Nat → Bool
  | (.v i, w) => decide (i.toNat % w = 0)
  | (.k1 _, _) => true

def budgetOk (b : Nat) : Opnd × Nat → Bool
  | (.v i, _) => decide (i.toNat < b)
  | (.k1 _, _) => true

/-- The slot fits the conversion instruction (R171). -/
def slotFits (slots : List DWord) (i : Instr) : Bool :=
  match i with
  | .cvt _ fs .. =>
    let x := slotVal slots fs.toNat
    slotGroupCode x == 0 && !isMx (x % 32)
  | .qnt _ fs .. | .dqnt _ fs .. =>
    let x := slotVal slots fs.toNat
    isMx (x % 32) || (isGroupable (x % 32) && slotGroupCode x != 0)
  | .pack _ fs .. =>
    let x := slotVal slots fs.toNat
    slotGroupCode x == 0 && !isMx (x % 32) && decide (fmtBits (x % 32) ≤ 16)
  | .unpk _ fs toInt .. =>
    let x := slotVal slots fs.toNat
    slotGroupCode x == 0 && !isMx (x % 32) && decide (fmtBits (x % 32) ≤ 16) &&
    (!toInt || decide (10 ≤ x % 32))
  | _ => true

/-- Checks that rest on the launch and raise *illegal operand* (R171, R180, R182, R206). -/
def launchOk (r : LaunchRec) (i : Instr) : Bool :=
  slotFits r.slots i &&
  match i with
  | .mfsr _ num _ => decide (num.toNat ≤ 7)
  | .mtsr _ num _ => num == 0 || num == 1 || num == 2 || num == 4
  | .qput _ q _ | .qget _ q _ | .qpeek _ q _ => r.depth q.toNat != 0
  | .idembeg .. => r.idem
  | _ => true

/-- The rounding code and slot of an instruction that may round with SR (R141). -/
def rndOf : Instr → Option (Rnd × BitVec 3)
  | .fadd _ r .. | .fsub _ r .. | .fmul _ r .. | .frcp _ r .. | .frsq _ r .. | .fsqrt _ r .. | .fdiv _ r ..
  | .dadd _ r .. | .dmul _ r .. | .drcp _ r .. => some (r, 0)
  | .hadd2 _ _ r .. | .hmul2 _ _ r .. => some (r, 0)
  | .cvt _ fs _ r .. | .qnt _ fs r .. | .dqnt _ fs r .. | .pack _ fs _ r .. => some (r, fs)
  | _ => none

/-- SR rounding needs feature bit 2 (R141, R380). -/
def srAllowed (features : BitVec 256) (slots : List DWord) (i : Instr) : Bool :=
  match rndOf i with
  | some (.sr, _) => features.getLsbD 2
  | some (.rslot, fs) => features.getLsbD 2 || slotRound (slotVal slots fs.toNat) != 4
  | _ => true

/-- A word of the window reads or writes something that the earlier word writes (R83). -/
def shapesMeet (x y : Shape) (guard : PCode) : Bool :=
  let rs := x.regsWritten
  (y.regsRead ++ y.regsWritten).any rs.contains ||
  (predNums (guard :: y.pr ++ y.pw)).any (predNums x.pw).contains ||
  (y.sr ++ y.sw).any x.sw.contains

/-- The window of lookahead L lies in the clause and is free of dependences (R83). A word that does not decode has none,
and is named itself.
(DESIGN CHOICE, log 165) -/
def lookaheadOk (r : LaunchRec) (i : Instr) (h : Hdr) (rest : List DWord) : Bool :=
  let n := h.la.toNat
  decide (n ≤ rest.length) &&
  (rest.take n).all fun w =>
    match decodeWord w with
    | .ok j => !shapesMeet (i.shape r.width r.slots) (j.shape r.width r.slots) ((j.hdr?.map (·.psel)).getD 7)
    | .error _ => true

/-- The checks of one word (Table 04.7): none, or the cause and whether the thread with this budget fails it. `rest`
are the words after it. The static checks do not depend on the thread. -/
def wordTrap (features : BitVec 256) (r : LaunchRec) (cl : Nat) (w : DWord) (rest : List DWord) : Option Nat :=
  match decodeWord w with
  | .error _ => some 1
  | .ok i =>
    match i.hdr? with
    | none => some 1
    | some h =>
      let op := (w.extractLsb' 55 9).toNat
      let x := i.shape r.width r.slots
      if !classAdmits cl op || (i.isTransfer && !rest.isEmpty) then some 1
      else if !srAllowed features r.slots i then some 1
      else if !lookaheadOk r i h rest then some 1
      else if !(x.srcs.all srcIndexOk) || !(x.dsts.all dstIndexOk) || !launchOk r i then some 2
      else if !((x.srcs ++ x.dsts).all alignOk) then some 4
      else none

/-- A thread of budget b fails the word's budget check (R76). -/
def wordOverBudget (r : LaunchRec) (w : DWord) (b : Nat) : Bool :=
  match decodeWord w with
  | .ok i =>
    let x := i.shape r.width r.slots
    !((x.srcs ++ x.dsts).all (budgetOk b))
  | .error _ => false

/-- A failed check of a clause: the cause, the address and bits of the offending word, and the threads that fail. -/
structure ClauseTrap where
  cause : Nat
  waddr : DWord
  word : DWord
  failing : List Nat
  deriving DecidableEq, Repr, Inhabited

/-- Checks the words from one on, in order (R89). -/
def checkWords (features : BitVec 256) (r : LaunchRec) (cl : Nat) (ts : List Nat) (a : DWord) :
    List DWord → Option ClauseTrap
  | [] => none
  | w :: rest =>
    match wordTrap features r cl w rest with
    | some cause => some ⟨cause, a, w, ts⟩
    | none =>
      match ts.filter fun t => wordOverBudget r w (r.budgetOf t) with
      | [] => checkWords features r cl ts (a + 8) rest
      | bad => some ⟨3, a, w, bad⟩

/-- The checks of Table 04.7 on a fetched clause for the threads of a bundle. -/
def checkClause (features : BitVec 256) (r : LaunchRec) (ts : List Nat) (a header : DWord) (words : List DWord) :
    Option ClauseTrap :=
  if !headerOk header then some ⟨1, a, header, ts⟩
  else checkWords features r (headerClass header) ts (a + 8) words

end Sys2Proof.Machine
end

