-- ==== Sys2Proof/Machine/Compare.lean ====
section
/-! DEFINITION. Compare, select, move and predicate instructions (R152-R155, R81). -/

namespace Sys2Proof.Machine

/-- An integer comparison (R152). -/
def icmp (c : ICmp) (x y : Int) : Bool :=
  match c with
  | .eq => x == y
  | .ne => x != y
  | .lt => decide (x < y)
  | .le => decide (x ≤ y)
  | .gt => decide (y < x)
  | .ge => decide (y ≤ x)

/-- An operation of PSET (R154). -/
def pop (o : POp) (x y : Bool) : Bool :=
  match o with
  | .and => x && y
  | .or => x || y
  | .xor => xor x y
  | .andn => x && !y
  | .orn => x || !y
  | .nand => !(x && y)
  | .nor => !(x || y)
  | .xnor => !(xor x y)

def outIset (t : ITy) (c : ICmp) (pd : PCode) (a b : Opnd) (e : Env) : Out :=
  .pred (wp pd (icmp c (e.val t a) (e.val t b)))

def outSel (pk : PCode) (d a b : Opnd) (e : Env) : Out := .reg (w32 d (if e.pred pk then e.r32 a else e.r32 b))

def outMov (x64 : Bool) (d a : Opnd) (e : Env) : Out :=
  if x64 then .reg (w64 d (e.r64 a)) else .reg (w32 d (e.r32 a))

def outMovi (imm : Word) (d : Opnd) (_ : Env) : Out := .reg (w32 d imm)

def outPset (o : POp) (pd pa pb : PCode) (e : Env) : Out := .pred (wp pd (pop o (e.pred pa) (e.pred pb)))

/-- All predicates into a register, or from one (R155). -/
def outPmov (f : PMovForm) (e : Env) : Out :=
  match f with
  | .get d => .reg (w32 d (e.preds.setWidth 32))
  | .set a => .pred ((List.range 7).map fun i => (i, (e.r32 a).getLsbD i))

def execIset (h : Hdr) (t : ITy) (cmp : ICmp) (pd : PCode) (a b : Opnd) (s : State) :
    Host.Outcome State Fault Refusal :=
  aluWord (.iset h t cmp pd a b) (outIset t cmp pd a b) s

def execSel (h : Hdr) (pk : PCode) (d a b : Opnd) (s : State) : Host.Outcome State Fault Refusal :=
  aluWord (.sel h pk d a b) (outSel pk d a b) s

def execMov (h : Hdr) (x64 : Bool) (d a : Opnd) (s : State) : Host.Outcome State Fault Refusal :=
  aluWord (.mov h x64 d a) (outMov x64 d a) s

def execMovi (h : Hdr) (imm : Word) (d : Opnd) (s : State) : Host.Outcome State Fault Refusal :=
  aluWord (.movi h imm d) (outMovi imm d) s

def execPset (h : Hdr) (op : POp) (pd pa pb : PCode) (s : State) : Host.Outcome State Fault Refusal :=
  aluWord (.pset h op pd pa pb) (outPset op pd pa pb) s

def execPmov (h : Hdr) (form : PMovForm) (s : State) : Host.Outcome State Fault Refusal :=
  aluWord (.pmov h form) (outPmov form) s

end Sys2Proof.Machine
end

