-- ==== Sys2Proof/Machine/Conversion.lean ====
section
/-! DEFINITION. The conversion and quantisation instructions (R166-R170). -/

namespace Sys2Proof.Machine

def Env.slot (e : Env) (fs : BitVec 3) : Nat := slotVal e.slots fs.toNat

/-- The exact value of CVT's source (R166). -/
def cvtSource (src : CvtSrc) (a : Opnd) (e : Env) : Num :=
  match src with
  | .fp32 => fp32.decode (e.r32 a).toNat
  | .fp16 => fp16.decode ((e.r32 a).toNat % 65536)
  | .bf16 => bf16.decode ((e.r32 a).toNat % 65536)
  | .fp64 => fp64.decode (e.r64 a).toNat
  | .s32 => .ofInt (e.r32 a).toInt
  | .n32 => .ofInt (e.r32 a).toNat
  | .s64 => .ofInt (e.r64 a).toInt
  | .n64 => .ofInt (e.r64 a).toNat

/-- A code as a register value: integers are extended, floating codes stand in the low bits (R166). -/
def tgtReg (t : Tgt) (bits : Nat) : Nat :=
  match t with
  | .flt _ => bits
  | .int signed n => if signed && decide (2 ^ (n - 1) ≤ bits) then bits + 2 ^ 64 - 2 ^ n else bits

def outCvt (fs : BitVec 3) (src : CvtSrc) (rnd : Rnd) (d a : Opnd) (e : Env) : Out :=
  let t := tgtOf (e.slot fs % 32)
  let r := convert t (e.mode rnd fs 0) (slotSat (e.slot fs)) (cvtSource src a e)
  ⟨if t.width = 64 then w64 d (BitVec.ofNat 64 r.bits) else w32 d (BitVec.ofNat 32 (tgtReg t r.bits)),
    [], r.flags, e.usesSr rnd fs⟩

/-- Packs codes of n bits, element 0 lowest (R114, R167, R169). -/
def packCodes (n : Nat) : List Nat → Nat
  | [] => 0
  | x :: xs => x % 2 ^ n + 2 ^ n * packCodes n xs

/-- One code of QNT with its flags (R167). -/
def qntElem (slot : Nat) (mode : RMode) (b : Word) (x : Num) : Nat × BitVec 5 :=
  let fmt := slot % 32
  let t := tgtOf fmt
  if isMx fmt then
    let sc := b.toNat % 256
    if sc = 0xFF then (0, fNV)
    else
      let r := convert t mode (slotSat slot) (x.scale ((sc : Int) - 127))
      (r.bits, r.flags)
  else
    let sigma := fp16.decode (b.toNat % 65536)
    let z := b.toNat / 65536 % 256
    let zp := slotZp slot
    let bad := match sigma with
      | .fin _ m _ => m == 0
      | _ => true
    if !x.isFin || bad then ((if zp then z % 2 ^ t.width else 0), fNV)
    else
      let n := t.width
      let r := if zp then quantElem mode x sigma z 0 (2 ^ n - 1)
        else quantElem mode x sigma 0 (-(2 ^ (n - 1))) (2 ^ (n - 1) - 1)
      (intBits n r.1, r.2)

/-- QNT: four values to codes under their scale (R167).
(DEDUCED, log 31) -/
def outQnt (fs : BitVec 3) (rnd : Rnd) (d a b : Opnd) (e : Env) : Out :=
  let n := (tgtOf (e.slot fs % 32)).width
  let r (i : Nat) : Nat × BitVec 5 :=
    qntElem (e.slot fs) (e.mode rnd fs i) (e.r32 b) (fp32.decode (e.quad a i).toNat)
  ⟨w32 d (BitVec.ofNat 32 (packCodes n [(r 0).1, (r 1).1, (r 2).1, (r 3).1])), [],
    (r 0).2 ||| (r 1).2 ||| (r 2).2 ||| (r 3).2, e.usesSr rnd fs⟩

/-- The exact value of a code under a scale word (R168, R128). -/
def dqntValue (slot : Nat) (b : Word) (code : Nat) : Num :=
  let fmt := slot % 32
  if isMx fmt then
    match tgtOf fmt with
    | .flt f => mxValue f (b.toNat % 256) code
    | .int .. => .nan false
  else
    let sigma := fp16.decode (b.toNat % 65536)
    if sigma.isNaN then sigma
    else groupValue (tgtOf fmt) sigma (if slotZp slot then b.toNat / 65536 % 256 else 0) code

def outDqnt (fs : BitVec 3) (rnd : Rnd) (d a b : Opnd) (e : Env) : Out :=
  let n := (tgtOf (e.slot fs % 32)).width
  let r (i : Nat) : FRes :=
    convertFlt fp32 (e.mode rnd fs i) (slotSat (e.slot fs))
      (dqntValue (e.slot fs) (e.r32 b) ((e.r32 a).toNat / 2 ^ (n * i) % 2 ^ n))
  let w (i : Nat) : Word := BitVec.ofNat 32 (r i).bits
  ⟨wquad d (w 0) (w 1) (w 2) (w 3), [], (r 0).flags ||| (r 1).flags ||| (r 2).flags ||| (r 3).flags,
    e.usesSr rnd fs⟩

def packSource (src : PackSrc) (x : Word) : Num :=
  match src with
  | .fp32 => fp32.decode x.toNat
  | .s32 => .ofInt x.toInt
  | .n32 => .ofInt x.toNat

def outPack (fs : BitVec 3) (src : PackSrc) (rnd : Rnd) (d a : Opnd) (e : Env) : Out :=
  let t := tgtOf (e.slot fs % 32)
  let r (i : Nat) : FRes := convert t (e.mode rnd fs i) (slotSat (e.slot fs)) (packSource src (e.quad a i))
  let x := packCodes t.width [(r 0).bits, (r 1).bits, (r 2).bits, (r 3).bits]
  ⟨if t.width = 16 then w64 d (BitVec.ofNat 64 x) else w32 d (BitVec.ofNat 32 x), [],
    (r 0).flags ||| (r 1).flags ||| (r 2).flags ||| (r 3).flags, e.usesSr rnd fs⟩

/-- Element i of UNPK: its register value and whether a signalling NaN was read (R170). -/
def unpkElem (t : Tgt) (toInt : Bool) (code : Nat) : Word × BitVec 5 :=
  if toInt then (BitVec.ofNat 32 (tgtReg t code), 0)
  else
    let x := t.decode code
    (BitVec.ofNat 32 (convertFlt fp32 .rne false x).bits, flagIf fNV x.isSig)

def outUnpk (fs : BitVec 3) (toInt : Bool) (d a : Opnd) (e : Env) : Out :=
  let t := tgtOf (e.slot fs % 32)
  let src := if t.width = 16 then (e.r64 a).toNat else (e.r32 a).toNat
  let r (i : Nat) : Word × BitVec 5 := unpkElem t toInt (src / 2 ^ (t.width * i) % 2 ^ t.width)
  ⟨wquad d (r 0).1 (r 1).1 (r 2).1 (r 3).1, [], (r 0).2 ||| (r 1).2 ||| (r 2).2 ||| (r 3).2, false⟩

def execCvt (h : Hdr) (fs : BitVec 3) (src : CvtSrc) (rnd : Rnd) (d a : Opnd) (s : State) :
    Host.Outcome State Fault Refusal :=
  aluWord (.cvt h fs src rnd d a) (outCvt fs src rnd d a) s

def execQnt (h : Hdr) (fs : BitVec 3) (rnd : Rnd) (d a b : Opnd) (s : State) : Host.Outcome State Fault Refusal :=
  aluWord (.qnt h fs rnd d a b) (outQnt fs rnd d a b) s

def execDqnt (h : Hdr) (fs : BitVec 3) (rnd : Rnd) (d a b : Opnd) (s : State) : Host.Outcome State Fault Refusal :=
  aluWord (.dqnt h fs rnd d a b) (outDqnt fs rnd d a b) s

def execPack (h : Hdr) (fs : BitVec 3) (src : PackSrc) (rnd : Rnd) (d a : Opnd) (s : State) :
    Host.Outcome State Fault Refusal :=
  aluWord (.pack h fs src rnd d a) (outPack fs src rnd d a) s

def execUnpk (h : Hdr) (fs : BitVec 3) (toInt : Bool) (d a : Opnd) (s : State) : Host.Outcome State Fault Refusal :=
  aluWord (.unpk h fs toInt d a) (outUnpk fs toInt d a) s

end Sys2Proof.Machine
end

