-- ==== Sys2Proof/Machine/HalfDouble.lean ====
section
/-! DEFINITION. Packed halves (R164) and FP64 (R165). -/

namespace Sys2Proof.Machine

/-- The format of a packed-half instruction (R164). -/
def halfFmt (bf : Bool) : FFmt := if bf then bf16 else fp16

/-- Half i of a register (R114). -/
def halfOf (x : Word) (i : Nat) : Nat := x.toNat / 65536 ^ i % 65536

/-- Both halves computed separately, their flags joined (R164). -/
def halfOut (bf : Bool) (e : Env) (rnd : Rnd) (d : Opnd) (f : Nat → RMode → Num) : Out :=
  let r (i : Nat) : FRes := (halfFmt bf).finish (e.mode rnd 0 i) (f i (e.mode rnd 0 i))
  ⟨w32 d (BitVec.ofNat 32 ((r 0).bits + 65536 * (r 1).bits)), [], (r 0).flags ||| (r 1).flags, e.usesSr rnd 0⟩

/-- Half i of an operand in the instruction's format. -/
def Env.half (e : Env) (bf : Bool) (o : Opnd) (i : Nat) : Num := (halfFmt bf).decode (halfOf (e.r32 o) i)

def outHadd2 (bf : Bool) (rnd : Rnd) (d a b : Opnd) (e : Env) : Out :=
  halfOut bf e rnd d fun i mode => Num.add mode (e.half bf a i) (e.half bf b i)

def outHmul2 (bf : Bool) (rnd : Rnd) (d a b : Opnd) (e : Env) : Out :=
  halfOut bf e rnd d fun i _ => Num.mul (e.half bf a i) (e.half bf b i)

def outHfma2 (bf rz : Bool) (d a b c : Opnd) (e : Env) : Out :=
  halfOut bf e (if rz then .rz else .rne) d fun i mode =>
    Num.fma mode (e.half bf a i) (e.half bf b i) (e.half bf c i)

/-- A 64-bit operand as FP64. -/
def Env.f64 (e : Env) (o : Opnd) : Num := fp64.decode (e.r64 o).toNat

def f64Out (e : Env) (rnd : Rnd) (d : Opnd) (x : FRes) : Out :=
  ⟨w64 d (BitVec.ofNat 64 x.bits), [], x.flags, e.usesSr rnd 0⟩

def outDadd (rnd : Rnd) (d a b : Opnd) (e : Env) : Out :=
  f64Out e rnd d (fp64.finish (e.mode rnd 0 0) (Num.add (e.mode rnd 0 0) (e.f64 a) (e.f64 b)))

def outDmul (rnd : Rnd) (d a b : Opnd) (e : Env) : Out :=
  f64Out e rnd d (fp64.finish (e.mode rnd 0 0) (Num.mul (e.f64 a) (e.f64 b)))

def outDfma (rnd : Rnd) (d a b c : Opnd) (e : Env) : Out :=
  f64Out e rnd d (fp64.finish (e.mode rnd 0 0) (Num.fma (e.mode rnd 0 0) (e.f64 a) (e.f64 b) (e.f64 c)))

def outDmin (d a b : Opnd) (e : Env) : Out := f64Out e .rne d (fMinMax fp64 Num.minNum (e.f64 a) (e.f64 b))
def outDmax (d a b : Opnd) (e : Env) : Out := f64Out e .rne d (fMinMax fp64 Num.maxNum (e.f64 a) (e.f64 b))

def outDset (cmp : FCmp) (pd : PCode) (a b : Opnd) (e : Env) : Out :=
  let r := fcmp cmp (e.f64 a) (e.f64 b)
  ⟨[], wp pd r.1, r.2, false⟩

def outDrcp (rnd : Rnd) (d a : Opnd) (e : Env) : Out :=
  f64Out e rnd d (fp64.finishWith (e.mode rnd 0 0) (Num.one.div (e.f64 a)))

def execHadd2 (h : Hdr) (bf : Bool) (rnd : Rnd) (d a b : Opnd) (s : State) : Host.Outcome State Fault Refusal :=
  aluWord (.hadd2 h bf rnd d a b) (outHadd2 bf rnd d a b) s

def execHmul2 (h : Hdr) (bf : Bool) (rnd : Rnd) (d a b : Opnd) (s : State) : Host.Outcome State Fault Refusal :=
  aluWord (.hmul2 h bf rnd d a b) (outHmul2 bf rnd d a b) s

def execHfma2 (h : Hdr) (bf rz : Bool) (d a b c : Opnd) (s : State) : Host.Outcome State Fault Refusal :=
  aluWord (.hfma2 h bf rz d a b c) (outHfma2 bf rz d a b c) s

def execDadd (h : Hdr) (rnd : Rnd) (d a b : Opnd) (s : State) : Host.Outcome State Fault Refusal :=
  aluWord (.dadd h rnd d a b) (outDadd rnd d a b) s

def execDmul (h : Hdr) (rnd : Rnd) (d a b : Opnd) (s : State) : Host.Outcome State Fault Refusal :=
  aluWord (.dmul h rnd d a b) (outDmul rnd d a b) s

def execDfma (h : Hdr) (rnd : Rnd) (d a b c : Opnd) (s : State) : Host.Outcome State Fault Refusal :=
  aluWord (.dfma h rnd d a b c) (outDfma rnd d a b c) s

def execDmin (h : Hdr) (d a b : Opnd) (s : State) : Host.Outcome State Fault Refusal :=
  aluWord (.dmin h d a b) (outDmin d a b) s

def execDmax (h : Hdr) (d a b : Opnd) (s : State) : Host.Outcome State Fault Refusal :=
  aluWord (.dmax h d a b) (outDmax d a b) s

def execDset (h : Hdr) (cmp : FCmp) (pd : PCode) (a b : Opnd) (s : State) : Host.Outcome State Fault Refusal :=
  aluWord (.dset h cmp pd a b) (outDset cmp pd a b) s

def execDrcp (h : Hdr) (rnd : Rnd) (d a : Opnd) (s : State) : Host.Outcome State Fault Refusal :=
  aluWord (.drcp h rnd d a) (outDrcp rnd d a) s

end Sys2Proof.Machine
end

