-- ==== Sys2Proof/Machine/Methods.lean ====
section
/-! DEFINITION. User methods: the words of a method, run for a wave on the caldera's 64-lane unit (R293-R296). -/

namespace Sys2Proof.Machine

/-- The result function of an instruction of the base set whose effect on a thread depends on that thread alone
(Table 04.2). -/
def baseOut : Instr → Option (Env → Out)
  | .iadd _ t sat d a b => some (outIadd t sat d a b)
  | .isub _ t sat d a b => some (outIsub t sat d a b)
  | .iaddc _ pk d a b => some (outIaddc pk d a b)
  | .imul _ t sat d a b => some (outImul t sat d a b)
  | .imulh _ t d a b => some (outImulh t d a b)
  | .imad _ x d a b c => some (outImad x d a b c)
  | .imadw _ u d a b c => some (outImadw u d a b c)
  | .imin _ t d a b => some (outImin t d a b)
  | .imax _ t d a b => some (outImax t d a b)
  | .iabs _ t sat d a => some (outIabs t sat d a)
  | .ineg _ t sat d a => some (outIneg t sat d a)
  | .shl _ x d a b => some (outShl x d a b)
  | .shr _ x d a b => some (outShr x d a b)
  | .sar _ x d a b => some (outSar x d a b)
  | .rotl _ d a b => some (outRotl d a b)
  | .and _ x d a b => some (outAnd x d a b)
  | .or _ x d a b => some (outOr x d a b)
  | .xor _ x d a b => some (outXor x d a b)
  | .andn _ x d a b => some (outAndn x d a b)
  | .not _ x d a => some (outNot x d a)
  | .lop3 _ x fn d a b => some (outLop3 x fn d a b)
  | .popc _ d a => some (outPopc d a)
  | .clz _ d a => some (outClz d a)
  | .ctz _ d a => some (outCtz d a)
  | .brev _ d a => some (outBrev d a)
  | .bfx _ u d a b => some (outBfx u d a b)
  | .bfi _ d a b c => some (outBfi d a b c)
  | .bperm _ d a b c => some (outBperm d a b c)
  | .iset _ t cmp pd a b => some (outIset t cmp pd a b)
  | .sel _ pk d a b => some (outSel pk d a b)
  | .mov _ x d a => some (outMov x d a)
  | .movi _ imm d => some (outMovi imm d)
  | .pset _ op pd pa pb => some (outPset op pd pa pb)
  | .pmov _ form => some (outPmov form)
  | .fadd _ r d a b => some (outFadd r d a b)
  | .fsub _ r d a b => some (outFsub r d a b)
  | .fmul _ r d a b => some (outFmul r d a b)
  | .ffma _ r d a b c => some (outFfma r d a b c)
  | .fmin _ d a b => some (outFmin d a b)
  | .fmax _ d a b => some (outFmax d a b)
  | .fset _ cmp pd a b => some (outFset cmp pd a b)
  | .fclass _ src d a => some (outFclass src d a)
  | .frnd _ r x d a => some (outFrnd r x d a)
  | .frcp _ r d a => some (outFrcp r d a)
  | .frsq _ r d a => some (outFrsq r d a)
  | .fsqrt _ r d a => some (outFsqrt r d a)
  | .fdiv _ r d a b => some (outFdiv r d a b)
  | .hadd2 _ bf r d a b => some (outHadd2 bf r d a b)
  | .hmul2 _ bf r d a b => some (outHmul2 bf r d a b)
  | .hfma2 _ bf rz d a b c => some (outHfma2 bf rz d a b c)
  | .cvt _ fs src r d a => some (outCvt fs src r d a)
  | .qnt _ fs r d a b => some (outQnt fs r d a b)
  | .dqnt _ fs r d a b => some (outDqnt fs r d a b)
  | .pack _ fs src r d a => some (outPack fs src r d a)
  | .unpk _ fs x d a => some (outUnpk fs x d a)
  | .rngx _ d a b c => some (outRngx d a b c)
  | _ => none

/-- The launch record that a method's words are checked against: 64 lanes, 64 registers. The manual gives a caldera no
format slots; their values are free. -/
def methodRec : LaunchRec where
  code := 0
  width := 64
  roles := 1
  groups0 := 1
  groups1 := 0
  budget0 := 64
  budget1 := 0
  x := 1
  y := 1
  z := 1
  cluster := 1
  scratch := 128
  tile := 0
  stack := 0
  params := []
  slots := (List.range 8).map fun i => Config.freeField 3 (2 * i) ++ Config.freeField 3 (2 * i + 1)
  depths := [0, 0, 0, 0]
  bars := 0
  coResident := false
  priority := 0
  idem := false
  profile := 0
  haltLaunch := false
  key := 0

/-- A method's run: its lanes, the object's bytes, and the steps taken. -/
structure MethodRun where
  lanes : List Thread
  obj : Memory
  steps : Nat
  deriving DecidableEq, Repr, Inhabited

/-- How a word of a method ends: the run goes on, or traps (cause 1) or passes its budget (cause 2). -/
abbrev MethodStep := Except Nat MethodRun

/-- Special registers that a method may name: sr.lane and sr.width (R294, R295). -/
def methodSpecial (l i : Nat) : Word := if i = 1 then BitVec.ofNat 32 l else if i = 5 then 64 else 0

/-- What lane l of a method reads. Stochastic rounding takes free values: the manual gives a caldera no key.
(DESIGN CHOICE, log 70) -/
def methodEnv (l : Nat) (th : Thread) : Env where
  regs := th.regs
  preds := th.preds
  special := methodSpecial l
  slots := methodRec.slots
  srstep := th.srstep
  elem := BitVec.ofNat 32 (4 * l)
  team := Config.freeField 4 0
  seed := Config.freeField 4 1

/-- Operands of kind 1 name zero, sr.lane or sr.width (R295). -/
def methodOpnd : Opnd × Nat → Bool
  | (.v _, _) => true
  | (.k1 i, w) => i == 0 || (w == 1 && (i == 1 || i == 5))

/-- The opcodes that a method may use (R295).
(DEDUCED, log 71) -/
def methodAdmits (i : Instr) : Bool :=
  match i with
  | .gvote .. | .gshfl .. | .gred .. | .gscan .. | .gelect .. | .gmatch .. | .lds .. | .sts .. | .atoms .. | .cass ..
  | .exit .. => true
  | i => (baseOut i).isSome

/-- A word passes the checks of R295. -/
def methodOk (features : BitVec 256) (cl : Nat) (w : DWord) (rest : List DWord) : Option Instr :=
  match decodeWord w with
  | .error _ => none
  | .ok i =>
    let x := i.shape 64 methodRec.slots
    if methodAdmits i && (wordTrap features methodRec cl w rest).isNone && !wordOverBudget methodRec w 64 &&
      (x.srcs ++ x.dsts).all methodOpnd then some i
    else none

/-- Lanes whose guard is true and that have not exited. -/
def MethodRun.active (r : MethodRun) (h : Hdr) : List Nat :=
  (List.range r.lanes.length).filter fun l => ((r.lanes[l]?).map fun th => !th.exited && th.guard h).getD false

/-- Writes a lane's results; no result waits in a caldera. -/
def MethodRun.commit (r : MethodRun) (h : Hdr) (l : Nat) (o : Out) : MethodRun :=
  { r with lanes := r.lanes.modify l (Thread.commit { h with ctr := 0 } o) }

def MethodRun.env (r : MethodRun) (l : Nat) : Env := methodEnv l ((r.lanes[l]?).getD (Thread.start 0))

/-- An access of one lane to the object; outside its 128 bytes it traps (R295). -/
def MethodRun.access (r : MethodRun) (o z : Nat) (f : Nat → MethodRun) : MethodStep :=
  if o + z ≤ 128 then .ok (f (r.obj.readNat o z)) else .error 1

/-- Lanes in ascending order, each on the object as those before it left it (R189, R294). -/
def MethodRun.each (h : Hdr) (r : MethodRun) (f : MethodRun → Nat → MethodStep) : MethodStep :=
  (r.active h).foldl (fun x l => match x with
    | .ok r => f r l
    | .error c => .error c) (.ok r)

/-- One word of a method for all lanes. -/
def MethodRun.word (r : MethodRun) (i : Instr) (h : Hdr) : MethodStep :=
  match i with
  | .lds _ w off d a => r.each h fun r l =>
    r.access (effOffset ((r.env l).r32 a) off w.bytes) w.bytes fun x => r.commit h l (.reg (loadResult w d x))
  | .sts _ w _ off v a => r.each h fun r l =>
    let o := effOffset ((r.env l).r32 a) off w.bytes
    r.access o w.bytes fun _ =>
      ({ r with obj := r.obj.writeNat o w.bytes (storeData (r.env l) w v) }).commit h l .none
  | .atoms _ op d a b => r.each h fun r l =>
    let z := 4 * op.regs
    let e := r.env l
    let o := effOffset (e.r32 a) 0 z
    r.access o z fun old =>
      let n := atomNew op e old (if z = 8 then (e.r64 b).toNat else (e.r32 b).toNat)
      let res := if z = 8 then w64 d (BitVec.ofNat 64 old) else w32 d (BitVec.ofNat 32 old)
      ({ r with obj := r.obj.writeNat o z n.1 }).commit h l ⟨res, [], n.2, false⟩
  | .cass _ x64 d a b n => r.each h fun r l =>
    let z := if x64 then 8 else 4
    let e := r.env l
    let o := effOffset (e.r32 a) 0 z
    let src (q : Opnd) : Nat := if x64 then (e.r64 q).toNat else (e.r32 q).toNat
    r.access o z fun old =>
      let res := if x64 then w64 d (BitVec.ofNat 64 old) else w32 d (BitVec.ofNat 32 old)
      (if old = src b then { r with obj := r.obj.writeNat o z (src n) } else r).commit h l (.reg res)
  | .exit _ =>
    let act := r.active h
    .ok { r with lanes := mapFrom (fun l th => if act.contains l then { th with exited := true } else th) 0 r.lanes }
  | i =>
    match baseOut i with
    | some out => r.each h fun r l => .ok (r.commit h l (out (r.env l)))
    | none =>
      let act := r.active h
      let vs := mapFrom (fun l (v : Voter) => { v with active := act.contains l }) 0
        ((List.range 64).map fun l => (⟨r.env l, false⟩ : Voter))
      .ok (act.foldl (fun q l => match vs[l]? with
        | some me => q.commit h l (collectiveOut i 64 vs l me)
        | none => q) r)

/-- The words of one clause from one on; the last flag says that the clause was run to its end. -/
def MethodRun.words (features : BitVec 256) (cl : Nat) : List DWord → MethodRun → MethodStep
  | [], r => .ok r
  | w :: rest, r =>
    if r.steps = 256 then .error 2
    else match methodOk features cl w rest with
      | none => .error 1
      | some i =>
        match i.hdr? with
        | none => .error 1
        | some h =>
          match ({ r with steps := r.steps + 1 } : MethodRun).word i h with
          | .ok r => MethodRun.words features cl rest r
          | .error c => .error c

/-- Every lane has exited.
(DEDUCED, log 72) -/
def MethodRun.over (r : MethodRun) : Bool := r.lanes.all (·.exited)

/-- The clauses of a method one after another until every lane has exited; the code may not be run past, and a clause has
the words that its header counts (R295). -/
def MethodRun.clauses (features : BitVec 256) : Nat → List DWord → MethodRun → MethodStep
  | 0, _, _ => .error 2
  | fuel + 1, code, r =>
    if r.over then .ok r
    else match code with
      | [] => .error 1
      | x :: rest =>
        let n := headerCount x
        if !headerOk x || !(headerClass x == 0 || headerClass x == 2) then .error 1
        else
          match MethodRun.words features (headerClass x) ((rest ++ List.replicate n 0).take n) r with
          | .error c => .error c
          | .ok r => if !r.over && decide (rest.length < n) then .error 1 else MethodRun.clauses features fuel (rest.drop n) r

/-- Lane l of a wave of L lanes at the start of a method (R294). -/
def methodLane (L : Nat) (a : CallArg) (l : Nat) : Thread :=
  { Thread.start 0 with
    regs := writeRegs [] [(0, a.arg0.extractLsb' 0 32), (1, a.arg0.extractLsb' 32 32), (2, a.arg1.extractLsb' 0 32),
      (3, a.arg1.extractLsb' 32 32), (8, BitVec.ofNat 32 a.off), (9, BitVec.ofNat 32 l), (10, BitVec.ofNat 32 L)] }

/-- Runs a method for a wave: the object's new bytes and each lane's reply (R294), or the cause of its fault. -/
def runMethod (features : BitVec 256) (code : List DWord) (obj : List Byte) (args : List CallArg) :
    Except Nat (List Byte × List CallReply) :=
  let lanes := mapFrom (fun l th => (args[l]?).elim { th with exited := true } fun a => methodLane args.length a l) 0
    (List.replicate 64 (Thread.start 0))
  match MethodRun.clauses features 258 code ⟨lanes, Memory.write [] 0 obj, 0⟩ with
  | .error c => .error c
  | .ok r =>
    .ok (r.obj.read 0 128, mapFrom (fun l (x : CallReply) =>
      let th := (r.lanes[l]?).getD (Thread.start 0)
      { x with value := sget 0 th.regs 17 ++ sget 0 th.regs 16, aux := sget 0 th.regs 18, flags := th.fp }) 0
        (args.map fun a => ⟨0, 0, a.method, 0, [], 0⟩))

end Sys2Proof.Machine
end

