-- ==== Sys2Proof/Machine/Caldera.lean ====
section
/-! DEFINITION. The calderas: request buffers (R283, R286), waves (R284, R285), built-in methods, queue objects (R287-R290),
user methods (R293-R295), faults (R297, R298) and replies (R292). -/

namespace Sys2Proof.Machine

/-! ### Buffers -/

/-- The die that a request comes from: its core's, or the I/O die of its plane, 8 or 9 (R10, R23). -/
def Request.source (r : Request) : Nat :=
  match r.peer with
  | none => dieOf r.core
  | some p => 8 + p.plane / 4

/-- CALDERA_REQUEST_ARRIVE: the k-th request on its way enters its caldera's buffer; it is held back while the buffer is
full (R283) or an earlier one between the same two dies has not arrived (R10), which keeps the order of R286.
(DEDUCED, log 66) -/
def execCalderaRequestArrive (k : Nat) (s : State) : Host.Outcome State Fault Refusal :=
  match s.transit[k]? with
  | none => .next s
  | some r =>
    if (s.transit.take k).any (fun q => q.source == r.source && q.die == r.die) ||
      decide (512 < entriesOf (s.waiting r.die r.slice) + r.entries.length) then .next s
    else .next (({ s with transit := s.transit.eraseIdx k }).modDie r.die fun D => { D with buffer := D.buffer ++ [r] })

/-! ### Forming a wave (R284) -/

/-- The method of a request: its entries share one. -/
def Request.method (r : Request) : Nat := (r.entries.headD default).method

/-- Built-in methods share waves; a user method shares one with itself only. -/
def methodClass (m : Nat) : Nat := if m < 32 then 0 else m

/-- The longest run that fits a wave; `n` lanes are taken. -/
def takeRun (x : Request) : Nat → List Request → List Request
  | _, [] => []
  | n, r :: rs =>
    if n + r.entries.length ≤ 64 ∧ r.ctx = x.ctx ∧ methodClass r.method = methodClass x.method then
      r :: takeRun x (n + r.entries.length) rs
    else []

/-- The next wave of a caldera. -/
def State.nextWave (s : State) (die slice : Nat) : List Request :=
  match s.waiting die slice with
  | [] => []
  | x :: _ => takeRun x 0 ((s.waiting die slice).filter fun r => r.key == x.key)

/-! ### Built-in methods and queues (R287-R290) -/

/-- How a wave is applied: the object, ring entries read and ring writes withheld, replies so far, the first fault as
(cause, method), and an error met in a ring entry. -/
structure WaveSt where
  obj : Memory
  reads : List Nat
  ring : List (Nat × List Byte)
  replies : List CallReply
  fault : Option (Nat × Nat)
  bad : Option Nat
  deriving DecidableEq, Repr, Inhabited

/-- The place of a ring entry: under an unstriped leaf of the wave's context, with the permission (R290). -/
def State.ringPlace (s : State) (ctx va : Nat) (acc : Access) : Option Nat :=
  if 2 ^ 56 ≤ va then none
  else match s.context? ctx with
    | none => none
    | some c =>
      match walk s c va with
      | .fault .. => none
      | .leaf base size e =>
        if entryStripe e.toNat ≠ 0 then none
        else match checkPlace (leafPlace c s.devno base e va) acc base size with
          | .ok w => some w.dpa
          | .fault .. => none

/-- A ring entry as the wave sees it. -/
def ringRead (s : State) (ring : List (Nat × List Byte)) (dpa : Nat) : List Byte :=
  ((ring.reverse.find? fun p => p.1 == dpa).map (·.2)).getD (s.mem.read dpa 32)

/-- A queue header is malformed (R288). -/
def headerBad (obj : Memory) : Bool :=
  let cap := obj.readNat 8 4
  decide (obj.readNat 12 4 ≠ 0) || decide (obj.readNat 0 8 % 32 ≠ 0) || decide (cap = 0) || decide (16777216 < cap) ||
  decide (cap < (obj.readNat 24 8 + 2 ^ 64 - obj.readNat 16 8) % 2 ^ 64)

/-- ENQ and DEQ (R289). The fault of a wave names the method of the first lane that faults, which the manual does not
say where methods differ.
(DEDUCED, log 69; DESIGN CHOICE, log 159) -/
def queueLane (s : State) (ctx : Nat) (a : CallArg) (w : WaveSt) : WaveSt :=
  let reply (value aux : Nat) (status : Byte) (entry : List Byte) (w : WaveSt) : WaveSt :=
    { w with replies := w.replies ++ [⟨BitVec.ofNat 64 value, BitVec.ofNat 32 aux, a.method, status, entry, 0⟩] }
  let fail (cause : Nat) : WaveSt := { w with fault := w.fault.or (some (cause, a.method)) }
  let base := w.obj.readNat 0 8
  let cap := w.obj.readNat 8 4
  let head := w.obj.readNat 16 8
  let tail := w.obj.readNat 24 8
  if headerBad w.obj then fail 4
  else if a.method = 21 then
    if (tail + 2 ^ 64 - head) % 2 ^ 64 = cap then reply tail 0 2 [] w
    else match s.ringPlace ctx (base + 32 * (tail % cap)) .write with
      | none => fail 5
      | some dpa =>
        reply tail 1 0 [] { w with
          obj := w.obj.writeNat 24 8 (tail + 1)
          ring := w.ring ++ [(dpa, (a.payload ++ List.replicate 32 0).take 32)] }
  else if head = tail then reply head 0 1 [] w
  else match s.ringPlace ctx (base + 32 * (head % cap)) .read with
    | none => fail 5
    | some dpa =>
      let fresh := w.ring.any fun p => p.1 == dpa
      reply head 0 0 (ringRead s w.ring dpa) { w with
        obj := w.obj.writeNat 16 8 (head + 1)
        reads := w.reads ++ [dpa]
        bad := if !fresh && (s.badAt dpa).isSome then w.bad.or (some a.method) else w.bad }

/-- One lane of a wave of built-in methods (R287). -/
def builtinLane (s : State) (ctx : Nat) (w : WaveSt) (a : CallArg) : WaveSt :=
  if 21 ≤ a.method then queueLane s ctx a w
  else
    let r := builtin a.method a.size (w.obj.readNat a.off a.size) a.arg0.toNat a.arg1.toNat
    { w with
      obj := w.obj.writeNat a.off a.size r.new
      replies := w.replies ++ [⟨BitVec.ofNat 64 r.value, BitVec.ofNat 32 r.aux, a.method, 0, [], r.flags⟩] }

/-- The context's code for a user method (R293). -/
def State.methodCode (s : State) (ctx m : Nat) : Option (List DWord) :=
  (s.context? ctx).bind fun c => aget? c.code (m - 32)

/-- Applies a wave to a copy of the object (R285, R297). -/
def State.applyWave (s : State) (ctx m : Nat) (obj : List Byte) (args : List CallArg) : WaveSt :=
  let start : WaveSt := ⟨Memory.write [] 0 obj, [], [], [], none, none⟩
  if m < 32 then args.foldl (builtinLane s ctx) start
  else match s.methodCode ctx m with
    | none => { start with fault := some (3, m) }
    | some code =>
      match runMethod s.features code obj args with
      | .error cause => { start with fault := some (cause, m) }
      | .ok (bs, rs) => { start with obj := Memory.write [] 0 bs, replies := rs }

/-! ### Replies, faults and errors (R292, R297, R298) -/

/-- The record of a wave that was not applied (Table 21.3): type 3 or 4, its cause, context, object, method and L. -/
def waveRecord (type cause ctx line m l : Nat) : FaultRec where
  type := type
  cause := cause
  answer := false
  ctx := ctx
  launch := noNumber
  team := noNumber
  thread := noNumber
  f24 := BitVec.ofNat 64 (line * 128 % 2 ^ 40)
  f32 := BitVec.ofNat 64 noNumber
  f40 := 0
  f48 := BitVec.ofNat 64 (m % 256 + 256 * l)
  f56 := 0

/-- A lane's answer when its wave was not applied. -/
def failedReply (status : Byte) (a : CallArg) : CallReply := ⟨0, 0, a.method, status, [], 0⟩

/-- Sends the replies of one request; lanes that await none are performed at once (R292). -/
def State.answerRequest (s : State) (r : Request) (rs : List CallReply) : State :=
  match r.peer, r.team with
  | some p, _ => (s.answerPeer p (if r.noReply then 9 else 8) (.callReply rs)).pump p.source p.plane
  | none, some k =>
    (r.homes.zip rs).foldl (fun s x =>
      if r.noReply then s.replyLanes k r.tag x.1 x.2 false
      else { s with replies := s.replies ++ [Landing.mk k r.tag x.1 x.2] }) s
  | none, none => s

/-- Sends the replies of a wave's requests, in lane order. -/
def State.answerAll (s : State) : List Request → List CallReply → State
  | [], _ => s
  | r :: run, rs => (s.answerRequest r (rs.take r.entries.length)).answerAll run (rs.drop r.entries.length)

/-- The writes of the requesters' cores and the copies of their dies are at the home (R229). The flag says that no write
of the line is held back.
(DEDUCED, log 67) -/
def State.gather (s : State) (k : LineKey) (run : List Request) : State × Bool :=
  let own := run.filter fun r => r.peer.isNone
  let s := own.foldl (fun s r => s.drainCore r.core) s
  if own.any fun r => (s.coreAt r.core).wq.any fun w => w.key == k then (s, false)
  else (own.foldl (fun s r => s.yieldLine (dieOf r.core) k) s, true)

/-- An error is met when the object is read (R298). -/
def State.objectBad (s : State) (k : LineKey) : Bool := s.errors.any (errOfLine k.line)

/-- The ring lines that a wave reads come home before it is applied: ring accesses are home operations (R229, R290). -/
def State.yieldRings (s : State) (die : Nat) (w : WaveSt) : State :=
  if w.fault.isSome then s else w.reads.foldl (fun s dpa => s.yieldLine die ⟨none, dpa / 128⟩) s

/-- Performs a wave whose requesters' bytes are at the home.
(DEDUCED, log 68) -/
def State.performWave (s : State) (die : Nat) (x : Request) (run : List Request) : State :=
  let args := run.flatMap (·.entries)
  let dpa := x.key.line * 128
  let s := s.yieldRings die (s.applyWave x.ctx x.method (s.mem.read dpa 128) args)
  let obj := s.mem.read dpa 128
  let s := s.modDie die fun D => { D with buffer := D.buffer.filter fun r => !run.contains r }
  let fail (type cause m : Nat) (status : Byte) : State :=
    (s.record die (waveRecord type cause x.ctx x.key.line m args.length)).answerAll run (args.map (failedReply status))
  if s.objectBad x.key then fail 4 1 x.method 0x11
  else
    let w := s.applyWave x.ctx x.method obj args
    match w.fault, w.bad with
    | some (cause, m), _ => fail 3 cause m 0x10
    | none, some m => fail 4 2 m 0x11
    | none, none =>
      let s := w.ring.foldl (fun s p => (s.yieldLine die ⟨none, p.1 / 128⟩).homeWrite p.1 p.2) s
      let new := w.obj.read 0 128
      (if new = obj then s else s.homeWrite dpa new).answerAll run w.replies

/-- CALDERA_WAVE: a caldera forms its next wave and applies it whole (R284, R285), which may let requests of peers in
(R283). -/
def execCalderaWave (die slice : Nat) (s : State) : Host.Outcome State Fault Refusal :=
  match s.nextWave die slice with
  | [] => .next s
  | x :: rest =>
    match s.gather x.key (x :: rest) with
    | (s, false) => .next s
    | (s, true) => .next (s.performWave die x (x :: rest)).pumpAll.settleRemaps

end Sys2Proof.Machine
end

