-- ==== Sys2Proof/Machine/Combining.lean ====
section
/-! DEFINITION. Contribution pieces at a plane's switch (R309, R363-R365) and their landing here (R366, R367). -/

namespace Sys2Proof.Machine

/-- Bytes of an element of a contribution. -/
def pieceWidth (dfmt : Nat) : Nat := fmtBits dfmt / 8

/-- A piece's elements as the switch adds them: s32 as they are, floating ones widened to FP32 (R364). -/
def pieceWords (p : Piece) : List Word :=
  let w := pieceWidth p.dfmt
  (List.range (p.data.length / w)).map fun i =>
    let x := leNat ((p.data.drop (i * w)).take w)
    if p.cmeth = 4 then BitVec.ofNat 32 (fp32.encode ((tgtOf p.dfmt).decode x)) else BitVec.ofNat 32 x

/-- One element's sum (R364). -/
def combineWord (cmeth : Nat) (x y : Word) : Word :=
  if cmeth = 4 then BitVec.ofNat 32 (fp32.finish .rne (Num.add .rne (fp32.decode x.toNat) (fp32.decode y.toNat))).bits
  else x + y

/-- A sum as it is delivered: converted to the destination format with RNE and saturation off for cmeth 4 (R364). -/
def sumBytes (cmeth dfmt : Nat) (sum : List Word) : List Byte :=
  sum.flatMap fun x =>
    leBytes (pieceWidth dfmt) (if cmeth = 4 then (convert (tgtOf dfmt) .rne false (fp32.decode x.toNat)).bits else x.toNat)

/-- Parameters that an entry fixes (R363). -/
def CombEntry.fits (e : CombEntry) (p : Piece) : Bool :=
  e.target == p.target && e.pages == p.pages && e.nb == p.nb && e.cmeth == p.cmeth && e.dfmt == p.dfmt &&
  e.expect == p.expect

/-- An entry opened by a piece. -/
def CombEntry.start (p : Piece) : CombEntry := ⟨p.tag, p.target, p.pages, p.nb, p.cmeth, p.dfmt, p.expect, [], []⟩

/-- Adds a piece to its block. -/
def CombEntry.add (e : CombEntry) (p : Piece) : CombEntry :=
  let w := pieceWords p
  if e.blocks.any fun b => b.block == p.block then
    { e with blocks := e.blocks.map fun b =>
        if b.block = p.block then { b with sum := List.zipWith (combineWord e.cmeth) b.sum w, count := b.count + 1 } else b }
  else { e with blocks := e.blocks ++ [⟨p.block, p.first, w, 1⟩] }

/-- A block as a piece on its way to the target. -/
def CombEntry.piece (e : CombEntry) (b : CombBlock) (full : Bool) : Piece :=
  ⟨e.tag, e.target, e.pages, e.nb, e.cmeth, e.dfmt, e.expect, b.block, b.first, sumBytes e.cmeth e.dfmt b.sum, b.count, full⟩

/-- The blocks of an area that a plane carries (R363): block 0 is the one that holds the area's first byte. -/
def planeBlocks (map : List Nat) (plane target : Nat) (pages : List (Nat × Nat)) (nb : Nat) : List Nat :=
  let o := areaDpa pages 0 % 256
  (List.range ((o + nb + 255) / 256)).filter fun i => planeOf map target (areaDpa pages (256 * i - o) / 256 * 256) == plane

def bumpCount (l : List (Nat × Nat)) (block n : Nat) : List (Nat × Nat) := aset l block ((aget? l block).getD 0 + n)

/-- Notes pieces of a tag that went uncombined; once they total expect for every block that the plane carries, the tag
is free again (R365). The area and expect are those of the piece noted last.
(DESIGN CHOICE, log 172) -/
def PlaneSwitch.noteLoose (x : PlaneSwitch) (map : List Nat) (plane : Nat) (p : Piece) (sent : List (Nat × Nat)) :
    PlaneSwitch :=
  let old := (aget? x.loose p.tag).getD []
  let new := sent.foldl (fun l q => bumpCount l q.1 q.2) old
  let whole := (planeBlocks map plane p.target p.pages p.nb).all fun b => decide (p.expect ≤ (aget? new b).getD 0)
  { x with loose := if whole then x.loose.filter (·.1 != p.tag) else aset x.loose p.tag new }

/-- A piece on its own (R365). -/
def alone (p : Piece) : Piece := { p with count := 1, full := false }

/-- Combines a piece into its open entry and delivers its block when all have come; the entry is closed when every block
it keeps has been delivered (R364). -/
def PlaneSwitch.join (x : PlaneSwitch) (map : List Nat) (plane : Nat) (p : Piece) (e : CombEntry) : PlaneSwitch × List Piece :=
  let e := e.add p
  let ready := e.blocks.filter fun b => decide (e.expect ≤ b.count)
  let e' := { e with
    blocks := e.blocks.filter fun b => !decide (e.expect ≤ b.count)
    delivered := e.delivered ++ ready.map (·.block) }
  let filled := e'.blocks.isEmpty && (planeBlocks map plane e.target e.pages e.nb).all e'.delivered.contains
  ({ x with entries := if filled then x.entries.filter (fun y => y.tag != p.tag)
      else x.entries.map fun y => if y.tag = p.tag then e' else y },
    ready.map fun b => e.piece b true)

/-- A piece reaches a plane's switch: it joins its entry or is forwarded (R363-R365). Gives what the switch sends on. -/
def PlaneSwitch.take (x : PlaneSwitch) (map : List Nat) (plane : Nat) (p : Piece) : PlaneSwitch × List Piece :=
  if (aget? x.loose p.tag).isSome then (x.noteLoose map plane p [(p.block, 1)], [alone p])
  else match x.entries.find? fun e => e.tag == p.tag with
    | none =>
      if 4096 ≤ x.entries.length then (x.noteLoose map plane p [(p.block, 1)], [alone p])
      else PlaneSwitch.join { x with entries := x.entries ++ [.start p] } map plane p (.start p)
    | some e =>
      if e.fits p then x.join map plane p e
      else
        let out := e.blocks.map fun b => e.piece b false
        let sent := e.delivered.map (fun b => (b, e.expect)) ++ e.blocks.map (fun b => (b.block, b.count)) ++ [(p.block, 1)]
        (({ x with entries := x.entries.filter fun y => y.tag != p.tag }).noteLoose map plane p sent, out ++ [alone p])

/-- A piece reaches the switch of a plane; what it sends to this device is on its way. -/
def State.switchTake (s : State) (plane : Nat) (p : Piece) : State :=
  let r := ((s.fabric.switches[plane]?).getD ⟨[], []⟩).take s.fabric.map plane p
  s.modFabric fun f => { f with
    switches := f.switches.set plane r.1, deliveries := f.deliveries ++ (r.2.filter fun q => q.target == s.devno).map fun q => (plane, q) }

/-- The contribution that a request carries and that its switch has not accepted. -/
def OutPkt.offered (o : OutPkt) : Option (TeamKey × Nat × Piece) :=
  match o.why, o.pkt.body with
  | .piece k tag false, .piece p => if o.sent then some (k, tag, p) else none
  | _, _ => none

/-- A command by its acceptance number. -/
def State.cmdBySeq (s : State) (k : TeamKey) (seq : Nat) : Option Cmd :=
  (s.team? k).bind fun T => T.cmds.find? fun c => c.seq == seq

/-- A contribution whose elements are all performed and whose pieces are all accepted ends DONE (R309). -/
def State.piecesIn (s : State) (k : TeamKey) (seq : Nat) : State :=
  match s.cmdBySeq k seq with
  | some c =>
    let formed := match c.body with
      | .copy d => decide (d.count ≤ c.n)
      | _ => false
    if c.live && formed && s.fabric.out.all fun o => o.why != .piece k seq false then s.endCmd k c.tag 0 0 else s
  | none => s

/-- CONTRIB_PIECE_ACCEPTED: the switch of a plane accepts request k of this device, and the command ends DONE when all
its pieces are accepted (R309); a k that names none stands for another device's piece p. -/
def execContribPieceAccepted (plane k : Nat) (p : Piece) (s : State) : Host.Outcome State Fault Refusal :=
  match s.fabric.out.find? fun o => o.id == k && o.pkt.plane == plane && o.offered.isSome with
  | none => if 8 ≤ plane then .next s else .next (s.switchTake plane (alone p))
  | some o =>
    match o.offered with
    | none => .next s
    | some (key, seq, q) =>
      let s := s.switchTake plane q
      let s := s.modFabric fun f => { f with out := f.out.map fun y =>
        if y.id = k then { y with why := .piece key seq true } else y }
      .next (s.piecesIn key seq)

/-! ### Landing (R366, R367) -/

/-- Pieces of this device to itself whose contribution has landed: the block is in no entry and on no way. -/
def State.landed (s : State) (p : Piece) : State :=
  let waits := (s.fabric.deliveries.any fun q => q.2.tag == p.tag && q.2.block == p.block) ||
    s.fabric.switches.any fun x => x.entries.any fun e => e.tag == p.tag && e.target == p.target &&
      e.blocks.any fun b => b.block == p.block
  if waits then s
  else s.modFabric fun f => { f with out := f.out.filter fun o =>
    match o.why, o.pkt.body with
    | .piece _ _ true, .piece q => !(q.target == p.target && q.tag == p.tag && q.block == p.block)
    | _, _ => true }

/-- Launches that wait for the planes go on (R379). -/
def State.closeAll (s : State) : State := (s.launches.map (·.num)).foldl (fun s n => s.closeLaunch n) s

end Sys2Proof.Machine
end

