-- ==== Sys2Proof/Machine/Generations.lean ====
section
/-! DEFINITION. Generations of the plane map: what a device tells the others of them, and its way from REPORT to NORMAL
(R368-R371). -/

namespace Sys2Proof.Machine

/-! ### Maps and generations (R368, R371) -/

def planesOf (mask : BitVec 8) : List Nat := (List.range 8).filter fun p => mask.getLsbD p

/-- Entries of dead planes move to live ones in turn, the rest stay; `k` counts those moved. -/
def remapFrom (mask : BitVec 8) (live : List Nat) (gen : Nat) : Nat → List Nat → List Nat
  | _, [] => []
  | k, p :: ps =>
    if mask.getLsbD p then (live[(gen + k) % live.length]?).getD p :: remapFrom mask live gen (k + 1) ps
    else p :: remapFrom mask live gen k ps

/-- The map of a generation from its base map (R371). -/
def remap (m : List Nat) (mask : BitVec 8) (gen : Nat) : List Nat := remapFrom mask (planesOf (~~~mask)) gen 0 m

/-- The dead planes of the generation begun last. -/
def Fabric.deadNow (f : Fabric) : BitVec 8 := (f.calved.headD ⟨0, 0, 0, []⟩).mask

/-- The map of a generation, which the device may not have reached yet, by its base and its masks so far (R371). -/
def Fabric.mapOf (f : Fabric) (gen : Nat) : List Nat :=
  match f.calved.find? fun c => c.gen == gen with
  | some c => remap c.baseMap c.mask gen
  | none => if gen = 0 then [0, 1, 2, 3, 4, 5, 6, 7] else f.map

/-- The other devices of the fabric, but for those that the host has removed (R373). -/
def State.others (s : State) : List Nat :=
  Config.fabricDevices.filter fun d => d != s.devno && !s.fabric.removed.contains d

/-- A calving message to a device on a plane, noted by code (1 CALVE, 2 report, 3 DONE) and sent as a packet on the control
channel (R350, R354). -/
def State.control (s : State) (code dev plane : Nat) (args : List Nat) : State :=
  let p : Packet := ⟨16, false, false, s.devno, dev, s.fabric.gen, 0, s.fabric.rack dev plane, 0, 0, plane, .calving code args⟩
  s.modFabric fun f => { f.transmit p with control := f.control ++ [(code, dev :: plane :: args)] }

/-- Sends a calving message to a device on every live plane. -/
def State.controlAll (s : State) (code dev : Nat) (args : List Nat) : State :=
  s.fabric.livePlanes.foldl (fun s p => s.control code dev p args) s

/-- Sends a calving message to every device on every live plane (R368, R369). -/
def State.toAll (s : State) (code : Nat) (args : List Nat) : State :=
  s.others.foldl (fun s d => s.controlAll code d args) s

/-! ### From REPORT to NORMAL (R369, R370) -/

/-- A report names a number as accepted. -/
def Report.accepted (r : Report) (n : BitVec 32) : Bool :=
  !before32 r.mark n || (decide ((n - r.mark - 1).toNat < 256) && r.window.getLsbD (n - r.mark - 1).toNat)

/-- Inserts by number. -/
def insertOut (x : OutPkt) : List OutPkt → List OutPkt
  | [] => [x]
  | y :: ys => if before32 x.pkt.pseq y.pkt.pseq then x :: y :: ys else y :: insertOut x ys

/-- A contribution that is to be sent again is for a switch to accept again (R363). -/
def Why.again : Why → Why
  | .piece k seq _ => .piece k seq false
  | w => w

/-- The reports of the generation begun last. -/
def Fabric.current (f : Fabric) : List Report := f.reports.filter fun r => r.gen == f.begun

/-- Every device has reported on every dead plane. -/
def State.allReported (s : State) : Bool :=
  s.others.all fun d => (planesOf s.fabric.deadNow).all fun p => s.fabric.current.any fun r => r.src == d && r.plane == p

/-- Every device has sent DONE. -/
def State.allDone (s : State) : Bool := s.others.all fun d => s.fabric.dones.contains (s.fabric.begun, d)

/-- The requests of one path that its report does not name, in the order of their numbers (R369, R370). -/
def Fabric.lostOn (f : Fabric) (r : Report) : List OutPkt :=
  (f.out.filter fun o => o.sent && o.pkt.target == r.src && o.pkt.plane == r.plane && !r.accepted o.pkt.pseq).foldl
    (fun l o => insertOut o l) []

/-- Contribution pieces of this device for itself that have not landed: the switch of a dead plane that took them is gone.
(DEDUCED, log 149) -/
def Fabric.lostOwn (f : Fabric) (devno : Nat) (plane : Nat) : List OutPkt :=
  (f.out.filter fun o => o.sent && o.pkt.target == devno && o.pkt.plane == plane).foldl (fun l o => insertOut o l) []

/-- The requests to be sent again wait before all others, in order, marked by the retransmission flag (R369). -/
def Fabric.holdLost (f : Fabric) (devno : Nat) : Fabric :=
  let lost := f.current.flatMap f.lostOn ++ (planesOf f.deadNow).flatMap (f.lostOwn devno)
  { f with out := lost.map (fun o => { o with sent := false, why := o.why.again, pkt := { o.pkt with retrans := true } }) ++
      f.out.filter fun o => !lost.any fun x => x.id == o.id }

/-- All that is to be sent again has been sent (R369). -/
def Fabric.allResent (f : Fabric) : Bool := f.out.all fun o => o.sent || !o.pkt.retrans

/-- RETRANSMIT once the reports are complete: under the new map, the requests that no report names are sent again as far
as their paths admit them (R360, R369, R370). -/
def State.retransmit (s : State) : State :=
  if s.fabric.phase == .report && s.allReported then
    s.modFabric fun f =>
      Fabric.sendHeld { f.holdLost s.devno with map := f.mapOf f.begun, phase := .retransmit }
  else s

/-- INSTALL once all is sent again: the generation is current, and DONE goes to every device (R369). -/
def State.install (s : State) : State :=
  if s.fabric.phase == .retransmit && s.fabric.allResent then
    let gen := s.fabric.begun
    (s.modFabric fun f => { f with gen := gen, phase := .install }).toAll 3 [gen]
  else s

/-- NORMAL once every device is done (R369). -/
def State.resume (s : State) : State :=
  if s.fabric.phase == .install && s.allDone then s.modFabric fun f => { f with phase := .normal } else s

/-- Requests that may be sent are sent, and calving goes on as far as it can (R360, R369). -/
def State.planesMove (s : State) : State :=
  (s.modFabric Fabric.sendHeld).retransmit.install.resume.modFabric Fabric.sendHeld

end Sys2Proof.Machine
end

