-- ==== Sys2Proof/Machine/HostMemory.lean ====
section
/-! DEFINITION. Accesses at homes that the host or the service cores ask for (R229, R379): by virtual address, without
the L2s' copies. -/

namespace Sys2Proof.Machine

/-- Cuts a range into pieces that each lie in one line: address and length. -/
def cutLines : Nat → Nat → Nat → List (Nat × Nat)
  | 0, _, _ => []
  | fuel + 1, va, n =>
    if n = 0 then []
    else
      let k := min n (128 - va % 128)
      (va, k) :: cutLines fuel (va + k) (n - k)

/-- A piece of a range and where it lies. -/
structure HomePiece where
  off : Nat
  len : Nat
  place : Where
  deriving DecidableEq, Repr, Inhabited

/-- The place of a byte that may be accessed; virtual addresses have 56 bits (R231). -/
def State.homePlace (s : State) (ctx va : Nat) (acc : Access) : Option Where :=
  if 2 ^ 56 ≤ va then none
  else match s.translate ctx va acc with
    | .ok w => some w
    | .fault .. => none

/-- The pieces of a range up to the first that may not be accessed, and that one's offset. -/
def State.homePieces (s : State) (ctx va n : Nat) (acc : Access) : List HomePiece × Option Nat :=
  (cutLines (n / 128 + 2) va n).foldl (fun r p =>
    match r.2 with
    | some _ => r
    | none =>
      match s.homePlace ctx p.1 acc with
      | some w => (r.1 ++ [⟨p.1 - va, p.2, w⟩], none)
      | none => (r.1, some (p.1 - va))) ([], none)

/-- Writes a piece at its home: here at once, at a peer by a request. -/
def State.writePiece (s : State) (why : Why) (ctx : Nat) (p : HomePiece) (bs : List Byte) : State :=
  let d := (bs.drop p.off).take p.len
  match p.place.dev with
  | none => s.homeWrite p.place.dpa d
  | some t => s.produce why 3 false t p.place.dpa ctx (.write ((List.range d.length).zip d) [])

/-- Writes bytes at their homes; on a fault the pieces before it are written, and its offset is returned. -/
def State.writeHomes (s : State) (why : Why) (ctx va : Nat) (bs : List Byte) : State × Option Nat :=
  let r := s.homePieces ctx va bs.length .write
  (r.1.foldl (fun s p => s.writePiece why ctx p bs) s, r.2)

/-- Writes all bytes at their homes, or none when some page faults. -/
def State.writeAllHomes (s : State) (why : Why) (ctx va : Nat) (bs : List Byte) : Option State :=
  match (s.homePieces ctx va bs.length .write).2 with
  | none => some (s.writeHomes why ctx va bs).1
  | some _ => none

/-! ### Host operations that wait for peers -/

def State.modService (s : State) (f : Service → Service) : State := { s with service := f s.service }

/-- A piece of a read: its bytes if its home is here.
(DESIGN CHOICE, log 186) -/
def State.readPiece (s : State) (p : HomePiece) : Option (List Byte) :=
  match p.place.dev with
  | none => some (s.mem.read p.place.dpa p.len)
  | some _ => none

/-- Asks the peers for the pieces of a read that lie with them. -/
def State.askPieces (s : State) (op ctx : Nat) : Nat → List HomePiece → State
  | _, [] => s
  | i, p :: ps =>
    let s := match p.place.dev with
      | none => s
      | some t => s.produce (.hostRead op i p.len) 3 false t p.place.dpa ctx (.read p.len)
    State.askPieces s op ctx (i + 1) ps

/-- A request of a host operation has not been answered. -/
def OutPkt.ofHostOp (op : Nat) (o : OutPkt) : Bool :=
  match o.why with
  | .hostRead x _ _ | .hostWrite x => x == op
  | _ => false

/-- The valid entries of a method table with their indices (Table 15.5). -/
def validMethods (table : List MethodEntry) : List (Nat × MethodEntry) :=
  ((List.range table.length).zip table).filter fun x => x.2.flags.getLsbD 0

/-- Cuts the code of the valid entries, in order, into words. -/
def cutCode : List (Nat × MethodEntry) → List Byte → List (Nat × List DWord)
  | [], _ => []
  | (i, m) :: ms, bs =>
    (i, (List.range (m.length / 8)).map fun j => BitVec.ofNat 64 (leNat ((bs.drop (8 * j)).take 8))) ::
    cutCode ms (bs.drop m.length)

/-- Installs a method table with the code that was read: the calderas hold their own copy from now on (R293). -/
def State.installMethods (s : State) (ctx : Nat) (table : List MethodEntry) (bs : List Byte) : State :=
  { s with contexts := s.contexts.map fun c =>
      if c.num = ctx then { c with methods := table, code := cutCode (validMethods table) bs } else c }

/-- Answers the host when nothing of an operation is outstanding (R379). -/
def State.settleHostOp (s : State) (x : HostOp) : State :=
  if s.fabric.out.any (OutPkt.ofHostOp x.num) then s
  else
    let s := s.modService fun v => { v with hostOps := v.hostOps.filter fun y => y.num != x.num }
    let bs := x.parts.flatMap fun p => p.getD []
    match x.install with
    | none => s.respond x.rq x.code 0 bs
    | some (ctx, table) => (s.installMethods ctx table bs).respond x.rq x.code 0 []

def State.settleHostOps (s : State) : State := s.service.hostOps.foldl (fun s x => s.settleHostOp x) s

/-- Takes up a host operation that reads pieces: those here at once, those of peers by requests. -/
def State.beginRead (s : State) (rq : Rq) (code ctx : Nat) (ps : List HomePiece) (install : Option (Nat × List MethodEntry)) :
    State :=
  let x : HostOp := ⟨s.service.nextMap, rq, code, ps.map s.readPiece, install⟩
  ((s.modService fun v => { v with hostOps := v.hostOps ++ [x], nextMap := v.nextMap + 1 }).askPieces x.num ctx 0 ps).settleHostOps

/-- Takes up a host operation that writes: `write` gets its number. -/
def State.beginWrite (s : State) (rq : Rq) (code : Nat) (write : Nat → State → State) : State :=
  let x : HostOp := ⟨s.service.nextMap, rq, code, [], none⟩
  (write x.num (s.modService fun v => { v with hostOps := v.hostOps ++ [x], nextMap := v.nextMap + 1 })).settleHostOps

/-- A piece that a peer has sent; one it could not read holds bytes that the manual does not give. -/
def State.hostPieceLands (s : State) (op i len : Nat) (b : PacketBody) : State :=
  let bs := match b with
    | .data bs => bs
    | _ => (List.range len).map fun j => (Config.freeField 5 j).setWidth 8
  s.modService fun v => { v with hostOps := v.hostOps.map fun x =>
    if x.num = op then { x with parts := x.parts.set i (some bs) } else x }

end Sys2Proof.Machine
end

