-- ==== Sys2Proof/Machine/Samples.lean ====
section
/-! DEFINITION. Sample rings: the control line and the records at their homes (R393, R394). -/

namespace Sys2Proof.Machine

/-! ### The groups of a slice -/

/-- The non-exited threads of a group. -/
def Team.groupLive (T : Team) (r : LaunchRec) (g : Nat) : List Nat :=
  ((List.range r.width).map (g * r.width + ·)).filter fun t => ((T.threads[t]?).map fun th => !th.exited).getD false

/-- The sampling period of a launch; 0 is none (Table 26.1). -/
def LaunchRec.period (r : LaunchRec) : Nat := r.profile.toNat % 65536

/-- The resident groups of a slice, by team slot and group: launch, team and group. -/
def State.sliceGroups (s : State) (core sl : Nat) : List (Nat × Launch × Team × Nat) :=
  s.teams.flatMap fun T =>
    match T.place, s.launch? T.key.launch with
    | some p, some L =>
      if p.core = core then
        ((List.range p.slices.length).filter fun g => p.slices[g]? == some sl).map fun g => (p.slot, L, T, g)
      else []
    | _, _ => []

/-- The groups of a slice that may be sampled (R394). -/
def State.eligible (s : State) (core sl : Nat) : List (Nat × Launch × Team × Nat) :=
  (s.sliceGroups core sl).filter fun x => x.2.1.rcd.period != 0 && !(x.2.2.1.groupLive x.2.1.rcd x.2.2.2).isEmpty

/-- While a slice holds no eligible group its pointer names none (R394). Only where it holds one is the pointer looked at:
it is cleared as the first comes. -/
def State.refreshPointer (s : State) (core sl : Nat) : State :=
  if (s.eligible core sl).isEmpty then s.modSlice core sl fun x => { x with sampled := none } else s

/-- The pointers of the slices of a place, before groups come to it. -/
def State.refreshPlace (s : State) (p : Place) : State := p.slices.foldl (fun s sl => s.refreshPointer p.core sl) s

/-! ### Sample rings -/

/-- Changes the sample with this number. -/
def State.modSample (s : State) (n : Nat) (f : SampleJob → SampleJob) : State :=
  s.modService fun v => { v with samples := v.samples.map fun x => if x.num = n then f x else x }

def State.dropJob (s : State) (n : Nat) : State :=
  s.modService fun v => { v with samples := v.samples.filter fun x => x.num != n }

/-- A ring whose control line faults takes no more samples, and the host is told (R394). -/
def State.stopRing (s : State) (ctx : Nat) : State :=
  (s.modService fun v => { v with
    sampleStop := v.sampleStop ++ [ctx], samples := v.samples.filter fun x => x.ctx != ctx }).emit 11 noNumber noNumber
    (leBytes 1 ctx)

/-- Writes a count of the control line at its home. -/
def State.putRingCount (s : State) (ctx base off v : Nat) : State :=
  match s.writeAllHomes .sample ctx (base + off) (leBytes 8 v) with
  | some s => s
  | none => s.stopRing ctx

/-- A record is dropped: `dropped` was this count (R394). -/
def State.dropSample (s : State) (x : SampleJob) (base dropped : Nat) : State :=
  ((s.dropJob x.num).modService fun v =>
    { v with sampleDrop := if v.sampleDrop.contains x.ctx then v.sampleDrop else v.sampleDrop ++ [x.ctx] }).putRingCount
    x.ctx base 16 ((dropped + 1) % 2 ^ 64)

/-- A record has been written whole: `written` counts it, unless a peer has yet to acknowledge its part (R393). -/
def State.finishSample (s : State) (x : SampleJob) (base written : Nat) : State :=
  if s.fabric.out.any fun o => o.why == .record x.num then s.modSample x.num fun y => { y with stage := .stores written }
  else
    ((s.dropJob x.num).modService fun v => { v with sampleDrop := v.sampleDrop.filter (· ≠ x.ctx) }).putRingCount x.ctx base 0
      ((written + 1) % 2 ^ 64)

/-- The record with its flag bit 2: records were dropped since the previous record of this ring (Table 26.4). -/
def markDropped (dropped : Bool) (record : List Byte) : List Byte :=
  if dropped then record.modify 29 (· ||| 4) else record

/-- With the control line in hand the record is written, or dropped when the ring is full or its write faults (R394). -/
def State.storeSample (s : State) (x : SampleJob) (base j : Nat) (line : List Byte) : State :=
  let written := leNat (line.take 8)
  let done := leNat ((line.drop 8).take 8)
  let dropped := leNat ((line.drop 16).take 8)
  if (written + 2 ^ 64 - done) % 2 ^ 64 = 2 ^ j then s.dropSample x base dropped
  else
    match s.writeAllHomes (.record x.num) x.ctx (base + 128 + 32 * (written % 2 ^ j))
        (markDropped (s.service.sampleDrop.contains x.ctx) x.record) with
    | none => s.dropSample x base dropped
    | some s => s.finishSample x base written

/-- The sample ring of a context. -/
def State.ringOf (s : State) (ctx : Nat) : Option (Nat × Nat) :=
  ((s.context? ctx).bind (·.ring)).map fun r => (r.1.toNat, r.2)

/-- Takes up a sample: its ring's control line is read at its home. -/
def State.startSample (s : State) (x : SampleJob) : State :=
  match s.ringOf x.ctx with
  | none => s.dropJob x.num
  | some (base, j) =>
    match s.homePlace x.ctx base .write with
    | none => s.stopRing x.ctx
    | some w =>
      match w.dev with
      | none => s.storeSample x base j (s.mem.read w.dpa 24)
      | some t => (s.modSample x.num fun y => { y with stage := .asked }).produce (.ringLine x.num) 3 false t w.dpa x.ctx (.read 24)

/-- Takes up, oldest first, every sample before which its ring has none under way (R394).
(DEDUCED, log 93) -/
def State.settleSamples (s : State) : State :=
  s.service.samples.foldl (fun s x =>
    match s.service.samples.find? fun y => y.ctx == x.ctx with
    | some y => if y.num = x.num ∧ y.stage = .waits then s.startSample y else s
    | none => s) s

/-- A control line that a peer has sent; one that it could not read stops the ring. -/
def State.ringLineLands (s : State) (n : Nat) (b : PacketBody) : State :=
  match s.service.samples.find? fun y => y.num == n with
  | none => s
  | some x =>
    match s.ringOf x.ctx, b with
    | some (base, j), .data bs => s.storeSample x base j bs
    | _, _ => s.stopRing x.ctx

/-- A peer has acknowledged a record's part. -/
def State.recordLands (s : State) (n : Nat) : State :=
  match s.service.samples.find? fun y => y.num == n with
  | none => s
  | some x =>
    match s.ringOf x.ctx, x.stage with
    | some r, .stores written => s.finishSample x r.1 written
    | _, _ => s

end Sys2Proof.Machine
end

