-- ==== Sys2Proof/Machine/Fabric.lean ====
section
/-! DEFINITION. Replies and acknowledgements from peers (R357, R361), and what waits for them. -/

namespace Sys2Proof.Machine

/-- The request that an answer names: by peer, plane and number. -/
def Fabric.answered (f : Fabric) (p : Packet) : Option OutPkt :=
  f.out.find? fun o => o.sent && o.pkt.target == p.source && o.pkt.plane == p.plane && o.pkt.pseq == p.pseq

/-- A sector that a peer has sent fills the die's L2 if there is room; one it could not read is noted for the reader that
waits (R221, R343). The fill counts for the first that asked for it (R395). -/
def State.fillLands (s : State) (d : Nat) (k : LineKey) (i : Nat) (colours : BitVec 8) (ls : List (Nat × Nat))
    (b : PacketBody) : State :=
  match b with
  | .data bs =>
    if !(s.dieAt d).room k then s
    else match (s.dieAt d).sector? k i with
      | some x => s.modDie d fun D => D.put k i x colours
      | none =>
        let a := ls.headD (0, 0)
        (s.modDie d fun D => D.put k i ⟨bs, false, none, []⟩ colours).tallyOf a.1 a.2 22 1
  | _ => { s with errors := s.errors ++ [.l2 d k i] }

/-- A residual word that a peer has sent, or its error (R308, R343). -/
def State.residLands (s : State) (team : TeamKey) (seq : Nat) (k : LineKey) (off : Nat) (b : PacketBody) : State :=
  match s.team? team, s.launch? team.launch, s.cmdBySeq team seq with
  | some T, some L, some c =>
    match b with
    | .data bs => s.modCmd team c.tag fun c => { c with resid := c.resid ++ [(k, off, bs)] }
    | _ => if c.live then (s.dataError T L c 3 k off).stopCmd team c.tag 5 0 fun _ _ => false else s
  | _, _, _ => s

/-- The lanes of a call that a peer has answered are performed (R292, R361). -/
def State.callLands (s : State) (r : Request) (b : PacketBody) : State :=
  match r.team, b with
  | some k, .callReply rs => (r.homes.zip rs).foldl (fun s x => s.replyLanes k r.tag x.1 x.2 (!r.noReply)) s
  | _, _ => s

/-- The effect of an answer by what asked for it. -/
def State.answerLands (s : State) (w : Why) (b : PacketBody) : State :=
  match w with
  | .fill d k i colours ls => s.fillLands d k i colours ls b
  | .call r => s.callLands r b
  | .residRead team seq k off => s.residLands team seq k off b
  | .piece team seq false => s.piecesIn team seq
  | .hostRead op i len => s.hostPieceLands op i len b
  | .ringLine n => s.ringLineLands n b
  | .record n => s.recordLands n
  | .back _ | .stale _ | .residWrite .. | .piece .. | .zero _ | .hostWrite _ | .sample => s

/-- What waited for answers goes on: held requests (R360), calving (R369), samples (R394), changes of mappings (R236, R237), host requests
and closing launches (R379). -/
def State.fabricMoves (s : State) : State :=
  s.planesMove.settleSamples.settleRemaps.settleHostOps.closeAll

/-! ### The L2's own steps -/

/-- What waited for queued writes and dirty sectors, or for room for them, goes on: changes of mappings (R237) and closing
launches (R379). -/
def State.l2Moves (s : State) : State := s.settleRemaps.closeAll

/-- WRITE_QUEUE_DRAIN: the oldest completed write of a core drains into its die's L2 (R220). -/
def execWriteQueueDrain (core : Nat) (s : State) : Host.Outcome State Fault Refusal := .next (s.drainOne core).1.l2Moves

/-- L2_DROP_CLEAN (R222). -/
def execL2DropClean (die : Nat) (key : LineKey) (sector : Nat) (s : State) : Host.Outcome State Fault Refusal :=
  .next (s.dropSectors die fun l i x => l.key == key && i == sector && !x.dirty).l2Moves

/-- L2_WRITE_BACK (R222). -/
def execL2WriteBack (die : Nat) (key : LineKey) (sector : Nat) (s : State) : Host.Outcome State Fault Refusal :=
  .next (s.writeBack die key sector).l2Moves

/-! ### Replies -/

/-- FABRIC_REPLY: a reply or an acknowledgement arrives on a plane whose ports are open, or a retained one again
(R370); one whose number has been answered is dropped. -/
def execFabricReply (p : Packet) (s : State) : Host.Outcome State Fault Refusal :=
  if !(p.kind == 8 || p.kind == 9) || p.target != s.devno || (s.fabric.closed p.plane && !p.retrans) then .next s
  else match s.fabric.answered p with
    | none => .next s
    | some o =>
      let s := (s.modFabric fun f => { f with out := f.out.filter fun x => x.id != o.id }).noteLatency (24 + p.plane)
      .next ((s.answerLands o.why p.body).fabricMoves)

/-- CONTRIBUTION_DELIVERY: a piece that a switch delivers to this device is written at its home and counted (R366);
this device's own pieces are acknowledged once they have landed (R367).
(DESIGN CHOICE, log 173) -/
def execContributionDelivery (p : Piece) (s : State) : Host.Outcome State Fault Refusal :=
  if p.target != s.devno then .next s
  else
    let s := (s.modFabric fun f => { f with deliveries := f.deliveries.eraseP fun x => x.2 == p }).land p
    .next (s.landed p).fabricMoves

end Sys2Proof.Machine
end

