-- ==== Sys2Proof/Machine/Calving.lean ====
section
/-! DEFINITION. Calving: planes that are dead, generations that begin, and reports (R352, R368-R370, R373, R398). -/

namespace Sys2Proof.Machine

/-- Enters SUSPEND with a generation: the ports of its dead planes are closed and the host is told (R369, R398). Reports
of the generation stand, since the ports that they tell of stay closed (R368), and so does a DONE of it.
(DESIGN CHOICE, log 194) -/
def State.beginCalving (s : State) (gen : Nat) (mask : BitVec 8) (base : Nat) : State :=
  let s := s.modFabric fun f => { f with
    calved := ⟨gen, mask, base, f.mapOf base⟩ :: f.calved.filter fun c => c.gen != gen
    dead := f.dead ||| mask
    phase := .suspend
    map := if f.phase == .retransmit then f.mapOf f.gen else f.map
    reports := f.reports.filter fun r => decide (gen ≤ r.gen)
    switches := mapFrom (fun p x => if mask.getLsbD p then ⟨[], []⟩ else x) 0 f.switches
    deliveries := f.deliveries.filter fun x => !mask.getLsbD x.1 }
  s.emit 6 noNumber noNumber (leBytes 4 gen ++ leBytes 1 s.fabric.dead.toNat ++ leBytes 1 base)

/-- Declares planes dead: CALVE goes to every device, and this device begins the generation (R368). -/
def State.declareDead (s : State) (mask : BitVec 8) : State :=
  if mask &&& ~~~s.fabric.dead = 0 then s
  else
    let all := s.fabric.dead ||| mask
    let gen := s.fabric.begun + 1
    let base := s.fabric.gen
    (s.beginCalving gen all base).toAll 1 [gen, all.toNat, base]

/-! ### Steps (R369, R370) -/

/-- CALVE: a generation above all begun, or the last one with a larger base or further planes, is begun (R368, R373).
(DEDUCED, log 78) -/
def execCalve (gen : Nat) (mask : BitVec 8) (base : Nat) (s : State) : Host.Outcome State Fault Refusal :=
  let f := s.fabric
  if f.begun < gen then .next (s.beginCalving gen mask base)
  else match f.calved.head? with
    | some c =>
      if gen = c.gen ∧ (c.base < base ∨ mask &&& ~~~c.mask ≠ 0) then
        .next (s.beginCalving gen (c.mask ||| mask) (max c.base base))
      else .next s
    | none => .next s

/-- Reports on the paths of the dead planes, and every answer retained for them (R369, R370). -/
def State.sendReports (s : State) : State :=
  let gen := s.fabric.begun
  s.others.foldl (fun s d => (planesOf s.fabric.deadNow).foldl (fun s p =>
    let r := s.fabric.recv d p
    let s := s.controlAll 2 d [gen, p, r.mark.toNat, r.window.toNat]
    r.kept.foldl (fun s q => s.modFabric fun f =>
      let q := { q with retrans := true }
      { f.transmitOn (f.livePlanes.headD p) q with sentReplies := f.sentReplies ++ [q] }) s) s) s

/-- CALVING_PORTS_CLOSED: in SUSPEND, with a plane alive, the device reports (R369); with none it stays (R398). What the
closed ports have accepted is performed (R370). -/
def execCalvingPortsClosed (s : State) : Host.Outcome State Fault Refusal :=
  if s.fabric.phase != .suspend then .next s
  else if s.fabric.dead == 0xFF then .next s.pumpClosed
  else .next (s.sendReports.modFabric fun f => { f with phase := .report }).pumpClosed.fabricMoves

/-- CALVING_REPORT: a device's report on one path (R370), which may come before this device has begun its generation; a
copy received twice is ignored. -/
def execCalvingReport (gen src plane : Nat) (mark : BitVec 32) (window : BitVec 256) (s : State) :
    Host.Outcome State Fault Refusal :=
  let f := s.fabric
  if decide (gen < f.begun) || f.reports.any fun r => r.gen == gen && r.src == src && r.plane == plane then .next s
  else .next (s.modFabric fun f => { f with reports := f.reports ++ [Report.mk gen src plane mark window] }).fabricMoves

/-- CALVING_DONE (R369). -/
def execCalvingDone (gen src : Nat) (s : State) : Host.Outcome State Fault Refusal :=
  if s.fabric.dones.contains (gen, src) then .next s
  else .next (s.modFabric fun f => { f with dones := f.dones ++ [(gen, src)] }).fabricMoves


end Sys2Proof.Machine
end

