-- ==== Sys2Proof/Machine/Transport.lean ====
section
/-! DEFINITION. The host transport: frames in and out, the numbering of each port, and messages as they are read from
their payloads (R374-R378, Table 25.7). -/

namespace Sys2Proof

/-- Where the response to a message goes, for the host's messages. -/
def Instr.rq? : Instr → Option Rq
  | .helloQuery q .. | .helloSelect q .. | .contextCreate q .. | .contextDestroy q .. | .contextMethods q ..
  | .contextPeers q .. | .memwrite q .. | .memread q .. | .clearMonitors q | .map q .. | .unmap q .. | .protect q ..
  | .launchStart q .. | .launchEnd q .. | .launchResume q .. | .dump q .. | .firmwareLoad q .. | .firmwareCommit q ..
  | .firmwareAttest q .. => some q
  | _ => none

/-- The loader answers only HELLO, FIRMWARE LOAD and COMMIT (R384). -/
def Instr.forLoader : Instr → Bool
  | .helloQuery .. | .helloSelect .. | .firmwareLoad .. | .firmwareCommit .. => true
  | _ => false

end Sys2Proof

namespace Sys2Proof.Machine

/-! ### Reading messages (Table 25.7) -/

/-- A little-endian field of a payload (R3). -/
def field (p : List Byte) (off n : Nat) : Nat := leNat ((p.drop off).take n)

/-- One entry of a method table (Table 15.5). -/
def methodEntry (p : List Byte) : MethodEntry where
  code := BitVec.ofNat 64 (field p 0 8)
  length := field p 8 2
  flags := BitVec.ofNat 8 (field p 10 1)
  reserved := (p.drop 11).take 5

/-- One peer set: 64 device numbers of 16 bits. -/
def peerSet (p : List Byte) : List (BitVec 16) := (List.range 64).map fun j => BitVec.ofNat 16 (field p (2 * j) 2)

/-- The sections of a RESUME, in the record format of R345; none if one is malformed. -/
def sections : Nat → List Byte → Option (List Section)
  | 0, p => if p.isEmpty then some [] else none
  | fuel + 1, p =>
    if p.isEmpty then some []
    else
      let n := field p 4 4
      if p.length < 16 ∨ n < 16 ∨ n % 8 ≠ 0 ∨ p.length < n then none
      else (sections fuel (p.drop n)).map (⟨field p 0 2, field p 8 4, (p.take n).drop 16⟩ :: ·)

def readHello (q : Rq) (sub : Nat) (p : List Byte) : Option Instr :=
  if sub = 0 ∧ 10 ≤ p.length then some (.helloQuery q (field p 8 2))
  else if sub = 1 ∧ 48 ≤ p.length then
    some (.helloSelect q (field p 8 2) (field p 10 2) (BitVec.ofNat 8 (field p 12 1)) (BitVec.ofNat 256 (field p 16 32)))
  else none

def readContext (q : Rq) (sub : Nat) (p : List Byte) : Option Instr :=
  let ctx := field p 8 1
  if sub = 0 ∧ 33 ≤ p.length then
    some (.contextCreate q ctx (BitVec.ofNat 32 (field p 12 4)) (field p 16 8) (BitVec.ofNat 64 (field p 24 8)) (field p 32 1))
  else if sub = 1 ∧ 9 ≤ p.length then some (.contextDestroy q ctx)
  else if sub = 2 ∧ 528 ≤ p.length then
    some (.contextMethods q ctx ((List.range 32).map fun i => methodEntry (p.drop (16 + 16 * i))))
  else if sub = 3 ∧ 16 + 128 * field p 10 1 ≤ p.length then
    some (.contextPeers q ctx (field p 9 1) ((List.range (field p 10 1)).map fun i => peerSet (p.drop (16 + 128 * i))))
  else none

def readMemwrite (q : Rq) (p : List Byte) : Option Instr :=
  let ctx := field p 8 1
  let va := field p 16 8
  let n := field p 24 4
  if p.length < 32 + n then none
  else if ctx = 0 ∧ va = 0xF000 ∧ n = 8 then some (.clearMonitors q)
  else some (.memwrite q ctx (BitVec.ofNat 64 va) ((p.drop 32).take n))

def readMap (q : Rq) (sub : Nat) (p : List Byte) : Option Instr :=
  let ctx := field p 8 1
  let size := field p 10 1
  let count := field p 12 4
  let va : DWord := BitVec.ofNat 64 (field p 16 8)
  let leaf : DWord := BitVec.ofNat 64 (field p 24 8)
  if sub = 0 ∧ 32 ≤ p.length then some (.map q ctx (field p 9 1 % 2 == 1) size count va leaf)
  else if sub = 1 ∧ 24 ≤ p.length then some (.unmap q ctx size count va)
  else if sub = 2 ∧ 32 ≤ p.length then some (.protect q ctx size count va leaf)
  else none

def readLaunch (q : Rq) (sub : Nat) (p : List Byte) : Option Instr :=
  if sub = 0 ∧ 144 ≤ p.length then
    some (.launchStart q (field p 8 1) ((p.drop 16).take 128) (p.drop 144))
  else if sub = 1 ∧ 12 ≤ p.length then some (.launchEnd q (field p 8 4))
  else if sub = 2 ∧ 16 ≤ p.length then
    (sections p.length (p.drop 16)).map fun l => .launchResume q (field p 8 4) (field p 12 4) l
  else none

def readFirmware (q : Rq) (sub : Nat) (p : List Byte) : Option Instr :=
  if sub = 0 ∧ 16 + field p 12 4 ≤ p.length then
    some (.firmwareLoad q (field p 8 4) ((p.drop 16).take (field p 12 4)))
  else if sub = 1 ∧ 12 ≤ p.length then some (.firmwareCommit q (field p 8 4))
  else if sub = 2 ∧ 40 ≤ p.length then some (.firmwareAttest q ((p.drop 8).take 32))
  else none

/-- A message by its code and joined payload (Tables 25.2 and 25.7); none if it is of no kind that a host sends or too
short for its kind.
(DEDUCED, log 100; DEDUCED, log 102) -/
def readMessage (q : Rq) (code : Nat) (p : List Byte) : Option Instr :=
  let sub := field p 4 2
  match code with
  | 1 => readHello q sub p
  | 2 => readContext q sub p
  | 3 => readMemwrite q p
  | 4 => if 28 ≤ p.length then some (.memread q (field p 8 1) (BitVec.ofNat 64 (field p 16 8)) (field p 24 4)) else none
  | 5 => readMap q sub p
  | 6 => readLaunch q sub p
  | 8 =>
    if 32 ≤ p.length then
      some (.dump q (field p 8 4) (BitVec.ofNat 64 (field p 16 8)) (BitVec.ofNat 64 (field p 24 8)))
    else none
  | 9 => readFirmware q sub p
  | _ => none

/-! ### Numbering (R376, R378) -/

/-- A cumulative acknowledgement frees the frames before it, and held frames move up.
(DEDUCED, log 96) -/
def Port.acked (p : Port) (ack : BitVec 16) : Port :=
  match p.unacked with
  | [] => p
  | (n, _) :: _ =>
    let k := (ack - n).toNat
    if k ≤ p.unacked.length then Port.flush p.queue.length { p with unacked := p.unacked.drop k } else p

/-- Acknowledges to the host: a frame of message code 0, without payload or a number of its own. -/
def Port.acknowledge (p : Port) (stream : Nat) : Port :=
  { p with wire := p.wire ++ [mkFrame { stream := stream, code := 0, more := false, payload := [] } p.next p.expect] }

/-- A HELLO starts the numbering afresh in both directions; what was under way on the port is dropped (R378). -/
def Port.restart (p : Port) : Port := { p with expect := 1, next := 0, unacked := [], queue := [], parts := [] }

def State.modPort (s : State) (port : Nat) (f : Port → Port) : State := { s with ports := s.ports.modify port f }

/-- Every HELLO restarts the numbering of its port, the refused ones too (R378). -/
def State.restartPort (s : State) (port : Nat) : State := s.modPort port Port.restart

/-- The retransmit timeout that an accepted HELLO sets (Table 25.7). -/
def State.setTimeout (s : State) (port timeout : Nat) : State := s.modPort port fun p => { p with timeout := timeout }

/-! ### Messages in hand -/

/-- Streams with a request whose response is still to come.
(DEDUCED, log 101) -/
def State.busyStreams (s : State) : List Nat :=
  s.service.remaps.map (·.rq.stream) ++ s.service.hostOps.map (·.rq.stream)

def Instr.streamOf (i : Instr) : Nat := (i.rq?.map fun q => q.stream).getD 0

def HostMsg.stream : HostMsg → Nat
  | .act i | .hello i => Instr.streamOf i
  | .unread q _ _ => q.stream

/-- A change of mappings of the context still has leaves to write: the checks of R397 wait for them.
(DEDUCED, log 176) -/
def State.mapping (s : State) (ctx : Nat) : Bool := s.service.remaps.any fun x => x.ctx == ctx && !x.leaves.isEmpty

/-- A MAP, UNMAP or PROTECT that waits for an earlier one of its context. -/
def State.holdsMap (s : State) : HostMsg → Bool
  | .act (.map _ ctx _ _ _ _ _) | .act (.unmap _ ctx _ _ _) | .act (.protect _ ctx _ _ _ _) => s.mapping ctx
  | _ => false

/-- The first message that is not held and whose stream is not busy, and the others; the streams of held ones are busy. -/
def nextOf (held : HostMsg → Bool) : List Nat → List HostMsg → Option (HostMsg × List HostMsg)
  | _, [] => none
  | busy, m :: l =>
    if busy.contains m.stream || held m then (nextOf held (m.stream :: busy) l).map fun r => (r.1, m :: r.2)
    else some (m, l)

/-- The oldest message that may be acted on: those of one stream are acted on in order (R376). -/
def State.nextMessage (s : State) : Option (HostMsg × State) :=
  (nextOf s.holdsMap s.busyStreams s.inbox).map fun r => (r.1, { s with inbox := r.2 })

/-- The messages that the loader answers, by code and sub-op: FIRMWARE LOAD and COMMIT; it answers HELLO as its frame
arrives (R384). -/
def loaderAnswers (code : Nat) (payload : List Byte) : Bool := code == 9 && decide (field payload 4 2 ≤ 1)

/-- A message received whole waits to be acted on, or to be answered if it cannot be read. The loader takes only the
messages it answers (R384). -/
def State.takeMessage (s : State) (q : Rq) (code : Nat) (payload : List Byte) : State :=
  if s.service.loader && !loaderAnswers code payload then s
  else { s with inbox := s.inbox ++ [match readMessage q code payload with
    | some i => .act i
    | none => .unread q code payload] }

/-- Joins a frame to the message of its stream (R378); the message is named by its first frame, which binds the stream to
its port (R376). -/
def State.joinFrame (s : State) (port stream code : Nat) (seq : BitVec 16) (more : Bool) (payload : List Byte) : State :=
  let old := (s.ports[port]?).bind fun p => p.parts.find? fun x => x.stream == stream
  let x : PartMsg := match old with
    | some x => { x with payload := x.payload ++ payload }
    | none => ⟨stream, code, seq, payload⟩
  let s := (s.bindStream stream port).modPort port fun p => { p with parts := p.parts.filter fun y => y.stream != stream }
  if more then s.modPort port fun p => { p with parts := p.parts ++ [x] }
  else s.takeMessage ⟨port, stream, x.seq⟩ x.code x.payload

end Sys2Proof.Machine
end

