-- ==== Sys2Proof/Machine/Hello.lean ====
section
/-! DEFINITION. Frames at the host ports (R374-R378) and HELLO (R380). -/

namespace Sys2Proof.Machine

/-- The feature bits that the device offers: 0..7 (Table 25.4). -/
def offered : BitVec 256 := 0xFF

/-- The device identity and firmware version as HELLO and ATTEST give them (Table 25.7). -/
def identityBytes : List Byte := (List.range 4).flatMap fun i => leBytes 4 (Config.freeField 7 i).toNat

def State.versionBytes (s : State) : List Byte := leBytes 4 (Config.firmwareVersion s.service.image).toNat

/-- The body of a HELLO response (Table 25.7). -/
def State.helloBody (s : State) : List Byte :=
  leBytes 32 offered.toNat ++ identityBytes ++ s.versionBytes ++
  leBytes 2 (if s.service.numbered then s.devno else 0xFFFF) ++ leBytes 2 0

/-- HELLO_QUERY: restarts the numbering of the port and answers with the offer; the selection stands. One that is refused
sets no timeout (R377, R378, R380). -/
def execHelloQuery (q : Rq) (timeout : Nat) (s : State) : Host.Outcome State Fault Refusal :=
  let s := s.restartPort q.port
  if 1 ≤ timeout ∧ timeout ≤ 65535 then .next ((s.setTimeout q.port timeout).respond q 1 0 s.helloBody)
  else .next (s.respond q 1 2 [])

/-- A selection that may be made: no context exists and every bit was offered (R380), the number is one of R353.
(DEDUCED, log 99) -/
def State.maySelect (s : State) (timeout devno : Nat) (sel : BitVec 256) : Bool :=
  s.contexts.isEmpty && (sel &&& ~~~offered) == 0 && decide (devno < 4096) && decide (1 ≤ timeout) &&
  decide (timeout ≤ 65535)

/-- Acts on a selecting HELLO: the features, the device's number and the planes that the host declares dead (R353, R368,
R380); a refused one has no effect (R377). -/
def State.select (s : State) (q : Rq) (timeout devno : Nat) (dead : BitVec 8) (sel : BitVec 256) : State :=
  if s.maySelect timeout devno sel then
    let s := (({ s with features := sel, devno := devno }).modService fun v => { v with numbered := true }).setTimeout
      q.port timeout
    (s.declareDead dead).respond q 1 0 s.helloBody
  else s.respond q 1 2 []

/-- HELLO_SELECT: restarts the numbering of the port and acts (R378, R380). -/
def execHelloSelect (q : Rq) (timeout devno : Nat) (dead : BitVec 8) (sel : BitVec 256) (s : State) :
    Host.Outcome State Fault Refusal :=
  .next ((s.restartPort q.port).select q timeout devno dead sel)

/-- A selecting HELLO whose turn in its stream has come, its numbering having been restarted as its frame arrived. -/
def State.actHello (s : State) : Instr → State
  | .helloSelect q timeout devno dead sel => s.select q timeout devno dead sel
  | _ => s

/-! ### Frames (Table 25.1) -/

/-- A frame's payload, if the frame is whole and of version 1; streams are 0..1023. -/
def framePayload (bs : List Byte) : Option (List Byte) :=
  let n := field bs 10 2
  if 16 ≤ bs.length ∧ field bs 0 1 = 1 ∧ n ≤ maxPayload ∧ 16 + n ≤ bs.length ∧ field bs 8 2 < 1024 then
    some ((bs.drop 16).take n)
  else none

/-- A message of the stream waits to be acted on, or its response is to come. -/
def State.streamWaits (s : State) (stream : Nat) : Bool :=
  (s.inbox.any fun m => m.stream == stream) || s.busyStreams.contains stream

/-- A HELLO restarts the numbering as its frame arrives (R378). A query is answered at once, at any time (R380); any other
takes its place in its stream (R376).
(DEDUCED, log 98) -/
def State.helloFrame (s : State) (q : Rq) (payload : List Byte) : Host.Outcome State Fault Refusal :=
  let s := s.bindStream q.stream q.port
  match readHello q (field payload 4 2) payload with
  | some (.helloQuery q timeout) => execHelloQuery q timeout s
  | some (.helloSelect q timeout devno dead sel) =>
    if s.streamWaits q.stream then
      let s := s.restartPort q.port
      .next { s with inbox := s.inbox ++ [.hello (.helloSelect q timeout devno dead sel)] }
    else execHelloSelect q timeout devno dead sel s
  | _ =>
    let s := s.restartPort q.port
    .next { s with inbox := s.inbox ++ [.unread q 1 payload] }

/-- A numbered frame: the one expected is joined to its message and acknowledged; any other is discarded and
acknowledged again (R376). -/
def State.numberedFrame (s : State) (port stream code : Nat) (seq ack : BitVec 16) (more : Bool) (payload : List Byte) :
    State :=
  let s := s.modPort port fun p => p.acked ack
  match s.ports[port]? with
  | none => s
  | some p =>
    let s :=
      if seq = p.expect then
        (s.modPort port fun p => { p with expect := p.expect + 1 }).joinFrame port stream code seq more payload
      else s
    s.modPort port fun p => p.acknowledge stream

/-- Bytes of a frame beside those after its EtherType: two MAC addresses, the EtherType and the frame check sequence. -/
def frameOverhead : Nat := 18

/-- TRANSPORT_FRAME_RECEIVE (R374-R378): a frame of more than 9,216 bytes is none of the port's, and one of another
EtherType is discarded and counted. A HELLO is one frame.
(DEDUCED, log 97; DESIGN CHOICE, log 177) -/
def execTransportFrameReceive (port : Nat) (f : Frame) (s : State) : Host.Outcome State Fault Refusal :=
  if 9216 < frameOverhead + f.bytes.length then .next s
  else if f.etherType ≠ transportType then .next (s.modPort port fun p => { p with foreign := p.foreign + 1 })
  else match framePayload f.bytes with
    | none => .next s
    | some payload =>
      let code := field f.bytes 1 1
      let more := field f.bytes 2 1 % 2 == 1
      let ack : BitVec 16 := BitVec.ofNat 16 (field f.bytes 4 2)
      let seq : BitVec 16 := BitVec.ofNat 16 (field f.bytes 6 2)
      let stream := field f.bytes 8 2
      if code = 0 then .next (s.modPort port fun p => p.acked ack)
      else if code = 1 then
        if seq = 0 ∧ more = false then s.helloFrame ⟨port, stream, seq⟩ payload
        else .next (s.modPort port fun p => p.acknowledge stream)
      else .next (s.numberedFrame port stream code seq ack more payload)

/-- HOST_RETRANSMIT_TIMEOUT: the frames from the oldest unacknowledged one are sent again as they were (R376).
(DESIGN CHOICE, log 178) -/
def execHostRetransmitTimeout (port : Nat) (s : State) : Host.Outcome State Fault Refusal :=
  .next (s.modPort port fun p => { p with wire := p.wire ++ p.unacked.map (·.2) })

end Sys2Proof.Machine
end

