-- ==== Sys2Proof/Machine/Image.lean ====
section
/-! DEFINITION. The context image of a team: what its sections hold, their sizes and their bytes (R337, Table 21.4). -/

namespace Sys2Proof.Machine

/-! ### What the sections hold -/

/-- The team section: identity, trap state and the records of the traps with their numbers, barriers at each level, role queues with the
threads that wait on them, signals, out-of-range records and stall-counter banks. Arrivals at shared barriers are those of the team itself. -/
structure TeamImage where
  launch : Nat
  n : Nat
  halted : Bool
  trapped : List (Option DWord)
  records : List (FaultRec × Option Word)
  bars : List Barrier
  clusterBars : List Barrier
  gridBars : List Barrier
  queues : List (List Word)
  waiting : List (List Nat)
  mcast : BitVec 4
  scrinfo : Word
  scrthread : Word
  tileinfo : Word
  tilethread : Word
  banks : List (List DWord)
  deriving DecidableEq, Repr, Inhabited

/-- A thread in the threads section. -/
structure ThreadImage where
  pc : DWord
  widx : Nat
  depth : Nat
  preds : BitVec 7
  fp : BitVec 5
  srstep : Word
  mark : BitVec 16
  idem : Bool
  wait : Option Wait
  streams : List Stream
  deriving DecidableEq, Repr, Inhabited

/-- A line's mark in an allocation's bitmap. -/
inductive LineMark where
  | full | empty | claimed
  deriving DecidableEq, Repr, Inhabited

end Sys2Proof.Machine

/-! ### Layouts that the manual does not give: free values -/

namespace Sys2Proof.Config

/-- The bytes of a team section, from what it holds (R337). -/
opaque teamLayout : Machine.TeamImage → List Byte

/-- The bytes of a threads section. -/
opaque threadLayout : List Machine.ThreadImage → List Byte

/-- The bytes of a bitmap. -/
opaque lineLayout : List Machine.LineMark → List Byte

/-- The bytes of a commands section: the tags that are not FREE, and the fences. -/
opaque commandLayout : List Machine.Cmd → List Machine.Fence → List Byte

/-- The bytes of a checkpoints section: threads and their checkpoints. -/
opaque checkpointLayout : List (Nat × Machine.Checkpoint) → List Byte

/-- What a replaced team section says. -/
opaque teamContents : List Byte → Machine.TeamImage

/-- What a replaced threads section says. -/
opaque threadContents : List Byte → List Machine.ThreadImage

/-- What a replaced bitmap says. -/
opaque lineContents : List Byte → List Machine.LineMark

/-- What a replaced commands section says. -/
opaque commandContents : List Byte → List Machine.Cmd × List Machine.Fence

/-- What a replaced checkpoints section says. -/
opaque checkpointContents : List Byte → List (Nat × Machine.Checkpoint)

end Sys2Proof.Config

namespace Sys2Proof.Machine

/-! ### Contents of a team's sections -/

/-- A barrier with the arrivals of one team alone. -/
def Barrier.ofTeam (b : Barrier) (n : Nat) : Barrier := { b with arrived := b.arrived.filter fun p => p.1 == n }

/-- The threads that wait on a role queue, ascending. -/
def Team.waitersOn (T : Team) (q : Nat) : List Nat :=
  (List.range T.threads.length).filter fun t => match (T.threads[t]?).bind (·.wait) with
    | some (.queue _ q') => q' == q
    | _ => false

def teamImage (L : Launch) (T : Team) : TeamImage where
  launch := T.key.launch
  n := T.key.n
  halted := T.halted
  trapped := T.threads.map (·.trapped)
  records := T.records
  bars := T.bars
  clusterBars := ((aget? L.clusterBars (T.key.n / L.rcd.cluster)).getD []).map fun b => b.ofTeam T.key.n
  gridBars := L.gridBars.map fun b => b.ofTeam T.key.n
  queues := T.queues
  waiting := (List.range 4).map T.waitersOn
  mcast := T.mcast
  scrinfo := T.scrinfo
  scrthread := T.scrthread
  tileinfo := T.tileinfo
  tilethread := T.tilethread
  banks := T.banks

def Thread.image (th : Thread) : ThreadImage where
  pc := th.pc
  widx := th.widx
  depth := th.depth
  preds := th.preds
  fp := th.fp
  srstep := th.srstep
  mark := th.mark
  idem := th.ckpt.isSome
  wait := th.wait
  streams := th.streams

/-- The marks of an allocation's lines. -/
def Store.marks (x : Store) (alloc : Nat) : List LineMark :=
  (List.range (alloc / 128)).map fun i => if x.claimed i then .claimed else if x.full i then .full else .empty

/-- The threads that hold checkpoints. -/
def Team.checkpoints (T : Team) : List (Nat × Checkpoint) :=
  (List.range T.threads.length).filterMap fun t => ((T.threads[t]?).bind (·.ckpt)).map fun c => (t, c)

/-! ### Sizes and bytes (R337) -/

/-- Bytes of a bitmap of an allocation's lines, rounded up to 128 bytes.
(DESIGN CHOICE, log 193) -/
def bitmapBytes (alloc : Nat) : Nat := ((alloc / 128 + 7) / 8 + 127) / 128 * 128

/-- Bytes of a section of a team's image. -/
def sectionSize (r : LaunchRec) (T : Team) (kind : Nat) : Nat :=
  match kind with
  | 1 => 4096 + r.groups * 136
  | 2 => r.threads * 256
  | 3 => 4 * ((List.range r.threads).map r.budgetOf).sum
  | 4 => r.scratchAlloc + bitmapBytes r.scratchAlloc
  | 5 => r.tileAlloc + bitmapBytes r.tileAlloc
  | 6 => 256 * 256 + 16 * T.fences.length
  | _ => T.checkpoints.length * (128 + r.stack)

/-- The first n bytes, with zeros after the end. -/
def fitBytes (n : Nat) (l : List Byte) : List Byte := l.take n ++ List.replicate (n - l.length) 0

/-- The registers v0..v(B-1) of every thread, in thread order. -/
def registerBytes (r : LaunchRec) (T : Team) : List Byte :=
  (List.range T.threads.length).flatMap fun t =>
    match T.threads[t]? with
    | some th => (List.range (r.budgetOf t)).flatMap fun i => leBytes 4 (sget 0 th.regs i).toNat
    | none => []

/-- The bytes of a section: registers and allocations in order, and the rest in a layout that is free. -/
def sectionBytes (L : Launch) (T : Team) (kind : Nat) : List Byte :=
  let r := L.rcd
  let store (x : Store) (alloc : Nat) : List Byte :=
    x.bytes.read 0 alloc ++ fitBytes (bitmapBytes alloc) (Config.lineLayout (x.marks alloc))
  match kind with
  | 1 => fitBytes (sectionSize r T 1) (Config.teamLayout (teamImage L T))
  | 2 => fitBytes (sectionSize r T 2) (Config.threadLayout (T.threads.map Thread.image))
  | 3 => registerBytes r T
  | 4 => store T.scratch r.scratchAlloc
  | 5 => store T.tile r.tileAlloc
  | 6 => fitBytes (sectionSize r T 6) (Config.commandLayout T.cmds T.fences)
  | _ => fitBytes (sectionSize r T 7) (Config.checkpointLayout T.checkpoints)

/-! ### The image in device memory (R336, R337) -/

/-- Replaces the bytes from an address on. -/
def Memory.rewrite (m : Memory) (a : Nat) (bs : List Byte) : Memory :=
  ((List.range bs.length).zip bs).foldl (fun m p => if p.2 = 0 then m else m.setByte (a + p.1) p.2) (m.clear a bs.length)

/-- Bytes that the firmware sets aside for an image, which hold the largest. -/
def imageRoom : Nat := 0x2000000

/-- Places for images on a die, between DPA offset 0x800000000 and the tables and rings of the firmware. -/
def imagesPerDie : Nat := 2016

/-- Where the firmware may put image number k. -/
def imageAddr (k : Nat) : Nat := k / imagesPerDie * 2 ^ 37 + 0x800000000 + imageRoom * (k % imagesPerDie)

/-- The place of image number k meets one of these ranges. -/
def imageMeets (rs : List Range) (k : Nat) : Bool := rs.any fun r => r.meets ⟨none, imageAddr k, imageRoom⟩

/-- The first n numbers from k on that are not used and whose place no range meets; `fuel` bounds the search. -/
def freeFrom (used : List Nat) (rs : List Range) : Nat → Nat → Nat → List Nat
  | 0, _, _ => []
  | _ + 1, _, 0 => []
  | fuel + 1, k, n + 1 =>
    if used.contains k || imageMeets rs k then freeFrom used rs fuel (k + 1) (n + 1)
    else k :: freeFrom used rs fuel (k + 1) n

/-- The first n places that no saved team's image takes and that no context maps (R337); fewer where so many are not
left. -/
def State.freeImages (s : State) (n : Nat) : List Nat :=
  freeFrom (s.teams.filterMap (·.image)) s.mappedRanges (Config.dies * imagesPerDie) 0 n

/-- Step 5 of R336: a saved team's image is written to device memory, where no context maps it; of a discarded team the
team section and the checkpoints are kept (R340). No step reads it there, since no rule lets anything else change it.
(DESIGN CHOICE, log 169) -/
def State.storeImage (s : State) (L : Launch) (T : Team) : State :=
  match s.freeImages 1 with
  | [] => s
  | k :: _ =>
    let bs := (if T.reduced then [1, 7] else [1, 2, 3, 4, 5, 6, 7]).flatMap (sectionBytes L T)
    { s with
      mem := s.mem.rewrite (imageAddr k) bs
      teams := s.teams.map fun U => if U.key = T.key then { U with image := some k } else U }

/-- Images whose places have become mapped are written again elsewhere (R337). -/
def State.moveImages (s : State) : State :=
  (s.teams.filter fun T => T.image.any (imageMeets s.mappedRanges)).foldl (fun s T =>
    match s.launch? T.key.launch with
    | some L => s.storeImage L T
    | none => s) s

end Sys2Proof.Machine
end

