-- ==== Sys2Proof/Machine/Contexts.lean ====
section
/-! DEFINITION. Contexts (R382, R234, R293), memory accesses of the host (R379, R396) and changes of mappings (R397, R236,
R237). -/

namespace Sys2Proof.Machine

/-! ### Statuses (Table 25.3) -/

def stDone : Nat := 0
def stHalted : Nat := 1
def stInvalid : Nat := 2
def stDenied : Nat := 3
def stCapacity : Nat := 4
def stNoContext : Nat := 5
def stFault : Nat := 6
def stBadSignature : Nat := 7

/-! ### CONTEXT -/

/-- A context as the host's requests find it: one whose destruction has been accepted is gone for them, though what used
it is still being waited for (R237, R382).
(DEDUCED, log 160) -/
def State.hostContext? (s : State) (n : Nat) : Option Context :=
  if s.service.remaps.any (fun x => x.whole && x.ctx == n) then none else s.context? n

/-- The requests that name a context in byte 8 which must exist (Table 25.7). -/
def namesContext (code sub : Nat) : Bool :=
  match code with
  | 2 => decide (1 ≤ sub ∧ sub ≤ 3)
  | 3 | 4 => true
  | 5 => decide (sub ≤ 2)
  | 6 => sub == 0
  | _ => false

/-- A message that cannot be read is answered in its turn: NO_CONTEXT where it names a context that does not exist, else
INVALID, and a START's answer gives the number 0 (R376, R377, R381). -/
def State.answerUnread (s : State) (q : Rq) (code : Nat) (p : List Byte) : State :=
  let ctx := field p 8 1
  let monitors := (code == 3 || code == 4) && ctx == 0
  let missing := decide (9 ≤ p.length) && (s.hostContext? ctx).isNone && !monitors
  s.respond q code (if namesContext code (field p 4 2) && missing then stNoContext else stInvalid)
    (if code = 6 ∧ field p 4 2 = 0 then leBytes 4 0 else [])

def State.modContext (s : State) (n : Nat) (f : Context → Context) : State :=
  { s with contexts := s.contexts.map fun c => if c.num = n then f c else c }

/-- A ring as R393 allows it.
(DEDUCED, log 104) -/
def ringOk (ring : DWord) (j : Nat) : Bool :=
  ring == 0 || (ring.toNat % 4096 == 0 && decide (ring.toNat < 2 ^ 56) && decide (6 ≤ j) && decide (j ≤ 20))

/-- CONTEXT_CREATE: a new number in 1..255, a root table aligned to 1 MiB in populated memory and a legal ring (R231, R382,
R393).
(DEDUCED, log 41) -/
def execContextCreate (q : Rq) (ctx : Nat) (mask : Word) (root : Nat) (ring : DWord) (j : Nat) (s : State) :
    Host.Outcome State Fault Refusal :=
  if 1 ≤ ctx ∧ ctx ≤ 255 ∧ (s.context? ctx).isNone ∧ root % 2 ^ 20 = 0 ∧ dpaPopulated root ∧ ringOk ring j then
    let c : Context :=
      { num := ctx, root := root, peers := [], methods := [], code := [], mask := mask
        ring := if ring = 0 then none else some (ring, j) }
    .next (({ s with contexts := s.contexts ++ [c] }).moveImages.respond q 2 stDone [])
  else .next (s.respond q 2 stInvalid [])

/-- What an answer with a status alone is. -/
def refuse (s : State) (q : Rq) (code status : Nat) : Host.Outcome State Fault Refusal := .next (s.respond q code status [])

/-- CONTEXT_DESTROY: refused while a launch of the context is resident or waiting; its pages are unmapped by R237 and then
the context is gone (R382). -/
def execContextDestroy (q : Rq) (ctx : Nat) (s : State) : Host.Outcome State Fault Refusal :=
  match s.hostContext? ctx with
  | none => refuse s q 2 stNoContext
  | some _ =>
    if s.launches.any fun L => L.ctx == ctx then refuse s q 2 stInvalid
    else
      .next (s.beginRemap { num := 0, rq := q, code := 2, ctx := ctx, old := [], whole := true, leaves := [], zero := false, zeroing := false })

/-- An entry of a method table that is well formed (Table 15.5); an entry that is not valid need only hold zero where the
table says zero.
(DEDUCED, log 106) -/
def methodEntryOk (m : MethodEntry) : Bool :=
  decide (m.flags.toNat ≤ 1) && m.reserved.all (· == 0) &&
  (!m.flags.getLsbD 0 ||
    (m.code.toNat % 8 == 0 && decide (m.code.toNat < 2 ^ 56) && m.length % 8 == 0 && decide (16 ≤ m.length) && decide (m.length ≤ 4096)))

/-- The pieces of a method's code; none if a byte cannot be fetched. -/
def State.methodPieces (s : State) (ctx : Nat) (m : MethodEntry) : Option (List HomePiece) :=
  let r := s.homePieces ctx m.code.toNat m.length .fetch
  match r.2 with
  | none => some r.1
  | some _ => none

/-- The first entry of a table that is refused: malformed, or its code cannot be fetched. -/
def State.badMethod (s : State) (ctx : Nat) (table : List MethodEntry) : Option Nat :=
  (List.range table.length).find? fun i =>
    match table[i]? with
    | none => false
    | some m => !methodEntryOk m || (m.flags.getLsbD 0 && (s.methodPieces ctx m).isNone)

/-- CONTEXT_METHODS: installs or replaces the table once the code of its valid entries is read; a bad entry is named in
the answer (R293). -/
def execContextMethods (q : Rq) (ctx : Nat) (table : List MethodEntry) (s : State) : Host.Outcome State Fault Refusal :=
  if (s.hostContext? ctx).isNone then refuse s q 2 stNoContext
  else if table.length ≠ 32 then refuse s q 2 stInvalid
  else if !s.feature 0 then refuse s q 2 stDenied
  else match s.badMethod ctx table with
    | some i => .next (s.respond q 2 stInvalid (leBytes 1 i))
    | none =>
      let ps := (validMethods table).flatMap fun x => (s.methodPieces ctx x.2).getD []
      .next (s.beginRead q 2 ctx ps (some (ctx, table)))

/-- A slot holds a device number or 0xFFFF for no member (R234, R353). -/
def slotOk (x : BitVec 16) : Bool := decide (x.toNat < 4096) || x == 0xFFFF

/-- CONTEXT_PEERS: writes up to 64 peer sets of a context from a first one on (R234). -/
def execContextPeers (q : Rq) (ctx first : Nat) (sets : List (List (BitVec 16))) (s : State) :
    Host.Outcome State Fault Refusal :=
  if (s.hostContext? ctx).isNone then refuse s q 2 stNoContext
  else if 1 ≤ sets.length ∧ sets.length ≤ 64 ∧ first + sets.length ≤ 256 ∧ sets.all fun l => l.length == 64 && l.all slotOk then
    .next ((s.modContext ctx fun c => { c with peers :=
      ((List.range sets.length).zip sets).foldl (fun ps x => aset ps (first + x.1) x.2) c.peers }).respond q 2 stDone [])
  else refuse s q 2 stInvalid

/-! ### MEMWRITE and MEMREAD (R379, R396) -/

/-- The 80 bytes of a monitor. -/
def Mon.bytes (m : Mon) : List Byte :=
  leBytes 8 m.count.toNat ++ leBytes 4 m.low.toNat ++ leBytes 4 m.high.toNat ++ m.buckets.flatMap fun b => leBytes 4 b.toNat

/-- A byte of the monitor block: monitor i at 80 × i, the corrected-error counts at 0xF100 (R396); the others are zero.
(DEDUCED, log 107) -/
def Service.blockByte (v : Service) (a : Nat) : Byte :=
  if a < 80 * 66 then ((((v.monitors[a / 80]?).getD Mon.reset).bytes)[a % 80]?).getD 0
  else if 0xF100 ≤ a ∧ a < 0xF128 then ((v.corrected.flatMap fun x => leBytes 8 x.toNat)[a - 0xF100]?).getD 0
  else 0

/-- MEMWRITE: all bytes at their homes or, on a fault, none; answered when performed (R379). -/
def execMemwrite (q : Rq) (ctx : Nat) (va : DWord) (data : List Byte) (s : State) : Host.Outcome State Fault Refusal :=
  if ctx = 0 then refuse s q 3 stInvalid
  else if (s.hostContext? ctx).isNone then refuse s q 3 stNoContext
  else if (s.homePieces ctx va.toNat data.length .write).2.isSome then refuse s q 3 stFault
  else .next (s.beginWrite q 3 fun n s => (s.writeHomes (.hostWrite n) ctx va.toNat data).1)

/-- MEMREAD: up to 9,000 bytes from their homes, or of the monitor block (R379, R396).
(DEDUCED, log 95) -/
def execMemread (q : Rq) (ctx : Nat) (va : DWord) (len : Nat) (s : State) : Host.Outcome State Fault Refusal :=
  if ctx ≠ 0 ∧ (s.hostContext? ctx).isNone then refuse s q 4 stNoContext
  else if 9000 < len then refuse s q 4 stInvalid
  else if ctx = 0 then
    .next (s.respond q 4 stDone ((List.range len).map fun i => s.service.blockByte (va.toNat + i)))
  else
    let r := s.homePieces ctx va.toNat len .read
    if r.2.isSome then refuse s q 4 stFault else .next (s.beginRead q 4 ctx r.1 none)

/-- CLEAR_MONITORS: every monitor is as after reset (R396).
(DEDUCED, log 108) -/
def execClearMonitors (q : Rq) (s : State) : Host.Outcome State Fault Refusal :=
  .next ((s.modService fun v => { v with monitors := List.replicate 66 Mon.reset }).respond q 3 stDone [])

/-! ### MAP (R397) -/

/-- The pages of a request. -/
def pageList (size count va : Nat) : List Nat := (List.range count).map fun i => va + i * pageBytes size

/-- The address and count of a request are legal (R397).
(DEDUCED, log 109) -/
def rangeOk (size count va : Nat) : Bool :=
  decide (size ≤ 2) && decide (1 ≤ count) && va % pageBytes size == 0 && decide (va + count * pageBytes size ≤ 2 ^ 56)

/-- The leaf entry of the i-th page of a map. -/
def leafOf (size leaf i : Nat) : Nat := leaf + i * pageBytes size

/-- The leaf entries of a map are legal (R397). -/
def leavesOk (size count leaf : Nat) : Bool :=
  entryBit leaf 0 && entryBit leaf 1 && entryReservedOk leaf && entryAddr leaf % pageBytes size == 0 &&
  (List.range count).all fun i => dpaPopulated (entryAddr leaf + i * pageBytes size)

/-- No page of the range meets a mapped page of another size (R397). -/
def State.sizesOk (s : State) (c : Context) (size count va : Nat) : Bool :=
  (pageList size count va).all fun p => !coveredBy s.mem c.root size p && !holdsLeaves s.mem c.root size p

/-- The mapped pages of the range, with their leaves. -/
def State.mappedPages (s : State) (c : Context) (size count va : Nat) : List (Nat × Nat) :=
  (pageList size count va).filterMap fun p => (leafAt s.mem c.root size p).map fun e => (p, e)

/-- The TLBs' entries for a range of a context are gone (R237). -/
def State.dropRange (s : State) (ctx size count va : Nat) : State :=
  s.dropTlb fun x => x.ctx == ctx && decide (x.base < va + count * pageBytes size) && decide (va < x.base + x.size)

/-- Writes the entries of pages. -/
def State.putPages (s : State) (c : Context) (size : Nat) (ps : List (Nat × Nat)) : State :=
  ps.foldl (fun s p => s.putLeaf c.root size p.1 p.2) s

/-- The places of mapped pages. -/
def oldRanges (c : Context) (devno size : Nat) (ps : List (Nat × Nat)) : List Range :=
  ps.flatMap fun p => leafRanges c devno p.2 (pageBytes size)

/-- A message that must wait is put back before those that wait already. -/
def State.holdMessage (s : State) (i : Instr) : Host.Outcome State Fault Refusal :=
  .next { s with inbox := .act i :: s.inbox }

/-- MAP: checked as a whole; old mappings of the pages go by R237, the pages are zeroed if asked, then the new entries
become valid (R236, R397).
(DEDUCED, log 103) -/
def execMap (q : Rq) (ctx : Nat) (zero : Bool) (size count : Nat) (va leaf : DWord) (s : State) :
    Host.Outcome State Fault Refusal :=
  match s.hostContext? ctx with
  | none => refuse s q 5 stNoContext
  | some c =>
    if s.mapping ctx then s.holdMessage (.map q ctx zero size count va leaf)
    else if rangeOk size count va.toNat && leavesOk size count leaf.toNat && s.sizesOk c size count va.toNat then
      let old := s.mappedPages c size count va.toNat
      let s := (s.putPages c size (old.map fun p => (p.1, 0))).dropRange ctx size count va.toNat
      .next (s.beginRemap
        { num := 0, rq := q, code := 5, ctx := ctx, old := oldRanges c s.devno size old, whole := false
          leaves := (List.range count).map fun i =>
            ⟨va.toNat + i * pageBytes size, size, BitVec.ofNat 64 (leafOf size leaf.toNat i)⟩
          zero := zero, zeroing := false }).moveImages
    else refuse s q 5 stInvalid

/-- UNMAP: the entries go at once; the answer waits for everything that used them (R237). -/
def execUnmap (q : Rq) (ctx : Nat) (size count : Nat) (va : DWord) (s : State) : Host.Outcome State Fault Refusal :=
  match s.hostContext? ctx with
  | none => refuse s q 5 stNoContext
  | some c =>
    let old := s.mappedPages c size count va.toNat
    if s.mapping ctx then s.holdMessage (.unmap q ctx size count va)
    else if rangeOk size count va.toNat && old.length == count then
      let s := (s.putPages c size (old.map fun p => (p.1, 0))).dropRange ctx size count va.toNat
      .next (s.beginRemap
        { num := 0, rq := q, code := 5, ctx := ctx, old := oldRanges c s.devno size old, whole := false
          leaves := [], zero := false, zeroing := false })
    else refuse s q 5 stInvalid

/-- An entry with the permissions, bits 5:2, of another (Table 12.6). -/
def withPerms (e leaf : Nat) : Nat := e / 64 * 64 + leaf / 4 % 16 * 4 + e % 4

/-- Some permission of e is missing in the leaf.
(DEDUCED, log 110) -/
def reduces (e leaf : Nat) : Bool := (e / 4 % 16 &&& (15 - leaf / 4 % 16)) != 0

/-- PROTECT: the permissions of mapped pages change; a reduction waits as R237 says (R397). -/
def execProtect (q : Rq) (ctx : Nat) (size count : Nat) (va leaf : DWord) (s : State) : Host.Outcome State Fault Refusal :=
  match s.hostContext? ctx with
  | none => refuse s q 5 stNoContext
  | some c =>
    let old := s.mappedPages c size count va.toNat
    if s.mapping ctx then s.holdMessage (.protect q ctx size count va leaf)
    else if rangeOk size count va.toNat && s.sizesOk c size count va.toNat && old.length == count then
      let s := (s.putPages c size (old.map fun p => (p.1, withPerms p.2 leaf.toNat))).dropRange ctx size count va.toNat
      .next (s.beginRemap
        { num := 0, rq := q, code := 5, ctx := ctx
          old := oldRanges c s.devno size (old.filter fun p => reduces p.2 leaf.toNat), whole := false
          leaves := [], zero := false, zeroing := false })
    else refuse s q 5 stInvalid

end Sys2Proof.Machine
end

