-- ==== Sys2Proof/Machine/Placement.lean ====
section
/-! DEFINITION. Admission and placement (R16, R17, R39-R45), pre-emption, saving and restoring of teams (R336-R341). -/

namespace Sys2Proof.Machine

/-! ### Where a team fits (R16, R17, R41-R43) -/

/-- What a resident team occupies. -/
structure Resident where
  rcd : LaunchRec
  place : Place
  deriving DecidableEq, Repr, Inhabited

/-- What is taken of a slice: groups, threads and register bytes. -/
structure SliceLoad where
  groups : Nat
  threads : Nat
  bytes : Nat
  deriving DecidableEq, Repr, Inhabited

/-- Register bytes of a group (R16). -/
def LaunchRec.groupBytes (r : LaunchRec) (g : Nat) : Nat := r.width * r.budget (r.roleOf g) * 4

def SliceLoad.add (x : SliceLoad) (r : LaunchRec) (g : Nat) : SliceLoad :=
  ⟨x.groups + 1, x.threads + r.width, x.bytes + r.groupBytes g⟩

/-- The slice can hold a further group (R16). -/
def SliceLoad.takes (x : SliceLoad) (r : LaunchRec) (g : Nat) : Bool :=
  decide (x.groups + 1 ≤ Config.groupsPerSlice) && decide (x.threads + r.width ≤ Config.threadsPerSlice) &&
  decide (x.bytes + r.groupBytes g ≤ Config.regBytesPerSlice)

/-- The slices of a core with the groups of its residents. -/
def sliceLoads (occ : List Resident) (core : Nat) : List SliceLoad :=
  (occ.filter fun o => o.place.core == core).foldl (fun ls o =>
    (List.range o.place.slices.length).foldl (fun ls g =>
      ls.modify ((o.place.slices[g]?).getD 0) fun x => x.add o.rcd g) ls) (List.replicate 4 ⟨0, 0, 0⟩)

/-- The slice for a group: the one with the most free register bytes that can hold it, the lower of equals (R41). -/
def pickSlice (ls : List SliceLoad) (r : LaunchRec) (g : Nat) : Option Nat :=
  (List.range 4).foldl (fun best i =>
    match ls[i]? with
    | none => best
    | some x =>
      if !x.takes r g then best
      else match best with
        | none => some i
        | some j => if x.bytes < ((ls[j]?).getD ⟨0, 0, 0⟩).bytes then some i else some j) none

/-- Assigns the groups from g on, n of them. -/
def assignGroups (r : LaunchRec) : Nat → Nat → List SliceLoad → Option (List Nat)
  | 0, _, _ => some []
  | n + 1, g, ls =>
    match pickSlice ls r g with
    | none => none
    | some i => (assignGroups r n (g + 1) (ls.modify i fun x => x.add r g)).map (i :: ·)

/-- Places a team on a core (R41). Whether a team's 4 KiB units must lie together is not stated (R17): only their number
counts, so that no fragmentation keeps a team from a core.
(DESIGN CHOICE, log 86; DESIGN CHOICE, log 155) -/
def placeOn (occ : List Resident) (r : LaunchRec) (core : Nat) : Option Place :=
  let mine := occ.filter fun o => o.place.core == core
  let scratch := (mine.map fun o => o.rcd.scratchAlloc).sum
  let tile := (mine.map fun o => o.rcd.tileAlloc).sum
  if Config.scratchPerCore < scratch + r.scratchAlloc ∨ Config.tilePerCore < tile + r.tileAlloc then none
  else match (List.range Config.teamSlots).find? fun n => mine.all fun o => o.place.slot != n with
    | none => none
    | some slot => (assignGroups r r.groups 0 (sliceLoads occ core)).map fun l => ⟨core, slot, l⟩

/-- Gives up to n ranks to the cores of a list, in order; a core that cannot take a rank is passed over (R42).
(DEDUCED, log 90) -/
def placeRanks (occ : List Resident) (r : LaunchRec) : Nat → List Nat → List Place
  | 0, _ => []
  | _, [] => []
  | n + 1, c :: cs =>
    match placeOn occ r c with
    | some p => p :: placeRanks occ r n cs
    | none => placeRanks occ r (n + 1) cs

/-- Places a cluster on the first die that takes all its ranks (R42). -/
def placeCluster (occ : List Resident) (r : LaunchRec) : Option (List Place) :=
  (List.range Config.dies).findSome? fun d =>
    let ps := placeRanks occ r r.cluster ((List.range Config.coresPerDie).map (d * Config.coresPerDie + ·))
    if ps.length = r.cluster then some ps else none

/-- Places n clusters together or none (R43). -/
def placeClusters (r : LaunchRec) : Nat → List Resident → Option (List Place)
  | 0, _ => some []
  | n + 1, occ =>
    match placeCluster occ r with
    | none => none
    | some ps => (placeClusters r n (occ ++ ps.map fun p => ⟨r, p⟩)).map (ps ++ ·)

/-- The launch could be placed on an empty device (R40). -/
def fitsDevice (r : LaunchRec) : Bool :=
  (placeOn [] r 0).isSome &&
  (!r.coResident || (decide (r.teams ≤ Config.cores * Config.teamSlots) && (placeClusters r (r.teams / r.cluster) []).isSome))

def State.residents (s : State) : List Resident :=
  s.teams.filterMap fun T =>
    match T.place, s.launch? T.key.launch with
    | some p, some L => some ⟨L.rcd, p⟩
    | _, _ => none

/-! ### The order of placement (R44, R45) -/

/-- Teams of a launch that are saved and wait to be placed again. -/
def State.saved (s : State) (L : Launch) : List Team :=
  s.teams.filter fun T => T.key.launch == L.num && T.place.isNone

/-- Teams of the launch that have never been placed. -/
def Launch.fresh (L : Launch) : Bool := decide (L.nextTeam < L.rcd.teams) && !L.ended

/-- The launch has a team that waits for places.
(DEDUCED, log 87) -/
def State.waitsPlace (s : State) (L : Launch) : Bool := !L.ended && (L.fresh || !(s.saved L).isEmpty)

/-- An earlier launch of the same stream has a team that was never placed (R44). -/
def State.behind (s : State) (L : Launch) : Bool :=
  s.launches.any fun M => M.stream == L.stream && decide (M.order < L.order) && M.fresh

/-- L stands before M: higher priority, then launches with saved teams, then earlier arrival (R44, R45). -/
def State.aheadOf (s : State) (L M : Launch) : Bool :=
  if L.rcd.priority ≠ M.rcd.priority then decide (M.rcd.priority < L.rcd.priority)
  else
    let a := (s.saved L).isEmpty
    let b := (s.saved M).isEmpty
    if a ≠ b then b else decide (L.order < M.order)

/-- The launch whose teams are placed next: no other that waits stands before it. One that its own stream holds back is
passed over, so that it holds back no launch of another stream (R44).
(DEDUCED, log 156) -/
def State.headLaunch (s : State) : Option Launch :=
  (s.launches.filter fun L => s.waitsPlace L && (!(s.saved L).isEmpty || !s.behind L)).foldl (fun h L =>
    match h with
    | none => some L
    | some M => if s.aheadOf L M then some L else some M) none

/-- Clusters that are placed in one step: all of a co-resident launch, else one. -/
def unitSize (r : LaunchRec) : Nat := if r.coResident then r.teams / r.cluster else 1

/-! ### Starting teams (R39, R379) -/

/-- A team at its start (R39), halted if a trap has halted its launch (R46).
(DEDUCED, log 154) -/
def startTeam (L : Launch) (n : Nat) (p : Place) (placed : Nat) : Team where
  key := ⟨L.num, n⟩
  place := some p
  threads := List.replicate L.rcd.threads (Thread.start L.rcd.code)
  scratch := ⟨Memory.write [] 0 L.rcd.params, [], []⟩
  tile := Store.fresh
  bars := List.replicate 16 Barrier.start
  queues := [[], [], [], []]
  mcast := 0
  cmds := []
  fences := []
  accepted := 0
  scrinfo := 0
  scrthread := 0
  tileinfo := 0
  tilethread := 0
  halted := L.halted
  placedAt := placed
  unready := true
  stopping := false
  reduced := false
  discarded := false
  relUpTo := none
  image := none
  records := []
  traps := 0
  banks := List.replicate L.rcd.groups (List.replicate 17 0)

/-- Counts a placement and notes the core among those that have held the launch. -/
def State.notePlace (s : State) (launch : Nat) (p : Place) : State :=
  ({ s with service := { s.service with placements := s.service.placements + 1 } }).modLaunch launch fun L =>
    { L with held := if L.held.contains p.core then L.held else L.held ++ [p.core] }

/-- Places the next teams of a launch for the first time. -/
def State.startTeams (s : State) (L : Launch) : List Place → State
  | [] => s
  | p :: ps =>
    match s.launch? L.num with
    | none => s
    | some M =>
      let s := s.refreshPlace p
      let s := { s with teams := s.teams ++ [startTeam M M.nextTeam p s.service.placements] }
      ((s.notePlace L.num p).modLaunch L.num fun M => { M with nextTeam := M.nextTeam + 1 }).startTeams L ps

/-- The acquire on every die before the first team of a launch is placed (R379). -/
def State.acquireAll (s : State) : State := (List.range Config.dies).foldl (fun s d => s.acquireDie d .fab 0xFF) s

/-- PLACE_TEAMS: the next unit of the launch at the head of the order is placed where it fits (R41-R44). -/
def execPlaceTeams (s : State) : Host.Outcome State Fault Refusal :=
  match s.headLaunch with
  | none => .next s
  | some L =>
    if !(s.saved L).isEmpty then .next s
    else match placeClusters L.rcd (unitSize L.rcd) s.residents with
      | none => .next s
      | some ps => .next ((if L.nextTeam = 0 then s.acquireAll else s).startTeams L ps)

/-! ### Pre-emption (R45, R336, R340) -/

/-- Teams that are pre-empted and resumed together: a cluster, or a co-resident launch. -/
def sameUnit (L : Launch) (k q : TeamKey) : Bool :=
  k.launch == q.launch && (L.rcd.coResident || k.n / L.rcd.cluster == q.n / L.rcd.cluster)

/-- The resident teams of a team's unit. -/
def State.unitOf (s : State) (L : Launch) (k : TeamKey) : List Team :=
  s.teams.filter fun T => sameUnit L k T.key && T.place.isSome

/-- What would be free once the teams that are being stopped have gone. -/
def State.soonResidents (s : State) : List Resident :=
  ({ s with teams := s.teams.filter fun T => !T.stopping }).residents

/-- Inserts a team by its index. -/
def insertKey (x : TeamKey) : List TeamKey → List TeamKey
  | [] => [x]
  | y :: ys => if x.n ≤ y.n then x :: y :: ys else y :: insertKey x ys

/-- Places for the saved teams of a unit: a cluster's ranks on one die; single teams where they fit. A unit of which teams
have retired takes places for those that remain. -/
def placeSaved (occ : List Resident) (r : LaunchRec) : List (List TeamKey) → Option (List (TeamKey × Place))
  | [] => some []
  | ks :: rest =>
    let found := (List.range Config.dies).findSome? fun d =>
      let ps := placeRanks occ r ks.length ((List.range Config.coresPerDie).map (d * Config.coresPerDie + ·))
      if ps.length = ks.length then some ps else none
    match found with
    | none => none
    | some ps => (placeSaved (occ ++ ps.map fun p => ⟨r, p⟩) r rest).map (ks.zip ps ++ ·)

/-- The saved teams of a team's unit, cluster by cluster. -/
def State.savedUnit (s : State) (L : Launch) (k : TeamKey) : List (List TeamKey) :=
  let mine := (((s.saved L).filter fun U => sameUnit L k U.key).map (·.key)).foldl (fun l k => insertKey k l) []
  ((mine.map fun k => k.n / L.rcd.cluster).eraseDups).map fun q => mine.filter fun k => k.n / L.rcd.cluster == q

/-- What the head of the order needs next would fit beside these: the saved teams of a unit, or else its next unit
(R45). -/
def State.headFits (s : State) (L : Launch) (occ : List Resident) : Bool :=
  if (s.saved L).isEmpty then (placeClusters L.rcd (unitSize L.rcd) occ).isSome
  else (s.saved L).any fun U => (placeSaved occ L.rcd (s.savedUnit L U.key)).isSome

/-- A resident team that may be a victim, with its priority and when it was placed.
(DEDUCED, log 88) -/
def State.victims (s : State) (p : Nat) : List (Team × Nat) :=
  s.teams.filterMap fun T =>
    match s.launch? T.key.launch with
    | some L => if T.place.isSome && !T.stopping && decide (L.rcd.priority < p) then some (T, L.rcd.priority) else none
    | none => none

/-- The next victim for priority p: lowest priority first, then the latest placed (R45). -/
def State.nextVictim (s : State) (p : Nat) : Option Team :=
  ((s.victims p).foldl (fun (best : Option (Team × Nat)) x =>
    match best with
    | none => some x
    | some y =>
      if x.2 < y.2 ∨ (x.2 = y.2 ∧ y.1.placedAt < x.1.placedAt) then some x else some y) none).map (·.1)

/-- Pre-empting the team is called for: the head of the order does not fit, nor would it when those already being stopped
have gone, and the team belongs to the next victim's unit (R45). -/
def State.mayPreempt (s : State) (k : TeamKey) : Bool :=
  match s.headLaunch with
  | none => false
  | some H =>
    !s.headFits H s.soonResidents &&
    match s.nextVictim H.rcd.priority with
    | none => false
    | some V =>
      match s.launch? V.key.launch with
      | some L => sameUnit L V.key k
      | none => false

/-- A slice runs a bundle of the team. -/
def State.hasBundle (s : State) (k : TeamKey) : Bool :=
  s.cores.any fun c => c.slices.any fun x => (x.bundle.map fun b => b.team == k).getD false

/-- Writes every outstanding counted result (R87, R336). -/
def Thread.drainPending (th : Thread) : Thread :=
  { th.pending.foldl (fun th p => th.results p) th with pending := [] }

/-- The team is discarded instead of saved (R340).
(DEDUCED, log 89) -/
def Team.discards (L : Launch) (T : Team) : Bool :=
  L.rcd.idem && !T.halted && T.threads.all fun th => th.exited || th.ckpt.isSome

/-- Withdraws the lanes that the collector holds (R336). -/
def Team.withdraw (T : Team) : Team :=
  { T with cmds := T.cmds.map fun c => { c with lanes := c.lanes.map fun x =>
      match x.st with
      | .held _ => { x with st := .idle }
      | _ => x } }

/-- Cancels every command of a team that has not ended (R327, R340). -/
def State.cancelAll (s : State) (k : TeamKey) : State :=
  (((s.team? k).map fun T => T.cmds.map (·.tag)).getD []).foldl (fun s t => s.cancelCmd k t) s

/-- A command still waits for something it has issued (R336). -/
def Cmd.unsettled (c : Cmd) : Bool := c.live && (c.lanes.any Lane.flying || c.resWait)

/-- The image of a team without its places; a discarded one keeps its identity, trap state, banks and checkpoints
(R337, R340). -/
def Team.unplace (discard : Bool) (T : Team) : Team :=
  if discard then
    { T with
      place := none, stopping := false, reduced := true, discarded := true, relUpTo := none
      scratch := Store.fresh, tile := Store.fresh, queues := [[], [], [], []], mcast := 0, cmds := [], fences := []
      bars := List.replicate 16 Barrier.start, scrinfo := 0, scrthread := 0, tileinfo := 0, tilethread := 0 }
  else { T with place := none, stopping := false, relUpTo := none }

/-- Withdraws a team's arrivals at the open phase of a barrier (R341). -/
def Barrier.withdraw (b : Barrier) (n : Nat) : Barrier := { b with arrived := b.arrived.filter fun p => p.1 != n }

/-- Withdraws a discarded team's arrivals at the shared barriers (R341). -/
def State.withdrawArrivals (s : State) (k : TeamKey) : State :=
  s.modLaunch k.launch fun L => { L with
    clusterBars := L.clusterBars.map fun p => if p.1 = k.n / L.rcd.cluster then (p.1, p.2.map fun b => b.withdraw k.n) else p
    gridBars := L.gridBars.map fun b => b.withdraw k.n }

/-- Errors in the registers, scratch and tile store of a team, which a discarded team leaves behind (R341, R344). -/
def State.dropTeamErrors (s : State) (k : TeamKey) : State :=
  if s.errors.isEmpty then s
  else { s with errors := s.errors.filter fun e =>
      match e with
      | .scratch q _ | .tile q _ | .reg q _ _ => q != k
      | _ => true }

/-- Step 5 of R336 for one team: its image is written, and its places are free. -/
def State.saveTeam (s : State) (L : Launch) (T : Team) : State :=
  let d := T.discards L
  let s := (s.forgetTeam T.key).modTeam T.key (Team.unplace d)
  let s := if d then (s.withdrawArrivals T.key).dropTeamErrors T.key else s
  match s.team? T.key, s.launch? L.num with
  | some T, some L => s.storeImage L T
  | _, _ => s

/-- Steps 2 to 5 of R336 and R340 for the teams of a unit, each step for all before the next; a step that must wait ends
the attempt. -/
def State.goOnPreempt (s : State) (L : Launch) (ks : List TeamKey) : State :=
  if ks.any s.hasBundle then s
  else
    let s := ks.foldl (fun s k =>
      let s := s.modTeam k fun T => { T with threads := T.threads.map Thread.drainPending }
      if ((s.team? k).map (Team.discards L)).getD false then s.cancelAll k else s) s
    if s.cores.any fun c => (c.mat.map fun m => ks.contains m.team).getD false then s
    else
      let s := ks.foldl (fun s k =>
        if ((s.team? k).map (Team.discards L)).getD false then s else s.modTeam k Team.withdraw) s
      let ts := ks.filterMap s.team?
      if ts.any fun T => T.cmds.any fun c => c.unsettled || (T.discards L && c.live) then s
      else
        let s := ts.foldl (fun s T =>
          if T.relUpTo.isSome then s
          else match s.doRelease T.core L.num .fab 0xFF with
            | (s, n) => s.modTeam T.key fun T => { T with relUpTo := n }) s
        let ts := ks.filterMap s.team?
        if (ts.all fun T => (T.relUpTo.map s.fabric.settled).getD false) && (s.freeImages ts.length).length == ts.length then
          ts.foldl (fun s T => s.saveTeam L T) s
        else s

/-- PREEMPT: a team that R45 calls for is stopped with its unit (step 1 of R336); one that is being stopped goes as far as
it can through the further steps.
(DEDUCED, log 91) -/
def execPreempt (team : TeamKey) (s : State) : Host.Outcome State Fault Refusal :=
  match s.team? team, s.launch? team.launch with
  | some T, some L =>
    let ks := (s.unitOf L team).map (·.key)
    if T.stopping then .next (s.goOnPreempt L ks)
    else if T.place.isSome && s.mayPreempt team then
      .next ((ks.foldl (fun s k => s.modTeam k fun T => { T with stopping := true }) s).goOnPreempt L ks)
    else .next s
  | _, _ => .next s

/-! ### Resumption (R338, R341) -/

/-- A thread of a discarded team at its restart (R180, R341). -/
def Thread.restart (th : Thread) : Thread :=
  match th.ckpt with
  | some c =>
    { Thread.start c.entry with
      depth := c.stack.length, preds := c.preds, regs := writeRegs [] c.regs, fp := c.fp, srstep := c.srstep, ckpt := some c }
  | none => { Thread.start th.pc with exited := th.exited }

/-- The return-stack entries of the restarted threads (R341). -/
def restartStacks (r : LaunchRec) (m : Memory) (ths : List Thread) : Memory :=
  (List.range ths.length).foldl (fun m t =>
    match (ths[t]?).bind (·.ckpt) with
    | some c => m.write (r.stackBase t) (c.stack.flatMap fun x => leBytes 8 x.toNat)
    | none => m) m

/-- A team as it is placed again: a discarded one as at team start with its threads at their checkpoints; any other as it
was saved, with waits that ended meanwhile over unless it is halted (R338, R341). -/
def Team.placeAgain (L : Launch) (p : Place) (placed : Nat) (T : Team) : Team :=
  let T := { T with place := some p, placedAt := placed, unready := true, image := none }
  if T.reduced then
    { T with
      reduced := false
      scratch := ⟨restartStacks L.rcd (Memory.write [] 0 L.rcd.params) T.threads, [], []⟩
      threads := T.threads.map Thread.restart }
  else
    { T with threads := T.threads.map fun th =>
        if th.woken && !T.halted then { th with age := 0, wait := none, woken := false } else { th with age := 0 } }

/-- Places one saved team again: the acquire on its new die comes before its commands, which restart: their lanes enter
the collector, and answers that came meanwhile are applied (R338). -/
def State.restoreOne (s : State) (L : Launch) (x : TeamKey × Place) : State :=
  let s := s.refreshPlace x.2
  let s := (s.modTeam x.1 (Team.placeAgain L x.2 s.service.placements)).notePlace L.num x.2
  ((s.acquireDie (dieOf x.2.core) .fab 0xFF).admitLanes x.1)

/-- RESTORE_TEAM: a saved team is placed again with its unit when its launch stands at the head of the order (R45,
R338). -/
def execRestoreTeam (team : TeamKey) (s : State) : Host.Outcome State Fault Refusal :=
  match s.team? team, s.launch? team.launch with
  | some T, some L =>
    if T.place.isSome || (s.headLaunch.map (·.num)) != some L.num then .next s
    else
      match placeSaved s.residents L.rcd (s.savedUnit L team) with
      | none => .next s
      | some ps => .next (ps.foldl (fun s x => s.restoreOne L x) s)
  | _, _ => .next s

end Sys2Proof.Machine
end

