-- ==== Sys2Proof/Machine/Launches.lean ====
section
/-! DEFINITION. Launches as the host starts, ends and resumes them (R35-R40, R327, R381, R389, R398). -/

namespace Sys2Proof.Machine

/-! ### The launch record (Table 25.5) -/

/-- A launch record as its bytes give it; `params` is the block that follows it. -/
def readRecord (b params : List Byte) : LaunchRec :=
  let flags := field b 23 1
  { code := BitVec.ofNat 64 (field b 0 8)
    width := field b 8 1
    roles := field b 9 1
    groups0 := field b 10 1
    groups1 := field b 11 1
    budget0 := field b 12 2
    budget1 := field b 14 2
    x := field b 16 2
    y := field b 18 2
    z := field b 20 2
    cluster := field b 22 1
    scratch := field b 24 4
    tile := field b 28 4
    stack := field b 32 2
    params := params.take (field b 34 2)
    slots := (List.range 8).map fun i => BitVec.ofNat 64 (field b (64 + 8 * i) 8)
    depths := (List.range 4).map fun i => field b (36 + i) 1
    bars := BitVec.ofNat 64 (field b 40 8)
    coResident := flags % 2 == 1
    priority := flags / 2 % 4
    idem := flags / 8 % 2 == 1
    profile := BitVec.ofNat 32 (field b 48 4)
    haltLaunch := flags / 16 % 2 == 1
    key := BitVec.ofNat 64 (field b 56 8) }

/-- A register budget (Table 02.2). -/
def roleBudgetOk (n : Nat) : Bool := decide (8 ≤ n) && decide (n ≤ 512) && n % 8 == 0

/-- Shape, budgets and dimensions lie in their ranges (Table 02.2). -/
def LaunchRec.shapeOk (r : LaunchRec) : Bool :=
  decide (r.code.toNat < 2 ^ 56) && r.code.toNat % 8 == 0 && (r.width == 32 || r.width == 64 || r.width == 128) &&
  (r.roles == 1 || r.roles == 2) && decide (1 ≤ r.groups0) && decide (r.groups0 + r.groups1 ≤ 32) &&
  (r.roles == 2 || r.groups1 == 0) && roleBudgetOk r.budget0 && (if r.roles = 2 then roleBudgetOk r.budget1 else r.budget1 == 0) &&
  decide (1 ≤ r.x) && decide (1 ≤ r.y) && decide (1 ≤ r.z) && decide (r.teams ≤ 16777216) &&
  decide (1 ≤ r.cluster) && decide (r.cluster ≤ 8) && r.teams % r.cluster == 0

/-- Memory, barriers, queues and slots lie in their ranges (Table 02.2, R121); a grid barrier has a membership only in a
co-resident launch (R36). -/
def LaunchRec.partsOk (r : LaunchRec) : Bool :=
  decide (r.scratch ≤ 1572864) && decide (r.tile ≤ 786432) && decide (r.stack ≤ 2048) && r.stack % 8 == 0 &&
  r.depths.all (fun n => decide (n ≤ 16)) && decide (r.bars.toNat < 2 ^ 44) &&
  ((List.range 22).all fun i => r.bars.toNat / 4 ^ i % 4 != 3) &&
  (r.coResident || r.bars.toNat / 2 ^ 40 % 16 == 0) && r.slots.all fun x => slotValid x.toNat

/-- The profiling mask's reserved bits are zero and its event code is at most 23 (R389). -/
def profileFits (p : Nat) : Bool := decide (p < 2 ^ 24) && p / 2 ^ 16 % 2 == 0 && decide (p / 2 ^ 19 ≤ 23)

def LaunchRec.profileOk (r : LaunchRec) : Bool := profileFits r.profile.toNat

/-- The parameter block fits its rule and came whole (Table 02.2). -/
def paramsOk (b params : List Byte) (r : LaunchRec) : Bool :=
  let n := field b 34 2
  decide (n ≤ 4096) && n % 4 == 0 && decide (n ≤ r.scratch) && decide (n ≤ params.length)

/-- Reserved fields of the record are zero (Table 25.5). -/
def recordReservedOk (b : List Byte) : Bool :=
  b.length == 128 && field b 52 4 == 0 && decide (field b 23 1 < 32)

/-- The period of a launch that samples needs a ring (R393). -/
def sampleRingOk (c : Context) (r : LaunchRec) : Bool := r.profile.toNat % 65536 == 0 || c.ring.isSome

/-- The launch uses a gated feature that was not selected (R37, R380). -/
def State.deniesLaunch (s : State) (r : LaunchRec) : Bool :=
  (r.idem && !s.feature 3) || (r.profile.toNat % 65536 != 0 && !s.feature 4) || (r.coResident && !s.feature 6)

/-- The status of a START: the first test that fails (R381). -/
def State.startStatus (s : State) (ctx : Nat) (b params : List Byte) : Nat :=
  let r := readRecord b params
  match s.hostContext? ctx with
  | none => stNoContext
  | some c =>
    if !(recordReservedOk b && r.shapeOk && r.partsOk && r.profileOk && paramsOk b params r && sampleRingOk c r) then stInvalid
    else if s.deniesLaunch r then stDenied
    else if !fitsDevice r then stCapacity
    else stDone

/-- The number after n: 0xFFFF_FFFE is followed by 1 (R381).
(DEDUCED, log 15) -/
def nextNumber (n : Nat) : Nat := if n < 0xFFFFFFFE then n + 1 else 1

/-- The first number from n on whose launch is neither resident nor waiting. -/
def State.freeNumber (s : State) : Nat → Nat → Nat
  | 0, n => n
  | fuel + 1, n => if (s.launch? n).isSome then s.freeNumber fuel (nextNumber n) else n

/-- A launch as it is accepted. -/
def newLaunch (num ctx : Nat) (r : LaunchRec) (stream order : Nat) : Launch where
  num := num
  ctx := ctx
  rcd := r
  clusterBars := []
  gridBars := [Barrier.start, Barrier.start]
  nextTeam := 0
  stream := stream
  order := order
  retired := 0
  held := []
  ended := false
  halted := false
  closing := none

/-- LAUNCH_START: the record's checks in their order; an accepted launch takes the next number (R36, R37, R40, R381). -/
def execLaunchStart (q : Rq) (ctx : Nat) (record params : List Byte) (s : State) : Host.Outcome State Fault Refusal :=
  let st := s.startStatus ctx record params
  if st ≠ stDone then .next (s.respond q 6 st (leBytes 4 0))
  else
    let n := s.freeNumber (s.launches.length + 1) s.service.nextLaunch
    let L := newLaunch n ctx (readRecord record params) q.stream s.service.nextOrder
    let s := ({ s with launches := s.launches ++ [L] }).modService fun v =>
      { v with nextLaunch := nextNumber n, nextOrder := v.nextOrder + 1 }
    .next (s.respond q 6 stDone (leBytes 4 n))

/-! ### Ending (R327, R392, R398) -/

/-- The launch's teams that the machine holds, in ascending index. -/
def State.teamsOf (s : State) (n : Nat) : List TeamKey :=
  ((s.teams.filter fun T => T.key.launch == n).map (·.key)).foldl (fun l k => insertKey k l) []

/-- The teams of a launch issue nothing more. -/
def State.stopTeams (s : State) (n : Nat) : State :=
  { s with
    teams := s.teams.map fun T => if T.key.launch = n then { T with halted := true, stopping := false } else T
    cores := s.cores.map fun c => { c with slices := c.slices.map fun x =>
      { x with
        bundle := match x.bundle with
          | some b => if b.team.launch = n then none else some b
          | none => none
        fetched := x.fetched.filter fun f => f.team.launch != n
        prev := match x.prev with
          | some p => if p.1.launch = n then none else some p
          | none => none } } }

/-- What a request to a peer is for once a launch has ended with no plane left; none if it was for that launch alone
(R398).
(DEDUCED, log 114) -/
def Why.without (n : Nat) : Why → Option Why
  | .call r => if r.team.map (·.launch) = some n then none else some (.call r)
  | .residRead k q l o => if k.launch = n then none else some (.residRead k q l o)
  | .residWrite k t => if k.launch = n then none else some (.residWrite k t)
  | .piece k q a => if k.launch = n then none else some (.piece k q a)
  | .fill d k i c ls => if ls.all (·.1 == n) then none else some (.fill d k i c (ls.filter (·.1 != n)))
  | .stale ls => if ls.all (·.1 == n) then none else some (.stale (ls.filter (·.1 != n)))
  | .back l => if l = n then none else some (.back l)
  | w => some w

/-- A lane that was issued and leads to a peer that a condition names. -/
def State.laneAtPeer (s : State) (ctx : Nat) (p : Nat → Bool) (x : Lane) : Bool :=
  x.flying && ((s.locate ctx x.va).bind (·.dev)).any p

/-- Lanes that are not performed any more are dropped, with those not issued of a command that was not to end, and the
command ends once no other is under way (R398). -/
def State.dropGone (s : State) (k : TeamKey) (c : Cmd) (gone : Lane → Bool) (status code : Nat) : State :=
  let ls := c.lanes.map fun x =>
    if gone x || (c.ending.isNone && x.st != .done && !x.flying) then { x with st := .dropped } else x
  let s := s.modCmd k c.tag fun c => { c with
    lanes := ls, resWait := false, ending := some (status, code), parks := if c.ending.isNone then [] else c.parks }
  if ls.all Lane.over then
    let e := c.endAs status code
    s.endCmd k c.tag e.1 e.2
  else s

/-- With no plane left, what a launch sent to peers is abandoned: those lanes and elements count as not performed, and
their commands end CANCELLED (R398). -/
def State.abandon (s : State) (L : Launch) : State :=
  if s.fabric.dead ≠ 0xFF then s
  else
    let s := s.modFabric fun f => { f with out := f.out.filterMap fun o => (o.why.without L.num).map fun w => { o with why := w } }
    (s.teamsOf L.num).foldl (fun s k =>
      (((s.team? k).map (·.cmds)).getD []).foldl (fun s c =>
        match c.ending with
        | none => s
        | some (status, code) => s.dropGone k c (s.laneAtPeer L.ctx fun _ => true) status code) s) s

/-- LAUNCH_END: every team that has been placed and has not retired sends its exit record, every command is cancelled, and
the launch completes HALTED when none is in flight (R327, R392, R398); one whose teams have all retired and whose release
still waits completes so at once.
(DEDUCED, log 113) -/
def execLaunchEnd (q : Rq) (launch : Nat) (s : State) : Host.Outcome State Fault Refusal :=
  match s.launch? launch with
  | none => refuse s q 6 stInvalid
  | some L =>
    if L.ended then refuse s q 6 stDone
    else
      let ks := s.teamsOf launch
      let s := ks.foldl (fun s k => match s.team? k with
        | some T => s.sendExit L T
        | none => s) s
      let s := ((s.stopTeams launch).modLaunch launch fun L => { L with ended := true }).respond q 6 stDone []
      let s := ks.foldl (fun s k => s.cancelAll k) s
      .next ((s.abandon L).closeEnded launch)

/-! ### A device that is lost (R373) -/

/-- The next accesses of a running command lead to a device. -/
def State.waitsOn (s : State) (dev : Nat) (ctx : Nat) (c : Cmd) : Bool :=
  match c.body with
  | .copy d => c.st == .running && (unitAccesses d c.n).any fun a => ((s.locate ctx a.va.toNat).bind (·.dev)) == some dev
  | .lanes _ => c.lanes.any (s.laneAtPeer ctx (· == dev))
  | _ => false

/-- The host removes a device: what was sent to it is abandoned as R398 says of an ended launch, the commands that wait
on it end CANCELLED, and calving goes on without it. -/
def State.removeDevice (s : State) (dev : Nat) : State :=
  let s := s.modFabric fun f => { f with removed := f.removed ++ [dev], out := f.out.filter fun o => o.pkt.target != dev }
  let s := (s.teams.map (·.key)).foldl (fun s k =>
    match s.launch? k.launch with
    | none => s
    | some L => (((s.team? k).map (·.cmds)).getD []).foldl (fun s c =>
      if c.live && s.waitsOn dev L.ctx c then s.dropGone k c (s.laneAtPeer L.ctx (· == dev)) 2 0 else s) s) s
  s.fabricMoves

/-- DEVICE_MISSING: a device sends no report; the host is told, and calving waits in REPORT (R373). Of a device that the
host has been told of it says that the host removes it from the fabric configuration.
(DESIGN CHOICE, log 150) -/
def execDeviceMissing (dev : Nat) (s : State) : Host.Outcome State Fault Refusal :=
  if !s.fabric.missing.contains dev then
    .next ((s.modFabric fun f => { f with missing := f.missing ++ [dev] }).emit 7 noNumber noNumber (leBytes 2 dev))
  else if s.fabric.removed.contains dev then .next s
  else .next (s.removeDevice dev)

end Sys2Proof.Machine
end

