-- ==== Sys2Proof/Machine/Dump.lean ====
section
/-! DEFINITION. Context images as the host sees them: the core dump (R345, R346) and the resumption of a halted team with
replaced sections (R327, R337). -/

namespace Sys2Proof.Machine

/-- A record of a dump (R345).
(DEDUCED, log 112) -/
def dumpRecord (kind team : Nat) (bs : List Byte) : List Byte :=
  leBytes 2 kind ++ leBytes 2 0 ++ leBytes 4 (16 + bs.length) ++ leBytes 4 team ++ leBytes 4 0 ++ bs

/-! ### DUMP (R345, R346) -/

/-- Fault records of a launch that stand in a die's ring and have not been consumed. -/
def State.ringRecords (s : State) (launch d : Nat) : List (List Byte) :=
  let D := s.dieAt d
  let n := s.produced d - s.consumed d
  ((List.range n).map fun i => s.mem.read (D.ringBase + 128 + 64 * ((s.consumed d + i) % 2 ^ D.ringLog)) 64).filter fun b =>
    field b 12 4 == launch

/-- The records of a launch's dump: teams in ascending index, sections in table order, then the fault records. -/
def State.dumpRecords (s : State) (L : Launch) : List (List Byte) :=
  let ts := ((s.teamsOf L.num).filterMap s.team?).filter fun T => T.halted || T.place.isSome
  (ts.flatMap fun T => ([1, 2, 3, 4, 5, 6, 7] : List Nat).map fun k => dumpRecord k T.key.n (sectionBytes L T k)) ++
  (List.range Config.dies).flatMap fun d => (s.ringRecords L.num d).map fun b => dumpRecord 8 (field b 16 4) b

/-- How far a dump came: whole records and bytes written, whether it was cut short, and the offset of a faulting write. -/
structure DumpEnd where
  records : Nat
  bytes : Nat
  cut : Bool
  bad : Option Nat
  deriving DecidableEq, Repr, Inhabited

/-- Writes records one after another while they fit and no write faults (R346). -/
def State.writeRecords (why : Why) (ctx va len : Nat) : List (List Byte) → DumpEnd → State → State × DumpEnd
  | [], e, s => (s, e)
  | r :: rs, e, s =>
    if len < e.bytes + r.length then (s, { e with cut := true })
    else
      match s.writeHomes why ctx (va + e.bytes) r with
      | (s, some off) => (s, { e with bad := some (e.bytes + off) })
      | (s, none) => State.writeRecords why ctx va len rs { e with records := e.records + 1, bytes := e.bytes + r.length } s

/-- The header (Table 21.5). -/
def dumpHeader (e : DumpEnd) (needed : Nat) : List Byte :=
  [0x47, 0x44, 0x4D, 0x50] ++ leBytes 4 1 ++ leBytes 4 ((if e.cut then 1 else 0) + (if e.bad.isSome then 2 else 0)) ++
  leBytes 4 e.records ++ List.replicate 24 0 ++ leBytes 8 e.bytes ++ leBytes 8 needed ++ leBytes 8 (e.bad.getD 0)

/-- Writes the records and then the header; when that cannot be written the host is told by an EVENT (R346). -/
def State.writeDump (s : State) (L : Launch) (va len : Nat) (why : Why) : State :=
  let rs := s.dumpRecords L
  match State.writeRecords why L.ctx va len rs ⟨0, 64, false, none⟩ s with
  | (s, e) =>
    let r := s.homePieces L.ctx va 64 .write
    match r.2 with
    | none => (s.writeHomes why L.ctx va (dumpHeader e (64 + (rs.map (·.length)).sum))).1
    | some off => s.emit 9 L.num noNumber (leBytes 8 (e.bad.getD off))

/-- DUMP: answered when the dump has ended (R345, R346). A buffer without room for the header is INVALID. -/
def execDump (q : Rq) (launch : Nat) (va len : DWord) (s : State) : Host.Outcome State Fault Refusal :=
  match s.launch? launch with
  | none => refuse s q 8 stInvalid
  | some L =>
    if len.toNat < 64 then refuse s q 8 stInvalid
    else .next (s.beginWrite q 8 fun n s => s.writeDump L va.toNat len.toNat (.hostWrite n))

/-! ### RESUME (R327) -/

/-- The registers of thread t as a replaced registers section gives them. -/
def readRegisters (r : LaunchRec) (b : List Byte) (t : Nat) : List (Nat × Word) :=
  let off := 4 * ((List.range t).map r.budgetOf).sum
  writeRegs [] ((List.range (r.budgetOf t)).map fun i => (i, BitVec.ofNat 32 (field b (off + 4 * i) 4)))

/-- A thread as a replaced threads section says it; a wait that it replaces has not ended. -/
def readThread (x : ThreadImage) (th : Thread) : Thread :=
  { th with
    pc := x.pc, widx := x.widx, depth := x.depth, preds := x.preds, fp := x.fp, srstep := x.srstep, mark := x.mark
    wait := x.wait, woken := th.woken && x.wait == th.wait, ckpt := if x.idem then th.ckpt else none
    streams := (List.range 8).map fun i => (x.streams[i]?).getD Stream.unbound }

/-- The team's own part of a replaced team section: queues hold at most their depths. -/
def readTeam (r : LaunchRec) (x : TeamImage) (T : Team) : Team :=
  { T with
    bars := (List.range 16).map fun i => (x.bars[i]?).getD Barrier.start
    queues := (List.range 4).map fun i => ((x.queues[i]?).getD []).take ((r.depths[i]?).getD 0)
    records := x.records
    mcast := x.mcast, scrinfo := x.scrinfo, scrthread := x.scrthread, tileinfo := x.tileinfo, tilethread := x.tilethread
    banks := (List.range T.banks.length).map fun g => (List.range 17).map fun j => (((x.banks[g]?).getD [])[j]?).getD 0
    threads := mapFrom (fun t th => { th with trapped := (x.trapped[t]?).getD th.trapped }) 0 T.threads }

/-- An allocation as a replaced section gives it: a claimed line keeps its claimants, and loses them where the bitmap no
longer marks it. -/
def imageStore (b : List Byte) (alloc : Nat) (x : Store) : Store :=
  let marks := Config.lineContents (b.drop alloc)
  let mark (i : Nat) : LineMark := (marks[i]?).getD .full
  { bytes := Memory.write [] 0 (b.take alloc)
    empties := (List.range (alloc / 128)).filter fun i => mark i == .empty
    claims := x.claims.filter fun p => mark p.1 == .claimed }

/-- Commands of tags that exist, each tag once. -/
def keepTags : List Nat → List Cmd → List Cmd
  | _, [] => []
  | seen, c :: cs =>
    if decide (c.tag < Config.tagsPerTeam) && !seen.contains c.tag then c :: keepTags (c.tag :: seen) cs else keepTags seen cs

/-- Applies one replaced section to a team.
(DEDUCED, log 111) -/
def Team.replace (r : LaunchRec) (T : Team) (x : Section) : Team :=
  match x.kind with
  | 1 => readTeam r (Config.teamContents x.bytes) T
  | 2 =>
    let l := Config.threadContents x.bytes
    { T with threads := mapFrom (fun t th => ((l[t]?).map fun y => readThread y th).getD th) 0 T.threads }
  | 3 => { T with threads := mapFrom (fun t th => { th with regs := readRegisters r x.bytes t }) 0 T.threads }
  | 4 => { T with scratch := imageStore x.bytes r.scratchAlloc T.scratch }
  | 5 => { T with tile := imageStore x.bytes r.tileAlloc T.tile }
  | 6 =>
    let y := Config.commandContents x.bytes
    { T with cmds := keepTags [] y.1, fences := y.2 }
  | _ =>
    let l := Config.checkpointContents x.bytes
    { T with threads := mapFrom (fun t th => { th with ckpt := aget? l t }) 0 T.threads }

/-- The barriers of a level with what a replaced team section says of them: their phases, and the arrivals of that team. -/
def State.replaceBars (s : State) (k : TeamKey) (lvl : BarLevel) (bars : List Barrier) : State :=
  (List.range bars.length).foldl (fun s i =>
    let x := (bars[i]?).getD Barrier.start
    let b := s.barrier lvl i k
    s.setBarrier lvl i k ⟨x.phase, b.arrived.filter (fun p => p.1 != k.n) ++ x.arrived.map fun p => (k.n, p.2)⟩) s

/-- Applies one replaced section, the shared barriers of a team section included. -/
def State.replaceSection (L : Launch) (k : TeamKey) (s : State) (x : Section) : State :=
  let s := s.modTeam k fun T => T.replace L.rcd x
  if x.kind = 1 then
    let y := Config.teamContents x.bytes
    (s.replaceBars k .clus (y.clusterBars.take 4)).replaceBars k .grid (y.gridBars.take 2)
  else s

/-- A section that may replace one of the team's: of its kind and team, and of a size that R337 gives such a section. -/
def sectionOk (r : LaunchRec) (T : Team) (x : Section) : Bool :=
  x.team == T.key.n &&
  match x.kind with
  | 1 | 2 | 3 | 4 | 5 => x.bytes.length == sectionSize r T x.kind
  | 6 => decide (256 * 256 ≤ x.bytes.length) && x.bytes.length % 16 == 0
  | 7 => x.bytes.length % (128 + r.stack) == 0
  | _ => false

/-- LAUNCH_RESUME: a halted team goes on, with the sections that the debugger replaced (R327, R377). -/
def execLaunchResume (q : Rq) (launch n : Nat) (secs : List Section) (s : State) : Host.Outcome State Fault Refusal :=
  match s.launch? launch, s.team? ⟨launch, n⟩ with
  | some L, some T =>
    if T.halted && !L.ended && secs.all (sectionOk L.rcd T) then
      let s := match T.place with
        | some p => s.refreshPlace p
        | none => s
      let s := ((secs.foldl (State.replaceSection L T.key) s).modTeam T.key Team.resume).dropFetched T.key
      .next ((s.respond q 6 stDone []).tryRetire T.key)
    else refuse s q 6 stInvalid
  | _, _ => refuse s q 6 stInvalid

end Sys2Proof.Machine
end

