-- ==== Sys2Proof/Machine/Hss.lean ====
section
/-! DEFINITION. The signature of a firmware image: HSS of two levels, LMS_SHA256_M32_H10 over LMS_SHA256_M32_H15 with
LMOTS_SHA256_N32_W4 (R383). -/

namespace Sys2Proof.Machine

/-- A big-endian number of n bytes. -/
def beBytes (n x : Nat) : List Byte := (leBytes n x).reverse

def beNat (l : List Byte) : Nat := leNat l.reverse

/-- The bytes of a field of a key or a signature. -/
def sigField (l : List Byte) (off n : Nat) : List Byte := (l.drop off).take n

/-! ### One-time signatures (LMOTS_SHA256_N32_W4) -/

/-- Chains of a one-time signature: 64 for the hash and 3 for its checksum. -/
def otsChains : Nat := 67

/-- The four-bit digits of bytes, the high one of each byte first. -/
def otsDigits (l : List Byte) : List Nat := l.flatMap fun b => [b.toNat / 16, b.toNat % 16]

/-- The checksum's two bytes. -/
def otsChecksum (l : List Byte) : List Byte := beBytes 2 (((otsDigits l).map fun d => 15 - d).sum * 16 % 65536)

/-- Goes along chain i for n steps from step j on. -/
def otsChain (id : List Byte) (q i : Nat) : Nat → Nat → List Byte → List Byte
  | 0, _, x => x
  | n + 1, j, x => otsChain id q i n (j + 1) (sha256 (id ++ beBytes 4 q ++ beBytes 2 i ++ beBytes 1 j ++ x))

/-- The one-time key that a signature of a message stands for; `sig` is its type, its randomizer and 67 hashes. -/
def otsKey (id : List Byte) (q : Nat) (msg sig : List Byte) : List Byte :=
  let h := sha256 (id ++ beBytes 4 q ++ beBytes 2 0x8181 ++ sigField sig 4 32 ++ msg)
  let digits := otsDigits (h ++ otsChecksum h)
  let ends := (List.range otsChains).flatMap fun i =>
    let a := (digits[i]?).getD 0
    otsChain id q i (15 - a) a (sigField sig (36 + 32 * i) 32)
  sha256 (id ++ beBytes 4 q ++ beBytes 2 0x8080 ++ ends)

/-! ### Trees (LMS_SHA256_M32_H10 and H15) -/

/-- Bytes of a one-time signature, of a tree signature of height h, and of a tree's public key. -/
def otsSigBytes : Nat := 36 + 32 * otsChains

def lmsSigBytes (h : Nat) : Nat := 4 + otsSigBytes + 4 + 32 * h

def lmsKeyBytes : Nat := 56

/-- The type of a tree of height 10 or 15. -/
def lmsType (h : Nat) : Nat := if h = 10 then 6 else 7

/-- The root above a node, along the hashes of its siblings. -/
def lmsRoot (id : List Byte) : List (List Byte) → Nat → List Byte → List Byte
  | [], _, x => x
  | y :: ys, node, x =>
    let pair := if node % 2 = 1 then y ++ x else x ++ y
    lmsRoot id ys (node / 2) (sha256 (id ++ beBytes 4 (node / 2) ++ beBytes 2 0x8383 ++ pair))

/-- A message's signature by a tree of height h under its public key: types, identifier and root. -/
def lmsVerify (h : Nat) (key msg sig : List Byte) : Bool :=
  let id := sigField key 8 16
  let q := beNat (sigField sig 0 4)
  let ots := sigField sig 4 otsSigBytes
  let path := (List.range h).map fun i => sigField sig (4 + otsSigBytes + 4 + 32 * i) 32
  key.length == lmsKeyBytes && sig.length == lmsSigBytes h &&
  beNat (sigField key 0 4) == lmsType h && beNat (sigField sig (4 + otsSigBytes) 4) == lmsType h &&
  beNat (sigField key 4 4) == 3 && beNat (sigField ots 0 4) == 3 && decide (q < 2 ^ h) &&
  (let leaf := sha256 (id ++ beBytes 4 (2 ^ h + q) ++ beBytes 2 0x8282 ++ otsKey id q msg ots)
   lmsRoot id path (2 ^ h + q) leaf == sigField key 24 32)

/-! ### Two levels -/

/-- The signature carries the number of signed keys, which is 1, the lower key as the root key signed it, and the message
as the lower key signed it. The formats are RFC 8554's, which the manual names.
(PRESUMED, log 171) -/
def hssVerify (root msg sig : List Byte) : Bool :=
  let upper := sigField sig 4 (lmsSigBytes 10)
  let lower := sigField sig (4 + lmsSigBytes 10) lmsKeyBytes
  let rest := sig.drop (4 + lmsSigBytes 10 + lmsKeyBytes)
  beNat (sigField sig 0 4) == 1 && lmsVerify 10 root lower upper && lmsVerify 15 lower msg rest

/-- A firmware image verifies: the signature that it carries is its content's under the vendor's root key (R383). -/
def signatureOk (image : List Byte) : Bool :=
  hssVerify Config.rootKey (Config.imageSigned image) (Config.imageSignature image)

end Sys2Proof.Machine
end

