-- ==== Sys2Proof/Machine/Firmware.lean ====
section
/-! DEFINITION. The firmware image and attestation (R383-R386). -/

namespace Sys2Proof.Machine

/-- FIRMWARE_LOAD: a chunk of a new image is written to the staging area (R384). -/
def execFirmwareLoad (q : Rq) (off : Nat) (data : List Byte) (s : State) : Host.Outcome State Fault Refusal :=
  .next ((s.modService fun v => { v with staging := v.staging.write off data }).respond q 9 stDone [])

/-- FIRMWARE_COMMIT: an image that verifies replaces the current one and runs from the next reset; otherwise the current
one is kept (R384). -/
def execFirmwareCommit (q : Rq) (len : Nat) (s : State) : Host.Outcome State Fault Refusal :=
  let image := s.service.staging.read 0 len
  if signatureOk image then
    .next ((s.modService fun v => { v with flash := image, flashOk := true }).respond q 9 stDone [])
  else refuse s q 9 stBadSignature

/-- The measurement of the configuration that firmware applied (R385). -/
def State.configMeasure (s : State) : List Byte :=
  sha256 (Config.bootConfig (s.service.usedSpares.flatMap fun x => [x.kind, x.die, x.index]))

/-- The statement that ATTEST signs: identity, version, both measurements and the nonce (Table 25.7). -/
def State.attestBody (s : State) (nonce : List Byte) : List Byte :=
  identityBytes ++ s.versionBytes ++ leBytes 4 0 ++ sha256 s.service.image ++ s.configMeasure ++ nonce

/-- FIRMWARE_ATTEST: signed with the next one-time key; INVALID when all are spent (R386). -/
def execFirmwareAttest (q : Rq) (nonce : List Byte) (s : State) : Host.Outcome State Fault Refusal :=
  if nonce.length ≠ 32 ∨ Config.oneTimeKeys ≤ s.service.keysUsed then refuse s q 9 stInvalid
  else
    let b := s.attestBody nonce
    .next ((s.modService fun v => { v with keysUsed := v.keysUsed + 1 }).respond q 9 stDone
      (b ++ Config.hssSignature s.service.keysUsed b))

end Sys2Proof.Machine
end

