-- ==== Sys2Proof/Machine/Links.lean ====
section
/-! DEFINITION. Links: flits and their retry (R350, R351), lanes (R349) and links that go down (R352). -/

namespace Sys2Proof.Machine

/-- A link of a plane by its number among all.
(DEDUCED, log 81) -/
def linkNo (plane link : Nat) : Nat := 4 * (plane % 8) + link % 4

/-- Every link of a plane is down. -/
def Fabric.planeGone (f : Fabric) (plane : Nat) : Bool := (f.liveLinks plane).isEmpty

/-- What a link holds and its far end has not acknowledged, as flits to be sent anew, oldest first. -/
def Link.unsent (l : Link) : List WaitFlit := l.replay.map (fun x => ⟨x.1, x.2.kind, x.2.vc, x.2.payload⟩) ++ l.waiting

/-- A link that carries nothing more. -/
def Link.shut (l : Link) : Link :=
  { l with up := false, training := false, waiting := [], used := [0, 0, 0], replay := [], nak := none }

/-- A link goes down: its routes move to surviving links of the plane, and its flits go first on the links that take over
their routes (R352); without a survivor the plane is dead.
(DEDUCED, log 82) -/
def State.linkDown (s : State) (plane link : Nat) : State :=
  let i := linkNo plane link
  if !(s.fabric.link i).up then s
  else
    let lost := (s.fabric.link i).unsent
    let s := s.modFabric fun f =>
      lost.foldl (fun f w =>
        match f.route (plane % 8) w.target with
        | none => f
        | some j => f.queueFlits j [w]) (f.modLink i Link.shut)
    if s.fabric.planeGone (plane % 8) then s.declareDead (BitVec.ofNat 8 (2 ^ (plane % 8))) else s

/-- A link-control flit, which is not kept for replay: an ACK or a NAK, with one credit of a channel if one is free again
(Table 23.2). -/
def Link.controlFlit (l : Link) (ack : Bool) (lseq : BitVec 12) (back : Option (BitVec 2)) : Flit :=
  mkFlit 3 2 l.next (match back with
    | some vc => BitVec.ofNat 8 (64 * vc.toNat + 1)
    | none => 0) (Config.linkControl ack lseq)

/-- Credits that a flit returns (Table 23.2). -/
def Link.credited (l : Link) (b : Byte) : Link :=
  { l with used := l.used.modify (b.toNat / 64) (· - b.toNat % 64) }

/-- Takes the flit that is expected: the payload of a packet's flit joins what its channel has received, a first flit
beginning anew, and is acknowledged; an idle flit or a link-control flit takes no number of its own.
(DEDUCED, log 79) -/
def Link.take (l : Link) (f : Flit) : Link :=
  if f.kind = 1 ∨ f.kind = 2 then
    { l with
      expect := l.expect + 1
      skip := false
      rx := l.rx.modify f.vc.toNat fun bs => if f.kind = 1 then f.payload else bs ++ f.payload
      ctl := l.ctl ++ [l.controlFlit true f.lseq (some f.vc)] }
  else { l with skip := false }

/-- FLIT_RECEIVE: a flit with a good check and the number expected is taken, and its credits may let flits go; any other
is discarded with every later one, and NAK names the number expected (R350, R351).
(DESIGN CHOICE, log 80) -/
def execFlitReceive (plane link : Nat) (f : Flit) (s : State) : Host.Outcome State Fault Refusal :=
  let i := linkNo plane link
  let l := s.fabric.link i
  if !l.up || l.training || s.fabric.closed (plane % 8) then .next s
  else if flitGood f && f.lseq == l.expect then
    .next (s.modFabric fun g => g.modLink i fun l => ((l.take f).credited f.credit).drive)
  else if l.skip && flitGood f then .next s
  else .next (s.modFabric fun g => g.modLink i fun l =>
    { l with skip := true, ctl := l.ctl ++ [l.controlFlit false l.expect none] })

/-- The flits after the one with this number; all of them where none has it. -/
def afterFlit (n : BitVec 12) (l : List (Nat × Flit)) : List (Nat × Flit) :=
  if l.any fun f => f.2.lseq == n then (l.dropWhile fun f => f.2.lseq != n).drop 1 else l

/-- LINK_ACK: flits up to the acknowledged one leave the replay buffer, which may let others go (R351). -/
def execLinkAck (plane link : Nat) (lseq : BitVec 12) (s : State) : Host.Outcome State Fault Refusal :=
  .next (s.modFabric fun f => f.modLink (linkNo plane link) fun l =>
    { l with replay := afterFlit lseq l.replay, nak := none }.drive)

/-- LINK_NAK: the flits from the named one on are sent again in order; after 16 NAKs in a row for one number the link is
taken down (R351, R352). -/
def execLinkNak (plane link : Nat) (lseq : BitVec 12) (s : State) : Host.Outcome State Fault Refusal :=
  let i := linkNo plane link
  let n := match (s.fabric.link i).nak with
    | some (m, k) => if m = lseq then k + 1 else 1
    | none => 1
  if 16 ≤ n then .next (s.linkDown plane link)
  else .next (s.modFabric fun f => f.modLink i fun l =>
    { l with nak := some (lseq, n), resent := l.resent ++ (l.replay.map (·.2)).dropWhile fun f => f.lseq != lseq })

/-- LANE_FAILURE: the spare lane takes over and the link retrains, which the host is told; a second failure takes the
link down (R349, R387). -/
def execLaneFailure (plane link _lane : Nat) (s : State) : Host.Outcome State Fault Refusal :=
  let i := linkNo plane link
  let l := s.fabric.link i
  if !l.up then .next s
  else if l.failed = 0 then
    .next ((s.modFabric fun f => f.modLink i fun l => { l with failed := 1, training := true }).emit 5 noNumber noNumber
      (leBytes 1 4 ++ leBytes 1 (plane % 8 / 4) ++ leBytes 2 (i % 16)))
  else .next ((s.modFabric fun f => f.modLink i fun l => { l with failed := l.failed + 1 }).linkDown plane link)

/-- LINK_RETRAINED: the link replays from its retry buffer and carries flits again (R349). -/
def execLinkRetrained (plane link : Nat) (s : State) : Host.Outcome State Fault Refusal :=
  .next (s.modFabric fun f => f.modLink (linkNo plane link) fun l =>
    if l.training then Link.drive { l with training := false, resent := l.resent ++ l.replay.map (·.2) } else l)

/-- SWITCH_PLANE_FAILED: the plane is dead here (R352). -/
def execSwitchPlaneFailed (plane : Nat) (s : State) : Host.Outcome State Fault Refusal :=
  let p := plane % 8
  let down (f : Fabric) : Fabric :=
    (List.range 4).foldl (fun f i => f.modLink (4 * p + i) Link.shut) f
  .next ((s.modFabric down).declareDead (BitVec.ofNat 8 (2 ^ p)))

end Sys2Proof.Machine
end

