-- ==== Sys2Proof/Machine/Matrix.lean ====
section
/-! DEFINITION. The matrix engine: sub-array steps (R132-R135, R265, R270, R271), block writes (R274), and zeroing and
converting tiles (R278, R279). -/

namespace Sys2Proof.Machine

/-! ### Operands (R270, R271) -/

/-- One operand of a matrix command: slot value, bases of its slabs and of its separate scales and zero points, its
blocks, Kstep and K. -/
structure Operand where
  slot : Nat
  base : Nat
  scale : Nat
  zp : Nat
  blocks : Nat
  kstep : Nat
  k : Nat
  deriving DecidableEq, Repr, Inhabited

def MatDesc.kstep (x : MatDesc) : Nat := (pairKstep x.aslot x.bslot).getD 32

def MatDesc.opA (x : MatDesc) : Operand :=
  ⟨x.aslot, x.abase, x.ascale, x.azp, fusionRows x.fusion, x.kstep, x.steps * x.kstep⟩

def MatDesc.opB (x : MatDesc) : Operand :=
  ⟨x.bslot, x.bbase, x.bscale, x.bzp, fusionCols x.fusion, x.kstep, x.steps * x.kstep⟩

def Operand.bits (o : Operand) : Nat := fmtBits (slotCode o.slot)

/-- Row i of the operand at step s. -/
def Operand.row (o : Operand) (s i : Nat) : Nat := slabRow o.base o.slot o.kstep o.blocks s i

/-- Entry i of a packed array of b-bit codes (R114). -/
def packedAt (m : Memory) (base b i : Nat) : Nat :=
  if b = 4 then (m.byte (base + i / 2)).toNat / 16 ^ (i % 2) % 16 else m.readNat (base + i * b / 8) (b / 8)

/-- The codes of row i at step s (R270). -/
def Operand.codes (o : Operand) (m : Memory) (s i : Nat) : List Nat :=
  (List.range o.kstep).map fun kk => packedAt m (o.row s i) o.bits kk

/-- Groups of a row that begin within a step, and the number of the first. -/
def Operand.begins (o : Operand) (s : Nat) : Nat × Nat :=
  let g := slotRun o.slot
  ((s * o.kstep + g - 1) / g, (((s + 1) * o.kstep + g - 1) / g) - ((s * o.kstep + g - 1) / g))

/-- Offsets of the scale and of the zero-point array that hold group q of row i, and the entry's number (R271). -/
def Operand.scaleAt (o : Operand) (i q : Nat) : Nat × Nat × Nat :=
  let sb := slotScaleBytes o.slot
  if slotPlace o.slot = 1 then
    let s := q * slotRun o.slot / o.kstep
    let b := o.begins s
    let t := o.row s i + o.kstep * o.bits / 8
    (t, t + b.2 * sb, q - b.1)
  else (o.scale, o.zp, i * (o.k / slotRun o.slot) + q)

/-- Scale and zero point of group q of row i; zero for a slot that has none. -/
def Operand.scaleOf (o : Operand) (m : Memory) (i q : Nat) : Nat × Nat :=
  if slotRun o.slot = 0 then (0, 0)
  else
    let a := o.scaleAt i q
    (m.readNat (a.1 + a.2.2 * slotScaleBytes o.slot) (slotScaleBytes o.slot),
      if slotZp o.slot then packedAt m a.2.1 o.bits a.2.2 else 0)

/-- A row at a step: its codes, and the scale and zero point of each. -/
structure RowData where
  codes : List Nat
  scales : List (Nat × Nat)
  deriving DecidableEq, Repr, Inhabited

def Operand.rowData (o : Operand) (m : Memory) (s i : Nat) : RowData :=
  ⟨o.codes m s i, (List.range o.kstep).map fun kk =>
    o.scaleOf m i (if slotRun o.slot = 0 then 0 else (s * o.kstep + kk) / slotRun o.slot)⟩

/-! ### Accumulation (R132-R135, R273) -/

/-- Rounds an exact sum or product to FP32; a NaN sets NV only if no operand was one (R273).
(DEDUCED, log 73) -/
def roundStep (x : Num) (nanIn : Bool) : Num × BitVec 5 :=
  if x.isNaN then (.nan false, flagIf fNV (!nanIn))
  else
    let r := fp32.finish .rne x
    (fp32.decode r.bits, r.flags)

/-- C + Round(P), rounded (R133, R135); reading a signalling C sets NV (R115). -/
def addChunk (acc : Word) (p : Num) (nanIn : Bool) : Word × BitVec 5 :=
  let c := fp32.decode acc.toNat
  let r := roundStep p nanIn
  let z := roundStep (Num.add .rne c r.1) (c.isNaN || r.1.isNaN)
  (BitVec.ofNat 32 (fp32.encode z.1), r.2 ||| z.2 ||| flagIf fNV c.isSig)

/-- The exact sum of products; +0 unless every product is −0 (R133). -/
def dotExact : List (Num × Num) → Num
  | [] => .fin false 0 0
  | p :: ps => ps.foldl (fun a q => Num.add .rne a (q.1.mul q.2)) (p.1.mul p.2)

/-- A code's value under its scale, and whether the code or the scale is a NaN. -/
def matValue (slot : Nat) (code : Nat) (sc : Nat × Nat) : Num × Bool :=
  let v := codeValue slot sc.1 sc.2 code
  let scaleNan := if isMx (slotCode slot) then decide (sc.1 = 0xFF)
    else slotGroup slot != 0 && (fp16.decode sc.1).isNaN
  (v, scaleNan || ((tgtOf (slotCode slot)).decode code).isNaN)

/-- A code of a range of a step is a signalling NaN (R115). -/
def sigCode (slot : Nat) (x : RowData) (i n : Nat) : Bool :=
  ((x.codes.drop i).take n).any fun c => ((tgtOf (slotCode slot)).decode c).isSig

/-- The integer that a code denotes, less the zero point. -/
def matInt (slot code z : Nat) : Int :=
  match (tgtOf (slotCode slot)).decode code with
  | .fin s m _ => (if s then -(m : Int) else m) - (if slotZp slot then z else 0)
  | _ => 0

/-- Products of a range of a step, as values with the NaN marks. -/
def valuePairs (sa sb : Nat) (a b : RowData) (i n : Nat) : List ((Num × Bool) × (Num × Bool)) :=
  (List.range n).map fun j =>
    (matValue sa ((a.codes[i + j]?).getD 0) ((a.scales[i + j]?).getD (0, 0)),
     matValue sb ((b.codes[i + j]?).getD 0) ((b.scales[i + j]?).getD (0, 0)))

/-- The exact integer sum of a range of a step (R134, R135). -/
def intDot (sa sb : Nat) (a b : RowData) (i n : Nat) : Int :=
  ((List.range n).map fun j =>
    matInt sa ((a.codes[i + j]?).getD 0) ((a.scales[i + j]?).getD (0, 0)).2 *
    matInt sb ((b.codes[i + j]?).getD 0) ((b.scales[i + j]?).getD (0, 0)).2).sum

/-- What an element carries through a step: accumulator, integer sum and special value of its group, flags. -/
structure ElemSt where
  acc : Word
  isum : Int
  special : Nat
  flags : BitVec 5
  deriving DecidableEq, Repr, Inhabited

/-- One chunk of a floating or MX pair (R133, R115). -/
def floatChunk (sa sb : Nat) (a b : RowData) (n : Nat) (e : ElemSt) (i : Nat) : ElemSt :=
  let ps := valuePairs sa sb a b i n
  let r := addChunk e.acc (dotExact (ps.map fun p => (p.1.1, p.2.1))) (ps.any fun p => p.1.2 || p.2.2)
  { e with acc := r.1, flags := e.flags ||| r.2 ||| flagIf fNV (sigCode sa a i n || sigCode sb b i n) }

/-- A special value by its code, and back. -/
def specialNum : Nat → Num
  | 0 => .fin false 0 0
  | 1 => .inf false
  | 2 => .inf true
  | _ => .nan false

def specialCode : Num → Nat
  | .inf false => 1
  | .inf true => 2
  | .nan _ => 3
  | .fin .. => 0

/-- A part of a group that lies in step s; at the group's last element the accumulator is updated (R266, R135), and a
signalling scale has set NV (R115). A scale that is not finite follows R118, element by element. -/
def groupPart (sa sb g kstep s : Nat) (a b : RowData) (n : Nat) (e : ElemSt) (i : Nat) : ElemSt :=
  let x := fp16.decode ((a.scales[i]?).getD (0, 0)).1
  let y := fp16.decode ((b.scales[i]?).getD (0, 0)).1
  let plain := x.isFin && y.isFin
  let e :=
    if plain then { e with isum := e.isum + intDot sa sb a b i n }
    else
      let p := dotExact ((valuePairs sa sb a b i n).map fun p => (p.1.1, p.2.1))
      { e with special := specialCode (if e.special = 0 then p else Num.add .rne (specialNum e.special) p) }
  if (s * kstep + i + n) % g = 0 then
    let p := if plain then (Num.ofInt e.isum).mul (fp32.decode (fp32.finish .rne (x.mul y)).bits) else specialNum e.special
    let r := addChunk e.acc p (x.isNaN || y.isNaN)
    { acc := r.1, isum := 0, special := 0, flags := e.flags ||| r.2 ||| flagIf fNV (x.isSig || y.isSig) }
  else e

/-- Positions 0, n, 2n, … below a length. -/
def chunkStarts (len n : Nat) : List Nat := (List.range (len / n)).map (· * n)

/-- One element through one step (R132). -/
def elemStep (sa sb kstep s : Nat) (a b : RowData) (e : ElemSt) : ElemSt :=
  let fa := slotCode sa
  if isMx fa then (chunkStarts kstep 32).foldl (floatChunk sa sb a b 32) e
  else if fa < 10 then (chunkStarts kstep kstep).foldl (floatChunk sa sb a b kstep) e
  else if slotGroup sa = 0 then { e with acc := e.acc + BitVec.ofInt 32 (intDot sa sb a b 0 kstep) }
  else
    let n := min (slotGroup sa) kstep
    (chunkStarts kstep n).foldl (groupPart sa sb (slotGroup sa) kstep s a b n) e

/-- One step of a sub-array: every element of its block (R265). -/
def SubRun.next (x : MatDesc) (sub : Nat) (m : Memory) (r : SubRun) : SubRun × BitVec 5 :=
  let rc := fusionBlock x.fusion sub
  let as := (List.range 64).map fun i => x.opA.rowData m r.step (64 * rc.1 + i)
  let bs := (List.range 64).map fun j => x.opB.rowData m r.step (64 * rc.2 + j)
  let es := (List.range 4096).map fun n =>
    elemStep x.aslot x.bslot x.kstep r.step ((as[n / 64]?).getD ⟨[], []⟩) ((bs[n % 64]?).getD ⟨[], []⟩)
      ⟨(r.acc[n]?).getD 0, (r.isum[n]?).getD 0, (r.special[n]?).getD 0, 0⟩
  ({ r with step := r.step + 1, acc := es.map (·.acc), isum := es.map (·.isum), special := es.map (·.special) }, es.foldl (fun f e => f ||| e.flags) 0)

/-- Ranges of scratch that a step of an operand reads.
(DESIGN CHOICE, log 185) -/
def Operand.reads (o : Operand) (s blk : Nat) : List (Nat × Nat) :=
  (o.row s (64 * blk), slabBytes o.slot o.kstep) ::
  (if usesScale o.slot then
    [(o.scale, scaleBytes o.slot (64 * o.blocks) o.k)] ++
    (if usesZero o.slot then [(o.zp, zeroBytes o.slot (64 * o.blocks) o.k)] else [])
   else [])

/-- The first line of the ranges that holds an error. -/
def State.rangeError (s : State) (k : TeamKey) (tile : Bool) (rs : List (Nat × Nat)) : Option Nat :=
  if s.errors.isEmpty then none
  else (rs.flatMap fun r => linesOfRange r.1 r.2).find? fun l =>
    s.errors.contains (if tile then .tile k l else .scratch k l)

/-- Where a sub-array's block stands in the tile store: the offset of its row i (R272). -/
def MatDesc.blockRow (x : MatDesc) (sub i : Nat) : Nat :=
  let n := fusionN x.fusion
  let rc := fusionBlock x.fusion sub
  match x.fusion with
  | .ind => (x.c[sub]?).getD 0 + 4 * (i * n)
  | _ => x.c.headD 0 + 4 * ((rc.1 * 64 + i) * n + rc.2 * 64)

def MatDesc.blockRanges (x : MatDesc) (sub : Nat) : List (Nat × Nat) := (List.range 64).map fun i => (x.blockRow sub i, 256)

/-- An error that the step meets: in C before the first step, else in its operands (R276, R343): cause and line. -/
def State.matError (s : State) (k : TeamKey) (x : MatDesc) (sub step : Nat) : Option (Nat × Nat) :=
  let rc := fusionBlock x.fusion sub
  match (if step = 0 then s.rangeError k true (x.blockRanges sub) else none) with
  | some l => some (6, l)
  | none => (s.rangeError k false (x.opA.reads step rc.1 ++ x.opB.reads step rc.2)).map fun l => (5, l)

/-- A matrix command that met an error ends DATA_ERROR (R276). -/
def State.failLocal (s : State) (T : Team) (L : Launch) (c : Cmd) (cause line : Nat) : State :=
  (s.dataError T L c cause ⟨none, 0⟩ (line * 128)).stopCmd T.key c.tag 5 0 fun _ _ => false

/-- The command that a core's matrix engine runs. -/
def State.matCmd (s : State) (core : Nat) : Option (MatRun × Team × Launch × Cmd × MatDesc) :=
  match (s.coreAt core).mat with
  | none => none
  | some m =>
    match s.team? m.team, s.launch? m.team.launch, s.cmd? m.team m.tag with
    | some T, some L, some c =>
      match c.body with
      | .mat x => some (m, T, L, c, x)
      | _ => none
    | _, _, _ => none

def State.setSub (s : State) (core sub : Nat) (r : SubRun) : State :=
  s.modCore core fun q => { q with mat := q.mat.map fun m => { m with subs := m.subs.set sub r } }

/-- MATRIX_STEP: a sub-array takes its next step (R265). -/
def execMatrixStep (core sub : Nat) (s : State) : Host.Outcome State Fault Refusal :=
  match s.matCmd core with
  | none => .next s
  | some (m, T, L, c, x) =>
    match m.subs[sub]? with
    | none => .next s
    | some r =>
      if x.steps ≤ r.step ∨ c.ending.isSome then .next s
      else match s.matError T.key x sub r.step with
        | some (cause, line) => .next (s.failLocal T L c cause line)
        | none =>
          let n := r.next x sub T.scratch.bytes
          .next ((s.setSub core sub n.1).cmdFlags T.key c.tag n.2)

/-- The bytes of row i of a block. -/
def blockBytes (acc : List Word) (i : Nat) : List Byte := ((acc.drop (64 * i)).take 64).flatMap fun w => leBytes 4 w.toNat

/-- MATRIX_BLOCK_WRITE: after its last step a sub-array writes the next row of its block, and the row's lines fill; with the
last row of the last block the command ends. One that is being stopped writes the blocks that it has begun, and no other
(R274, R276).
(DEDUCED, log 74) -/
def execMatrixBlockWrite (core sub : Nat) (s : State) : Host.Outcome State Fault Refusal :=
  match s.matCmd core with
  | none => .next s
  | some (m, T, _, c, x) =>
    match m.subs[sub]? with
    | none => .next s
    | some r =>
      if r.step < x.steps ∨ 64 ≤ r.rows ∨ (c.ending.isSome ∧ r.rows = 0) then .next s
      else
        let a := x.blockRow sub r.rows
        let lines := linesOfRange a 256
        let put (T : Team) : Team :=
          lines.foldl (fun T l => T.finishLine true c.tag l)
            { T with tile := { T.tile with bytes := T.tile.bytes.write a (blockBytes r.acc r.rows) } }
        let r' := { r with rows := r.rows + 1 }
        let s := lines.foldl (fun s l => s.clearError (.tile T.key l)) ((s.modTeam T.key put).setSub core sub r')
        let subs := m.subs.set sub r'
        match c.ending with
        | none => if subs.all (fun r => decide (64 ≤ r.rows)) then .next (s.endCmd T.key c.tag 0 0) else .next s
        | some (st, code) => if subs.any SubRun.midBlock then .next s else .next (s.endCmd T.key c.tag st code)

/-! ### MZERO and MCVT (R278, R279) -/

/-- ZERO_TILE: a running MZERO writes zeros to the next line of its region, which fills, and ends DONE with the last (R274,
R278).
(DEDUCED, log 75) -/
def execZeroTile (team : TeamKey) (tag : Nat) (s : State) : Host.Outcome State Fault Refusal :=
  match s.cmd? team tag with
  | none => .next s
  | some c =>
    match c.st, c.body with
    | .running, .zero base n =>
      match (linesOfRange base n)[c.n]? with
      | none => .next (s.endCmd team tag 0 0)
      | some l =>
        let put (T : Team) : Team := { T with tile := { T.tile with bytes := T.tile.bytes.clear (l * 128) 128 } }
        let s := ((s.modTeam team fun T => (put T).finishLine true tag l).clearError (.tile team l)).modCmd team tag
          fun c => { c with n := c.n + 1 }
        if c.n + 1 < (linesOfRange base n).length then .next s else .next (s.endCmd team tag 0 0)
    | _, _ => .next s

/-- Sets entry i of a packed array of b-bit codes (R114). -/
def packedSet (m : Memory) (base b i x : Nat) : Memory :=
  if b = 4 then
    let a := base + i / 2
    let old := (m.byte a).toNat
    let new := if i % 2 = 0 then old / 16 * 16 + x % 16 else old % 16 + x % 16 * 16
    m.setByte a (BitVec.ofNat 8 new)
  else m.write (base + i * b / 8) (leBytes (b / 8) x)

/-- The destination of a conversion as an operand (R279). -/
def ConvDesc.operand (d : ConvDesc) : Operand := ⟨d.dslot, d.dbase, d.dscale, d.dzp, d.rows / 64, d.kstep, d.cols⟩

/-- The value of element (i, j) of the tile. -/
def ConvDesc.value (d : ConvDesc) (m : Memory) (i j : Nat) : Num :=
  let x := m.readNat (d.cbase + 4 * (i * d.cols + j)) 4
  if d.isInt then Num.ofInt ((BitVec.ofNat 32 x).toInt) else fp32.decode x

/-- Converts row i: writes its codes, scales and zero points, and gives its flags. -/
def ConvDesc.doRow (d : ConvDesc) (seed salt : Word) (tile : Memory) (x : Memory × BitVec 5) (i : Nat) :
    Memory × BitVec 5 :=
  let o := d.operand
  let qs := quantUnit d.dslot (fun j => engineMode d.dslot seed salt (i * d.cols + j))
    ((List.range d.cols).map fun j => d.value tile i j)
  let codes := qs.flatMap (·.codes)
  let m := (List.range d.cols).foldl (fun m j =>
    packedSet m (o.row (j / d.kstep) i) o.bits (j % d.kstep) ((codes[j]?).getD 0)) x.1
  let m := if slotRun d.dslot = 0 then m
    else (List.range qs.length).foldl (fun m q =>
      let a := o.scaleAt i q
      let v := (qs[q]?).getD ⟨0, 0, [], 0⟩
      let m := m.write (a.1 + a.2.2 * slotScaleBytes d.dslot) (leBytes (slotScaleBytes d.dslot) v.scale)
      if slotZp d.dslot then packedSet m a.2.1 o.bits a.2.2 v.zero else m) m
  (m, qs.foldl (fun f q => f ||| q.flags) x.2)

/-- The places that row i writes: its codes in each slab, its scales and its zero points. -/
def ConvDesc.rowPlaces (d : ConvDesc) (i : Nat) : List (Nat × Nat) :=
  let o := d.operand
  ((List.range (d.cols / d.kstep)).map fun s => (o.row s i, d.kstep * o.bits / 8)) ++
  (if slotRun d.dslot = 0 then []
   else (List.range (d.cols / slotRun d.dslot)).flatMap fun q =>
    let a := o.scaleAt i q
    (a.1 + a.2.2 * slotScaleBytes d.dslot, slotScaleBytes d.dslot) ::
    (if slotZp d.dslot then [(a.2.1 + a.2.2 * o.bits / 8, (o.bits + 7) / 8)] else []))

/-- The lines that row i writes to. -/
def ConvDesc.rowLines (d : ConvDesc) (i : Nat) : List Nat :=
  ((d.rowPlaces i).flatMap fun p => linesOfRange p.1 p.2).eraseDups

/-- The lines whose last byte row i writes: no later row writes to them (R250). -/
def ConvDesc.lastLines (d : ConvDesc) (i : Nat) : List Nat :=
  (List.range (d.rows - (i + 1))).foldl (fun ls j => ls.filter fun l => !(d.rowLines (i + 1 + j)).contains l) (d.rowLines i)

/-- CONVERT_TILE: a running MCVT reads the next row of its tile and writes it to the slabs, whose lines fill when their last
byte is written; with the last row it ends DONE (R250, R279). -/
def execConvertTile (team : TeamKey) (tag : Nat) (s : State) : Host.Outcome State Fault Refusal :=
  match s.team? team, s.launch? team.launch, s.cmd? team tag with
  | some T, some L, some c =>
    match c.st, c.body with
    | .running, .conv d =>
      match s.rangeError team true [(d.cbase + 4 * c.n * d.cols, 4 * d.cols)] with
      | some line => .next (s.failLocal T L c 6 line)
      | none =>
        let seed := L.rcd.key.extractLsb' 0 32 ^^^ L.rcd.key.extractLsb' 32 32
        let r := d.doRow seed c.salt T.tile.bytes (T.scratch.bytes, 0) c.n
        let put (T : Team) : Team := { T with scratch := { T.scratch with bytes := r.1 } }
        let s := s.modTeam team fun T => (d.lastLines c.n).foldl (fun T l => T.finishLine false tag l) (put T)
        let s := (d.rowLines c.n).foldl (fun s l => s.clearError (.scratch team l)) s
        let s := (s.cmdFlags team tag r.2).modCmd team tag fun c => { c with n := c.n + 1 }
        if c.n + 1 < d.rows then .next s else .next (s.endCmd team tag 0 0)
    | _, _ => .next s
  | _, _, _ => .next s

end Sys2Proof.Machine
end

