-- ==== Sys2Proof/Machine/Slices.lean ====
section
/-! DEFINITION. The picker (R47-R54), clause fetch (R70), counted writes (R84) and the wait-table retry (R64). -/

namespace Sys2Proof.Machine

/-- A thread on a slice, as the picker sees it. -/
structure Cand where
  key : TeamKey
  slot : Nat
  t : Nat
  group : Nat
  lane : Nat
  age : Nat
  pc : DWord
  widx : Nat
  deriving DecidableEq, Repr, Inhabited

def Slice.fetchedAt (x : Slice) (k : TeamKey) (a : DWord) : Option FetchResult :=
  (x.fetched.find? fun f => f.team == k && f.addr == a).map (·.result)

/-- The header's wait mask names only counters at zero; it applies at the header alone (R47, R86). -/
def Thread.maskClear (th : Thread) (header : DWord) : Bool :=
  (List.range 7).all fun j => !headerWaits header (j + 1) || th.counter (BitVec.ofNat 3 (j + 1)) == 0

/-- The team may issue: it is placed, not halted and not being stopped (R47, R325, R336). -/
def Team.issues (T : Team) : Bool := T.place.isSome && !T.halted && !T.stopping

/-- A thread is ready but for its fetch (R47). -/
def Thread.runnable (th : Thread) : Bool := !th.exited && th.trapped.isNone && th.wait.isNone

/-- A thread is ready (R47). -/
def Thread.ready (x : Slice) (k : TeamKey) (th : Thread) : Bool :=
  th.runnable &&
  match x.fetchedAt k th.pc with
  | none => false
  | some (.fault _) => true
  | some (.ok header _) => th.widx != 0 || th.maskClear header

/-- The threads of a team that are resident on a slice (R16, R41). -/
def Team.onSlice (T : Team) (r : LaunchRec) (sl : Nat) : List Nat :=
  match T.place with
  | some p => (List.range T.threads.length).filter fun t => p.slices[r.groupOf t]? == some sl
  | none => []

/-- The ready threads of slice `sl` of a core. -/
def State.readyThreads (s : State) (core sl : Nat) : List Cand :=
  let x := s.sliceAt core sl
  (s.teams.filter fun T => T.core == core && T.issues).flatMap fun T =>
    match s.launch? T.key.launch, T.place with
    | some L, some p =>
      ((T.onSlice L.rcd sl).filter fun t => ((T.threads[t]?).map (Thread.ready x T.key)).getD false).map fun t =>
        let th := (T.threads[t]?).getD (Thread.start 0)
        ⟨T.key, p.slot, t, L.rcd.groupOf t, L.rcd.laneOf t, th.age, th.pc, th.widx⟩
    | _, _ => []

/-- Older, then lower team slot, group and home lane (R51). -/
def Cand.before (x y : Cand) : Bool :=
  if x.age ≠ y.age then decide (y.age < x.age)
  else if x.slot ≠ y.slot then decide (x.slot < y.slot)
  else if x.group ≠ y.group then decide (x.group < y.group)
  else decide (x.lane < y.lane)

/-- The first of a list under `before`. -/
def oldest : List Cand → Option Cand
  | [] => none
  | x :: xs =>
    match oldest xs with
    | none => some x
    | some y => if y.before x then some y else some x

def Cand.sameIssue (x y : Cand) : Bool := x.key == y.key && x.pc == y.pc && x.widx == y.widx

/-- One thread for each home lane: the larger age, then the lower group (R51). -/
def pickLanes (cs : List Cand) : List Cand :=
  cs.filter fun x => cs.all fun y => !(y.lane == x.lane && y.t != x.t) || x.before y

/-- Greedy continuation applies (R50): the previous bundle's threads are all ready at one issue point, it did not yield
and no ready thread is too old. -/
def greedyBundle (prev : Option (TeamKey × List Nat × Bool)) (ready : List Cand) : Option (List Cand) :=
  match prev with
  | some (k, ts, false) =>
    let mine := ready.filter fun x => x.key == k && ts.contains x.t
    match mine with
    | a :: _ =>
      if mine.length == ts.length && mine.all a.sameIssue && ready.all (fun x => decide (x.age < Config.ageLimit)) then
        let more := ready.filter fun x =>
          x.sameIssue a && !ts.contains x.t && mine.all fun y => y.lane != x.lane
        some (mine ++ pickLanes more)
      else none
    | [] => none
  | _ => none

/-- The next bundle of a slice (R50, R51). -/
def chooseBundle (prev : Option (TeamKey × List Nat × Bool)) (ready : List Cand) : Option (List Cand) :=
  match greedyBundle prev ready with
  | some b => some b
  | none => (oldest ready).map fun o => pickLanes (ready.filter o.sameIssue)

/-- Inserts a number into an ascending list, once. -/
def insertNat (x : Nat) : List Nat → List Nat
  | [] => [x]
  | y :: ys => if x < y then x :: y :: ys else if x = y then y :: ys else y :: insertNat x ys

def sortNat (l : List Nat) : List Nat := l.foldl (fun a x => insertNat x a) []

/-- Starts a bundle from what was fetched: the ages become zero (R52), and the team has had a ready cycle; a clause that cannot be fetched or fails a check
traps and does not start (R70, R89). -/
def State.startBundle (s : State) (core sl : Nat) (k : TeamKey) (a : DWord) (widx : Nat) (ts : List Nat) : State :=
  let x := s.sliceAt core sl
  let s := s.modTeam k fun T =>
    { T with unready := false }.onThreads ts fun _ th => { th with age := 0, spaceFull := false }
  let s := s.modSlice core sl fun x =>
    { x with fetched := x.fetched.filter fun f => !(f.team == k && f.addr == a), prev := none }
  match x.fetchedAt k a, s.launch? k.launch with
  | some (.fault byte), _ =>
    s.takeTrap k ⟨0x0A, a, a, 0, a, byte, 0, ts.headD 0, ts⟩
  | some (.ok header words), some L =>
    match checkClause s.features L.rcd ts a header words with
    | some x => s.takeTrap k ⟨x.cause, a, x.waddr, x.word, a, a, 0, x.failing.headD 0, x.failing⟩
    | none => s.modSlice core sl fun y =>
      { y with bundle := some ⟨k, a, words, widx - 1, ts, ts, headerYield header⟩ }
  | _, _ => s

/-- PICK_BUNDLE: a slice whose datapath is free forms its next bundle (R50-R53).
(DEDUCED, log 21) -/
def execPickBundle (core sl : Nat) (s : State) : Host.Outcome State Fault Refusal :=
  let x := s.sliceAt core sl
  match x.bundle with
  | some _ => .next s
  | none =>
    match chooseBundle x.prev (s.readyThreads core sl) with
    | some (a :: b) => .next (s.startBundle core sl a.key a.pc a.widx (sortNat ((a :: b).map (·.t))))
    | _ => .next s

/-- Records what a fetch gave, once for a team and an address. -/
def State.putFetched (s : State) (core sl : Nat) (k : TeamKey) (a : DWord) (r : FetchResult) : State :=
  s.modSlice core sl fun x =>
    { x with fetched := x.fetched.filter (fun f => !(f.team == k && f.addr == a)) ++ [⟨k, a, r⟩] }

/-- CLAUSE_FETCH: header and words of a clause at which a thread of the slice stands, through the die's TLB (R70); it waits while a byte lies
on a peer and its sector has not come.
(DEDUCED, log 19) -/
def execClauseFetch (core sl : Nat) (team : TeamKey) (addr : DWord) (s : State) :
    Host.Outcome State Fault Refusal :=
  match s.team? team, s.launch? team.launch with
  | some T, some L =>
    let stands := (T.onSlice L.rcd sl).any fun t =>
      ((T.threads[t]?).map fun th => !th.exited && th.pc == addr).getD false
    if T.core == core && T.place.isSome && stands then
      let s1 := s.fetchLoads L.ctx T.die 8 addr.toNat
      match s.fetchBytes L.ctx T.die 8 addr.toNat with
      | .fault va => .next (s1.putFetched core sl team addr (.fault (BitVec.ofNat 64 va)))
      | .away w => .next (s1.requestSector T L.ctx w)
      | .ok hb =>
        let header : DWord := BitVec.ofNat 64 (leNat hb)
        let n := headerCount header
        let s2 := s1.fetchLoads L.ctx T.die (8 * n) (addr.toNat + 8)
        match s.fetchBytes L.ctx T.die (8 * n) (addr.toNat + 8) with
        | .fault va => .next (s2.putFetched core sl team addr (.fault (BitVec.ofNat 64 va)))
        | .away w => .next (s2.requestSector T L.ctx w)
        | .ok bs =>
          let word (i : Nat) : DWord := BitVec.ofNat 64 (leNat ((bs.drop (8 * i)).take 8))
          .next (s2.putFetched core sl team addr (.ok header ((List.range n).map word)))
    else .next s
  | _, _ => .next s

/-- Writes the oldest outstanding results that count on kj (R84). -/
def Thread.completeOne (j : BitVec 3) (th : Thread) : Thread :=
  match takeFirst (fun p => p.ctr == j) th.pending with
  | some (p, rest) => { th.results p with pending := rest }
  | none => th

/-- COUNTED_WRITE_COMPLETE: results that count on kj are written, and kj falls by one (R84). -/
def execCountedWriteComplete (team : TeamKey) (t k : Nat) (s : State) : Host.Outcome State Fault Refusal :=
  .next (s.modTeam team fun T => T.modThread t (Thread.completeOne (BitVec.ofNat 3 k)))

/-- WAIT_TABLE_RETRY: 16 cycles after it was turned away the thread is ready again and retries (R64). -/
def execWaitTableRetry (team : TeamKey) (t : Nat) (s : State) : Host.Outcome State Fault Refusal :=
  .next (s.modTeam team fun T => T.modThread t fun th =>
    if th.wait = some (.retry 0) then th.wake T.asleep else th)

end Sys2Proof.Machine
end

