-- ==== Sys2Proof/Machine/Profile.lean ====
section
/-! DEFINITION. The slice cycle, stall counters, samples and monitors (R12, R52, R390-R396). -/

namespace Sys2Proof.Machine

/-! ### Stall reasons (Table 26.2) -/

/-- A command of the matrix engine (R274, R278, R279). -/
def Body.isMatrix : Body → Bool
  | .mat _ | .zero .. | .conv _ => true
  | .copy _ | .lanes _ => false

/-- A matrix command is among the claimants of a line. -/
def Team.matrixClaims (T : Team) (tile : Bool) (line : Nat) : Bool :=
  (T.store tile).claims.any fun p => p.1 == line && T.cmds.any fun c => c.tag == p.2 && c.body.isMatrix

/-- The reason of what a thread waits for; BARA's wait for a second arrival is in no row of its own. -/
def Team.waitReason (T : Team) : Wait → Nat
  | .line tile l => if T.matrixClaims tile l then 11 else 3
  | .retry _ => 4
  | .barrier .. => 5
  | .rearrive _ _ bara .. => if bara then 15 else 5
  | .queue put _ => if put then 6 else 7
  | .collective .. => 8
  | .fence _ | .tag .. => 10

/-- The running word waits for an outstanding write or a full counter (R84, R85, R180). -/
def State.wordHeld (s : State) (core sl : Nat) : Bool :=
  match ({ s with focus := (core, sl) }).cur? with
  | none => false
  | some c =>
    match decodeWord c.word with
    | .ok i => match i with
      | .idembeg h _ a => idemHeld h a c || c.held i h
      | _ => (i.hdr?.map fun h => c.held i h).getD false
    | .error _ => false

/-- The running word is a BRX that waits for a table word (R174, R221). -/
def State.wordAway (s : State) (core sl : Nat) : Bool :=
  match ({ s with focus := (core, sl) }).cur? with
  | none => false
  | some c =>
    match decodeWord c.word with
    | .ok (.brx h toff a) => (brxAway h toff a c s).isSome
    | _ => false

/-- A word names a register, a predicate or a stream register as its result. -/
def Shape.writes (x : Shape) : Bool :=
  !x.regsWritten.isEmpty || !(predNums x.pw).isEmpty || !x.sw.isEmpty

/-- The running word stands right after the lookahead window, empty or not, of an instruction that does not count and
has a result (R83). -/
def Cur.afterWindow (c : Cur) : Bool :=
  (List.range c.b.idx).any fun k =>
    match decodeWord ((c.b.words[k]?).getD 0) with
    | .ok i =>
      (i.shape c.L.rcd.width c.L.rcd.slots).writes &&
        (i.hdr?.map fun h => h.ctr == 0 && k + h.la.toNat + 1 == c.b.idx).getD false
    | .error _ => false

/-- The running word is held after a lookahead window: the window's result is still to be written (R83). -/
def State.wordLate (s : State) (core sl : Nat) : Bool :=
  (({ s with focus := (core, sl) }).cur?.map Cur.afterWindow).getD false &&
    Config.resultLate core sl (s.coreAt core).cycle.toNat

/-- The running word does not execute in this cycle. -/
def State.wordStays (s : State) (core sl : Nat) : Bool :=
  s.wordHeld core sl || s.wordLate core sl || s.wordAway core sl

/-- A team that has been placed has no ready thread yet in this cycle (R338). -/
def State.teamUnready (s : State) (core : Nat) (T : Team) : Bool :=
  T.unready && Config.unready core T.placedAt (s.coreAt core).cycle.toNat

/-- Thread t is a member of the slice's running bundle. -/
def Slice.runs (x : Slice) (k : TeamKey) (t : Nat) : Bool :=
  (x.bundle.map fun b => b.team == k && b.threads.contains t).getD false

/-- The reason of a thread in this cycle: the first row of Table 26.2 that it meets.
(DEDUCED, log 37; DEDUCED, log 163) -/
def State.reason (s : State) (core sl : Nat) (T : Team) (t : Nat) (th : Thread) : Nat :=
  let x := s.sliceAt core sl
  if T.halted || th.trapped.isSome then 13
  else if T.stopping || s.teamUnready core T then 14
  else match th.wait with
    | some w => T.waitReason w
    | none =>
      if x.runs T.key t then (if s.wordHeld core sl then 1 else if s.wordLate core sl then 2 else 15)
      else match x.fetchedAt T.key th.pc with
        | none => 12
        | some r =>
          let clear := match r with
            | .ok header _ => th.widx != 0 || th.maskClear header
            | .fault _ => true
          if !clear then 1
          else if th.spaceFull then 9
          else 0

/-! ### Groups (R390) -/

/-- The lead thread of a group: the oldest that has not exited, of equals the lower home lane. -/
def Team.lead (T : Team) (r : LaunchRec) (g : Nat) : Option (Nat × Thread) :=
  (T.groupLive r g).foldl (fun best t =>
    match T.threads[t]? with
    | none => best
    | some th =>
      match best with
      | none => some (t, th)
      | some b => if b.2.age < th.age then some (t, th) else some b) none

/-- A bundle that holds a thread of the group executes an instruction in this cycle; that of a halted team does so up to
its clause's end (R325).
(DEDUCED, log 36) -/
def State.groupIssues (s : State) (core sl : Nat) (T : Team) (r : LaunchRec) (g : Nat) : Bool :=
  match (s.sliceAt core sl).bundle with
  | none => false
  | some b => b.team == T.key && (b.threads.any fun t => r.groupOf t == g) && !s.wordStays core sl

/-- The counter of a group's bank that counts in this cycle: 0 is *issued*, 1 + r the reason r; none when all threads of
the group have exited. -/
def State.groupCounter (s : State) (core sl : Nat) (T : Team) (r : LaunchRec) (g : Nat) : Option Nat :=
  match T.lead r g with
  | none => none
  | some (t, th) => if s.groupIssues core sl T r g then some 0 else some (1 + s.reason core sl T t th)

/-- Adds one to a counter of a group's bank. -/
def Team.countBank (T : Team) (g i : Nat) : Team :=
  { T with banks := T.banks.modify g fun bank => bank.modify i (· + 1) }

/-- One group's share of a slice cycle, with the tree event it counts for (Table 26.4): 0..15 the reasons, 16 *issued*. -/
def State.countGroup (s : State) (L : Launch) (T : Team) (core g sl : Nat) : State :=
  match s.groupCounter core sl T L.rcd g with
  | none => s
  | some i => (s.modTeam T.key fun T => T.countBank g i).tally L core (if i = 0 then 16 else i - 1) 1

/-- All groups of a resident team. -/
def State.countTeam (s : State) (core : Nat) (T : Team) : State :=
  match T.place, s.launch? T.key.launch with
  | some p, some L =>
    if p.core = core then
      (List.range p.slices.length).foldl (fun s g => s.countGroup L T core g ((p.slices[g]?).getD 0)) s
    else s
  | _, _ => s

/-- A thread grows older by one slice cycle (R52); a refused parking comes nearer to its retry (R64). -/
def Thread.tick (th : Thread) : Thread :=
  if th.exited then th
  else
    { th with
      age := min Config.maxAge (th.age + 1)
      wait := match th.wait with
        | some (.retry (n + 1)) => some (.retry n)
        | w => w }

/-- SLICE_CYCLE: every resident group of the core counts, ages grow, the wait of a placed team for its first ready cycle
may end, and the cycle counter advances (R12, R52, R390).
(DESIGN CHOICE, log 5; DEDUCED, log 35) -/
def execSliceCycle (core : Nat) (s : State) : Host.Outcome State Fault Refusal :=
  let s := s.teams.foldl (fun s T => s.countTeam core T) s
  let s : State := { s with teams := s.teams.map fun T =>
    if T.place.isSome && T.core == core then { T with threads := T.threads.map Thread.tick, unready := s.teamUnready core T }
    else T }
  .next (s.modCore core fun c => { c with cycle := c.cycle + 1 })

/-! ### Samples (R393, R394) -/

/-- The smallest period among the launches that sample on the slice. -/
def State.samplePeriod (s : State) (core sl : Nat) : Option Nat :=
  (((s.sliceGroups core sl).map fun x => x.2.1.rcd.period).filter (· ≠ 0)).min?

/-- The order of (team slot, group). -/
def slotBefore (a b : Nat × Nat) : Bool := decide (a.1 < b.1) || (a.1 == b.1 && decide (a.2 < b.2))

/-- The lowest of a list of groups. -/
def lowestGroup (l : List (Nat × Launch × Team × Nat)) : Option (Nat × Launch × Team × Nat) :=
  l.foldl (fun b x =>
    match b with
    | none => some x
    | some y => if slotBefore (x.1, x.2.2.2) (y.1, y.2.2.2) then some x else some y) none

/-- The next eligible group after the one sampled last, with wrap-around. -/
def nextGroup (last : Option (Nat × Nat)) (l : List (Nat × Launch × Team × Nat)) : Option (Nat × Launch × Team × Nat) :=
  match last with
  | none => lowestGroup l
  | some a =>
    match lowestGroup (l.filter fun x => slotBefore a (x.1, x.2.2.2)) with
    | some x => some x
    | none => lowestGroup l

/-- A sample record (Table 26.4), its flag bit 2 clear. -/
def State.sampleBytes (s : State) (core sl : Nat) (L : Launch) (T : Team) (g : Nat) : List Byte :=
  let x := s.sliceAt core sl
  match T.lead L.rcd g with
  | none => []
  | some (t, th) =>
    let pc := match x.bundle with
      | some b => if x.runs T.key t then b.addr else th.pc
      | none => th.pc
    let reason := (s.groupCounter core sl T L.rcd g).getD 0
    leBytes 6 (s.coreAt core).cycle.toNat ++ leBytes 2 core ++ leBytes 8 (pc.toNat % 2 ^ 56) ++
    leBytes 4 L.num ++ leBytes 4 T.key.n ++ leBytes 4 t ++
    leBytes 1 (if reason = 0 then 16 else reason - 1) ++
    leBytes 1 ((if (T.groupLive L.rcd g).length < L.rcd.width then 1 else 0) + (if th.ckpt.isSome then 2 else 0)) ++
    leBytes 2 th.mark.toNat

/-- A slice takes one sample in a cycle (R394). -/
def Slice.sampledNow (x : Slice) (cycle : DWord) : Bool := x.sampledIn == some cycle

/-- A context's next sample is on its way to its ring (R393, R394). -/
def State.putSample (s : State) (ctx : Nat) (record : List Byte) : State :=
  if s.service.sampleStop.contains ctx then s
  else (s.modService fun v => { v with
    samples := v.samples ++ [⟨v.nextMap, ctx, record, .waits⟩], nextMap := v.nextMap + 1 }).settleSamples

/-- SAMPLE: at a multiple of the period a slice samples its next eligible group, once in the cycle (R394).
(DEDUCED, log 94) -/
def execSample (core sl : Nat) (s : State) : Host.Outcome State Fault Refusal :=
  let s := s.refreshPointer core sl
  let cycle := (s.coreAt core).cycle
  match s.samplePeriod core sl, nextGroup (s.sliceAt core sl).sampled (s.eligible core sl) with
  | some p, some (slot, L, T, g) =>
    if cycle.toNat % p ≠ 0 || (s.sliceAt core sl).sampledNow cycle then .next s
    else .next ((s.modSlice core sl fun x => { x with sampled := some (slot, g), sampledIn := some cycle }).putSample L.ctx
      (s.sampleBytes core sl L T g))
  | _, _ => .next s

/-! ### Levels (R396) -/

/-- Puts a list of levels into monitors from index i on. -/
def State.noteLevels (s : State) : Nat → List Nat → State
  | _, [] => s
  | i, v :: vs => State.noteLevels (s.noteMon i (BitVec.ofNat 32 v)) (i + 1) vs

/-- The HBM4 accesses of a stack since the last level sample. -/
def State.noteStack (s : State) (stack : Nat) : State :=
  (Config.hbmLatencies stack s.service.nextNote).foldl (fun s v => s.noteMon stack v) s

/-- MONITOR_LEVEL_SAMPLE: ten temperatures and 24 rail voltages enter their monitors (Table 26.5); the latencies of the
HBM4 controllers are taken with them, since the manual does not say when an access reaches the memory. -/
def execMonitorLevelSample (temps volts : List Nat) (s : State) : Host.Outcome State Fault Refusal :=
  let s := (List.range 16).foldl (fun s i => s.noteStack i) s
  let s := s.modService fun v => { v with nextNote := v.nextNote + 1 }
  .next ((s.noteLevels 32 (temps.take 10)).noteLevels 42 (volts.take 24))

end Sys2Proof.Machine
end

