-- ==== Sys2Proof/Machine/Reset.lean ====
section
/-! DEFINITION. Reset and power (R384, R388), memory errors (R342), service cores and spares (R24, R387), and what the
device does at all while it is down or in the loader. -/

namespace Sys2Proof.Machine

/-! ### Spares (R387, Table 25.6) -/

/-- Spares of a kind that a die uses or is due to use. -/
def Service.taken (v : Service) (kind die : Nat) : Nat :=
  ((v.usedSpares ++ v.dueSpares).filter fun x => x.kind == kind && x.die == die).length

/-- The spare is in use or due; a slice has one spare way, whichever way it stands in for, and a row that fails again after
its repair is repaired again (Table 25.6). -/
def Service.hasSpare (v : Service) (x : Spare) : Bool :=
  ((if x.kind = 3 then [] else v.usedSpares) ++ v.dueSpares).any fun y =>
    y == x || (x.kind == 2 && y.kind == 2 && y.die == x.die && y.index / 16 == x.index / 16)

/-- A spare is to be brought in at the next reset. -/
def State.dueSpare (s : State) (x : Spare) : State :=
  if s.service.hasSpare x then s else s.modService fun v => { v with dueSpares := v.dueSpares ++ [x] }

/-- The errors of a core since reset. -/
def Service.errorsOf (v : Service) (core : Nat) : CoreErrors := (v.coreErrors.find? fun e => e.core == core).getD ⟨core, 0, 0⟩

def Service.setErrors (v : Service) (e : CoreErrors) : Service :=
  { v with coreErrors := v.coreErrors.filter (fun x => x.core != e.core) ++ [e] }

/-- Two uncorrectable or 4,096 corrected errors: the core is to be replaced (Table 25.6). -/
def CoreErrors.failing (e : CoreErrors) : Bool := decide (2 ≤ e.hard) || decide (4096 ≤ e.soft)

/-- Counts an error of a core. A core that has become failing is due to be replaced, though it be one that a spare has
replaced before; on a die whose two spares are gone it stays in service and the device reports itself degraded (R387).
(DEDUCED, log 92) -/
def State.coreError (s : State) (core : Nat) (hard : Bool) : State :=
  let e := s.service.errorsOf core
  let e' : CoreErrors := if hard then { e with hard := e.hard + 1 } else { e with soft := e.soft + 1 }
  let s := s.modService fun v => v.setErrors e'
  if e'.failing && !e.failing then
    if s.service.taken 1 (dieOf core) < 2 then s.modService fun v =>
      { v with dueSpares := v.dueSpares ++ [⟨1, dieOf core, core % Config.coresPerDie⟩] }
    else s.emit 10 noNumber noNumber (leBytes 1 (dieOf core))
  else s

/-! ### Memory errors (R342) -/

/-- The index of a memory kind among the corrected-error counts (R396). -/
def errKind : ErrLoc → Nat
  | .hbm _ => 0
  | .l2 .. => 1
  | .scratch .. => 2
  | .tile .. => 3
  | .reg .. => 4

/-- The core whose memory the location is, if it is a core's. -/
def State.errCore (s : State) : ErrLoc → Option Nat
  | .scratch k _ | .tile k _ | .reg k _ _ => ((s.team? k).bind (·.place)).map (·.core)
  | _ => none

/-- The location is there: memory that is populated, a sector that a die's L2 holds or that its home
slice answers for (R13, R22), a line or register of a team that is
placed. -/
def State.errPlace (s : State) : ErrLoc → Bool
  | .hbm line => dpaPopulated (line * 128)
  | .l2 d k i => ((s.dieAt d).sector? k i).isSome || (isHome d k && dpaPopulated (k.line * 128) && decide (i < 4))
  | .scratch k line => match s.team? k, s.launch? k.launch with
    | some T, some L => T.place.isSome && decide (line * 128 < L.rcd.scratchAlloc)
    | _, _ => false
  | .tile k line => match s.team? k, s.launch? k.launch with
    | some T, some L => T.place.isSome && decide (line * 128 < L.rcd.tileAlloc)
    | _, _ => false
  | .reg k t r => match s.team? k, s.launch? k.launch with
    | some T, some L => T.place.isSome && decide (t < T.threads.length) && decide (r < L.rcd.budgetOf t)
    | _, _ => false

/-- The spare way or row that a failing location calls for; which way or row it lies in is free (Table 25.6).
(DESIGN CHOICE, log 118; DESIGN CHOICE, log 195) -/
def State.errSpare (s : State) (loc : ErrLoc) (hard : Bool) : Option Spare :=
  match loc with
  | .hbm line => if hard then some ⟨3, dpaDie (line * 128), (Config.freeField 8 line).toNat % 65536⟩ else none
  | .l2 d k _ => some ⟨2, d, 16 * homeSlice (k.line * 128) + (Config.freeField 9 s.service.nextNote).toNat % 16⟩
  | _ => none

/-- MEMORY_ERROR: a single-bit error is corrected and counted; an uncorrectable one stays for the reader that meets it
(R342, R387). -/
def execMemoryError (loc : ErrLoc) (uncorrectable : Bool) (s : State) : Host.Outcome State Fault Refusal :=
  if !s.errPlace loc then .next s
  else
    let s := match s.errSpare loc uncorrectable with
      | some x => s.dueSpare x
      | none => s
    let s := match s.errCore loc with
      | some c => s.coreError c uncorrectable
      | none => s
    if uncorrectable then
      let rewritten := s.rewritten.filter fun x => !errOfLine x.1.1 loc
      .next { s with errors := if s.errors.contains loc then s.errors else s.errors ++ [loc], rewritten := rewritten }
    else .next (s.modService fun v => { v with corrected := v.corrected.modify (errKind loc) (· + 1) })

/-! ### Service cores (R24) -/

/-- SERVICE_CORE_RETIRED: the spare of its I/O die takes its number at the next reset; with that spare gone the loss is
reported and the others carry its functions (R24, R387). -/
def execServiceCoreRetired (core : Nat) (s : State) : Host.Outcome State Fault Refusal :=
  if 8 ≤ core ∨ s.service.retired.contains core then .next s
  else
    let die := core / 4
    let s := s.modService fun v => { v with retired := v.retired ++ [core] }
    if s.service.taken 5 die = 0 then .next (s.dueSpare ⟨5, die, core % 4⟩)
    else .next (s.emit 8 noNumber noNumber (leBytes 1 die))

/-! ### Reset and power (R384, R388) -/

/-- The service side at the end of bring-up, or in the loader: flash, its counts and the spares outlast a reset.
(DEDUCED, log 117) -/
def Service.boot (v : Service) : Service :=
  { Service.reset with
    loader := !v.flashOk
    flash := v.flash
    flashOk := v.flashOk
    image := if v.flashOk then v.flash else []
    keysUsed := v.keysUsed
    retired := if v.flashOk then
        v.retired.filter fun c => !v.dueSpares.contains ⟨5, c / 4, c % 4⟩
      else v.retired
    usedSpares := if v.flashOk then v.usedSpares ++ v.dueSpares else v.usedSpares
    dueSpares := if v.flashOk then [] else v.dueSpares }

/-- The body of a spare EVENT (Table 25.8). -/
def Spare.bytes (x : Spare) : List Byte := leBytes 1 x.kind ++ leBytes 1 x.die ++ leBytes 2 x.index

/-- The device as a reset leaves it: no context, launch or mapping survives, and all memory reads zero. What it has told the
host, and the model's own turns, are kept. -/
def State.booted (s : State) : State :=
  { State.reset with
    agenda := s.agenda
    turns := s.turns
    events := s.events
    ports := s.ports.map fun p => { Port.reset with wire := p.wire }
    service := s.service.boot }

/-- DEVICE_RESET: with a flash image that verifies the device boots, applies the spares that are due and tells the host of
each; otherwise it enters the loader (R384, R387, R388). -/
def execDeviceReset (s : State) : Host.Outcome State Fault Refusal :=
  let b := s.booted
  if s.service.flashOk then
    .next (s.service.dueSpares.foldl (fun b x => b.emit 5 noNumber noNumber x.bytes) b)
  else .next b

/-- The image of a COMMIT that may be under way: the host's next message is one, and its image verifies. -/
def State.committing (s : State) : Option (List Byte) :=
  match s.nextMessage with
  | some (.act (.firmwareCommit _ len), _) =>
    let image := s.service.staging.read 0 len
    if signatureOk image then some image else none
  | _ => none

/-- POWER_LOSS: the device stops. A COMMIT that was under way leaves the old image, the new one, or flash that does not
verify; which of them is free (R384).
(DESIGN CHOICE, log 116) -/
def execPowerLoss (s : State) : Host.Outcome State Fault Refusal :=
  let v := s.service
  let v := match s.committing with
    | none => v
    | some image =>
      match (Config.freeField 10 s.turns).toNat % 3 with
      | 0 => v
      | 1 => { v with flash := image, flashOk := true }
      | _ => { v with flashOk := false }
  let off : Service :=
    { Service.reset with
      running := false, flash := v.flash, flashOk := v.flashOk, keysUsed := v.keysUsed, retired := v.retired,
      usedSpares := v.usedSpares, dueSpares := v.dueSpares }
  .next { s.booted with service := off }

/-- What happens at all: everything while the device runs; in the loader, the host port's steps, the messages that the
loader answers, reset and power loss; with the power off, the reset that starts it (R384, R388). -/
def State.admits (s : State) (t : Turn) : Bool :=
  if !s.service.running then
    match t with
    | .event .deviceReset => true
    | _ => false
  else if !s.service.loader then true
  else match t with
    | .slice .. => false
    | .host => true
    | .event e => e.forLoader || (match e with
      | .deviceReset | .powerLoss | .transportFrameReceive .. | .hostRetransmitTimeout _ => true
      | _ => false)

end Sys2Proof.Machine
end

