-- ==== Sys2Proof/Machine/Streams.lean ====
section
/-! DEFINITION. Stream registers and the instructions that use them (R208-R210). -/

namespace Sys2Proof.Machine

def Thread.stream (th : Thread) (f : SCode) : Stream := (th.streams[f.toNat]?).getD Stream.unbound

/-- Delivers register, predicate and stream results (R84). -/
def Team.deliverAll (T : Team) (h : Hdr) (t : Nat) (rs : List (Nat × Word)) (ps : List (Nat × Bool))
    (ss : List (Nat × Stream)) : Team :=
  T.modThread t fun th => th.deliver h.ctr rs ps ss

/-- A stream word without scratch access. -/
def streamWord (i : Instr) (f : Hdr → Cur → Nat → Team → Team) (s : State) : Host.Outcome State Fault Refusal :=
  accessWord i noError (fun h c _ t T => f h c t T) s

/-- SOPEN (R209). -/
def openStream (a0 a1 n p0 : Word) : Stream :=
  ⟨true, a0 - a0 % 4, a1 - a1 % 4, n, if p0.toNat ≤ n.toNat then p0 else n⟩

/-- SADV: the position moves, never past the end (R209). -/
def Stream.adv (x : Stream) (k : Nat) : Stream := { x with pos := BitVec.ofNat 32 (min x.len.toNat (x.pos.toNat + k)) }

def execSopen (h : Hdr) (f : SCode) (a : Opnd) (s : State) : Host.Outcome State Fault Refusal :=
  streamWord (.sopen h f a) (fun h c t T =>
    let e := c.env t
    T.deliverAll h t [] [] [(f.toNat, openStream (e.quad a 0) (e.quad a 1) (e.quad a 2) (e.quad a 3))]) s

def execSadv (h : Hdr) (f : SCode) (a : Opnd) (s : State) : Host.Outcome State Fault Refusal :=
  streamWord (.sadv h f a) (fun h c t T =>
    T.deliverAll h t [] [] [(f.toNat, ((c.thread t).stream f).adv ((c.env t).r32 a).toNat)]) s

def execStend (h : Hdr) (pd : PCode) (f : SCode) (s : State) : Host.Outcome State Fault Refusal :=
  streamWord (.stend h pd f) (fun h c t T =>
    let x := (c.thread t).stream f
    T.deliverAll h t [] (wp pd (decide (x.len.toNat ≤ x.pos.toNat))) []) s

def execSclose (h : Hdr) (f : SCode) (s : State) : Host.Outcome State Fault Refusal :=
  streamWord (.sclose h f) (fun h _ t T => T.deliverAll h t [] [] [(f.toNat, Stream.unbound)]) s

/-- The word at index i of an array of a stream: its scratch offset (R209: formed modulo 2^32, aligned). -/
def streamOffset (base : Word) (i : Nat) : Nat :=
  let o := (base.toNat + 4 * i) % 2 ^ 32
  o - o % 4

/-- ReadScratch of R209: zero out of range. -/
def Team.streamWord (T : Team) (r : LaunchRec) (o : Nat) : Nat :=
  if r.inRange false o 4 then T.readStore false o 4 else 0

/-- The line of a read that must wait: in range and not full (Table 10.1). -/
def Team.streamWaits (T : Team) (r : LaunchRec) (o : Nat) : Option Nat :=
  if r.inRange false o 4 && !(T.store false).full (o / 128) then some (o / 128) else none

/-- Records the first of these reads that is out of range (R184). -/
def Team.recordReads (T : Team) (r : LaunchRec) (os : List Nat) (t : Nat) : Team :=
  match os.find? fun o => !r.inRange false o 4 with
  | some o => T.recordRange false false o t
  | none => T

/-- One thread's SCRD (R209). -/
def scrdThread (sel : ScrdSel) (d : Opnd) (f : SCode) (h : Hdr) (c : Cur) (others t : Nat) (T : Team) : Team :=
  let x := (c.thread t).stream f
  let r := c.L.rcd
  let read (base : Word) (past : Word) : Team :=
    if x.pos.toNat < x.len.toNat then
      let o := streamOffset base x.pos.toNat
      match T.streamWaits r o with
      | some line => T.parkLine c others t false line
      | none => (T.recordReads r [o] t).deliverAll h t (w32 d (BitVec.ofNat 32 (T.streamWord r o))) [] []
    else T.deliverAll h t (w32 d past) [] []
  match sel with
  | .coord => read x.coff 0xFFFFFFFF
  | .val => read x.voff 0
  | .pos => T.deliverAll h t (w32 d x.pos) [] []
  | .len => T.deliverAll h t (w32 d x.len) [] []

/-- The offsets of a stream's window: up to 16 coordinates from its position (R210). -/
def Stream.window (x : Stream) : List Nat :=
  (List.range (min 16 (x.len.toNat - x.pos.toNat))).map fun i => streamOffset x.coff (x.pos.toNat + i)

/-- The last coordinate of a window if the stream goes on past it; none is +∞ (R210). -/
def windowLimit (x : Stream) (w : List Nat) : Option Nat :=
  if x.pos.toNat + w.length < x.len.toNat then w.getLast? else none

/-- The smaller of two limits; none is +∞. -/
def minLimit : Option Nat → Option Nat → Option Nat
  | none, y => y
  | x, none => x
  | some x, some y => some (min x y)

/-- v ≤ limit. -/
def underLimit (l : Option Nat) (v : Nat) : Bool :=
  match l with
  | some m => decide (v ≤ m)
  | none => true

/-- Inserts a number into an ascending list without repeats. -/
def insertAsc (x : Nat) : List Nat → List Nat
  | [] => [x]
  | y :: ys => if x < y then x :: y :: ys else if x = y then y :: ys else y :: insertAsc x ys

/-- Bits of the consumed coordinates of one window that the other consumed too (R210). -/
def matchBits (w v : List Nat) (adv advV : Nat) : Nat :=
  let seen := v.take advV
  ((List.range (min 16 adv)).map fun i =>
    match w[i]? with
    | some x => if seen.contains x then 2 ^ i else 0
    | none => 0).sum

/-- The consumed counts and match masks of SISECT and SUNION (R210): advA, advB, mA, mB. -/
def mergeWindows (union : Bool) (xa xb : Stream) (wa wb : List Nat) : Nat × Nat × Nat × Nat :=
  let m := minLimit (windowLimit xa wa) (windowLimit xb wb)
  let cut :=
    if union then
      let u := ((wa ++ wb).filter (underLimit m)).foldl (fun l x => insertAsc x l) []
      match u[min 16 u.length - 1]? with
      | some x => some x
      | none => m
    else m
  let adv (w : List Nat) : Nat := (w.filter (underLimit cut)).length
  (adv wa, adv wb, matchBits wa wb (adv wa) (adv wb), matchBits wb wa (adv wb) (adv wa))

/-- The number of ones among the low 16 bits. -/
def pop16 (x : Nat) : Nat := ((List.range 16).filter fun i => x.testBit i).length

/-- One thread's SISECT or SUNION: all of it, or it parks on the lowest empty line of its windows (R210). -/
def mergeThread (union : Bool) (d : Opnd) (fa fb : SCode) (h : Hdr) (c : Cur) (others t : Nat) (T : Team) : Team :=
  let r := c.L.rcd
  let xa := (c.thread t).stream fa
  let xb := (c.thread t).stream fb
  let os := xa.window ++ xb.window
  match (os.filterMap (T.streamWaits r)).min? with
  | some line => T.parkLine c others t false line
  | none =>
    let wa := xa.window.map (T.streamWord r)
    let wb := xb.window.map (T.streamWord r)
    let (na, nb, ma, mb) := mergeWindows union xa xb wa wb
    let count := if union then na + nb - pop16 ma else pop16 ma
    (T.recordReads r os t).deliverAll h t
      (wquad d (BitVec.ofNat 32 (mb * 65536 + ma)) (BitVec.ofNat 32 (count % 32 * 65536 + nb * 256 + na)) xa.pos xb.pos) []
      [(fa.toNat, { xa with pos := BitVec.ofNat 32 (xa.pos.toNat + na) }),
       (fb.toNat, { xb with pos := BitVec.ofNat 32 (xb.pos.toNat + nb) })]

/-- A thread whose stream reads meet an uncorrectable error in a full line (R344). -/
def streamError (reads : Cur → Nat → List Nat) (_ : Hdr) (c : Cur) (s : State) (t : Nat) : Option WordStop :=
  if s.errors.isEmpty then none
  else
    let os := reads c t
    if (os.filterMap (c.T.streamWaits c.L.rcd)).isEmpty then
      (os.find? fun o => c.L.rcd.inRange false o 4 && s.errors.contains (.scratch c.b.team (o / 128))).map
        fun o => .error 5 (o / 128 * 128)
    else none

/-- The offsets that SCRD reads. -/
def scrdReads (sel : ScrdSel) (f : SCode) (c : Cur) (t : Nat) : List Nat :=
  let x := (c.thread t).stream f
  if x.pos.toNat < x.len.toNat then
    match sel with
    | .coord => [streamOffset x.coff x.pos.toNat]
    | .val => [streamOffset x.voff x.pos.toNat]
    | .pos | .len => []
  else []

def mergeReads (fa fb : SCode) (c : Cur) (t : Nat) : List Nat :=
  ((c.thread t).stream fa).window ++ ((c.thread t).stream fb).window

def execScrd (h : Hdr) (sel : ScrdSel) (d : Opnd) (f : SCode) (s : State) : Host.Outcome State Fault Refusal :=
  accessWord (.scrd h sel d f) (streamError (scrdReads sel f)) (scrdThread sel d f) s

def execSisect (h : Hdr) (d : Opnd) (fa fb : SCode) (s : State) : Host.Outcome State Fault Refusal :=
  accessWord (.sisect h d fa fb) (streamError (mergeReads fa fb)) (mergeThread false d fa fb) s

def execSunion (h : Hdr) (d : Opnd) (fa fb : SCode) (s : State) : Host.Outcome State Fault Refusal :=
  accessWord (.sunion h d fa fb) (streamError (mergeReads fa fb)) (mergeThread true d fa fb) s

end Sys2Proof.Machine
end

