-- ==== Sys2Proof/Machine/Trans.lean ====
section
/-! DEFINITION. The transcendental functions of FP32, correctly rounded (R163). Each is computed as a whole number of
steps of 2^-p with a known error; the result is taken when both ends of the error round alike, else with twice the
precision. Exact results are decided beforehand, so no interval holds a rounding boundary for ever. -/

namespace Sys2Proof.Machine

/-- Error bound, in steps of 2^-p, of every approximation below: far above the number of truncated terms. -/
def ulpBound : Nat := 2 ^ 32

/-- Σ x^k / k! from term k on, in steps of 2^-p; `t` is the term before. -/
def expSum (p x : Nat) : Nat → Nat → Nat → Nat
  | 0, _, _ => 0
  | n + 1, k, t =>
    if t = 0 then 0
    else
      let t' := t * x / 2 ^ p / k
      t + expSum p x n (k + 1) t'

/-- exp x for 0 ≤ x < 1, in steps of 2^-p. -/
def expFix (p x : Nat) : Nat := expSum p x p 1 (2 ^ p)

/-- Σ z^(2k+1) / (2k+1), in steps of 2^-p; `w` is the power before division and z2 = z². -/
def atanhSum (p z2 : Nat) : Nat → Nat → Nat → Nat
  | 0, _, _ => 0
  | n + 1, k, w => if w = 0 then 0 else w / k + atanhSum p z2 n (k + 2) (w * z2 / 2 ^ p)

/-- ln y for 1 ≤ y ≤ 2, y in steps of 2^-p: 2 artanh((y - 1) / (y + 1)). -/
def lnFix (p y : Nat) : Nat :=
  let z := (y - 2 ^ p) * 2 ^ p / (y + 2 ^ p)
  2 * atanhSum p (z * z / 2 ^ p) p 1 z

/-- ln 2 in steps of 2^-p. -/
def ln2Fix (p : Nat) : Nat := lnFix p (2 ^ (p + 1))

/-- arctan(1/q) in steps of 2^-p, as the sums of its positive and of its negative terms. -/
def atanInv (q2 : Nat) : Nat → Nat → Nat → Nat × Nat
  | 0, _, _ => (0, 0)
  | n + 1, k, w =>
    if w = 0 then (0, 0)
    else
      let r := atanInv q2 n (k + 2) (w / q2)
      -- the rest has the opposite signs
      (w / k + r.2, r.1)

/-- π in steps of 2^-p: 16 arctan(1/5) − 4 arctan(1/239). -/
def piFix (p : Nat) : Nat :=
  let a := atanInv 25 p 1 (2 ^ p / 5)
  let b := atanInv 57121 p 1 (2 ^ p / 239)
  16 * a.1 + 4 * b.2 - 16 * a.2 - 4 * b.1

/-- Alternating Taylor series of sine (first term x) or cosine (first term 1): positive and negative sums. -/
def trigSum (p x2 : Nat) : Nat → Nat → Nat → Nat × Nat
  | 0, _, _ => (0, 0)
  | n + 1, k, t =>
    if t = 0 then (0, 0)
    else
      let r := trigSum p x2 n (k + 2) (t * x2 / 2 ^ p / ((k + 1) * (k + 2)))
      (t + r.2, r.1)

def sinFix (p x : Nat) : Nat :=
  let r := trigSum p (x * x / 2 ^ p) p 1 x
  r.1 - r.2

def cosFix (p x : Nat) : Nat :=
  let r := trigSum p (x * x / 2 ^ p) p 0 (2 ^ p)
  r.1 - r.2

/-- Rounds (a ± ulpBound) × 2^e in RNE: the result if both ends agree. -/
def agree (neg : Bool) (a : Nat) (e : Int) : Option FRes :=
  if a ≤ ulpBound then none
  else
    let lo := fp32.finish .rne (.fin neg (2 * (a - ulpBound) + 1) (e - 1))
    let hi := fp32.finish .rne (.fin neg (2 * (a + ulpBound) - 1) (e - 1))
    if lo = hi then some lo else none

/-- Tries precisions p, 2p, …; an approximation is a sign, a count of steps and the step's exponent. -/
def ziv (f : Nat → Bool × Nat × Int) : Nat → Nat → FRes
  | 0, p => let x := f p; fp32.finish .rne (.fin x.1 (2 * x.2.1 + 1) (x.2.2 - 1))
  | n + 1, p =>
    let x := f p
    match agree x.1 x.2.1 x.2.2 with
    | some r => r
    | none => ziv f n (2 * p)

/-- The first precision: twice what the closest FP32 argument of any of these functions needs. -/
def zivStart : Nat := 1024

/-- m × 2^e in steps of 2^-p, rounded down. -/
def fixOf (m : Nat) (e : Int) (p : Nat) : Nat :=
  let k : Int := e + p
  if 0 ≤ k then m * 2 ^ k.toNat else m / 2 ^ (-k).toNat

/-- A value below every FP32 subnormal, and one above every finite FP32 value. -/
def belowAll (neg : Bool) : Num := .fin neg 1 (-400)

def aboveAll : Num := .fin false 3 400

/-- 2^a (R163). -/
def ex2 (x : Num) : FRes :=
  match x with
  | .nan s => ⟨fp32.canonNaN, flagIf fNV s⟩
  | .inf s => if s then ⟨0, 0⟩ else ⟨fp32.infBits false, 0⟩
  | .fin s m e =>
    let sg := scaled s m e (-160)
    -- sg = a × 2^160 when e ≥ -160, which holds for every FP32 value
    if 200 * 2 ^ 160 ≤ sg then fp32.finish .rne aboveAll
    else if sg ≤ -(400 * 2 ^ 160) then fp32.finish .rne (belowAll false)
    else
      let i := sg / 2 ^ 160
      let fr := (sg % 2 ^ 160).toNat
      if fr = 0 then fp32.finish .rne (.fin false 1 i)
      else ziv (fun p => (false, expFix p (fixOf (fr * ln2Fix p) (-160) 0), i - p)) 4 zivStart

/-- log₂ a (R163). -/
def lg2 (x : Num) : FRes :=
  match x with
  | .nan s => ⟨fp32.canonNaN, flagIf fNV s⟩
  | .inf s => if s then ⟨fp32.canonNaN, fNV⟩ else ⟨fp32.infBits false, 0⟩
  | .fin s m e =>
    if m = 0 then ⟨fp32.infBits true, fDZ⟩
    else if s then ⟨fp32.canonNaN, fNV⟩
    else
      let k := Nat.log2 m
      let i : Int := (k : Int) + e
      if m = 2 ^ k then fp32.finish .rne (.fin (decide (i < 0)) i.natAbs 0)
      else ziv (fun p =>
        let l := lnFix p (m * 2 ^ p / 2 ^ k) * 2 ^ p / ln2Fix p
        let y : Int := i * 2 ^ p + l
        (decide (y < 0), y.natAbs, -p)) 4 zivStart

/-- Quadrant and reduced argument of |a| = m × 2^e, in steps of 2^-p, with 200 more bits for the reduction. -/
def quadrant (m : Nat) (e : Int) (p : Nat) : Nat × Nat :=
  let q := p + 200
  let half := piFix q / 2
  let x := fixOf m e q
  (x / half % 4, x % half / 2 ^ 200)

/-- sin a (R163). -/
def fsin (x : Num) : FRes :=
  match x with
  | .nan s => ⟨fp32.canonNaN, flagIf fNV s⟩
  | .inf _ => ⟨fp32.canonNaN, fNV⟩
  | .fin s m e =>
    if m = 0 then ⟨fp32.encode x, 0⟩
    else ziv (fun p =>
      let r := quadrant m e p
      (xor s (decide (2 ≤ r.1)), if r.1 % 2 = 0 then sinFix p r.2 else cosFix p r.2, -p)) 4 zivStart

/-- cos a (R163). -/
def fcos (x : Num) : FRes :=
  match x with
  | .nan s => ⟨fp32.canonNaN, flagIf fNV s⟩
  | .inf _ => ⟨fp32.canonNaN, fNV⟩
  | .fin _ m e =>
    if m = 0 then ⟨fp32.encode .one, 0⟩
    else ziv (fun p =>
      let r := quadrant m e p
      (r.1 == 1 || r.1 == 2, if r.1 % 2 = 0 then cosFix p r.2 else sinFix p r.2, -p)) 4 zivStart

/-- tanh a (R163): (E − 1) / (E + 1) with E = exp 2|a|; from 64 on it lies just below 1. -/
def ftanh (x : Num) : FRes :=
  match x with
  | .nan s => ⟨fp32.canonNaN, flagIf fNV s⟩
  | .inf s => ⟨fp32.encode (.fin s 1 0), 0⟩
  | .fin s m e =>
    if m = 0 then ⟨fp32.encode x, 0⟩
    else if 64 * 2 ^ 160 ≤ fixOf m e 160 then fp32.finish .rne (.fin s (2 ^ 200 - 1) (-200))
    else ziv (fun p =>
      let q := p + 200
      let l := ln2Fix q
      let y := 2 * fixOf m e q
      let t := expFix q (y % l) * 2 ^ (y / l)
      (s, (t - 2 ^ q) * 2 ^ p / (t + 2 ^ q), -p)) 4 zivStart

def transOut (f : Num → FRes) (d a : Opnd) (e : Env) : Out := f32Out e .rne d (f (e.f32 a))

def outFex2 := transOut ex2
def outFlg2 := transOut lg2
def outFsin := transOut fsin
def outFcos := transOut fcos
def outFtanh := transOut ftanh

def execFex2 (h : Hdr) (d a : Opnd) (s : State) : Host.Outcome State Fault Refusal :=
  aluWord (.fex2 h d a) (outFex2 d a) s

def execFlg2 (h : Hdr) (d a : Opnd) (s : State) : Host.Outcome State Fault Refusal :=
  aluWord (.flg2 h d a) (outFlg2 d a) s

def execFsin (h : Hdr) (d a : Opnd) (s : State) : Host.Outcome State Fault Refusal :=
  aluWord (.fsin h d a) (outFsin d a) s

def execFcos (h : Hdr) (d a : Opnd) (s : State) : Host.Outcome State Fault Refusal :=
  aluWord (.fcos h d a) (outFcos d a) s

def execFtanh (h : Hdr) (d a : Opnd) (s : State) : Host.Outcome State Fault Refusal :=
  aluWord (.ftanh h d a) (outFtanh d a) s

end Sys2Proof.Machine
end

