-- ==== Sys2Proof/Machine/Dispatch.lean ====
section
/-! DEFINITION. One arm per constructor of `Instr`: the meaning of every instruction and step. -/

namespace Sys2Proof.Machine

/-- The meaning of every instruction and step.
(DESIGN CHOICE, log 3) -/
def exec (i : Instr) (s : State) : Host.Outcome State Fault Refusal :=
  match i with
  | .iadd h t sat d a b => Sys2Proof.Machine.execIadd h t sat d a b s
  | .isub h t sat d a b => Sys2Proof.Machine.execIsub h t sat d a b s
  | .iaddc h pk d a b => Sys2Proof.Machine.execIaddc h pk d a b s
  | .imul h t sat d a b => Sys2Proof.Machine.execImul h t sat d a b s
  | .imulh h t d a b => Sys2Proof.Machine.execImulh h t d a b s
  | .imad h x64 d a b c => Sys2Proof.Machine.execImad h x64 d a b c s
  | .imadw h uns d a b c => Sys2Proof.Machine.execImadw h uns d a b c s
  | .imin h t d a b => Sys2Proof.Machine.execImin h t d a b s
  | .imax h t d a b => Sys2Proof.Machine.execImax h t d a b s
  | .iabs h t sat d a => Sys2Proof.Machine.execIabs h t sat d a s
  | .ineg h t sat d a => Sys2Proof.Machine.execIneg h t sat d a s
  | .shl h x64 d a b => Sys2Proof.Machine.execShl h x64 d a b s
  | .shr h x64 d a b => Sys2Proof.Machine.execShr h x64 d a b s
  | .sar h x64 d a b => Sys2Proof.Machine.execSar h x64 d a b s
  | .rotl h d a b => Sys2Proof.Machine.execRotl h d a b s
  | .and h x64 d a b => Sys2Proof.Machine.execAnd h x64 d a b s
  | .or h x64 d a b => Sys2Proof.Machine.execOr h x64 d a b s
  | .xor h x64 d a b => Sys2Proof.Machine.execXor h x64 d a b s
  | .andn h x64 d a b => Sys2Proof.Machine.execAndn h x64 d a b s
  | .not h x64 d a => Sys2Proof.Machine.execNot h x64 d a s
  | .lop3 h x64 fn d a b => Sys2Proof.Machine.execLop3 h x64 fn d a b s
  | .popc h d a => Sys2Proof.Machine.execPopc h d a s
  | .clz h d a => Sys2Proof.Machine.execClz h d a s
  | .ctz h d a => Sys2Proof.Machine.execCtz h d a s
  | .brev h d a => Sys2Proof.Machine.execBrev h d a s
  | .bfx h uns d a b => Sys2Proof.Machine.execBfx h uns d a b s
  | .bfi h d a b c => Sys2Proof.Machine.execBfi h d a b c s
  | .bperm h d a b c => Sys2Proof.Machine.execBperm h d a b c s
  | .iset h t cmp pd a b => Sys2Proof.Machine.execIset h t cmp pd a b s
  | .sel h pk d a b => Sys2Proof.Machine.execSel h pk d a b s
  | .mov h x64 d a => Sys2Proof.Machine.execMov h x64 d a s
  | .movi h imm d => Sys2Proof.Machine.execMovi h imm d s
  | .pset h op pd pa pb => Sys2Proof.Machine.execPset h op pd pa pb s
  | .pmov h form => Sys2Proof.Machine.execPmov h form s
  | .fadd h rnd d a b => Sys2Proof.Machine.execFadd h rnd d a b s
  | .fsub h rnd d a b => Sys2Proof.Machine.execFsub h rnd d a b s
  | .fmul h rnd d a b => Sys2Proof.Machine.execFmul h rnd d a b s
  | .ffma h rnd d a b c => Sys2Proof.Machine.execFfma h rnd d a b c s
  | .fmin h d a b => Sys2Proof.Machine.execFmin h d a b s
  | .fmax h d a b => Sys2Proof.Machine.execFmax h d a b s
  | .fset h cmp pd a b => Sys2Proof.Machine.execFset h cmp pd a b s
  | .fclass h src d a => Sys2Proof.Machine.execFclass h src d a s
  | .frnd h rnd exact d a => Sys2Proof.Machine.execFrnd h rnd exact d a s
  | .frcp h rnd d a => Sys2Proof.Machine.execFrcp h rnd d a s
  | .frsq h rnd d a => Sys2Proof.Machine.execFrsq h rnd d a s
  | .fsqrt h rnd d a => Sys2Proof.Machine.execFsqrt h rnd d a s
  | .fdiv h rnd d a b => Sys2Proof.Machine.execFdiv h rnd d a b s
  | .fex2 h d a => Sys2Proof.Machine.execFex2 h d a s
  | .flg2 h d a => Sys2Proof.Machine.execFlg2 h d a s
  | .fsin h d a => Sys2Proof.Machine.execFsin h d a s
  | .fcos h d a => Sys2Proof.Machine.execFcos h d a s
  | .ftanh h d a => Sys2Proof.Machine.execFtanh h d a s
  | .hadd2 h bf rnd d a b => Sys2Proof.Machine.execHadd2 h bf rnd d a b s
  | .hmul2 h bf rnd d a b => Sys2Proof.Machine.execHmul2 h bf rnd d a b s
  | .hfma2 h bf rz d a b c => Sys2Proof.Machine.execHfma2 h bf rz d a b c s
  | .dadd h rnd d a b => Sys2Proof.Machine.execDadd h rnd d a b s
  | .dmul h rnd d a b => Sys2Proof.Machine.execDmul h rnd d a b s
  | .dfma h rnd d a b c => Sys2Proof.Machine.execDfma h rnd d a b c s
  | .dmin h d a b => Sys2Proof.Machine.execDmin h d a b s
  | .dmax h d a b => Sys2Proof.Machine.execDmax h d a b s
  | .dset h cmp pd a b => Sys2Proof.Machine.execDset h cmp pd a b s
  | .drcp h rnd d a => Sys2Proof.Machine.execDrcp h rnd d a s
  | .cvt h fs src rnd d a => Sys2Proof.Machine.execCvt h fs src rnd d a s
  | .qnt h fs rnd d a b => Sys2Proof.Machine.execQnt h fs rnd d a b s
  | .dqnt h fs rnd d a b => Sys2Proof.Machine.execDqnt h fs rnd d a b s
  | .pack h fs src rnd d a => Sys2Proof.Machine.execPack h fs src rnd d a s
  | .unpk h fs toInt d a => Sys2Proof.Machine.execUnpk h fs toInt d a s
  | .gvote h form pa => Sys2Proof.Machine.execGvote h form pa s
  | .gshfl h mode x64 d a b => Sys2Proof.Machine.execGshfl h mode x64 d a b s
  | .gred h op d a => Sys2Proof.Machine.execGred h op d a s
  | .gscan h op excl d a => Sys2Proof.Machine.execGscan h op excl d a s
  | .gelect h pk d => Sys2Proof.Machine.execGelect h pk d s
  | .gmatch h x64 pk d a => Sys2Proof.Machine.execGmatch h x64 pk d a s
  | .lds h w off d a => Sys2Proof.Machine.execLds h w off d a s
  | .sts h w mode off x a => Sys2Proof.Machine.execSts h w mode off x a s
  | .atoms h op d a b => Sys2Proof.Machine.execAtoms h op d a b s
  | .cass h x64 d a b c => Sys2Proof.Machine.execCass h x64 d a b c s
  | .ldt h w off d a => Sys2Proof.Machine.execLdt h w off d a s
  | .stt h w mode off x a => Sys2Proof.Machine.execStt h w mode off x a s
  | .waitf h tile empty off a => Sys2Proof.Machine.execWaitf h tile empty off a s
  | .markf h tile off a => Sys2Proof.Machine.execMarkf h tile off a s
  | .marke h tile off a => Sys2Proof.Machine.execMarke h tile off a s
  | .probef h tile pd off a => Sys2Proof.Machine.execProbef h tile pd off a s
  | .bar h lvl n => Sys2Proof.Machine.execBar h lvl n s
  | .bara h lvl n d => Sys2Proof.Machine.execBara h lvl n d s
  | .barw h lvl n a => Sys2Proof.Machine.execBarw h lvl n a s
  | .barq h lvl n pd a => Sys2Proof.Machine.execBarq h lvl n pd a s
  | .qput h q a => Sys2Proof.Machine.execQput h q a s
  | .qget h q d => Sys2Proof.Machine.execQget h q d s
  | .qpeek h q d => Sys2Proof.Machine.execQpeek h q d s
  | .mcarm h n => Sys2Proof.Machine.execMcarm h n s
  | .sopen h f a => Sys2Proof.Machine.execSopen h f a s
  | .sadv h f a => Sys2Proof.Machine.execSadv h f a s
  | .stend h pd f => Sys2Proof.Machine.execStend h pd f s
  | .sclose h f => Sys2Proof.Machine.execSclose h f s
  | .scrd h sel d f => Sys2Proof.Machine.execScrd h sel d f s
  | .sisect h d fa fb => Sys2Proof.Machine.execSisect h d fa fb s
  | .sunion h d fa fb => Sys2Proof.Machine.execSunion h d fa fb s
  | .cpost h d a => Sys2Proof.Machine.execCpost h d a s
  | .vgath h d a b c => Sys2Proof.Machine.execVgath h d a b c s
  | .vscat h d a b c => Sys2Proof.Machine.execVscat h d a b c s
  | .vscatr h d a b c => Sys2Proof.Machine.execVscatr h d a b c s
  | .ocall h comb a2 d a b c => Sys2Proof.Machine.execOcall h comb a2 d a b c s
  | .ocalln h comb a2 d a c => Sys2Proof.Machine.execOcalln h comb a2 d a c s
  | .cfence h kind scope mask d => Sys2Proof.Machine.execCfence h kind scope mask d s
  | .cwaitt h rel d a => Sys2Proof.Machine.execCwaitt h rel d a s
  | .cstat h rel d a => Sys2Proof.Machine.execCstat h rel d a s
  | .ccancel h d a => Sys2Proof.Machine.execCcancel h d a s
  | .mpost h fusion d a => Sys2Proof.Machine.execMpost h fusion d a s
  | .mzero h d a => Sys2Proof.Machine.execMzero h d a s
  | .mcvt h d a => Sys2Proof.Machine.execMcvt h d a s
  | .bra h off => Sys2Proof.Machine.execBra h off s
  | .brx h toff a => Sys2Proof.Machine.execBrx h toff a s
  | .call h off => Sys2Proof.Machine.execCall h off s
  | .callx h a => Sys2Proof.Machine.execCallx h a s
  | .ret h => Sys2Proof.Machine.execRet h s
  | .exit h => Sys2Proof.Machine.execExit h s
  | .trap h code => Sys2Proof.Machine.execTrap h code s
  | .bkpt h code => Sys2Proof.Machine.execBkpt h code s
  | .nop h => Sys2Proof.Machine.execNop h s
  | .yield h => Sys2Proof.Machine.execYield h s
  | .idembeg h eoff a => Sys2Proof.Machine.execIdembeg h eoff a s
  | .idemend h => Sys2Proof.Machine.execIdemend h s
  | .mfsr h num d => Sys2Proof.Machine.execMfsr h num d s
  | .mtsr h num a => Sys2Proof.Machine.execMtsr h num a s
  | .rngx h d a b c => Sys2Proof.Machine.execRngx h d a b c s
  | .pmark h a => Sys2Proof.Machine.execPmark h a s
  | .pickBundle core sl => Sys2Proof.Machine.execPickBundle core sl s
  | .clauseFetch core sl team addr => Sys2Proof.Machine.execClauseFetch core sl team addr s
  | .countedWriteComplete team t k => Sys2Proof.Machine.execCountedWriteComplete team t k s
  | .waitTableRetry team t => Sys2Proof.Machine.execWaitTableRetry team t s
  | .placeTeams => Sys2Proof.Machine.execPlaceTeams s
  | .preempt team => Sys2Proof.Machine.execPreempt team s
  | .restoreTeam team => Sys2Proof.Machine.execRestoreTeam team s
  | .commandStart team tag => Sys2Proof.Machine.execCommandStart team tag s
  | .copyElement team tag => Sys2Proof.Machine.execCopyElement team tag s
  | .translationWalk team tag lane victim => Sys2Proof.Machine.execTranslationWalk team tag lane victim s
  | .faultRecordDeferred die => Sys2Proof.Machine.execFaultRecordDeferred die s
  | .faultAnswerResume die w => Sys2Proof.Machine.execFaultAnswerResume die w s
  | .faultAnswerCancel die w => Sys2Proof.Machine.execFaultAnswerCancel die w s
  | .multicastRelease team tag => Sys2Proof.Machine.execMulticastRelease team tag s
  | .contribPieceAccepted plane k p => Sys2Proof.Machine.execContribPieceAccepted plane k p s
  | .collectorIssue core k => Sys2Proof.Machine.execCollectorIssue core k s
  | .lanePerformed team tag lane => Sys2Proof.Machine.execLanePerformed team tag lane s
  | .replyLands k => Sys2Proof.Machine.execReplyLands k s
  | .calderaRequestArrive k => Sys2Proof.Machine.execCalderaRequestArrive k s
  | .calderaWave die slice => Sys2Proof.Machine.execCalderaWave die slice s
  | .matrixStep core sub => Sys2Proof.Machine.execMatrixStep core sub s
  | .matrixBlockWrite core sub => Sys2Proof.Machine.execMatrixBlockWrite core sub s
  | .zeroTile team tag => Sys2Proof.Machine.execZeroTile team tag s
  | .convertTile team tag => Sys2Proof.Machine.execConvertTile team tag s
  | .fenceComplete team t => Sys2Proof.Machine.execFenceComplete team t s
  | .writeQueueDrain core => Sys2Proof.Machine.execWriteQueueDrain core s
  | .l2DropClean die key sector => Sys2Proof.Machine.execL2DropClean die key sector s
  | .l2WriteBack die key sector => Sys2Proof.Machine.execL2WriteBack die key sector s
  | .fabricRequest p => Sys2Proof.Machine.execFabricRequest p s
  | .fabricReply p => Sys2Proof.Machine.execFabricReply p s
  | .contributionDelivery p => Sys2Proof.Machine.execContributionDelivery p s
  | .flitReceive plane link f => Sys2Proof.Machine.execFlitReceive plane link f s
  | .linkAck plane link lseq => Sys2Proof.Machine.execLinkAck plane link lseq s
  | .linkNak plane link lseq => Sys2Proof.Machine.execLinkNak plane link lseq s
  | .laneFailure plane link lane => Sys2Proof.Machine.execLaneFailure plane link lane s
  | .linkRetrained plane link => Sys2Proof.Machine.execLinkRetrained plane link s
  | .switchPlaneFailed plane => Sys2Proof.Machine.execSwitchPlaneFailed plane s
  | .calve gen mask base => Sys2Proof.Machine.execCalve gen mask base s
  | .calvingPortsClosed => Sys2Proof.Machine.execCalvingPortsClosed s
  | .calvingReport gen src plane mark window => Sys2Proof.Machine.execCalvingReport gen src plane mark window s
  | .calvingDone gen src => Sys2Proof.Machine.execCalvingDone gen src s
  | .transportFrameReceive port f => Sys2Proof.Machine.execTransportFrameReceive port f s
  | .hostRetransmitTimeout port => Sys2Proof.Machine.execHostRetransmitTimeout port s
  | .helloQuery q timeout => Sys2Proof.Machine.execHelloQuery q timeout s
  | .helloSelect q timeout devno dead sel => Sys2Proof.Machine.execHelloSelect q timeout devno dead sel s
  | .contextCreate q ctx mask root ring j => Sys2Proof.Machine.execContextCreate q ctx mask root ring j s
  | .contextDestroy q ctx => Sys2Proof.Machine.execContextDestroy q ctx s
  | .contextMethods q ctx table => Sys2Proof.Machine.execContextMethods q ctx table s
  | .contextPeers q ctx first sets => Sys2Proof.Machine.execContextPeers q ctx first sets s
  | .memwrite q ctx va data => Sys2Proof.Machine.execMemwrite q ctx va data s
  | .memread q ctx va len => Sys2Proof.Machine.execMemread q ctx va len s
  | .clearMonitors q => Sys2Proof.Machine.execClearMonitors q s
  | .map q ctx zero size count va leaf => Sys2Proof.Machine.execMap q ctx zero size count va leaf s
  | .unmap q ctx size count va => Sys2Proof.Machine.execUnmap q ctx size count va s
  | .protect q ctx size count va leaf => Sys2Proof.Machine.execProtect q ctx size count va leaf s
  | .launchStart q ctx record params => Sys2Proof.Machine.execLaunchStart q ctx record params s
  | .launchEnd q launch => Sys2Proof.Machine.execLaunchEnd q launch s
  | .launchResume q launch n secs => Sys2Proof.Machine.execLaunchResume q launch n secs s
  | .dump q launch va len => Sys2Proof.Machine.execDump q launch va len s
  | .firmwareLoad q off data => Sys2Proof.Machine.execFirmwareLoad q off data s
  | .firmwareCommit q len => Sys2Proof.Machine.execFirmwareCommit q len s
  | .firmwareAttest q nonce => Sys2Proof.Machine.execFirmwareAttest q nonce s
  | .deviceReset => Sys2Proof.Machine.execDeviceReset s
  | .sample core sl => Sys2Proof.Machine.execSample core sl s
  | .monitorLevelSample temps volts => Sys2Proof.Machine.execMonitorLevelSample temps volts s
  | .sliceCycle core => Sys2Proof.Machine.execSliceCycle core s
  | .memoryError loc uncorrectable => Sys2Proof.Machine.execMemoryError loc uncorrectable s
  | .deviceMissing dev => Sys2Proof.Machine.execDeviceMissing dev s
  | .serviceCoreRetired core => Sys2Proof.Machine.execServiceCoreRetired core s
  | .powerLoss => Sys2Proof.Machine.execPowerLoss s

end Sys2Proof.Machine
end

