-- ==== Sys2Proof/Machine/Step.lean ====
section
/-! DEFINITION. One step of the machine: the agenda's first turn, or a free one, is taken; and the state in which the
next step runs a given word. -/

namespace Sys2Proof.Machine

/-- The word a slice executes next: an undecodable one is an illegal instruction of its clause (R89, R72), and so is a
word index past the end of a clause that was fetched anew and has become shorter: the trap names word 0.
(DESIGN CHOICE, log 164) -/
def runSlice (core sl : Nat) (s : State) : Host.Outcome State Fault Refusal :=
  let s := { s with focus := (core, sl) }
  match s.cur? with
  | none => .next s
  | some c =>
    match decodeWord c.word with
    | .ok i => exec i s
    | .error _ => .next (s.runTrap c 1 (c.b.threads.headD 0) false 0)

/-- Takes one turn, if the device's condition admits it (R388). A machine word is executed by a slice only.
(DESIGN CHOICE, log 2) -/
def takeTurn (t : Turn) (s : State) : Host.Outcome State Fault Refusal :=
  if s.admits t then
    match t with
    | .slice core sl => runSlice core sl s
    | .host =>
      match s.nextMessage with
      | some (.act i, s) => exec i s
      | some (.hello i, s) => .next (s.actHello i)
      | some (.unread q code payload, s) => .next (s.answerUnread q code payload)
      | none => .next s
    | .event e => if e.isWord then .next s else exec e s
  else .next s

/-- One step: the first turn of the agenda, or, when it is empty, one that nothing fixes.
(DESIGN CHOICE, log 1) -/
def step (s : State) : Host.Outcome State Fault Refusal :=
  match s.agenda with
  | t :: rest => takeTurn t { s with agenda := rest }
  | [] => takeTurn (Config.freeTurn s.turns) { s with turns := s.turns + 1 }

/-- A launch of one team of one group of 32 threads, B = 512, with a return stack (for `withFetchWord`). -/
def probeRec : LaunchRec where
  code := 0
  width := 32
  roles := 1
  groups0 := 1
  groups1 := 0
  budget0 := 512
  budget1 := 0
  x := 1
  y := 1
  z := 1
  cluster := 1
  scratch := 4096
  tile := 4096
  stack := 64
  params := []
  slots := List.replicate 8 0
  depths := [1, 1, 1, 1]
  bars := 0
  coResident := true
  priority := 0
  idem := true
  profile := 0
  haltLaunch := false
  key := 0

def probeKey : TeamKey := ⟨1, 0⟩

/-- The state with the word as the next word of a bundle that slice 0 of core 0 runs: the launch, its team and its clause
stand as PLACE_TEAMS, CLAUSE_FETCH and PICK_BUNDLE leave them.
(DESIGN CHOICE, log 4) -/
def State.withFetchWord (s : State) (nbits w : Nat) : State :=
  let word : DWord := BitVec.ofNat 64 (if nbits ≤ 64 then w else 0)
  let b : Bundle := ⟨probeKey, 0, [word], 0, List.range 32, List.range 32, false⟩
  ({ s with
    agenda := [.slice 0 0]
    launches := [⟨1, 0, probeRec, [], [Barrier.start, Barrier.start], 1, 0, 0, 0, [0], false, false, none⟩]
    teams := [{ key := probeKey, place := some ⟨0, 0, [0]⟩, threads := List.replicate 32 (Thread.start 0),
                scratch := Store.fresh, tile := Store.fresh, bars := List.replicate 16 Barrier.start,
                queues := [[], [], [], []], mcast := 0, cmds := [], fences := [], accepted := 0, scrinfo := 0, scrthread := 0, tileinfo := 0, tilethread := 0,
                halted := false, placedAt := 0, unready := false, stopping := false, reduced := false, discarded := false, relUpTo := none, image := none, records := [], traps := 0, banks := [] }] }).modSlice 0 0
    fun x => { x with bundle := some b }

end Sys2Proof.Machine
end

