-- ==== Sys2Proof/Safety.lean ====
section
/-! DEFINITION. What counts as a safe run, the invariants that the steps keep, and the terms in which claims say what a
word may rest on, what it gives its threads and what it leaves as it is. -/

namespace Sys2Proof.Machine

/-- A step goes on: neither a fault nor a refusal. -/
def goesOn (o : Host.Outcome State Fault Refusal) : Bool :=
  match o with
  | .next _ => true
  | .fault _ => false
  | .refused _ => false

/-! ### Invariants -/

/-- Device memory, the firmware's staging area, the teams' stores and the threads' register files are sparse maps in their
canonical form. -/
abbrev State.Canonical (s : State) : Prop :=
  s.mem.wf ∧ s.service.staging.wf ∧ ∀ T ∈ s.teams, T.scratch.bytes.wf ∧ T.tile.bytes.wf ∧ ∀ th ∈ T.threads, swf (0 : Word) th.regs

/-- The members of every running bundle ascend (R49). -/
abbrev State.Ascending (s : State) : Prop :=
  ∀ k ∈ s.cores, ∀ x ∈ k.slices, ∀ b ∈ x.bundle, b.threads.Pairwise (· < ·)

/-- The device has its dies, cores and slices (R1, R9). -/
abbrev State.Whole (s : State) : Prop :=
  s.cores.length = Config.cores ∧ s.dies.length = Config.dies ∧ ∀ k ∈ s.cores, k.slices.length = Config.slicesPerCore

/-! ### What a word rests on -/

/-- The word `i` with header `h` stands on the focused slice as `c` says; nothing outstanding holds it back (R84, R85),
and it reads no register that holds an uncorrectable error (R344). -/
structure Issues (s : State) (i : Instr) (h : Hdr) (c : Cur) : Prop where
  hdr : i.hdr? = some h
  cur : s.cur? = some c
  free : c.held i h = false
  clean : Cur.regError s c i h = none

/-- The value that a list of results leaves under a number: the last one listed, else the old one. -/
def latest {α : Type} (l : List (Nat × α)) (n : Nat) (old : α) : α := l.foldl (fun x p => if p.1 = n then p.2 else x) old

/-- Thread `th'` has received the results `o` of a word with header `h` (R84, R130, R141): an uncounted word has written
them, those of a counted one are outstanding, flags are sticky, and nothing else of the thread but its issue point has
changed. -/
def Thread.Got (h : Hdr) (o : Out) (th th' : Thread) : Prop :=
  (if h.ctr = 0 then
    (∀ n, sget 0 th'.regs n = latest o.regs n (sget 0 th.regs n)) ∧
    (∀ j, j < 7 → th'.preds.getLsbD j = latest o.preds j (th.preds.getLsbD j)) ∧ th'.pending = th.pending
  else th'.regs = th.regs ∧ th'.preds = th.preds ∧ th'.pending = th.pending ++ [⟨h.ctr, o.regs, o.preds, []⟩]) ∧
  th'.fp = th.fp ||| o.flags ∧ th'.srstep = (if o.sr then th.srstep + 1 else th.srstep) ∧
  { th' with
    pc := th.pc, widx := th.widx, regs := th.regs, preds := th.preds, pending := th.pending, fp := th.fp,
    srstep := th.srstep } = th

/-- Nothing of the thread but its issue point has changed. -/
def Thread.Kept (th th' : Thread) : Prop := { th' with pc := th.pc, widx := th.widx } = th

/-! ### What a word leaves as it is -/

/-- Nothing outside the running bundle's team, its slice, the tree counts and the noted errors has changed, and no error
has come. -/
structure OutsideKept (s s' : State) (c : Cur) : Prop where
  rest : { s' with teams := s.teams, cores := s.cores, tree := s.tree, errors := s.errors } = s
  mem : ∀ a, s'.mem.byte a = s.mem.byte a
  teams : ∀ k, k ≠ c.b.team → s'.team? k = s.team? k
  cores : ∀ n, n ≠ c.core → s'.coreAt n = s.coreAt n
  slices : ∀ l, l ≠ c.sl → s'.sliceAt c.core l = s.sliceAt c.core l
  core : { s'.coreAt c.core with slices := (s.coreAt c.core).slices } = s.coreAt c.core
  errors : ∀ e ∈ s'.errors, e ∈ s.errors

/-- The bundle has moved past its word (R49, R67): it stands at the next one, or it has left the clause and its members
stand at the next clause. -/
def MovedOn (s' : State) (c : Cur) : Prop :=
  if c.b.idx + 1 < c.b.words.length ∧ c.b.threads ≠ [] then
    (s'.sliceAt c.core c.sl).bundle = some { c.b with idx := c.b.idx + 1 }
  else
    (s'.sliceAt c.core c.sl).bundle = none ∧
    ∀ t ∈ c.b.threads, ∀ th, s'.thread? c.b.team t = some th → th.pc = c.nextClause ∧ th.widx = 0

/-- What an instruction does whose results depend on each thread alone (R74, R138, R143): wherever it issues it
completes, each active thread receives what `out` gives for what the thread reads, and nothing else changes. -/
def PerThread (i : Instr) (out : Env → Out) : Prop :=
  ∀ s h c, Issues s i h c → s.Canonical →
    ∃ s', exec i s = .next s' ∧ OutsideKept s s' c ∧ MovedOn s' c ∧
      (∀ t th, c.T.threads[t]? = some th → ∃ th', s'.thread? c.b.team t = some th' ∧
        if t ∈ c.active h then th.Got h (out (c.envOf t th)) th'
        else if t ∈ c.b.threads then th.Kept th' else th' = th) ∧
      ∃ T', s'.team? c.b.team = some T' ∧ { T' with threads := c.T.threads } = c.T ∧
        T'.threads.length = c.T.threads.length

/-- The result of an FP32 instruction with one exact result: it is rounded once in the instruction's mode, and both
flags and SR are counted (R156, R157, R141). -/
def f32Rounded (rnd : Rnd) (d : Opnd) (exact : RMode → Env → Num) (e : Env) : Out :=
  let r := fp32.finish (e.mode rnd 0 0) (exact (e.mode rnd 0 0) e)
  ⟨w32 d (BitVec.ofNat 32 r.bits), [], r.flags, e.usesSr rnd 0⟩

/-- As `f32Rounded`, for FP64 (R165). -/
def f64Rounded (rnd : Rnd) (d : Opnd) (exact : RMode → Env → Num) (e : Env) : Out :=
  let r := fp64.finish (e.mode rnd 0 0) (exact (e.mode rnd 0 0) e)
  ⟨w64 d (BitVec.ofNat 64 r.bits), [], r.flags, e.usesSr rnd 0⟩

/-- As `f32Rounded`, for both halves of a packed instruction, element i taking the mode of element i (R164). -/
def halvesRounded (bf : Bool) (rnd : Rnd) (d : Opnd) (exact : Nat → RMode → Env → Num) (e : Env) : Out :=
  let r (i : Nat) : FRes := (if bf then bf16 else fp16).finish (e.mode rnd 0 i) (exact i (e.mode rnd 0 i) e)
  ⟨w32 d (BitVec.ofNat 32 ((r 0).bits + 65536 * (r 1).bits)), [], (r 0).flags ||| (r 1).flags, e.usesSr rnd 0⟩

/-! ### Words that act on their team -/

/-- No member of the bundle waits or has a wait's end to note: a thread that waits is in no bundle (R48). -/
def Cur.Awake (c : Cur) : Prop := ∀ t ∈ c.b.threads, (c.thread t).wait = none ∧ (c.thread t).woken = false

/-- Nothing of the thread but its issue point and its wait has changed. -/
def Thread.Rested (th th' : Thread) : Prop :=
  { th' with pc := th.pc, widx := th.widx, wait := th.wait, woken := th.woken } = th

/-- A word whose active threads act on their team, in ascending order (R189): where it issues, its members ascend and are
awake, and `pre` holds, it completes; outside the team all is as `keeps` says, the bundle goes where `goes` says, threads
that are not active keep all but their waits, and the team is as `post` says. -/
def TeamWordIn (keeps : State → State → Cur → Prop) (goes : State → Cur → Prop) (i : Instr)
    (pre : State → Hdr → Cur → Prop) (post : State → Hdr → Cur → Team → Prop) : Prop :=
  ∀ s h c, Issues s i h c → s.Canonical → c.b.threads.Pairwise (· < ·) → c.Awake → pre s h c →
    ∃ s' T', exec i s = .next s' ∧ keeps s s' c ∧ goes s' c ∧ s'.team? c.b.team = some T' ∧
      T'.threads.length = c.T.threads.length ∧
      (∀ t th, c.T.threads[t]? = some th → t ∉ c.active h → ∃ th', T'.threads[t]? = some th' ∧ th.Rested th') ∧
      post s h c T'

/-- As `TeamWordIn`, where nothing outside the team changes. -/
def TeamWordBy : (State → Cur → Prop) → Instr → (State → Hdr → Cur → Prop) → (State → Hdr → Cur → Team → Prop) → Prop :=
  TeamWordIn OutsideKept

/-- Nothing of any die has changed but its TLB. -/
def OnlyTlbs (s s' : State) : Prop := ∀ d, { s'.dieAt d with tlb := (s.dieAt d).tlb } = s.dieAt d

/-- As `OutsideKept`, but for the dies' TLBs, which a fetch fills (R70). -/
def FetchKept (s s' : State) (c : Cur) : Prop := OutsideKept s { s' with dies := s.dies } c ∧ OnlyTlbs s s'

/-- As `TeamWordBy`; the bundle moves on past the word. -/
def TeamWord : Instr → (State → Hdr → Cur → Prop) → (State → Hdr → Cur → Team → Prop) → Prop := TeamWordBy MovedOn

/-- The bundle has left its clause, which its word ends, and member t stands at `target t` (R172). -/
def LeftFor (target : Nat → DWord) (s' : State) (c : Cur) : Prop :=
  (s'.sliceAt c.core c.sl).bundle = none ∧
  ∀ t ∈ c.b.threads, ∀ th, s'.thread? c.b.team t = some th → th.pc = target t ∧ th.widx = 0

/-- Every active thread receives the results that `out` gives it. -/
def Gets (h : Hdr) (c : Cur) (T' : Team) (out : Nat → Out) : Prop :=
  ∀ t th, c.T.threads[t]? = some th → t ∈ c.active h → ∃ th', T'.threads[t]? = some th' ∧ th.Got h (out t) th'

/-- Every active thread receives register, predicate and stream-register results: at once, or, in a counted word, as
outstanding ones; and nothing else of it changes (R84). -/
def GetsStreams (h : Hdr) (c : Cur) (T' : Team)
    (out : Nat → List (Nat × Word) × List (Nat × Bool) × List (Nat × Stream)) : Prop :=
  ∀ t th, c.T.threads[t]? = some th → t ∈ c.active h → ∃ th', T'.threads[t]? = some th' ∧
    (if h.ctr = 0 then
      (∀ n, sget 0 th'.regs n = latest (out t).1 n (sget 0 th.regs n)) ∧
      (∀ j, j < 7 → th'.preds.getLsbD j = latest (out t).2.1 j (th.preds.getLsbD j)) ∧
      th'.streams = (out t).2.2.foldl (fun l x => l.set x.1 x.2) th.streams ∧ th'.pending = th.pending
    else th'.regs = th.regs ∧ th'.preds = th.preds ∧ th'.streams = th.streams ∧
      th'.pending = th.pending ++ [⟨h.ctr, (out t).1, (out t).2.1, (out t).2.2⟩]) ∧
    { th' with
      pc := th.pc, widx := th.widx, regs := th.regs, preds := th.preds, streams := th.streams,
      pending := th.pending } = th

/-- Line l of a store holds no uncorrectable error (R344). -/
def LineClean (s : State) (c : Cur) (tile : Bool) (l : Nat) : Prop :=
  (if tile then ErrLoc.tile c.b.team l else .scratch c.b.team l) ∉ s.errors

/-- The bundle goes on with the members `stay`, the others having left it (R49, R63, R190). -/
def StaysOn (stay : List Nat) (s' : State) (c : Cur) : Prop :=
  if c.b.idx + 1 < c.b.words.length ∧ stay ≠ [] then
    (s'.sliceAt c.core c.sl).bundle = some { c.b with idx := c.b.idx + 1, threads := stay }
  else
    (s'.sliceAt c.core c.sl).bundle = none ∧
    ∀ t ∈ stay, ∀ th, s'.thread? c.b.team t = some th → th.pc = c.nextClause ∧ th.widx = 0

/-- The members that stay when those listed leave. -/
def Cur.staying (c : Cur) (leave : List Nat) : List Nat := c.b.threads.filter fun t => !leave.contains t

/-- The listed threads receive the results that `out` gives them. -/
def SomeGet (h : Hdr) (c : Cur) (T' : Team) (ts : List Nat) (out : Nat → Out) : Prop :=
  ∀ t th, c.T.threads[t]? = some th → t ∈ ts → ∃ th', T'.threads[t]? = some th' ∧ th.Got h (out t) th'

/-- The listed threads wait, to begin again at the word itself, and nothing else of them has changed. -/
def SomeWait (c : Cur) (T' : Team) (ts : List Nat) (wait : Nat → Wait) : Prop :=
  ∀ t th, c.T.threads[t]? = some th → t ∈ ts → ∃ th', T'.threads[t]? = some th' ∧
    th' = { th with wait := some (wait t), woken := false, pc := c.b.addr, widx := c.b.idx + 1 }

/-- The members whose guard is false. -/
def Cur.idle (c : Cur) (h : Hdr) : List Nat := c.b.threads.filter fun t => !(c.thread t).guard h

/-- The thread waits for `w` at an issue point, and has received `o`. -/
def Thread.WaitsAt (h : Hdr) (o : Out) (w : Wait) (pc : DWord) (widx : Nat) (th th' : Thread) : Prop :=
  th'.wait = some w ∧ th'.woken = false ∧ th'.pc = pc ∧ th'.widx = widx ∧
  th.Got h o { th' with wait := th.wait, woken := th.woken }

/-- The barriers of teams, clusters and launches are all there (R57). -/
abbrev State.BarsWhole (s : State) : Prop :=
  (∀ T ∈ s.teams, T.bars.length = 16) ∧ ∀ L ∈ s.launches, L.gridBars.length = 2 ∧ ∀ q ∈ L.clusterBars, q.2.length = 4

/-- What a barrier word leaves as it is. -/
structure BarrierFrame (s s' : State) (c : Cur) (lvl : BarLevel) (n : Nat) : Prop where
  rest : { s' with teams := s.teams, launches := s.launches, cores := s.cores, tree := s.tree, errors := s.errors } = s
  slices : ∀ m l, (m, l) ≠ (c.core, c.sl) → s'.sliceAt m l = s.sliceAt m l
  bars : ∀ lvl' m, (lvl', m) ≠ (lvl, n) → s'.barrier lvl' m c.b.team = s.barrier lvl' m c.b.team
  launches : ∀ q L, s.launch? q = some L → ∃ L', s'.launch? q = some L' ∧
    { L' with clusterBars := L.clusterBars, gridBars := L.gridBars } = L
  teams : ∀ k T, s.team? k = some T → ∃ T', s'.team? k = some T' ∧
    { T' with threads := T.threads, bars := T.bars } = T ∧ T'.threads.length = T.threads.length

/-- The bundle is the threads of group g that have not exited, and its team runs where the bundle does; the team may be
halted (R49, R325). -/
structure WholeGroup (c : Cur) (g : Nat) : Prop where
  members : c.b.threads = (c.L.rcd.groupThreads g).filter c.T.live.contains
  some : c.b.threads ≠ []
  core : c.T.core = c.core
  free : ∀ t ∈ c.b.threads, (c.thread t).trapped = none

/-- The registers that thread t of group g reads in a collective, with the threads that hold them: GSHFL reads its lane
operand of the thread itself and its value of the source thread (R200, R344). -/
def groupReads (i : Instr) (c : Cur) (g t : Nat) : List (Nat × Nat) :=
  let y (b : Opnd) := ((c.env t).r32 b).toNat
  let l := c.L.rcd.laneOf t
  let inGroup (n : Nat) : Nat := if n < c.L.rcd.width then g * c.L.rcd.width + n else t
  match i with
  | .gshfl _ mode x64 _ a b =>
    let u := match mode with
      | .idx => inGroup (y b)
      | .up => if y b ≤ l then inGroup (l - y b) else t
      | .down => inGroup (l + y b)
      | .xor => inGroup (l ^^^ y b)
    (opndRegs (b, 1)).map (t, ·) ++ (opndRegs (a, if x64 then 2 else 1)).map (u, ·)
  | _ => (i.shape c.L.rcd.width c.L.rcd.slots).regsRead.map (t, ·)

/-- What a collective does whose bundle holds its group whole (R55, R197): it executes at once, and each active thread
receives what `out` gives for the active threads of its group, where no register that it reads holds an uncorrectable
error. -/
def GroupWord (i : Instr) (out : Cur → List Nat → Nat → Nat → Out) : Prop :=
  i.isWord = true → i.wf = true → ∀ g,
    TeamWord i (fun s h c => WholeGroup c g ∧
        ∀ t ∈ c.active h, ∀ p ∈ groupReads i c g t, ErrLoc.reg c.b.team p.1 p.2 ∉ s.errors)
      (fun _ h c T' => { T' with threads := c.T.threads } = c.T ∧ Gets h c T' (out c (c.active h) g))

/-- What a collective does whose bundle is the last of its group to arrive, the group's other threads waiting at the same
word, each active or not as its guard was (R55, R197): it executes for the whole group, each active thread of the group,
in the bundle or not, receives what `out` gives for all of them, and all go on after the word; in a halted team the
threads, those of the bundle too, are ready and wait for it to go on (R325). -/
def LastArrivals (i : Instr) (out : Cur → List Nat → Nat → Nat → Out) : Prop :=
  i.isWord = true → i.wf = true → ∀ s h c g (act : Nat → Bool), Issues s i h c → s.Canonical →
    c.b.threads.Pairwise (· < ·) → c.Awake → c.T.core = c.core → c.b.threads ≠ [] →
    let live := (c.L.rcd.groupThreads g).filter c.T.live.contains
    let waits (t : Nat) : Wait := .collective c.b.addr c.b.idx ((encode i).getD 0) (act t)
    let acts := live.filter act
    (∀ t ∈ c.b.threads, t ∈ live ∧ c.L.rcd.groupOf t = g ∧ act t = (c.thread t).guard h) →
    (∃ t ∈ live, t ∉ c.b.threads) →
    (∀ t ∈ live, t ∉ c.b.threads → (c.thread t).wait = some (waits t) ∧ (c.thread t).woken = false) →
    (∀ t ∈ acts, ∀ p ∈ groupReads i c g t, ErrLoc.reg c.b.team p.1 p.2 ∉ s.errors) →
    ∃ s' T', exec i s = .next s' ∧ OutsideKept s s' c ∧ StaysOn [] s' c ∧ s'.team? c.b.team = some T' ∧
      { T' with threads := c.T.threads } = c.T ∧ T'.threads.length = c.T.threads.length ∧
      ∀ t th, c.T.threads[t]? = some th → ∃ th', T'.threads[t]? = some th' ∧
        let here : Thread :=
          if t ∈ c.b.threads then { th with wait := some (waits t), pc := c.after.1, widx := c.after.2 } else th
        let freed : Thread := if c.T.asleep then { here with woken := true } else { here with wait := none, woken := false }
        if t ∈ acts then freed.Got h (out c acts g t) th' ∧ th'.pc = freed.pc ∧ th'.widx = freed.widx
        else if t ∈ live then th' = freed
        else th' = th

/-- A collective of group g, for which `out` gives what thread t receives where the listed threads are the active ones. -/
def GroupResult (i : Instr) (out : Cur → List Nat → Nat → Nat → Out) : Prop := GroupWord i out ∧ LastArrivals i out

/-- The lanes of the listed threads as a mask (R198). -/
def lanesOf (c : Cur) (ts : List Nat) : Nat := (ts.map fun t => 2 ^ c.L.rcd.laneOf t).sum

/-- The fold of GRED and GSCAN over the listed threads, with its flags (R201). -/
def foldLanes (op : GOp) (a : Opnd) (c : Cur) (ts : List Nat) : Nat × BitVec 5 :=
  ts.foldl (fun x t => ((redStep op x.1 (redInput op a (c.env t))).1,
    x.2 ||| (redStep op x.1 (redInput op a (c.env t))).2)) (redUnit op, 0)

/-- The clause ends with this word, as it does with every transfer (R69). -/
def Cur.atEnd (c : Cur) : Prop := c.b.idx + 1 = c.b.words.length

/-- The word's bundle takes a trap of code `code`: all its threads are marked, the record names `first`, and the bundle ends
(R142, R325). -/
def TrapsWith (i : Instr) (s : State) (c : Cur) (code first : Nat) (resume rfield : DWord) (sub : Nat) : Prop :=
  exec i s = .next (s.takeTrap c.b.team
    ⟨code, c.b.addr, c.waddr, c.word, resume, rfield, sub, first, c.b.threads⟩).dropBundle

/-- A command as it stands when its post is accepted (R244). -/
def newCommand (T : Team) (p : Post) (tag : Nat) : Cmd where
  tag := tag
  seq := T.accepted
  st := .waiting
  status := 0
  code := 0
  retired := false
  flags := 0
  foe := p.foe
  relaxed := p.relaxed
  colour := p.colour
  waits := (((T.cmds.filter fun x => p.preds.contains x.tag) ++
      (T.cmds.filter fun x => (p.rel.map fun r => r.mask &&& colourBit x.colour != 0).getD false)).filter
        fun x => x.st == .waiting || x.st == .running).map (·.tag) |>.eraseDups
  rel := p.rel
  acq := p.acq
  salt := p.salt
  thread := p.thread
  body := p.body
  n := 0
  lanes := p.lanes
  parks := []
  lasts := p.lasts
  relUpTo := none
  ending := none
  bad := 0
  resid := []
  resWait := false
  carry := 0
  contrib := []
  areas := []

/-- The team has accepted the post on the tag: the command is WAITING; the lines it writes are empty and claimed, unless it
is a multicast to a rank of its cluster, and every other line is as it was; and nothing but threads woken from those lines
has changed besides (R191, R192, R240, R244, R249). -/
structure Accepted (T T' : Team) (p : Post) (tag : Nat) : Prop where
  cmds : T'.cmds = T.cmds ++ [newCommand T p tag]
  accepted : T'.accepted = T.accepted + 1
  claims : ∀ l who, (l, who) ∈ (T'.store p.tile).claims ↔ (l, who) ∈ (T.store p.tile).claims ∨
    (newCommand T p tag).mcast? = none ∧ who = tag ∧ l ∈ p.lasts.map (·.1)
  bytes : (T'.store p.tile).bytes = (T.store p.tile).bytes
  full : ∀ l, (T'.store p.tile).full l =
    ((T.store p.tile).full l && ((newCommand T p tag).mcast?.isSome || !(p.lasts.map (·.1)).contains l))
  other : T'.store (!p.tile) = T.store (!p.tile)
  rest : { T' with threads := T.threads, cmds := T.cmds, accepted := T.accepted, scratch := T.scratch, tile := T.tile } = T

/-- The thread has received the result of a post: a tag or an error word (R242). -/
def Thread.Posted (h : Hdr) (d : Opnd) (x : Word) (th th' : Thread) : Prop :=
  th.Got h (.reg (w32 d x)) { th' with spaceFull := th.spaceFull, wait := th.wait, woken := th.woken } ∧
  th'.spaceFull = (x == errorWord 8 0) ∧ th'.wait = none

/-- No command that the post names or that its release covers has failed. -/
def NoneFailed (T : Team) (p : Post) : Prop :=
  ∀ x ∈ T.cmds, x.st = .failed → x.tag ∉ p.preds ∧ ∀ r, p.rel = some r → r.mask &&& colourBit x.colour = 0

/-- Nothing names the tag that the post would take, or could be ended with it: no claim, command, fence or matrix command;
the post is no multicast, and the team lives on. -/
structure Unnamed (s : State) (c : Cur) (p : Post) (tag : Nat) : Prop where
  claims : ∀ tile l, (l, tag) ∉ (c.T.store tile).claims
  cmds : ∀ x ∈ c.T.cmds, tag ∉ x.waits
  fences : ∀ f ∈ c.T.fences, tag ∉ f.covers
  mat : ∀ m, (s.coreAt c.T.core).mat = some m → ¬(m.team = c.b.team ∧ m.tag = tag)
  mcast : (newCommand c.T p tag).mcast? = none
  stays : c.T.live ≠ [] ∧ c.L.ended = false

/-- The team has accepted the post on the tag, and its command has ended FAILED at once with status PREDECESSOR_FAILED
(R244): a line that it would have written is full unless another command claims it, every other line and all bytes are as
they were, and nothing but threads woken from those lines has changed besides (R250). -/
structure FailedAtOnce (T T' : Team) (p : Post) (tag : Nat) : Prop where
  cmds : T'.cmds = T.cmds ++ [{ newCommand T p tag with st := .failed, status := 1, waits := [] }]
  accepted : T'.accepted = T.accepted + 1
  claims : ∀ tile l who, (l, who) ∈ (T'.store tile).claims ↔ (l, who) ∈ (T.store tile).claims
  bytes : ∀ tile, (T'.store tile).bytes = (T.store tile).bytes
  full : ∀ l, (T'.store p.tile).full l =
    if l ∈ p.lasts.map (·.1) then !(T.store p.tile).claimed l else (T.store p.tile).full l
  other : T'.store (!p.tile) = T.store (!p.tile)
  rest : { T' with threads := T.threads, cmds := T.cmds, accepted := T.accepted, scratch := T.scratch, tile := T.tile } = T

/-- The lowest FREE tag (R240). -/
def LowestFree (T : Team) (tag : Nat) : Prop :=
  tag < 256 ∧ T.cmd? tag = none ∧ ∀ u, u < tag → T.cmd? u ≠ none


/-! ### The device's own steps -/

/-- Command `c` of team T stands on `tag` alone, no other command waits for it, and its end touches no more than the two:
it is no multicast and carries no acquire, and the team lives on. -/
structure Lone (s : State) (k : TeamKey) (tag : Nat) (T : Team) (L : Launch) (c : Cmd) : Prop where
  team : s.team? k = some T
  launch : s.launch? k.launch = some L
  cmd : T.cmd? tag = some c
  only : ∀ x ∈ T.cmds, x.tag = tag → x = c
  free : ∀ x ∈ T.cmds, tag ∉ x.waits
  acq : c.acq = none
  mcast : c.mcast? = none
  stays : T.live ≠ [] ∧ L.ended = false

/-- The command on `tag` has ended DONE: its tag is FREE if it asked for that, else it reads DONE; it claims no line any
more (R239, R247, R250). -/
def EndedDone (T' : Team) (tag : Nat) (foe : Bool) (flags : BitVec 5) : Prop :=
  (if foe then T'.cmd? tag = none
   else ∃ y, T'.cmd? tag = some y ∧ y.st = .done ∧ y.status = 0 ∧ y.code = 0 ∧ y.flags = flags) ∧
  ∀ tile l, (l, tag) ∉ (T'.store tile).claims

/-- What the next element of a copy becomes, with its flags: it is copied unchanged, or converted from one plain format to
another in the mode of the destination's round field (R125, R308). -/
def elementOut (L : Launch) (c : Cmd) (d : CopyDesc) (bs : List Byte) : List Byte × BitVec 5 :=
  let seed := L.rcd.key.extractLsb' 0 32 ^^^ L.rcd.key.extractLsb' 32 32
  let q := convertAll (tgtOf (slotCode d.dslot)) (fun _ => engineMode d.dslot seed c.salt c.n) (slotSat d.dslot)
    [(tgtOf (slotCode d.sslot)).decode (leNat bs)]
  if d.cvt then (leBytes d.dst.bytes (q.1.headD 0), q.2) else (bs, 0)

/-- A running copy may perform its next element: nothing holds it, both sides hold single elements without scales, no
residual is added, nothing holds an error, and the source's bytes are at hand, in a store of the team or at home on its die. -/
structure ElementReady (s : State) (T : Team) (L : Launch) (c : Cmd) (d : CopyDesc) (bs : List Byte) : Prop where
  running : c.st = .running
  body : c.body = .copy d
  alone : d.resid = 0 ∧ c.parks = [] ∧ c.resWait = false ∧ c.ending = none ∧ c.n < d.count
  team : T.place.isSome = true ∧ T.stopping = false ∧ T.core < s.cores.length
  clean : s.errors = []
  plain : d.cvt = true → slotRun d.sslot = 0 ∧ slotRun d.dslot = 0 ∧ slotZp d.dslot = false ∧ fmtBits (slotCode d.sslot) ≠ 4 ∧
    fmtBits (slotCode d.dslot) ≠ 4
  bytes :
    if d.skind = 2 then
      ∃ w, s.resolve T.core L.ctx ⟨d.src.elem d.ext c.n, .read, 0⟩ = .ok w ∧ isHome T.die w.key = true ∧
        (s.coreAt T.core).wq = [] ∧ bs = s.mem.read w.dpa d.src.bytes
    else bs = (T.store (d.skind == 1)).bytes.read (d.src.elem d.ext c.n).toNat d.src.bytes

/-- No running command has lanes that have not entered the collector, or an answer that is kept (R256, R338). -/
abbrev State.NoneToAdmit (s : State) : Prop :=
  ∀ T ∈ s.teams, ∀ c ∈ T.cmds, c.st = .running → (∀ x ∈ c.lanes, x.st ≠ .idle) ∧ ∀ p ∈ c.parks, p.answer = none

/-- The caldera of a line has room for n more entries beside those that wait there and those on their way (R283). -/
abbrev State.entriesRoom (s : State) (k : LineKey) (n : Nat) : Prop :=
  let die := dpaDie (k.line * 128)
  let slice := homeSlice (k.line * 128)
  entriesOf (s.waiting die slice) + entriesOf (s.transit.filter fun q => q.die == die && q.slice == slice) + n ≤ 512

/-- The other teams are as they were. -/
def OtherTeams (s s' : State) (k : TeamKey) : Prop := ∀ q, q ≠ k → s'.team? q = s.team? q

/-- A lane that has left the collector for a caldera (R248). -/
def Cmd.calling (c : Cmd) (l : Lane) : Prop :=
  (∃ e b k, l.st = .issued e b k) ∧ ∃ d, c.body = .lanes d ∧ (d.form = .call ∨ d.form = .calln ∨ d.form = .scatr)

/-- What a cancelled command has begun and must end: a lane at a caldera (R248), a residual write (R251), a block of a
matrix operation whose write has begun (R276). -/
def MustEnd (s : State) (k : TeamKey) (c : Cmd) : Prop :=
  (∃ l ∈ c.lanes, c.calling l) ∨ c.resWait = true ∨
  ∃ q ∈ s.cores, ∃ m ∈ q.mat, m.team = k ∧ m.tag = c.tag ∧ ∃ r ∈ m.subs, 0 < r.rows ∧ r.rows < 64

/-- A byte of a line once the queued writes that hold it have landed, in order (R220). -/
def queuedByte (q : List QueuedWrite) (k : LineKey) (o : Nat) (old : Byte) : Byte :=
  q.foldl (fun b w => if w.key = k ∧ w.off ≤ o ∧ o < w.off + w.bytes.length then w.bytes.getD (o - w.off) 0 else b) old

/-- No slice holds a clause fetched for team k; what the slices hold besides is as before. -/
def Unfetched (s s' : State) (k : TeamKey) : Prop :=
  ∀ core sl, let x := s.sliceAt core sl; let x' := s'.sliceAt core sl
    x'.bundle = x.bundle ∧ x'.prev = x.prev ∧
    ∀ q a, x'.fetchedAt q a = if q = k then none else x.fetchedAt q a

/-- The host is sent a response (R378): the message goes out on the request's port and stream, and nothing else changes. -/
def Responds (s s' : State) (q : Rq) (code status : Nat) (body : List Byte) : Prop :=
  s' = s.sendMessage q.port q.stream code (leBytes 4 q.seq.toNat ++ leBytes 4 status ++ body)

/-- Nothing that a change of mappings waits for is outstanding (R237). -/
structure State.Quiet (s : State) : Prop where
  transit : s.transit = []
  queues : ∀ k ∈ s.cores, k.wq = []
  dies : ∀ d ∈ s.dies, d.l2 = [] ∧ d.buffer = []
  out : s.fabric.out = []
  remaps : s.service.remaps = []
  samples : s.service.samples = []
  errors : s.errors = []

/-- Nothing of the device's service state has changed but the ports that streams are bound to (R376). -/
def ServiceKept (s s' : State) : Prop := { s'.service with streamPorts := s.service.streamPorts } = s.service

/-- Nothing waits for an answer from a peer: no held request, no sample, no change of mappings, no host request, no launch
that closes, and no phase of calving that could end. -/
structure State.NoneWaits (s : State) : Prop where
  sent : s.fabric.phase = .normal → ∀ o ∈ s.fabric.out, o.sent = true
  calving : (s.fabric.phase = .report → s.allReported = false) ∧ s.fabric.phase ≠ .retransmit ∧
    (s.fabric.phase = .install → s.allDone = false)
  remaps : s.service.remaps = []
  samples : s.service.samples = []
  ops : s.service.hostOps = []
  closing : ∀ L ∈ s.launches, L.closing = none

end Sys2Proof.Machine
end

