-- ==== Sys2Proof/Certificates/Slice0/Obligations.lean ====
section
/-! DEFINITION. The statements for the provers: each formalises rules of the manual, or says a law of the model. -/

open Sys2Proof Sys2Proof.Machine

/-! ### Words whose results depend on each thread alone -/

/-- Integer arithmetic (R144-R146, Table 09.1): each instruction completes wherever it issues, and gives each active
thread the clamped or wrapped exact result, or the 32- or 64-bit result of its own rule, and nothing else. It rests on
the model's choices in logs 6 and 7. -/
def Obligations.IntegerArithmetic : Prop :=
  (∀ h t sat d a b, PerThread (.iadd h t sat d a b) fun e => .reg (wty t d
    (if sat then clampI t.lo t.hi (e.val t a + e.val t b) else t.wrap (e.val t a + e.val t b)))) ∧
  (∀ h t sat d a b, PerThread (.isub h t sat d a b) fun e => .reg (wty t d
    (if sat then clampI t.lo t.hi (e.val t a - e.val t b) else t.wrap (e.val t a - e.val t b)))) ∧
  (∀ h t sat d a b, PerThread (.imul h t sat d a b) fun e => .reg (wty t d
    (if sat then clampI t.lo t.hi (e.val t a * e.val t b) else t.wrap (e.val t a * e.val t b)))) ∧
  (∀ h t d a b, PerThread (.imulh h t d a b) fun e => .reg (wty t d (e.val t a * e.val t b / 2 ^ t.width))) ∧
  (∀ h t d a b, PerThread (.imin h t d a b) fun e => .reg (wty t d (min (e.val t a) (e.val t b)))) ∧
  (∀ h t d a b, PerThread (.imax h t d a b) fun e => .reg (wty t d (max (e.val t a) (e.val t b)))) ∧
  (∀ h t sat d a, PerThread (.iabs h t sat d a) fun e => .reg (wty t d
    (if sat then clampI t.lo t.hi ((e.val t a).natAbs : Int) else t.wrap ((e.val t a).natAbs : Int)))) ∧
  (∀ h t sat d a, PerThread (.ineg h t sat d a) fun e => .reg (wty t d
    (if sat then clampI t.lo t.hi (-(e.val t a)) else t.wrap (-(e.val t a))))) ∧
  (∀ h pk d a b, PerThread (.iaddc h pk d a b) fun e =>
    let sum := (e.r32 a).toNat + (e.r32 b).toNat + (if pk ≠ 7 ∧ e.pred pk = true then 1 else 0)
    ⟨w32 d (BitVec.ofNat 32 sum), wp pk (decide (2 ^ 32 ≤ sum)), 0, false⟩) ∧
  (∀ h d a b c, PerThread (.imad h false d a b c) fun e => .reg (w32 d (e.r32 a * e.r32 b + e.r32 c))) ∧
  (∀ h d a b c, PerThread (.imad h true d a b c) fun e => .reg (w64 d (e.r64 a * e.r64 b + e.r64 c))) ∧
  (∀ h uns d a b c, PerThread (.imadw h uns d a b c) fun e => .reg (w64 d (BitVec.ofInt 64
    (e.val (if uns then .n32 else .s32) a * e.val (if uns then .n32 else .s32) b + (e.r64 c).toNat))))

/-- Shifts, logic and bit operations (R147-R151) and RNGX (R186): completion, results and frame. Bits are named one by one
where the rule does so. It rests on the model's choices in logs 6 and 7. -/
def Obligations.ShiftsLogicBits : Prop :=
  (∀ h d a b, PerThread (.shl h false d a b) fun e => .reg (w32 d (e.r32 a <<< (e.r32 b).toNat))) ∧
  (∀ h d a b, PerThread (.shl h true d a b) fun e => .reg (w64 d (e.r64 a <<< (e.r32 b).toNat))) ∧
  (∀ h d a b, PerThread (.shr h false d a b) fun e => .reg (w32 d (e.r32 a >>> (e.r32 b).toNat))) ∧
  (∀ h d a b, PerThread (.shr h true d a b) fun e => .reg (w64 d (e.r64 a >>> (e.r32 b).toNat))) ∧
  (∀ h d a b, PerThread (.sar h false d a b) fun e => .reg (w32 d ((e.r32 a).sshiftRight (e.r32 b).toNat))) ∧
  (∀ h d a b, PerThread (.sar h true d a b) fun e => .reg (w64 d ((e.r64 a).sshiftRight (e.r32 b).toNat))) ∧
  (∀ h d a b, PerThread (.rotl h d a b) fun e => .reg (w32 d
    (e.r32 a <<< ((e.r32 b).toNat % 32) ||| e.r32 a >>> (32 - (e.r32 b).toNat % 32)))) ∧
  (∀ h d a b, PerThread (.and h false d a b) fun e => .reg (w32 d (e.r32 a &&& e.r32 b))) ∧
  (∀ h d a b, PerThread (.and h true d a b) fun e => .reg (w64 d (e.r64 a &&& e.r64 b))) ∧
  (∀ h d a b, PerThread (.or h false d a b) fun e => .reg (w32 d (e.r32 a ||| e.r32 b))) ∧
  (∀ h d a b, PerThread (.or h true d a b) fun e => .reg (w64 d (e.r64 a ||| e.r64 b))) ∧
  (∀ h d a b, PerThread (.xor h false d a b) fun e => .reg (w32 d (e.r32 a ^^^ e.r32 b))) ∧
  (∀ h d a b, PerThread (.xor h true d a b) fun e => .reg (w64 d (e.r64 a ^^^ e.r64 b))) ∧
  (∀ h d a b, PerThread (.andn h false d a b) fun e => .reg (w32 d (e.r32 a &&& ~~~(e.r32 b)))) ∧
  (∀ h d a b, PerThread (.andn h true d a b) fun e => .reg (w64 d (e.r64 a &&& ~~~(e.r64 b)))) ∧
  (∀ h d a, PerThread (.not h false d a) fun e => .reg (w32 d (~~~(e.r32 a)))) ∧
  (∀ h d a, PerThread (.not h true d a) fun e => .reg (w64 d (~~~(e.r64 a)))) ∧
  (∀ h fn d a b, ∃ f : Word → Word → Word → Word,
    (∀ x y z i, i < 32 → (f x y z).getLsbD i =
      fn.getLsbD (4 * (x.getLsbD i).toNat + 2 * (y.getLsbD i).toNat + (z.getLsbD i).toNat)) ∧
    PerThread (.lop3 h false fn d a b) fun e => .reg (w32 d (f (e.r32 a) (e.r32 b) (e.r32 d)))) ∧
  (∀ h fn d a b, ∃ f : DWord → DWord → DWord → DWord,
    (∀ x y z i, i < 64 → (f x y z).getLsbD i =
      fn.getLsbD (4 * (x.getLsbD i).toNat + 2 * (y.getLsbD i).toNat + (z.getLsbD i).toNat)) ∧
    PerThread (.lop3 h true fn d a b) fun e => .reg (w64 d (f (e.r64 a) (e.r64 b) (e.r64 d)))) ∧
  (∀ h d a, PerThread (.popc h d a) fun e => .reg (w32 d (BitVec.ofNat 32
    ((List.range 32).countP fun i => (e.r32 a).getLsbD i)))) ∧
  (∀ h d a, PerThread (.clz h d a) fun e => .reg (w32 d (BitVec.ofNat 32
    (if e.r32 a = 0 then 32 else 31 - Nat.log2 (e.r32 a).toNat)))) ∧
  (∀ h d a, PerThread (.ctz h d a) fun e => .reg (w32 d (BitVec.ofNat 32
    (((List.range 32).find? fun i => (e.r32 a).getLsbD i).getD 32)))) ∧
  (∀ h d a, ∃ f : Word → Word, (∀ x i, i < 32 → (f x).getLsbD i = x.getLsbD (31 - i)) ∧
    PerThread (.brev h d a) fun e => .reg (w32 d (f (e.r32 a)))) ∧
  (∀ h uns d a b, ∃ f : Word → Word → Word,
    (∀ x y i, i < 32 →
      let p := y.toNat % 32
      let n := min (y.toNat / 256 % 64) (32 - p)
      (f x y).getLsbD i =
        if i < n then x.getLsbD (p + i) else !uns && decide (0 < n) && x.getLsbD (p + n - 1)) ∧
    PerThread (.bfx h uns d a b) fun e => .reg (w32 d (f (e.r32 a) (e.r32 b)))) ∧
  (∀ h d a b c, ∃ f : Word → Word → Word → Word,
    (∀ x y z i, i < 32 →
      let p := z.toNat % 32
      let n := min (z.toNat / 256 % 64) (32 - p)
      (f x y z).getLsbD i = if p ≤ i ∧ i < p + n then x.getLsbD (i - p) else y.getLsbD i) ∧
    PerThread (.bfi h d a b c) fun e => .reg (w32 d (f (e.r32 a) (e.r32 b) (e.r32 c)))) ∧
  (∀ h d a b c, ∃ f : Word → Word → Word → Word,
    (∀ x y z k, k < 4 →
      let sel := z.toNat / 16 ^ k % 16
      let byte := ((y ++ x : DWord) >>> (8 * (sel % 8))).setWidth 8
      (f x y z).extractLsb' (8 * k) 8 = if sel < 8 then byte else if byte.msb then 0xFF else 0) ∧
    PerThread (.bperm h d a b c) fun e => .reg (w32 d (f (e.r32 a) (e.r32 b) (e.r32 c)))) ∧
  (∀ h d a b c, PerThread (.rngx h d a b c) fun e => .reg (w32 d (rngx (e.r32 a) (e.r32 b) (e.r32 c))))

/-- Comparison, selection, moves and predicates (R152-R155): completion, results and frame. It rests on the model's
choices in logs 6 and 7. -/
def Obligations.CompareSelectMove : Prop :=
  (∀ h t cmp pd a b, PerThread (.iset h t cmp pd a b) fun e => .pred (wp pd
    (match cmp with
      | .eq => decide (e.val t a = e.val t b)
      | .ne => decide (e.val t a ≠ e.val t b)
      | .lt => decide (e.val t a < e.val t b)
      | .le => decide (e.val t a ≤ e.val t b)
      | .gt => decide (e.val t a > e.val t b)
      | .ge => decide (e.val t a ≥ e.val t b)))) ∧
  (∀ h pk d a b, PerThread (.sel h pk d a b) fun e => .reg (w32 d (if e.pred pk then e.r32 a else e.r32 b))) ∧
  (∀ h d a, PerThread (.mov h false d a) fun e => .reg (w32 d (e.r32 a))) ∧
  (∀ h d a, PerThread (.mov h true d a) fun e => .reg (w64 d (e.r64 a))) ∧
  (∀ h imm d, PerThread (.movi h imm d) fun _ => .reg (w32 d imm)) ∧
  (∀ h op pd pa pb, PerThread (.pset h op pd pa pb) fun e => .pred (wp pd
    (match op with
      | .and => e.pred pa && e.pred pb
      | .or => e.pred pa || e.pred pb
      | .xor => e.pred pa != e.pred pb
      | .andn => e.pred pa && !e.pred pb
      | .orn => e.pred pa || !e.pred pb
      | .nand => !(e.pred pa && e.pred pb)
      | .nor => !(e.pred pa || e.pred pb)
      | .xnor => e.pred pa == e.pred pb))) ∧
  (∀ h d, PerThread (.pmov h (.get d)) fun e => .reg (w32 d (e.preds.setWidth 32))) ∧
  (∀ h a, PerThread (.pmov h (.set a)) fun e => .pred ((List.range 7).map fun i => (i, (e.r32 a).getLsbD i)))

/-- FP32 arithmetic (R156-R163): completion, flags and frame, with the exact result rounded once for all but FEX2, FLG2,
FSIN, FCOS and FTANH. Of these five it says that they complete with the model's value of their function, which is not
stated for every input; that they give their special values with their flags (R163), and 2^i and log₂ 2^i exactly and
without flags; and that cos is even, sin and tanh odd, to the last bit. It rests on the model's choices in logs 6, 7,
30, 32 and 167. -/
def Obligations.Fp32Arithmetic : Prop :=
  (∀ h rnd d a b, PerThread (.fadd h rnd d a b) (f32Rounded rnd d fun m e => (e.f32 a).add m (e.f32 b))) ∧
  (∀ h rnd d a b, PerThread (.fsub h rnd d a b) (f32Rounded rnd d fun m e => (e.f32 a).add m (e.f32 b).negate)) ∧
  (∀ h rnd d a b, PerThread (.fmul h rnd d a b) (f32Rounded rnd d fun _ e => (e.f32 a).mul (e.f32 b))) ∧
  (∀ h rnd d a b c, PerThread (.ffma h rnd d a b c) (f32Rounded rnd d fun m e =>
    Num.fma m (e.f32 a) (e.f32 b) (e.f32 c))) ∧
  (∀ h d a b, PerThread (.fmin h d a b) fun e =>
    ⟨w32 d (BitVec.ofNat 32 (fp32.encode (Num.minNum (e.f32 a) (e.f32 b)))), [], sigFlag (e.f32 a) (e.f32 b), false⟩) ∧
  (∀ h d a b, PerThread (.fmax h d a b) fun e =>
    ⟨w32 d (BitVec.ofNat 32 (fp32.encode (Num.maxNum (e.f32 a) (e.f32 b)))), [], sigFlag (e.f32 a) (e.f32 b), false⟩) ∧
  (∀ h cmp pd a b, PerThread (.fset h cmp pd a b) fun e =>
    ⟨[], wp pd (fcmp cmp (e.f32 a) (e.f32 b)).1, (fcmp cmp (e.f32 a) (e.f32 b)).2, false⟩) ∧
  (∀ h d a, PerThread (.fclass h .f32 d a) fun e => .reg (w32 d (BitVec.ofNat 32 (2 ^ fp32.classBit (e.f32 a))))) ∧
  (∀ h d a, PerThread (.fclass h .f16 d a) fun e => .reg (w32 d (BitVec.ofNat 32
    (2 ^ fp16.classBit (fp16.decode ((e.r32 a).toNat % 65536)))))) ∧
  (∀ h d a, PerThread (.fclass h .bf16 d a) fun e => .reg (w32 d (BitVec.ofNat 32
    (2 ^ bf16.classBit (bf16.decode ((e.r32 a).toNat % 65536)))))) ∧
  (∀ h rnd exact d a, PerThread (.frnd h rnd exact d a) fun e =>
    let r := fp32.roundIntegral (e.mode rnd 0 0) exact (e.f32 a)
    ⟨w32 d (BitVec.ofNat 32 r.bits), [], r.flags, e.usesSr rnd 0⟩) ∧
  (∀ h rnd d a, PerThread (.fsqrt h rnd d a) (f32Rounded rnd d fun _ e => (e.f32 a).sqrt)) ∧
  (∀ h rnd d a, PerThread (.frcp h rnd d a) fun e =>
    let r := fp32.finishWith (e.mode rnd 0 0) (Num.one.div (e.f32 a))
    ⟨w32 d (BitVec.ofNat 32 r.bits), [], r.flags, e.usesSr rnd 0⟩) ∧
  (∀ h rnd d a, PerThread (.frsq h rnd d a) fun e =>
    let r := fp32.finishWith (e.mode rnd 0 0) (e.f32 a).rsqrt
    ⟨w32 d (BitVec.ofNat 32 r.bits), [], r.flags, e.usesSr rnd 0⟩) ∧
  (∀ h rnd d a b, PerThread (.fdiv h rnd d a b) fun e =>
    let r := fp32.finishWith (e.mode rnd 0 0) ((e.f32 a).div (e.f32 b))
    ⟨w32 d (BitVec.ofNat 32 r.bits), [], r.flags, e.usesSr rnd 0⟩) ∧
  (∀ h d a, PerThread (.fex2 h d a) fun e => ⟨w32 d (BitVec.ofNat 32 (ex2 (e.f32 a)).bits), [], (ex2 (e.f32 a)).flags, false⟩) ∧
  (∀ h d a, PerThread (.flg2 h d a) fun e => ⟨w32 d (BitVec.ofNat 32 (lg2 (e.f32 a)).bits), [], (lg2 (e.f32 a)).flags, false⟩) ∧
  (∀ h d a, PerThread (.fsin h d a) fun e => ⟨w32 d (BitVec.ofNat 32 (fsin (e.f32 a)).bits), [], (fsin (e.f32 a)).flags, false⟩) ∧
  (∀ h d a, PerThread (.fcos h d a) fun e => ⟨w32 d (BitVec.ofNat 32 (fcos (e.f32 a)).bits), [], (fcos (e.f32 a)).flags, false⟩) ∧
  (∀ h d a, PerThread (.ftanh h d a) fun e =>
    ⟨w32 d (BitVec.ofNat 32 (ftanh (e.f32 a)).bits), [], (ftanh (e.f32 a)).flags, false⟩) ∧
  (∀ sig, ∀ f ∈ [ex2, lg2, fsin, fcos, ftanh], f (.nan sig) = ⟨0x7FC00000, if sig then fNV else 0⟩) ∧
  (ex2 (.inf true) = ⟨0, 0⟩ ∧ ex2 (.inf false) = ⟨0x7F800000, 0⟩ ∧ lg2 (.inf true) = ⟨0x7FC00000, fNV⟩ ∧
    lg2 (.inf false) = ⟨0x7F800000, 0⟩ ∧ (∀ neg, fsin (.inf neg) = ⟨0x7FC00000, fNV⟩ ∧ fcos (.inf neg) = ⟨0x7FC00000, fNV⟩) ∧
    ftanh (.inf true) = ⟨0xBF800000, 0⟩ ∧ ftanh (.inf false) = ⟨0x3F800000, 0⟩) ∧
  (∀ neg e, let zero := if neg then 0x80000000 else 0
    ex2 (.fin neg 0 e) = ⟨0x3F800000, 0⟩ ∧ lg2 (.fin neg 0 e) = ⟨0xFF800000, fDZ⟩ ∧ fsin (.fin neg 0 e) = ⟨zero, 0⟩ ∧
    fcos (.fin neg 0 e) = ⟨0x3F800000, 0⟩ ∧ ftanh (.fin neg 0 e) = ⟨zero, 0⟩) ∧
  (∀ m e, 0 < m → lg2 (.fin true m e) = ⟨0x7FC00000, fNV⟩) ∧
  (∀ neg m e (i : Int), -160 ≤ e → scaled neg m e (-160) = i * 2 ^ 160 → -149 ≤ i → i ≤ 127 →
    ex2 (.fin neg m e) = ⟨fp32.encode (.fin false 1 i), 0⟩) ∧
  (∀ (k : Nat) (e : Int), -149 ≤ k + e → k + e ≤ 127 →
    lg2 (.fin false (2 ^ k) e) = ⟨fp32.encode (.ofInt (k + e)), 0⟩) ∧
  ∀ m e, fcos (.fin true m e) = fcos (.fin false m e) ∧ ∀ f ∈ [fsin, ftanh],
    (f (.fin true m e)).flags = (f (.fin false m e)).flags ∧
    (f (.fin true m e)).bits = (f (.fin false m e)).bits ^^^ 0x80000000

/-- Packed halves (R164) and FP64 (R165): completion, each exact result rounded once, flags and frame. It rests on the
model's choices in logs 6, 7, 32 and 167. -/
def Obligations.HalvesAndDouble : Prop :=
  (∀ h bf rnd d a b, PerThread (.hadd2 h bf rnd d a b) (halvesRounded bf rnd d fun i m e =>
    (e.half bf a i).add m (e.half bf b i))) ∧
  (∀ h bf rnd d a b, PerThread (.hmul2 h bf rnd d a b) (halvesRounded bf rnd d fun i _ e =>
    (e.half bf a i).mul (e.half bf b i))) ∧
  (∀ h bf rz d a b c, PerThread (.hfma2 h bf rz d a b c) (halvesRounded bf (if rz then .rz else .rne) d fun i m e =>
    Num.fma m (e.half bf a i) (e.half bf b i) (e.half bf c i))) ∧
  (∀ h rnd d a b, PerThread (.dadd h rnd d a b) (f64Rounded rnd d fun m e => (e.f64 a).add m (e.f64 b))) ∧
  (∀ h rnd d a b, PerThread (.dmul h rnd d a b) (f64Rounded rnd d fun _ e => (e.f64 a).mul (e.f64 b))) ∧
  (∀ h rnd d a b c, PerThread (.dfma h rnd d a b c) (f64Rounded rnd d fun m e =>
    Num.fma m (e.f64 a) (e.f64 b) (e.f64 c))) ∧
  (∀ h d a b, PerThread (.dmin h d a b) fun e =>
    ⟨w64 d (BitVec.ofNat 64 (fp64.encode (Num.minNum (e.f64 a) (e.f64 b)))), [], sigFlag (e.f64 a) (e.f64 b), false⟩) ∧
  (∀ h d a b, PerThread (.dmax h d a b) fun e =>
    ⟨w64 d (BitVec.ofNat 64 (fp64.encode (Num.maxNum (e.f64 a) (e.f64 b)))), [], sigFlag (e.f64 a) (e.f64 b), false⟩) ∧
  (∀ h cmp pd a b, PerThread (.dset h cmp pd a b) fun e =>
    ⟨[], wp pd (fcmp cmp (e.f64 a) (e.f64 b)).1, (fcmp cmp (e.f64 a) (e.f64 b)).2, false⟩) ∧
  (∀ h rnd d a, PerThread (.drcp h rnd d a) fun e =>
    let r := fp64.finishWith (e.mode rnd 0 0) (Num.one.div (e.f64 a))
    ⟨w64 d (BitVec.ofNat 64 r.bits), [], r.flags, e.usesSr rnd 0⟩)

/-- Conversion and quantisation (R166-R170): completion, results, flags and frame. Convert decides NaN, infinities and
overflow as Table 07.4 has them and encodes any other rounded value without loss, with NX where it is inexact and UF
where it is tiny as well (R125); to an integer, the value is rounded to a whole number and must lie in the type's
range. It rests on the model's choices in logs 6, 7, 30, 31, 32, 167 and 184. -/
def Obligations.Conversions : Prop :=
  (∀ h fs src rnd d a, PerThread (.cvt h fs src rnd d a) fun e =>
    let t := tgtOf (e.slot fs % 32)
    let r := convert t (e.mode rnd fs 0) (slotSat (e.slot fs)) (cvtSource src a e)
    ⟨if t.width = 64 then w64 d (BitVec.ofNat 64 r.bits) else w32 d (BitVec.ofNat 32 (tgtReg t r.bits)), [], r.flags,
      e.usesSr rnd fs⟩) ∧
  (∀ h fs rnd d a b, PerThread (.qnt h fs rnd d a b) fun e =>
    let n := (tgtOf (e.slot fs % 32)).width
    let r (i : Nat) := qntElem (e.slot fs) (e.mode rnd fs i) (e.r32 b) (fp32.decode (e.quad a i).toNat)
    ⟨w32 d (BitVec.ofNat 32 (packCodes n [(r 0).1, (r 1).1, (r 2).1, (r 3).1])), [],
      (r 0).2 ||| (r 1).2 ||| (r 2).2 ||| (r 3).2, e.usesSr rnd fs⟩) ∧
  (∀ h fs rnd d a b, PerThread (.dqnt h fs rnd d a b) fun e =>
    let n := (tgtOf (e.slot fs % 32)).width
    let r (i : Nat) := convertFlt fp32 (e.mode rnd fs i) (slotSat (e.slot fs))
      (dqntValue (e.slot fs) (e.r32 b) ((e.r32 a).toNat / 2 ^ (n * i) % 2 ^ n))
    ⟨wquad d (BitVec.ofNat 32 (r 0).bits) (BitVec.ofNat 32 (r 1).bits) (BitVec.ofNat 32 (r 2).bits)
        (BitVec.ofNat 32 (r 3).bits), [],
      (r 0).flags ||| (r 1).flags ||| (r 2).flags ||| (r 3).flags, e.usesSr rnd fs⟩) ∧
  (∀ h fs src rnd d a, PerThread (.pack h fs src rnd d a) fun e =>
    let t := tgtOf (e.slot fs % 32)
    let r (i : Nat) := convert t (e.mode rnd fs i) (slotSat (e.slot fs)) (packSource src (e.quad a i))
    let x := packCodes t.width [(r 0).bits, (r 1).bits, (r 2).bits, (r 3).bits]
    ⟨if t.width = 16 then w64 d (BitVec.ofNat 64 x) else w32 d (BitVec.ofNat 32 x), [],
      (r 0).flags ||| (r 1).flags ||| (r 2).flags ||| (r 3).flags, e.usesSr rnd fs⟩) ∧
  (∀ h fs toInt d a, PerThread (.unpk h fs toInt d a) fun e =>
    let t := tgtOf (e.slot fs % 32)
    let x := if t.width = 16 then (e.r64 a).toNat else (e.r32 a).toNat
    let r (i : Nat) := unpkElem t toInt (x / 2 ^ (t.width * i) % 2 ^ t.width)
    ⟨wquad d (r 0).1 (r 1).1 (r 2).1 (r 3).1, [], (r 0).2 ||| (r 1).2 ||| (r 2).2 ||| (r 3).2, false⟩) ∧
  (∀ f ∈ [fp64, fp32, fp16, bf16, e5m2], ∀ mode sat neg,
    (∀ sig, convert (.flt f) mode sat (.nan sig) = ⟨f.canonNaN, if sig then fNV else 0⟩) ∧
    convert (.flt f) mode sat (.inf neg) = (if sat then ⟨f.encode (f.max neg), fNX⟩ else ⟨f.infBits neg, 0⟩) ∧
    ∀ m e, 0 < m → f.overflows (f.round mode neg m e).n (f.round mode neg m e).q = true →
      convert (.flt f) mode sat (.fin neg m e) =
        (if sat then ⟨f.encode (f.max neg), fOF ||| fNX⟩ else ⟨f.infBits neg, fOF ||| fNX⟩)) ∧
  (∀ mode sat (neg : Bool), let sign (x : Nat) := if neg then 0x80 + x else x
    (∀ sig, convert (.flt e4m3) mode sat (.nan sig) = ⟨0x7F, if sig then fNV else 0⟩) ∧
    convert (.flt e4m3) mode sat (.inf neg) = (if sat then ⟨sign 0x7E, fNX⟩ else ⟨0x7F, fNV⟩) ∧
    ∀ m e, 0 < m → e4m3.overflows (e4m3.round mode neg m e).n (e4m3.round mode neg m e).q = true →
      convert (.flt e4m3) mode sat (.fin neg m e) =
        (if sat then ⟨sign 0x7E, fOF ||| fNX⟩ else ⟨0x7F, fOF ||| fNX⟩)) ∧
  (∀ mode sat (neg : Bool), let most := if neg then 0xF else 0x7
    (∀ sig, convert (.flt e2m1) mode sat (.nan sig) = ⟨0, fNV⟩) ∧
    convert (.flt e2m1) mode sat (.inf neg) = ⟨most, if sat then fNX else fNV⟩ ∧
    ∀ m e, 0 < m → e2m1.overflows (e2m1.round mode neg m e).n (e2m1.round mode neg m e).q = true →
      convert (.flt e2m1) mode sat (.fin neg m e) = ⟨most, if sat then fOF ||| fNX else fOF ||| fNX ||| fNV⟩) ∧
  (∀ f ∈ [fp64, fp32, fp16, bf16, e4m3, e5m2, e2m1], ∀ mode sat neg m e,
    (m = 0 → ∃ e', f.decode (convert (.flt f) mode sat (.fin neg m e)).bits = .fin neg 0 e' ∧
      (convert (.flt f) mode sat (.fin neg m e)).flags = 0) ∧
    (0 < m → let r := f.round mode neg m e
      f.overflows r.n r.q = false → ∃ m' e', f.decode (convert (.flt f) mode sat (.fin neg m e)).bits = .fin neg m' e' ∧
        scaled neg m' e' (min e' r.q) = scaled neg r.n r.q (min e' r.q) ∧
        (convert (.flt f) mode sat (.fin neg m e)).flags =
          (if r.inexact then (if r.tiny then fUF ||| fNX else fNX) else 0))) ∧
  ∀ (signed : Bool) (n : Nat) mode sat neg, 0 < n →
    let lo : Int := if signed then -2 ^ (n - 1) else 0
    let hi : Int := if signed then 2 ^ (n - 1) - 1 else 2 ^ n - 1
    let code (x : Int) : Nat := (x % 2 ^ n).toNat
    (∀ sig, convert (.int signed n) mode sat (.nan sig) = ⟨0, fNV⟩) ∧
    convert (.int signed n) mode sat (.inf neg) = ⟨code (if neg then lo else hi), if sat then fNX else fNV⟩ ∧
    ∀ m e, let x : Int := if neg then -((roundTo mode neg m e 0).1 : Int) else (roundTo mode neg m e 0).1
      convert (.int signed n) mode sat (.fin neg m e) =
        (if x < lo then ⟨code lo, if sat then fNX else fNX ||| fNV⟩
         else if hi < x then ⟨code hi, if sat then fNX else fNX ||| fNV⟩
         else ⟨code x, if (roundTo mode neg m e 0).2 then 0 else fNX⟩)

/-! ### Words that act on their team -/

/-- Loads (R188, R193, Table 10.1): where every active thread's access lies in the space, on a full line without an error,
LDS and LDT complete, each active thread receives the bytes at its effective offset, extended as the width says, and
neither store changes. It rests on the model's choices in logs 7 and 29. -/
def Obligations.Loads : Prop :=
  ∀ (tile : Bool) h w off d a,
    TeamWord (if tile then .ldt h w off d a else .lds h w off d a)
      (fun s h c => ∀ t ∈ c.active h,
        let o := effOffset ((c.env t).r32 a) off w.bytes
        o + w.bytes ≤ c.L.rcd.visible tile ∧ (c.T.store tile).full (o / 128) = true ∧ LineClean s c tile (o / 128))
      (fun _ h c T' => { T' with threads := c.T.threads } = c.T ∧
        Gets h c T' fun t =>
          .reg (loadResult w d (c.T.readStore tile (effOffset ((c.env t).r32 a) off w.bytes) w.bytes)))

/-- Stores (R188, R189, R193, Table 10.1): where every active thread's access lies in the space and its line admits the
form (full for a plain store, not claimed for .ewr and .fill), STS and STT complete. A byte that active threads cover
holds the datum of the last of them, every other byte of both stores is as before, .fill leaves its lines full, and no
other line changes its state. It rests on the model's choices in log 29. -/
def Obligations.Stores : Prop :=
  ∀ (tile : Bool) h w mode off v a,
    TeamWord (if tile then .stt h w mode off v a else .sts h w mode off v a)
      (fun _ h c => ∀ t ∈ c.active h,
        let o := effOffset ((c.env t).r32 a) off w.bytes
        o + w.bytes ≤ c.L.rcd.visible tile ∧
          (if mode = .plain then (c.T.store tile).full (o / 128) = true else (c.T.store tile).claimed (o / 128) = false))
      (fun _ h c T' =>
        let at' (t : Nat) := effOffset ((c.env t).r32 a) off w.bytes
        (∀ y, (T'.store tile).bytes.byte y =
          match (c.active h).reverse.find? fun t => decide (at' t ≤ y) && decide (y < at' t + w.bytes) with
          | some t => BitVec.ofNat 8 (storeData (c.env t) w v / 256 ^ (y - at' t))
          | none => (c.T.store tile).bytes.byte y) ∧
        T'.store (!tile) = c.T.store (!tile) ∧ (T'.store tile).claims = (c.T.store tile).claims ∧
        (∀ l, (T'.store tile).full l = true ↔
          (c.T.store tile).full l = true ∨ mode = .fill ∧ ∃ t ∈ c.active h, at' t / 128 = l) ∧
        { T' with threads := c.T.threads, scratch := c.T.scratch, tile := c.T.tile } = c.T ∧
        Gets h c T' fun _ => .none)

/-- Atomics (R189, R194, R195, Tables 10.1 and 10.3): where every active thread's word lies in scratch, on a full line
without an error, ATOMS and CASS complete. The threads that name one word act on it one after another in ascending
order: each receives the word as those before it left it, and leaves what its operation makes of that word and its
source; for CASS that is the third source if the word equals the second, else the word itself. The flags of `.fadd`
are each thread's own. No other byte and no line's state changes. It rests on the model's choices in log 29. -/
def Obligations.Atomics : Prop :=
  let pre (z : Nat) (a : Opnd) (s : State) (h : Hdr) (c : Cur) : Prop := ∀ t ∈ c.active h,
    let o := effOffset ((c.env t).r32 a) 0 z
    o + z ≤ c.L.rcd.visible false ∧ c.T.scratch.full (o / 128) = true ∧ LineClean s c false (o / 128)
  let post (z : Nat) (a : Opnd) (made : Env → Nat → Nat × BitVec 5) (res : Nat → List (Nat × Word)) (h : Hdr) (c : Cur)
      (T' : Team) : Prop :=
    let at' (t : Nat) := effOffset ((c.env t).r32 a) 0 z
    let after (ts : List Nat) (t : Nat) : Nat := (ts.filter fun u => at' u == at' t).foldl
      (fun x u => (made (c.env u) x).1 % 2 ^ (8 * z)) (c.T.readStore false (at' t) z)
    let before (t : Nat) : Nat := after ((c.active h).filter fun u => decide (u < t)) t
    (∀ t ∈ c.active h, T'.readStore false (at' t) z = after (c.active h) t) ∧
    (∀ y, (∀ t ∈ c.active h, ¬ (at' t ≤ y ∧ y < at' t + z)) → T'.scratch.bytes.byte y = c.T.scratch.bytes.byte y) ∧
    { T' with threads := c.T.threads, scratch := c.T.scratch } = c.T ∧
    T'.scratch.empties = c.T.scratch.empties ∧ T'.scratch.claims = c.T.scratch.claims ∧
    Gets h c T' fun t => ⟨res (before t), [], (made (c.env t) (before t)).2, false⟩
  (∀ h op d a b,
    let z := 4 * op.regs
    let made (e : Env) (x : Nat) : Nat × BitVec 5 :=
      let v : Nat := if z = 8 then (e.r64 b).toNat else (e.r32 b).toNat
      match op with
      | .int k t =>
        let n : Int := t.val (BitVec.ofNat 64 x)
        let m : Int := t.val (BitVec.ofNat 64 v)
        (match k with
          | .add => ((n + m) % 2 ^ t.width).toNat
          | .min => ((if n ≤ m then n else m) % 2 ^ t.width).toNat
          | .max => ((if n ≤ m then m else n) % 2 ^ t.width).toNat
          | .and => x &&& v
          | .or => x ||| v
          | .xor => x ^^^ v
          | .swap => v, 0)
      | .fadd r =>
        let y := fp32.finish (e.mode r 0 0) (Machine.Num.add (e.mode r 0 0) (fp32.decode x) (fp32.decode v))
        (y.bits, y.flags)
    let res (x : Nat) : List (Nat × Word) := if z = 8 then w64 d (BitVec.ofNat 64 x) else w32 d (BitVec.ofNat 32 x)
    TeamWord (.atoms h op d a b) (pre z a) (fun _ h c T' => post z a made res h c T')) ∧
  (∀ h x64 d a b n,
    let z := if x64 then 8 else 4
    let src (e : Env) (o : Opnd) : Nat := if x64 then (e.r64 o).toNat else (e.r32 o).toNat
    let res (x : Nat) : List (Nat × Word) := if x64 then w64 d (BitVec.ofNat 64 x) else w32 d (BitVec.ofNat 32 x)
    TeamWord (.cass h x64 d a b n) (pre z a)
      (fun _ h c T' => post z a (fun e x => (if x = src e b then src e n else x, 0)) res h c T'))

/-- The full/empty instructions (R192, R196, Table 10.1), on lines in the space: WAITF and WAITF.empty complete where
every active thread's line is full, or empty and not claimed; MARKF makes the unclaimed lines full and MARKE the full
ones empty; PROBEF reads whether the line is full. Nothing else changes but the waits that end. -/
def Obligations.FullEmpty : Prop :=
  (∀ h tile empty off a, TeamWord (.waitf h tile empty off a)
    (fun _ h c => ∀ t ∈ c.active h,
      let o := effOffset ((c.env t).r32 a) off 128
      o + 128 ≤ c.L.rcd.visible tile ∧
        (if empty then (c.T.store tile).free (o / 128) = true else (c.T.store tile).full (o / 128) = true))
    (fun _ h c T' => { T' with threads := c.T.threads } = c.T ∧ Gets h c T' fun _ => .none)) ∧
  (∀ h tile off a, TeamWord (.markf h tile off a)
    (fun _ h c => ∀ t ∈ c.active h, effOffset ((c.env t).r32 a) off 128 + 128 ≤ c.L.rcd.visible tile)
    (fun _ h c T' =>
      (∀ l, (T'.store tile).full l = true ↔ (c.T.store tile).full l = true ∨
        (c.T.store tile).claimed l = false ∧ ∃ t ∈ c.active h, effOffset ((c.env t).r32 a) off 128 / 128 = l) ∧
      (T'.store tile).bytes = (c.T.store tile).bytes ∧ (T'.store tile).claims = (c.T.store tile).claims ∧
      T'.store (!tile) = c.T.store (!tile) ∧
      { T' with threads := c.T.threads, scratch := c.T.scratch, tile := c.T.tile } = c.T ∧ Gets h c T' fun _ => .none)) ∧
  (∀ h tile off a, TeamWord (.marke h tile off a)
    (fun _ h c => ∀ t ∈ c.active h, effOffset ((c.env t).r32 a) off 128 + 128 ≤ c.L.rcd.visible tile)
    (fun _ h c T' =>
      (∀ l, (T'.store tile).full l = true ↔ (c.T.store tile).full l = true ∧
        ¬ ∃ t ∈ c.active h, effOffset ((c.env t).r32 a) off 128 / 128 = l) ∧
      (T'.store tile).bytes = (c.T.store tile).bytes ∧ (T'.store tile).claims = (c.T.store tile).claims ∧
      T'.store (!tile) = c.T.store (!tile) ∧
      { T' with threads := c.T.threads, scratch := c.T.scratch, tile := c.T.tile } = c.T ∧ Gets h c T' fun _ => .none)) ∧
  (∀ h tile pd off a, TeamWord (.probef h tile pd off a)
    (fun _ h c => ∀ t ∈ c.active h, effOffset ((c.env t).r32 a) off 128 + 128 ≤ c.L.rcd.visible tile)
    (fun _ h c T' => { T' with threads := c.T.threads } = c.T ∧
      Gets h c T' fun t => .pred (wp pd ((c.T.store tile).full (effOffset ((c.env t).r32 a) off 128 / 128)))))

/-- Accesses out of range (R26, R184, R188, R192, R209): a load, an atomic or a stream's word gives zero there, PROBEF
gives true, WAITF goes on, and stores, atomics, MARKF and MARKE have no effect; no word traps or waits, and the
space's record, if it holds none, takes the first of the accesses: its valid bit, whether it was a write, the low 24
bits of its offset (log 28) and its thread. It rests on the model's choices in log 28. -/
def Obligations.OutOfRange : Prop :=
  let Recorded (i : Instr) (tile write : Bool) (z : Nat) (o : Cur → Nat → Nat) (more : Cur → Nat → Prop) (out : Out) : Prop :=
    TeamWord i
      (fun _ h c => c.active h ≠ [] ∧ ∀ t ∈ c.active h, c.L.rcd.visible tile < o c t + z ∧ more c t)
      (fun _ h c T' =>
        Gets h c T' (fun _ => out) ∧
        { T' with
          threads := c.T.threads, scrinfo := c.T.scrinfo, scrthread := c.T.scrthread, tileinfo := c.T.tileinfo,
          tilethread := c.T.tilethread } = c.T ∧
        let t := (c.active h).headD 0
        let x : Word := 0x80000000 ||| (if write then 0x40000000 else 0) ||| BitVec.ofNat 32 (o c t % 2 ^ 24)
        if tile then
          T'.scrinfo = c.T.scrinfo ∧ T'.scrthread = c.T.scrthread ∧
          if c.T.tileinfo.getLsbD 31 then T'.tileinfo = c.T.tileinfo ∧ T'.tilethread = c.T.tilethread
          else T'.tileinfo = x ∧ T'.tilethread = BitVec.ofNat 32 t
        else
          T'.tileinfo = c.T.tileinfo ∧ T'.tilethread = c.T.tilethread ∧
          if c.T.scrinfo.getLsbD 31 then T'.scrinfo = c.T.scrinfo ∧ T'.scrthread = c.T.scrthread
          else T'.scrinfo = x ∧ T'.scrthread = BitVec.ofNat 32 t)
  let all (_ : Cur) (_ : Nat) : Prop := True
  let off (a : Opnd) (n : BitVec 10) (z : Nat) (c : Cur) (t : Nat) : Nat := effOffset ((c.env t).r32 a) n z
  let zero (d : Opnd) (z : Nat) : Out := .reg (if z = 8 then w64 d 0 else w32 d 0)
  (∀ h w mode n r a,
    Recorded (.lds h w n r a) false false w.bytes (off a n w.bytes) all (.reg (loadResult w r 0)) ∧
    Recorded (.ldt h w n r a) true false w.bytes (off a n w.bytes) all (.reg (loadResult w r 0)) ∧
    Recorded (.sts h w mode n r a) false true w.bytes (off a n w.bytes) all .none ∧
    Recorded (.stt h w mode n r a) true true w.bytes (off a n w.bytes) all .none) ∧
  (∀ h (op : AOp) d a b, let z := 4 * op.regs
    Recorded (.atoms h op d a b) false true z (off a 0 z) all (zero d z)) ∧
  (∀ h x64 d a b n, let z := if x64 then 8 else 4
    Recorded (.cass h x64 d a b n) false true z (off a 0 z) all (zero d z)) ∧
  (∀ h tile empty n a pd,
    Recorded (.waitf h tile empty n a) tile false 128 (off a n 128) all .none ∧
    Recorded (.markf h tile n a) tile true 128 (off a n 128) all .none ∧
    Recorded (.marke h tile n a) tile true 128 (off a n 128) all .none ∧
    Recorded (.probef h tile pd n a) tile false 128 (off a n 128) all (.pred (wp pd true))) ∧
  ∀ h (value : Bool) d (f : SCode),
    Recorded (.scrd h (if value then .val else .coord) d f) false false 4
      (fun c t =>
        let x := (c.thread t).stream f
        let o := ((if value then x.voff else x.coff).toNat + 4 * x.pos.toNat) % 2 ^ 32
        o - o % 4)
      (fun c t => ((c.thread t).stream f).pos.toNat < ((c.thread t).stream f).len.toNat) (.reg (w32 d 0))

/-- Role queues (R61, R206): where there is room for all active threads, QPUT appends their values in ascending order of
threads; where there are enough tokens, QGET gives them out in that order and removes them; QPEEK gives the oldest
token to all. Where there is room, or a token, only for the first of them, those act and the others wait at the word
for a slot, or for a token, and so do all that peek at an empty queue (R190). No other queue changes. It rests on the
model's choices in logs 7 and 179. -/
def Obligations.RoleQueues : Prop :=
  (∀ h (q : BitVec 2) a, TeamWord (.qput h q a)
    (fun _ h c => q.toNat < c.T.queues.length ∧
      (c.T.queue q.toNat).length + (c.active h).length ≤ c.L.rcd.depth q.toNat)
    (fun _ h c T' =>
      T'.queue q.toNat = c.T.queue q.toNat ++ (c.active h).map (fun t => (c.env t).r32 a) ∧
      (∀ n, n ≠ q.toNat → T'.queue n = c.T.queue n) ∧
      { T' with threads := c.T.threads, queues := c.T.queues } = c.T ∧ Gets h c T' fun _ => .none)) ∧
  (∀ h (q : BitVec 2) d, TeamWord (.qget h q d)
    (fun _ h c => (c.active h).length ≤ (c.T.queue q.toNat).length)
    (fun _ h c T' =>
      T'.queue q.toNat = (c.T.queue q.toNat).drop (c.active h).length ∧
      (∀ n, n ≠ q.toNat → T'.queue n = c.T.queue n) ∧
      { T' with threads := c.T.threads, queues := c.T.queues } = c.T ∧
      Gets h c T' fun t => .reg (w32 d (((c.T.queue q.toNat)[(c.active h).idxOf t]?).getD 0)))) ∧
  (∀ h (q : BitVec 2) d, TeamWord (.qpeek h q d)
    (fun _ _ c => c.T.queue q.toNat ≠ [])
    (fun _ h c T' => { T' with threads := c.T.threads } = c.T ∧
      Gets h c T' fun _ => .reg (w32 d ((c.T.queue q.toNat).headD 0)))) ∧
  (∀ h (q : BitVec 2) a,
    let k (c : Cur) : Nat := c.L.rcd.depth q.toNat - (c.T.queue q.toNat).length
    TeamWordBy (fun s' c => StaysOn (c.staying ((c.active h).drop (k c))) s' c) (.qput h q a)
      (fun _ _ c => q.toNat < c.T.queues.length)
      (fun _ h c T' =>
        T'.queue q.toNat = c.T.queue q.toNat ++ ((c.active h).take (k c)).map (fun t => (c.env t).r32 a) ∧
        (∀ n, n ≠ q.toNat → T'.queue n = c.T.queue n) ∧ { T' with threads := c.T.threads, queues := c.T.queues } = c.T ∧
        SomeGet h c T' ((c.active h).take (k c)) (fun _ => .none) ∧
        SomeWait c T' ((c.active h).drop (k c)) fun _ => .queue true q.toNat)) ∧
  (∀ h (q : BitVec 2) d,
    let k (c : Cur) : Nat := (c.T.queue q.toNat).length
    TeamWordBy (fun s' c => StaysOn (c.staying ((c.active h).drop (k c))) s' c) (.qget h q d) (fun _ _ _ => True)
      (fun _ h c T' =>
        T'.queue q.toNat = (c.T.queue q.toNat).drop (c.active h).length ∧
        (∀ n, n ≠ q.toNat → T'.queue n = c.T.queue n) ∧ { T' with threads := c.T.threads, queues := c.T.queues } = c.T ∧
        SomeGet h c T' ((c.active h).take (k c))
          (fun t => .reg (w32 d (((c.T.queue q.toNat)[(c.active h).idxOf t]?).getD 0))) ∧
        SomeWait c T' ((c.active h).drop (k c)) fun _ => .queue false q.toNat)) ∧
  (∀ h (q : BitVec 2) d, TeamWordBy (fun s' c => StaysOn (c.staying (c.active h)) s' c) (.qpeek h q d)
    (fun _ _ c => c.T.queue q.toNat = [])
    (fun _ h c T' => { T' with threads := c.T.threads } = c.T ∧ SomeWait c T' (c.active h) fun _ => .queue false q.toNat))

/-- Buffer-free signals and system registers (R182-R185, R207, Table 09.2): MCARM raises the team's signal if a thread is
active; MFSR reads a thread's or its team's register; MTSR writes the flags, the SR step, or clears a record of
accesses out of range; PMARK sets the mark; and nothing else changes. -/
def Obligations.SystemRegisters : Prop :=
  (∀ h (n : BitVec 2), TeamWord (.mcarm h n) (fun _ _ _ => True) (fun _ h c T' =>
    T'.mcast = (if c.active h = [] then c.T.mcast else c.T.mcast ||| BitVec.ofNat 4 (2 ^ n.toNat)) ∧
    { T' with threads := c.T.threads, mcast := c.T.mcast } = c.T ∧ Gets h c T' fun _ => .none)) ∧
  (∀ h (num : BitVec 10) d, TeamWord (.mfsr h num d) (fun _ _ _ => True) (fun _ h c T' =>
    { T' with threads := c.T.threads } = c.T ∧
    Gets h c T' fun t => .reg (w32 d
      (match num.toNat with
        | 0 => (c.thread t).fp.setWidth 32
        | 1 => (c.thread t).srstep
        | 2 => c.T.scrinfo
        | 3 => c.T.scrthread
        | 4 => c.T.tileinfo
        | 5 => c.T.tilethread
        | 6 => if (c.thread t).ckpt.isSome then 1 else 0
        | 7 => (c.thread t).mark.setWidth 32
        | _ => 0)))) ∧
  (∀ h (num : BitVec 10) a, TeamWord (.mtsr h num a) (fun _ _ _ => True) (fun _ h c T' =>
    (∀ t th, c.T.threads[t]? = some th → t ∈ c.active h → ∃ th', T'.threads[t]? = some th' ∧
      th'.fp = (if num = 0 then ((c.env t).r32 a).extractLsb' 0 5 else th.fp) ∧
      th'.srstep = (if num = 1 then (c.env t).r32 a else th.srstep) ∧
      th'.pending = th.pending ++ (if h.ctr = 0 then [] else [⟨h.ctr, [], [], []⟩]) ∧
      { th' with pc := th.pc, widx := th.widx, fp := th.fp, srstep := th.srstep, pending := th.pending } = th) ∧
    let clears := (c.active h).any fun t => ((c.env t).r32 a).getLsbD 31
    T'.scrinfo = (if num = 2 ∧ clears then 0 else c.T.scrinfo) ∧
    T'.scrthread = (if num = 2 ∧ clears then 0 else c.T.scrthread) ∧
    T'.tileinfo = (if num = 4 ∧ clears then 0 else c.T.tileinfo) ∧
    T'.tilethread = (if num = 4 ∧ clears then 0 else c.T.tilethread) ∧
    { T' with
      threads := c.T.threads, scrinfo := c.T.scrinfo, scrthread := c.T.scrthread, tileinfo := c.T.tileinfo,
      tilethread := c.T.tilethread } = c.T)) ∧
  (∀ h a, TeamWord (.pmark h a) (fun _ _ _ => True) (fun _ h c T' =>
    { T' with threads := c.T.threads } = c.T ∧
    ∀ t th, c.T.threads[t]? = some th → t ∈ c.active h → ∃ th', T'.threads[t]? = some th' ∧
      th'.mark = ((c.env t).r32 a).extractLsb' 0 16 ∧
      th'.pending = th.pending ++ (if h.ctr = 0 then [] else [⟨h.ctr, [], [], []⟩]) ∧
      { th' with pc := th.pc, widx := th.widx, mark := th.mark, pending := th.pending } = th))

/-- Streams (R208-R210): SOPEN binds a stream register, SADV moves its position and never past the end, SCLOSE unbinds it,
STEND tells whether it is at its end, SCRD reads its fields or the word at its position, and nothing else changes. -/
def Obligations.Streams : Prop :=
  (∀ h (f : SCode) a, TeamWord (.sopen h f a) (fun _ _ _ => True) (fun _ h c T' =>
    { T' with threads := c.T.threads } = c.T ∧
    GetsStreams h c T' fun t =>
      let e := c.env t
      ([], [], [(f.toNat, ⟨true, e.quad a 0 - e.quad a 0 % 4, e.quad a 1 - e.quad a 1 % 4, e.quad a 2,
        if (e.quad a 3).toNat ≤ (e.quad a 2).toNat then e.quad a 3 else e.quad a 2⟩)]))) ∧
  (∀ h (f : SCode) a, TeamWord (.sadv h f a) (fun _ _ _ => True) (fun _ h c T' =>
    { T' with threads := c.T.threads } = c.T ∧
    GetsStreams h c T' fun t =>
      let x := (c.thread t).stream f
      ([], [], [(f.toNat, { x with
        pos := BitVec.ofNat 32 (min x.len.toNat (x.pos.toNat + ((c.env t).r32 a).toNat)) })]))) ∧
  (∀ h (pd : PCode) (f : SCode), TeamWord (.stend h pd f) (fun _ _ _ => True) (fun _ h c T' =>
    { T' with threads := c.T.threads } = c.T ∧
    GetsStreams h c T' fun t =>
      ([], wp pd (decide (((c.thread t).stream f).len.toNat ≤ ((c.thread t).stream f).pos.toNat)), []))) ∧
  (∀ h (f : SCode), TeamWord (.sclose h f) (fun _ _ _ => True) (fun _ h c T' =>
    { T' with threads := c.T.threads } = c.T ∧ GetsStreams h c T' fun _ => ([], [], [(f.toNat, Stream.unbound)]))) ∧
  (∀ h sel d (f : SCode), TeamWord (.scrd h sel d f)
    (fun s h c => ∀ t ∈ c.active h, ∀ o ∈ scrdReads sel f c t,
      o + 4 ≤ c.L.rcd.scratch ∧ c.T.scratch.full (o / 128) = true ∧ LineClean s c false (o / 128))
    (fun _ h c T' => { T' with threads := c.T.threads } = c.T ∧
      GetsStreams h c T' fun t =>
        let x := (c.thread t).stream f
        let word (base : Word) : Word :=
          BitVec.ofNat 32 (c.T.readStore false
            ((base.toNat + 4 * x.pos.toNat) % 2 ^ 32 - (base.toNat + 4 * x.pos.toNat) % 2 ^ 32 % 4) 4)
        (w32 d (match sel with
          | .coord => if x.pos.toNat < x.len.toNat then word x.coff else 0xFFFFFFFF
          | .val => if x.pos.toNat < x.len.toNat then word x.voff else 0
          | .pos => x.pos
          | .len => x.len), [], [])))

/-- SISECT and SUNION (R210): where the windows lie in scratch on full lines, both complete. A window holds the next
coordinates of its stream, at most 16; its limit is its last coordinate where the stream goes on past it, else
infinity. What is consumed are as many coordinates of each window as do not exceed the cut: for SISECT the smaller
limit, for SUNION the 16th of the distinct coordinates of both windows within that limit, or the last where they are
fewer. The masks mark the consumed coordinates that the other stream consumed too; the result quad holds them, both
counts of consumed coordinates with the count of common or of all distinct ones, and the old positions; and both
positions move by what was consumed. -/
def Obligations.StreamMerges : Prop :=
  let upTo (limit : Option Nat) (v : Nat) : Bool := match limit with
    | some m => decide (v ≤ m)
    | none => true
  ∀ (union : Bool) h d (fa fb : SCode), fa ≠ fb →
    TeamWord (if union then .sunion h d fa fb else .sisect h d fa fb)
      (fun s h c => ∀ t ∈ c.active h, ∀ o ∈ mergeReads fa fb c t,
        o + 4 ≤ c.L.rcd.scratch ∧ c.T.scratch.full (o / 128) = true ∧ LineClean s c false (o / 128))
      (fun _ h c T' => { T' with threads := c.T.threads } = c.T ∧
        let window (f : SCode) (t : Nat) : List Nat :=
          let x := (c.thread t).stream f
          (List.range (min 16 (x.len.toNat - x.pos.toNat))).map fun i =>
            let o := (x.coff.toNat + 4 * (x.pos.toNat + i)) % 2 ^ 32
            c.T.readStore false (o - o % 4) 4
        let limit (f : SCode) (t : Nat) : Option Nat :=
          let x := (c.thread t).stream f
          if x.pos.toNat + (window f t).length < x.len.toNat then (window f t).getLast? else none
        let both (t v : Nat) : Bool := upTo (limit fa t) v && upTo (limit fb t) v
        ∃ cut : Nat → Option Nat,
          (∀ t ∈ c.active h,
            if union then ∃ U : List Nat, U.Pairwise (· < ·) ∧
              (∀ v, v ∈ U ↔ (v ∈ window fa t ∨ v ∈ window fb t) ∧ both t v = true) ∧
              if U = [] then ∀ v, upTo (cut t) v = both t v else cut t = U[min 16 U.length - 1]?
            else ∀ v, upTo (cut t) v = both t v) ∧
          GetsStreams h c T' fun t =>
            let wa := window fa t
            let wb := window fb t
            let na := (wa.filter (upTo (cut t))).length
            let nb := (wb.filter (upTo (cut t))).length
            let marked (w v : List Nat) : List Nat :=
              (List.range 16).filter fun i => ((w[i]?).map fun x => v.contains x).getD false
            let ma := marked (wa.take na) (wb.take nb)
            let mb := marked (wb.take nb) (wa.take na)
            let mask (l : List Nat) : Nat := (l.map fun i => 2 ^ i).sum
            let count := if union then na + nb - ma.length else ma.length
            let xa := (c.thread t).stream fa
            let xb := (c.thread t).stream fb
            (wquad d (BitVec.ofNat 32 (mask mb * 65536 + mask ma))
              (BitVec.ofNat 32 (count % 32 * 65536 + nb * 256 + na)) xa.pos xb.pos, [],
             [(fa.toNat, { xa with pos := BitVec.ofNat 32 (xa.pos.toNat + na) }),
              (fb.toNat, { xb with pos := BitVec.ofNat 32 (xb.pos.toNat + nb) })]))

/-! ### Waiting, barriers and collectives -/

/-- Parking (R63, R64, R190, R210): where the line of every active thread does not admit its access, the active threads
leave the bundle and wait on those lines, to begin again at the word itself, with nothing of the instruction done;
where the core's wait table has no room and holds none of their lines, they are turned away for 16 cycles. So do
loads, plain stores, atomics, WAITF and SCRD on a line that is not full, .ewr and .fill on one that is claimed,
WAITF.empty on one that is not empty, and SISECT and SUNION on the lowest line of their windows that is not full. It
rests on the model's choices in log 179. -/
def Obligations.Parking : Prop :=
  let Parks (i : Instr) (h : Hdr) (tile : Bool) (line : Cur → Nat → Option Nat) : Prop :=
    let waits (c : Cur) (T' : Team) (wait : Nat → Wait) : Prop :=
      { T' with threads := c.T.threads } = c.T ∧ SomeWait c T' (c.active h) wait
    TeamWordBy (fun s' c => StaysOn (c.idle h) s' c) i
      (fun s _ c => (∀ t ∈ c.active h, (line c t).isSome = true) ∧
        s.othersWaiting c.core c.b.team + c.T.waitLines.length + (c.active h).length ≤ 256)
      (fun _ _ c T' => waits c T' fun t => .line tile ((line c t).getD 0)) ∧
    TeamWordBy (fun s' c => StaysOn (c.idle h) s' c) i
      (fun s _ c => (∀ t ∈ c.active h, ∃ l, line c t = some l ∧ (tile, l) ∉ c.T.waitLines) ∧
        256 ≤ s.othersWaiting c.core c.b.team + c.T.waitLines.length)
      (fun _ _ c T' => waits c T' fun _ => .retry 16)
  let blocked (tile : Bool) (a : Opnd) (off : BitVec 10) (z : Nat) (bar : Store → Nat → Bool) (c : Cur) (t : Nat) :
      Option Nat :=
    let o := effOffset ((c.env t).r32 a) off z
    if o + z ≤ c.L.rcd.visible tile ∧ bar (c.T.store tile) (o / 128) = true then some (o / 128) else none
  let notFull (x : Store) (l : Nat) : Bool := !x.full l
  let lowest (os : List Nat) (c : Cur) : Option Nat :=
    ((os.filter fun o => decide (o + 4 ≤ c.L.rcd.scratch) && !c.T.scratch.full (o / 128)).map (· / 128)).min?
  (∀ (tile : Bool) h w off d a, Parks (if tile then .ldt h w off d a else .lds h w off d a) h tile
    (blocked tile a off w.bytes notFull)) ∧
  (∀ (tile : Bool) h w mode off v a, Parks (if tile then .stt h w mode off v a else .sts h w mode off v a) h tile
    (blocked tile a off w.bytes fun x l => if mode = .plain then !x.full l else x.claimed l)) ∧
  (∀ h op d a b, Parks (.atoms h op d a b) h false (blocked false a 0 (4 * op.regs) notFull)) ∧
  (∀ h (x64 : Bool) d a b n, Parks (.cass h x64 d a b n) h false (blocked false a 0 (if x64 then 8 else 4) notFull)) ∧
  (∀ h tile (empty : Bool) off a, Parks (.waitf h tile empty off a) h tile
    (blocked tile a off 128 fun x l => if empty then !x.free l else !x.full l)) ∧
  (∀ h sel d (f : SCode), Parks (.scrd h sel d f) h false fun c t => lowest (scrdReads sel f c t) c) ∧
  ∀ (union : Bool) h d (fa fb : SCode), Parks (if union then .sunion h d fa fb else .sisect h d fa fb) h false
    fun c t => lowest (mergeReads fa fb c t) c

/-- Arriving at a barrier (R57-R59, R204): where every active thread is a member that has not arrived in the open phase
and some member is still to arrive, the active threads join the phase's arrivals; BARA gives each the phase and the
bundle goes on, BAR leaves each waiting for the phase, to go on after the word. Where every active thread has arrived
in the open phase already, each waits to arrive again, and the arrivals are as they were. It rests on the model's
choices in logs 25 and 179. -/
def Obligations.BarrierArrivals : Prop :=
  (∀ (bara : Bool) h lvl (n : BitVec 4) d s c,
    let i := if bara then Instr.bara h lvl n d else .bar h lvl n
    let k := c.b.team
    let b := s.barrier lvl n.toNat k
    Issues s i h c → s.Canonical → c.b.threads.Pairwise (· < ·) → c.Awake → s.BarsWhole → n.toNat < lvl.count →
    c.barOffender h lvl n.toNat = none → (∀ t ∈ c.active h, (k.n, t) ∉ b.arrived) →
    (∃ m ∈ s.members c.L lvl n.toNat k, m ∉ b.arrived ∧ ¬(m.1 = k.n ∧ m.2 ∈ c.active h)) →
    ∃ s' T', exec i s = .next s' ∧ s'.team? k = some T' ∧ BarrierFrame s s' c lvl n.toNat ∧
      s'.barrier lvl n.toNat k = { b with arrived := b.arrived ++ (c.active h).map fun t => (k.n, t) } ∧
      StaysOn (if bara then c.b.threads else c.idle h) s' c ∧ (∀ q, q ≠ k → ∀ T, s.team? q = some T →
        ∃ U, s'.team? q = some U ∧ U.threads = T.threads) ∧
      ∀ t th, c.T.threads[t]? = some th → ∃ th', T'.threads[t]? = some th' ∧
        if t ∈ c.active h then
          if bara then th.Got h (.reg (w32 d b.phase)) th'
          else th.WaitsAt h .none (.barrier lvl n.toNat b.phase) c.after.1 c.after.2 th'
        else th.Kept th') ∧
  ∀ (bara : Bool) h lvl (n : BitVec 4) d s c,
    let i := if bara then Instr.bara h lvl n d else .bar h lvl n
    let k := c.b.team
    let b := s.barrier lvl n.toNat k
    Issues s i h c → s.Canonical → c.b.threads.Pairwise (· < ·) → c.Awake → s.BarsWhole → n.toNat < lvl.count →
    c.barOffender h lvl n.toNat = none → (∀ t ∈ c.active h, (k.n, t) ∈ b.arrived) →
    (∃ m ∈ s.members c.L lvl n.toNat k, m ∉ b.arrived) →
    ∃ s' T', exec i s = .next s' ∧ s'.team? k = some T' ∧ BarrierFrame s s' c lvl n.toNat ∧
      s'.barrier lvl n.toNat k = b ∧ StaysOn (c.idle h) s' c ∧
      (∀ q, q ≠ k → ∀ T, s.team? q = some T → ∃ U, s'.team? q = some U ∧ U.threads = T.threads) ∧
      ∀ t th, c.T.threads[t]? = some th → ∃ th', T'.threads[t]? = some th' ∧
        if t ∈ c.active h then
          th'.wait = some (.rearrive lvl n.toNat bara (if bara then d else .k1 0) h.ctr c.after.1 c.after.2) ∧
          th'.woken = false ∧ th'.pc = c.b.addr ∧ th'.widx = c.b.idx + 1 ∧ th.Rested th'
        else th.Kept th'

/-- Completing a phase (R58): where the active threads are the last members to arrive, the next phase opens with no
arrivals, every thread in the barrier's scope that waits for the old phase, or for one that counts as completed with
it (BARW), goes on, and so does the bundle; BARA gives its threads the old phase, and every other thread is as it was.
No thread waits to arrive again, and no team of the scope is halted or saved. It rests on the model's choices in logs
24 and 26. -/
def Obligations.BarrierCompletions : Prop :=
  ∀ (bara : Bool) h lvl (n : BitVec 4) d s c,
    let i := if bara then Instr.bara h lvl n d else .bar h lvl n
    let k := c.b.team
    let b := s.barrier lvl n.toNat k
    Issues s i h c → s.Canonical → c.b.threads.Pairwise (· < ·) → c.Awake → s.BarsWhole → n.toNat < lvl.count →
    c.barOffender h lvl n.toNat = none → (∀ t ∈ c.active h, (k.n, t) ∉ b.arrived) → c.active h ≠ [] →
    (∀ t ∈ c.b.threads, t ∈ c.T.live) →
    (∀ m ∈ s.members c.L lvl n.toNat k, m ∈ b.arrived ∨ m.1 = k.n ∧ m.2 ∈ c.active h) →
    (∀ T ∈ s.teams, inScope c.L lvl k T.key = true → T.asleep = false ∧
      ∀ th ∈ T.threads, ∀ again e ctr pc widx, th.wait ≠ some (.rearrive lvl n.toNat again e ctr pc widx)) →
    ∃ s', exec i s = .next s' ∧ BarrierFrame s s' c lvl n.toNat ∧ s'.barrier lvl n.toNat k = ⟨b.phase + 1, []⟩ ∧
      MovedOn s' c ∧
      ∀ q T, s.team? q = some T → ∃ T', s'.team? q = some T' ∧
        ∀ t th, T.threads[t]? = some th → ∃ th', T'.threads[t]? = some th' ∧
          if q = k ∧ t ∈ c.active h then th.Got h (if bara then .reg (w32 d b.phase) else .none) th'
          else if inScope c.L lvl k q = true ∧ ∃ x, th.wait = some (.barrier lvl n.toNat x) ∧
              1 ≤ (b.phase + 1 - x).toNat ∧ (b.phase + 1 - x).toNat ≤ 2 ^ 31 then
            th' = { th with wait := none, woken := false }
          else th.Kept th'

/-- BARW and BARQ (R204): BARW goes on at once where the phases that the active threads name have completed, and leaves
each waiting for its phase, to go on after the word, where none has; BARQ tells each whether its phase has. It rests
on the model's choices in log 179. -/
def Obligations.BarrierQueries : Prop :=
  ∀ h lvl (n : BitVec 4),
    let done (s : State) (c : Cur) (x : Word) : Bool :=
      decide (1 ≤ ((s.barrier lvl n.toNat c.b.team).phase - x).toNat) &&
      decide (((s.barrier lvl n.toNat c.b.team).phase - x).toNat ≤ 2 ^ 31)
    (∀ a, TeamWord (.barw h lvl n a)
      (fun s h c => c.barOffender h lvl n.toNat = none ∧ ∀ t ∈ c.active h, done s c ((c.env t).r32 a) = true)
      (fun _ h c T' => { T' with threads := c.T.threads } = c.T ∧ Gets h c T' fun _ => .none)) ∧
    (∀ a, TeamWordBy (fun s' c => StaysOn (c.idle h) s' c) (.barw h lvl n a)
      (fun s h c => c.barOffender h lvl n.toNat = none ∧ ∀ t ∈ c.active h, done s c ((c.env t).r32 a) = false)
      (fun _ h c T' => { T' with threads := c.T.threads } = c.T ∧
        ∀ t th, c.T.threads[t]? = some th → t ∈ c.active h → ∃ th', T'.threads[t]? = some th' ∧
          th.WaitsAt h .none (.barrier lvl n.toNat ((c.env t).r32 a)) c.after.1 c.after.2 th')) ∧
    (∀ pd a, TeamWord (.barq h lvl n pd a)
      (fun _ h c => c.barOffender h lvl n.toNat = none)
      (fun s h c T' => { T' with threads := c.T.threads } = c.T ∧
        Gets h c T' fun t => .pred (wp pd (done s c ((c.env t).r32 a)))))

/-- The collectives (R55, R56, R197-R203, Table 10.4): votes over the active lanes, shuffles from the lane that the mode
names (its own value where that lane is none of the group's), the fold of the active lanes in ascending order and its
prefixes, the lowest active lane, and the active lanes that hold the same value; for a bundle that is its whole group,
which goes on past the word, and for one that is the last of its group to arrive, the group's other threads waiting at
the word in no bundle, where all are then ready after the word. Where a thread of the group has not arrived, the
bundle's threads arrive and wait; where the last arrive and the group stands at more than one address, its lowest
thread takes the collective mismatch trap, naming the word at which it waits, and the others wait on. It rests on the
model's choices in logs 27, 32, 179 and 180. -/
def Obligations.Collectives : Prop :=
  (∀ h pd pa, GroupResult (.gvote h (.all pd) pa) fun c acts _ _ =>
    .pred (wp pd (acts.all fun u => (c.env u).pred pa))) ∧
  (∀ h pd pa, GroupResult (.gvote h (.any pd) pa) fun c acts _ _ =>
    .pred (wp pd (acts.any fun u => (c.env u).pred pa))) ∧
  (∀ h pd pa, GroupResult (.gvote h (.uni pd) pa) fun c acts _ _ =>
    .pred (wp pd ((acts.all fun u => (c.env u).pred pa) || !acts.any fun u => (c.env u).pred pa))) ∧
  (∀ h d pa, GroupResult (.gvote h (.ballot d) pa) fun c acts _ _ =>
    .reg (wmask c.L.rcd.width d (lanesOf c (acts.filter fun u => (c.env u).pred pa)))) ∧
  (∀ h mode x64 d a b, GroupResult (.gshfl h mode x64 d a b) fun c _ g t =>
    let l := c.L.rcd.laneOf t
    let y := ((c.env t).r32 b).toNat
    let inGroup (n : Nat) : Nat := if n < c.L.rcd.width then g * c.L.rcd.width + n else t
    let u := match mode with
      | .idx => inGroup y
      | .up => if y ≤ l then inGroup (l - y) else t
      | .down => inGroup (l + y)
      | .xor => inGroup (l ^^^ y)
    .reg (if x64 then w64 d ((c.env u).r64 a) else w32 d ((c.env u).r32 a))) ∧
  (∀ h op d a, GroupResult (.gred h op d a) fun c acts _ _ =>
    ⟨redWrite op d (foldLanes op a c acts).1, [], (foldLanes op a c acts).2, false⟩) ∧
  (∀ h op (excl : Bool) d a, GroupResult (.gscan h op excl d a) fun c acts _ t =>
    let r := foldLanes op a c (acts.filter fun u => decide (u < t) || !excl && u == t)
    ⟨redWrite op d r.1, [], r.2, false⟩) ∧
  (∀ h pk d, GroupResult (.gelect h pk d) fun c acts _ t =>
    ⟨w32 d (BitVec.ofNat 32 (c.L.rcd.laneOf (acts.headD 0))), wp pk (t == acts.headD 0), 0, false⟩) ∧
  (∀ h x64 pk d a, GroupResult (.gmatch h x64 pk d a) fun c acts _ t =>
    let v (u : Nat) : DWord := if x64 then (c.env u).r64 a else ((c.env u).r32 a).setWidth 64
    ⟨wmask c.L.rcd.width d (lanesOf c (acts.filter fun u => v u == v t)),
      wp pk (acts.all fun u => v u == v t), 0, false⟩) ∧
  ∀ i ∈ [0x0C0, 0x0C1, 0x0C2, 0x0C3, 0x0C4, 0x0C5], ∀ (ins : Instr) h s c g, ins.isWord = true → ins.wf = true →
    ins.opcode = some i → ins.hdr? = some h → Issues s ins h c → s.Canonical → c.b.threads.Pairwise (· < ·) → c.Awake →
    c.b.threads ≠ [] → (∀ t ∈ c.b.threads, c.L.rcd.groupOf t = g ∧ t ∈ c.T.live) →
    let others := (c.L.rcd.groupThreads g).filter fun t => c.T.live.contains t && !c.b.threads.contains t
    let word := (encode ins).getD 0
    let arrived (T' : Team) : Prop := T'.threads.length = c.T.threads.length ∧
      ∀ t th, c.T.threads[t]? = some th → t ∈ c.b.threads → ∃ th', T'.threads[t]? = some th' ∧
        th' = { th with
          wait := some (.collective c.b.addr c.b.idx word (th.guard h)), woken := false, pc := c.after.1, widx := c.after.2 }
    ((∃ t ∈ others, (c.thread t).atCollective = none) →
      ∃ s' T', exec ins s = .next s' ∧ OutsideKept s s' c ∧ StaysOn [] s' c ∧ s'.team? c.b.team = some T' ∧
        { T' with threads := c.T.threads } = c.T ∧ arrived T' ∧
        ∀ t, t ∉ c.b.threads → T'.threads[t]? = c.T.threads[t]?) ∧
    ∀ lead : Nat, lead ∉ c.b.threads → others.head? = some lead → (∀ t ∈ c.b.threads, lead < t) →
      (∀ t ∈ others, ∃ x, (c.thread t).atCollective = some x) →
      ∀ a n w act, (c.thread lead).wait = some (.collective a n w act) → (a, n) ≠ (c.b.addr, c.b.idx) →
      ∃ (s1 : State) (T1 : Team), exec ins s = .next ((s1.takeTrap c.b.team
          ⟨7, a, a + 8 + 8 * BitVec.ofNat 64 n, w, a, a, 0, lead, [lead]⟩).advance c c.b.threads fun _ => c.nextClause) ∧
        { s1 with teams := s.teams, errors := s.errors } = s ∧ s1.team? c.b.team = some T1 ∧
        { T1 with threads := c.T.threads } = c.T ∧
        (∀ t th, c.T.threads[t]? = some th → T1.threads[t]? = some
          (if t ∈ c.b.threads then
            { th with
              wait := some (.collective c.b.addr c.b.idx word (th.guard h)), woken := false, pc := c.after.1
              widx := c.after.2 }
           else th)) ∧
        ∀ q, q ≠ c.b.team → s1.team? q = s.team? q

/-! ### Control transfer, traps and regions -/

/-- Transfers (R172-R176): the bundle's clause ends; a thread whose guard is false goes to the next clause. BRA and CALL
take A + 8 × off, BRX the table word it reads through the die's TLB, CALLX its operand and RET the entry it pops; CALL
and CALLX push the next clause on the thread's return stack and touch no other byte. The entries that RET reads hold
no uncorrectable error. RET of a thread with an empty stack is a stack underflow: cause 6, the record naming the
lowest such thread. It rests on the model's choices in logs 22, 28 and 181. -/
def Obligations.Transfers : Prop :=
  let dest (c : Cur) (h : Hdr) (x : Nat → DWord) (t : Nat) : DWord := if (c.thread t).guard h then x t else c.nextClause
  let away {w : Nat} (c : Cur) (off : BitVec w) : DWord := c.b.addr + 8 * off.signExtend 64
  let calm (h : Hdr) (c : Cur) (T' : Team) : Prop := { T' with threads := c.T.threads } = c.T ∧
    ∀ t th, c.T.threads[t]? = some th → t ∈ c.active h → ∃ th', T'.threads[t]? = some th' ∧ th.Kept th'
  let pushed (h : Hdr) (c : Cur) (T' : Team) : Prop :=
    let at' (t : Nat) := c.L.rcd.scratch + t * c.L.rcd.stack + 8 * (c.thread t).depth
    (∀ t ∈ c.active h, T'.readStore false (at' t) 8 = c.nextClause.toNat) ∧
    (∀ y, (∀ t ∈ c.active h, ¬(at' t ≤ y ∧ y < at' t + 8)) → T'.scratch.bytes.byte y = c.T.scratch.bytes.byte y) ∧
    T'.scratch.empties = c.T.scratch.empties ∧ T'.scratch.claims = c.T.scratch.claims ∧
    { T' with threads := c.T.threads, scratch := c.T.scratch } = c.T ∧
    ∀ t th, c.T.threads[t]? = some th → t ∈ c.active h → ∃ th', T'.threads[t]? = some th' ∧
      th'.depth = th.depth + 1 ∧ th.Kept { th' with depth := th.depth }
  let clean (s : State) (c : Cur) (t : Nat) : Prop :=
    LineClean s c false ((c.L.rcd.scratch + t * c.L.rcd.stack + 8 * ((c.thread t).depth - 1)) / 128)
  let room (h : Hdr) (c : Cur) : Prop := ∀ t ∈ c.active h, (c.thread t).depth < c.L.rcd.stack / 8
  (∀ h (off : BitVec 30), TeamWordBy (fun s' c => LeftFor (dest c h fun _ => away c off) s' c) (.bra h off)
    (fun _ _ c => c.atEnd) (fun _ h c T' => calm h c T')) ∧
  (∀ h (toff : BitVec 20) a (x : Nat → DWord), TeamWordIn FetchKept (fun s' c => LeftFor (dest c h x) s' c) (.brx h toff a)
    (fun s h c => c.atEnd ∧ ∀ t ∈ c.active h, targetOk (x t) = true ∧
      s.fetchBytes c.L.ctx c.T.die 8 (away c toff + 8 * ((c.env t).r32 a).setWidth 64).toNat =
        .ok (leBytes 8 (x t).toNat))
    (fun _ h c T' => calm h c T')) ∧
  (∀ h (off : BitVec 30), TeamWordBy (fun s' c => LeftFor (dest c h fun _ => away c off) s' c) (.call h off)
    (fun _ h c => c.atEnd ∧ room h c) (fun _ h c T' => pushed h c T')) ∧
  (∀ h a, TeamWordBy (fun s' c => LeftFor (dest c h fun t => (c.env t).r64 a) s' c) (.callx h a)
    (fun _ h c => c.atEnd ∧ room h c ∧ ∀ t ∈ c.active h, targetOk ((c.env t).r64 a) = true)
    (fun _ h c T' => pushed h c T')) ∧
  (∀ h, TeamWordBy
    (fun s' c => LeftFor (dest c h fun t => BitVec.ofNat 64
      (c.T.readStore false (c.L.rcd.scratch + t * c.L.rcd.stack + 8 * ((c.thread t).depth - 1)) 8)) s' c) (.ret h)
    (fun s h c => c.atEnd ∧ ∀ t ∈ c.active h, (c.thread t).depth ≠ 0 ∧ clean s c t)
    (fun _ h c T' => { T' with threads := c.T.threads } = c.T ∧
      ∀ t th, c.T.threads[t]? = some th → t ∈ c.active h → ∃ th', T'.threads[t]? = some th' ∧
        th'.depth = th.depth - 1 ∧ th.Kept { th' with depth := th.depth })) ∧
  ∀ s h c t, Issues s (.ret h) h c → c.b.threads.Pairwise (· < ·) → t ∈ c.active h → (c.thread t).depth = 0 →
    (∀ u ∈ c.active h, (c.thread u).depth ≠ 0 → clean s c u) →
    (∀ u ∈ c.active h, u < t → (c.thread u).depth ≠ 0) → TrapsWith (.ret h) s c 6 t c.b.addr c.b.addr 0

/-- Traps of words (R38, R57, R142, R174-R176, R180, R344; Table 21.1): CALL and CALLX of a thread with a full stack trap
with cause 5, BRX and CALLX to an ill-formed address with cause 2, BRX whose table word cannot be fetched with cause
0x0A and the word's address, RET with an empty stack with cause 6, IDEMBEG that names a register beyond the budget
with cause 3, and a barrier word of a thread that is no member, or of a grid barrier in a launch that is not
co-resident, with cause 2. A thread that reads a register, a full scratch or tile line, or its return stack where it
holds an uncorrectable error takes the team error trap, cause 0x10, and a data-error record names the place; so does a
thread of a group that its bundle holds whole and whose collective reads such a register, of another lane for GSHFL.
Where several threads would trap, for one reason or several, the record names the lowest, with its own reason, and all
the bundle's threads resume at their clause. Within one thread a register in error comes first, and the order of a
word's own reasons is the model's choice (log 23). It rests on the model's choices in logs 22, 23 and 180. -/
def Obligations.WordTraps : Prop :=
  ∀ s h c t, t ∈ c.active h → c.b.threads.Pairwise (· < ·) →
    let inError (i : Instr) (u r : Nat) : Prop :=
      r ∈ (i.shape c.L.rcd.width c.L.rcd.slots).regsRead ∧ ErrLoc.reg c.b.team u r ∈ s.errors
    let teamError (i : Instr) (cause loc : Nat) : Prop :=
      exec i s = .next ((s.takeTrap c.b.team
        ⟨0x10, c.b.addr, c.waddr, c.word, c.b.addr, c.b.addr, 0, t, c.b.threads⟩).dropBundle.record c.T.die
          { type := 4, cause := cause, answer := false, ctx := c.L.ctx, launch := c.b.team.launch, team := c.b.team.n
            thread := t, f24 := BitVec.ofNat 64 loc, f32 := c.waddr, f40 := c.b.addr, f48 := 0, f56 := 0 })
    let Stands (i : Instr) : Prop := i.hdr? = some h ∧ s.cur? = some c ∧ c.held i h = false
    let Lowest (i : Instr) (own : Nat → Prop) (ends : Prop) : Prop :=
      Stands i → (∀ u ∈ c.active h, u < t → ¬ own u ∧ ∀ r, ¬ inError i u r) →
      ((∃ r, inError i t r) → ∃ r, inError i t r ∧ teamError i 7 r) ∧
      ((∀ r, ¬ inError i t r) → own t → ends)
    let Traps (i : Instr) (code : Nat) (rfield : DWord) : Prop := TrapsWith i s c code t c.b.addr rfield 0
    let full (u : Nat) : Prop := c.L.rcd.stack / 8 ≤ (c.thread u).depth
    let stackLine (u k : Nat) : Nat := (c.L.rcd.scratch + u * c.L.rcd.stack + 8 * k) / 128
    let stackError (u : Nat) : Prop := ∃ k < (c.thread u).depth, ¬ LineClean s c false (stackLine u k)
    (∀ off, Lowest (.call h off) full (Traps (.call h off) 5 c.b.addr)) ∧
    (∀ a, let astray (u : Nat) : Prop := targetOk ((c.env u).r64 a) = false
      Lowest (.callx h a) (fun u => astray u ∨ full u)
        ((astray t → Traps (.callx h a) 2 c.b.addr) ∧ (¬ astray t → Traps (.callx h a) 5 c.b.addr))) ∧
    (let top (u : Nat) : Nat := stackLine u ((c.thread u).depth - 1)
     Lowest (.ret h) (fun u => (c.thread u).depth = 0 ∨ ¬ LineClean s c false (top u))
      (((c.thread t).depth = 0 → Traps (.ret h) 6 c.b.addr) ∧
       ((c.thread t).depth ≠ 0 → teamError (.ret h) 5 (top t * 128)))) ∧
    (∀ e a, idemHeld h a c = false →
      let i : Instr := .idembeg h e a
      let named (u r : Nat) : Prop := ∃ j < 16, ((c.env u).r32 a).getLsbD j = true ∧
        r = ((c.env u).r32 a).toNat / 65536 % 512 + j
      let beyond (u : Nat) : Prop := ∃ r, named u r ∧ (c.L.rcd.budgetOf u ≤ r ∨ 511 < r)
      let lost (u : Nat) : Prop := ∃ r, named u r ∧ ErrLoc.reg c.b.team u r ∈ s.errors
      Lowest i (fun u => beyond u ∨ lost u ∨ stackError u)
        ((beyond t → Traps i 3 c.b.addr) ∧
         (¬ beyond t → lost t → ∃ r, named t r ∧ ErrLoc.reg c.b.team t r ∈ s.errors ∧ teamError i 7 r) ∧
         (¬ beyond t → ¬ lost t → ∃ k < (c.thread t).depth, ¬ LineClean s c false (stackLine t k) ∧
           teamError i 5 (stackLine t k * 128)))) ∧
    (∀ lvl (n : BitVec 4) d a pd, ∀ i ∈ [Instr.bar h lvl n, .bara h lvl n d, .barw h lvl n a, .barq h lvl n pd a],
      Lowest i (fun u => lvl = .grid ∧ c.L.rcd.coResident = false ∨
        c.L.rcd.isMember lvl n.toNat (c.L.rcd.roleOf (u / c.L.rcd.width)) = false) (Traps i 2 c.b.addr)) ∧
    (∀ (toff : BitVec 20) a,
      let i : Instr := .brx h toff a
      let at' (u : Nat) : DWord := c.b.addr + 8 * toff.signExtend 64 + 8 * ((c.env u).r32 a).setWidth 64
      let word (u : Nat) := s.fetchBytes c.L.ctx c.T.die 8 (at' u).toNat
      let lost (u : Nat) : Prop := ∃ byte, word u = .fault byte
      let astray (u : Nat) : Prop := ∃ x : DWord, word u = .ok (leBytes 8 x.toNat) ∧ targetOk x = false
      (∀ u ∈ c.active h, u ≤ t → ∀ w, word u ≠ .away w) →
      Lowest i (fun u => lost u ∨ astray u)
        ((lost t → Traps i 0x0A (at' t)) ∧ (astray t → Traps i 2 c.b.addr))) ∧
    (∀ i : Instr, i.isWord = true → (∀ n ∈ [0x0C0, 0x0C1, 0x0C2, 0x0C3, 0x0C4, 0x0C5, 0x100, 0x101, 0x102, 0x103, 0x1A1,
        0x1A2, 0x1A3, 0x1A4, 0x1AA], i.opcode ≠ some n) →
      (∀ e ∈ s.errors, ∃ k u r, e = .reg k u r) → Lowest i (fun _ => False) False) ∧
    (∀ n ∈ [0x0C0, 0x0C1, 0x0C2, 0x0C3, 0x0C4, 0x0C5], ∀ (i : Instr) g, i.isWord = true → i.wf = true →
      i.opcode = some n → Stands i → c.Awake → WholeGroup c g →
      (∃ p ∈ groupReads i c g t, ErrLoc.reg c.b.team p.1 p.2 ∈ s.errors) →
      (∀ u ∈ c.active h, u < t → ∀ p ∈ groupReads i c g u, ErrLoc.reg c.b.team p.1 p.2 ∉ s.errors) →
      ∃ p ∈ groupReads i c g t, ErrLoc.reg c.b.team p.1 p.2 ∈ s.errors ∧ teamError i 7 p.2) ∧
    (let reads (i : Instr) (tile : Bool) (o : Nat → Nat) (z : Nat) : Prop :=
      Lowest i (fun u => o u + z ≤ c.L.rcd.visible tile ∧ (c.T.store tile).full (o u / 128) = true ∧
        ¬ LineClean s c tile (o u / 128)) (teamError i (if tile then 6 else 5) (o t / 128 * 128))
     let off (a : Opnd) (n : BitVec 10) (z u : Nat) : Nat := effOffset ((c.env u).r32 a) n z
     (∀ w n d a, reads (.lds h w n d a) false (off a n w.bytes) w.bytes ∧ reads (.ldt h w n d a) true (off a n w.bytes) w.bytes) ∧
     (∀ (op : AOp) d a b, reads (.atoms h op d a b) false (off a 0 (4 * op.regs)) (4 * op.regs)) ∧
     (∀ x64 d a b e, let z := if x64 then 8 else 4
       reads (.cass h x64 d a b e) false (off a 0 z) z) ∧
     (∀ d a, ∀ i ∈ [Instr.cpost h d a, .mzero h d a, .mcvt h d a] ++ [Fusion.f1x4, .f2x2, .f4x1, .ind].map (fun f => .mpost h f d a),
       reads i false (off a 0 128) 128) ∧
     ∀ (merge : Option Bool) sel d fa fb,
       let i : Instr := match merge with
         | none => .scrd h sel d fa
         | some false => .sisect h d fa fb
         | some true => .sunion h d fa fb
       let os (u : Nat) : List Nat := if merge.isSome then mergeReads fa fb c u else scrdReads sel fa c u
       let lost (u o : Nat) : Prop := o ∈ os u ∧ o + 4 ≤ c.L.rcd.visible false ∧ ¬ LineClean s c false (o / 128)
       Lowest i (fun u => (∀ o ∈ os u, o + 4 ≤ c.L.rcd.visible false → c.T.scratch.full (o / 128) = true) ∧ ∃ o, lost u o)
         (∃ o, lost t o ∧ teamError i 5 (o / 128 * 128)))

/-- TRAP and BKPT (R178): if a thread is active, the bundle traps with cause 8 or 9, the code is recorded, and its threads
resume at the next clause; with none active, nothing happens but that the clause ends. It rests on the model's choices
in log 22. -/
def Obligations.SoftwareTraps : Prop :=
  ∀ (bkpt : Bool) h (code : BitVec 10) s c,
    let i := if bkpt then Instr.bkpt h code else .trap h code
    Issues s i h c →
    if c.active h = [] then ∃ s', exec i s = .next s' ∧ (s.Canonical → OutsideKept s s' c ∧ MovedOn s' c)
    else TrapsWith i s c (if bkpt then 9 else 8) ((c.active h).headD 0) c.nextClause c.nextClause code.toNat

/-- Taking a trap (R142, R325, R328-R330, Tables 21.1-21.3): the marked threads are trapped at the resume address and wait
no more, the team holds the record, with its number if it is written at once, and is halted (under policy 1 every team
of its launch, placed or not), and where the die's ring has a free slot and nothing is deferred the record's 64 bytes
stand in that slot, `produced` has advanced and the host and the service cores are told; where it has none, the record
is deferred. No other thread, store or register changes. It rests on the model's choices in logs 13, 24, 39, 40 and
154. -/
def Obligations.TakingATrap : Prop :=
  ∀ (s : State) (k : TeamKey) (x : TrapInfo) (T : Team) (L : Launch), s.team? k = some T → s.launch? k.launch = some L → T.die < s.dies.length → s.mem.wf →
    let s' := s.takeTrap k x
    let D := s.dieAt T.die
    let r := { x.record k L.ctx with link := some T.traps }
    let free : Bool := decide (s.produced T.die ≠ s.consumed T.die + 2 ^ D.ringLog ∧ D.deferred = [])
    (∀ q U, s.team? q = some U → ∃ U', s'.team? q = some U' ∧
      U'.halted = (U.halted || q == k || L.rcd.haltLaunch && q.launch == k.launch) ∧
      { U' with halted := U.halted, threads := U.threads, records := U.records, traps := U.traps } = U ∧
      U'.records = (if q = k then U.records ++ [(r, if free then some D.seq else none)] else U.records) ∧
      U'.traps = (if q = k then U.traps + 1 else U.traps) ∧
      ∀ t th, U.threads[t]? = some th → U'.threads[t]? = some
        (if q = k ∧ t ∈ x.marked then
          { th with trapped := some x.resume, pc := x.resume, widx := 0, wait := none, woken := false }
         else th)) ∧
    { s' with
      teams := s.teams, launches := s.launches, mem := s.mem, dies := s.dies, events := s.events, ports := s.ports
      service := s.service } = s ∧ ServiceKept s s' ∧
    (∀ q, s'.launch? q = (s.launch? q).map fun M =>
      { M with halted := M.halted || L.rcd.haltLaunch && q == k.launch }) ∧
    (if free then
      let a := D.ringBase + 128 + 64 * (s.produced T.die % 2 ^ D.ringLog)
      s'.mem.read a 64 = r.bytes D.seq ∧ s'.produced T.die = (s.produced T.die + 1) % 2 ^ 64 ∧
      s'.dieAt T.die = { D with seq := D.seq + 1, signals := D.signals + 1 } ∧
      (∀ y, ¬(a ≤ y ∧ y < a + 64) → ¬(D.ringBase ≤ y ∧ y < D.ringBase + 8) → s'.mem.byte y = s.mem.byte y) ∧
      s'.events = s.events ++ [⟨2, k.launch, k.n, r.bytes D.seq⟩]
    else s'.dieAt T.die = { D with deferred := D.deferred ++ [r] } ∧ s'.mem = s.mem ∧ s'.events = s.events) ∧
    ∀ d, d ≠ T.die → s'.dieAt d = s.dieAt d

/-- Resuming (R327): each trapped thread is ready at its resume address, every wait that ended meanwhile is over, every
age is zero, the team holds no record of a trap, and nothing else of the team changes. It rests on the model's choices
in log 24. -/
def Obligations.ResumingATeam : Prop :=
  ∀ T : Team, T.resume.halted = false ∧ T.resume.records = [] ∧
    { T.resume with halted := T.halted, threads := T.threads, records := T.records } = T ∧
    T.resume.threads.length = T.threads.length ∧
    ∀ (t : Nat) (th : Thread), T.threads[t]? = some th → ∃ th' : Thread, T.resume.threads[t]? = some th' ∧
      th'.trapped = none ∧ th'.age = 0 ∧ th'.pc = th.pc ∧ th'.widx = th.widx ∧
      (if th.woken then th'.wait = none ∧ th'.woken = false else th'.wait = th.wait ∧ th'.woken = false) ∧
      { th' with trapped := th.trapped, age := th.age, wait := th.wait, woken := th.woken } = th

/-- EXIT (R177, R46): the active threads never issue again and their outstanding results and regions are gone; where
another thread of the team lives on and none of the team waits, nothing else of it changes; where all have exited and
no command is in flight, the team retires. It rests on the model's choices in logs 26 and 38. -/
def Obligations.Exits : Prop :=
  ∀ s h c, Issues s (.exit h) h c → s.Canonical → c.b.threads.Pairwise (· < ·) → c.Awake → c.atEnd →
    ∃ s', exec (.exit h) s = .next s' ∧ (s'.sliceAt c.core c.sl).bundle = none ∧
      ((∃ t ∈ c.T.live, t ∉ c.active h) → c.L.ended = false → (∀ T ∈ s.teams, ∀ th ∈ T.threads, th.wait = none) →
        (∀ a, s'.mem.byte a = s.mem.byte a) ∧ (∀ q T, q ≠ c.b.team → s.team? q = some T →
          ∃ T', s'.team? q = some T' ∧ { T' with bars := T.bars } = T) ∧
        ∃ T', s'.team? c.b.team = some T' ∧ { T' with threads := c.T.threads, bars := c.T.bars } = c.T ∧
          ∀ t th, c.T.threads[t]? = some th → ∃ th', T'.threads[t]? = some th' ∧
            if t ∈ c.active h then
              th'.exited = true ∧ th'.pending = [] ∧ th'.ckpt = none ∧
              th.Kept { th' with exited := th.exited, pending := th.pending, ckpt := th.ckpt }
            else th.Kept th') ∧
      ((∀ t ∈ c.T.live, t ∈ c.active h) → c.L.ended = false → c.T.halted = false → c.active h ≠ [] →
        (∀ x ∈ c.T.cmds, x.st = .done ∨ x.st = .failed) → s'.team? c.b.team = none)

/-- NOP does nothing (R179); YIELD marks its bundle if a thread is active, and nothing else happens (R50, R179). -/
def Obligations.NopAndYield : Prop :=
  (∀ h, h.ctr = 0 → PerThread (.nop h) fun _ => .none) ∧
  ∀ h, TeamWordBy
    (fun s' c =>
      if c.active h = [] then MovedOn s' c
      else if c.b.idx + 1 < c.b.words.length then
        (s'.sliceAt c.core c.sl).bundle = some { c.b with idx := c.b.idx + 1, yielded := true }
      else (s'.sliceAt c.core c.sl).bundle = none ∧ (s'.sliceAt c.core c.sl).prev = some (c.b.team, c.b.all, true) ∧
        ∀ t ∈ c.b.threads, ∀ th, s'.thread? c.b.team t = some th → th.pc = c.nextClause ∧ th.widx = 0)
    (.yield h) (fun _ _ _ => True)
    (fun _ h c T' => { T' with threads := c.T.threads } = c.T ∧
      ∀ t th, c.T.threads[t]? = some th → t ∈ c.active h → ∃ th', T'.threads[t]? = some th' ∧ th.Kept th')

/-- Idempotent regions (R180): IDEMBEG gives each active thread a checkpoint of its entry address, the registers its mask
word names, its predicates, its return stack and its flags and SR step, where none of those that it copies holds an
uncorrectable error; IDEMEND removes it. -/
def Obligations.Regions : Prop :=
  let only (h : Hdr) (c : Cur) (T' : Team) (k : Nat → Option Checkpoint) : Prop :=
    { T' with threads := c.T.threads } = c.T ∧
    ∀ t th, c.T.threads[t]? = some th → t ∈ c.active h → ∃ th', T'.threads[t]? = some th' ∧ th'.ckpt = k t ∧
      th.Got h .none { th' with ckpt := th.ckpt }
  (∀ h (e : BitVec 20) a, TeamWord (.idembeg h e a)
    (fun s h c => idemHeld h a c = false ∧ ∀ t ∈ c.active h, idemBad a c t = false ∧
      (∀ r ∈ idemRegs ((c.env t).r32 a), ErrLoc.reg c.b.team t r ∉ s.errors) ∧
      ∀ j, j < (c.thread t).depth → LineClean s c false ((c.L.rcd.scratch + t * c.L.rcd.stack + 8 * j) / 128))
    (fun _ h c T' => only h c T' fun t =>
      let x := (c.env t).r32 a
      let base := x.toNat / 65536 % 512
      some { entry := c.b.addr + 8 * e.signExtend 64, base := base, mask := x.extractLsb' 0 16
             regs := ((List.range 16).filter fun j => x.getLsbD j).map fun j => (base + j, (c.env t).reg (base + j))
             preds := (c.thread t).preds
             stack := (List.range (c.thread t).depth).map fun j => BitVec.ofNat 64
               (c.T.readStore false (c.L.rcd.scratch + t * c.L.rcd.stack + 8 * j) 8)
             fp := (c.thread t).fp, srstep := (c.thread t).srstep })) ∧
  ∀ h, TeamWord (.idemend h) (fun _ _ _ => True) (fun _ h c T' => only h c T' fun _ => none)

/-! ### Posts, fences and tags -/

/-- Descriptor posts (R240-R244, R246, R301): where one thread is active, its descriptor's line is full, no check fails
and no command that it names or covers has failed, the lowest FREE tag receives the command and the thread receives
the tag; where one has failed, the thread receives the tag too, and the command ends FAILED at once with status
PREDECESSOR_FAILED, its lines claimed no more. It rests on the model's choices in logs 42, 43 and 161. -/
def Obligations.Posts : Prop :=
  ∀ h d a, ∀ p : Instr × ((Nat → Bool) → LaunchRec → Nat → List Byte → Parsed),
    p ∈ ([(.cpost h d a, parseCopy), (.mzero h d a, parseZero), (.mcvt h d a, parseConv), (.mpost h .f1x4 d a, parseMat .f1x4),
      (.mpost h .f2x2 d a, parseMat .f2x2), (.mpost h .f4x1 d a, parseMat .f4x1), (.mpost h .ind d a, parseMat .ind)]) →
    ∀ t tag q,
      let posts (s : State) (h : Hdr) (c : Cur) : Prop :=
        let o := effOffset ((c.env t).r32 a) 0 128
        c.active h = [t] ∧ o + 128 ≤ c.L.rcd.scratch ∧ c.T.scratch.full (o / 128) = true ∧
        LineClean s c false (o / 128) ∧ LowestFree c.T tag ∧
        p.2 s.feature c.L.rcd t (c.T.scratch.bytes.read o 128) = ([], q)
      let told (h : Hdr) (c : Cur) (T' : Team) : Prop :=
        ∀ th, c.T.threads[t]? = some th → ∃ th', T'.threads[t]? = some th' ∧ th.Posted h d (BitVec.ofNat 32 tag) th'
      TeamWord p.1 (fun s h c => posts s h c ∧ NoneFailed c.T q) (fun _ h c T' => Accepted c.T T' q tag ∧ told h c T') ∧
      TeamWord p.1 (fun s h c => posts s h c ∧ ¬ NoneFailed c.T q ∧ Unnamed s c q tag)
        (fun _ h c T' => FailedAtOnce c.T T' q tag ∧ told h c T')

/-- Refused posts (R242, R243, R314, R315, Tables 13.2 and 13.3): a descriptor that does not lie in scratch, one that
fails a check (the first check in the order of Table 13.3 is reported) and a post that finds no FREE tag give the
thread an error word, and no command is accepted. So do a lane form's control word and lanes, whose error word every
active thread of the group receives. It rests on the model's choices in logs 42, 43, 44, 45 and 161. -/
def Obligations.RefusedPosts : Prop :=
  (∀ h d a b x, ∀ p : Instr × LaneForm × LaneOps,
    p ∈ ([(.vgath h d a b x, .gath, ⟨a, b, x, false, false⟩), (.vscat h d a b x, .scat, ⟨a, b, x, false, false⟩),
      (.vscatr h d a b x, .scatr, ⟨a, b, x, false, false⟩)] ++
      ([false, true].flatMap fun comb => [false, true].flatMap fun a2 =>
        [(.ocall h comb a2 d a b x, .call, ⟨a, b, x, a2, comb⟩), (.ocalln h comb a2 d a x, .calln, ⟨a, .k1 0, x, a2, comb⟩)])) →
    ∀ g t (e : Word),
      TeamWord p.1
        (fun s h c => (c.active h).head? = some t ∧ (∀ u ∈ c.active h, c.L.rcd.groupOf u = g) ∧
          let r := parseLanes p.2.1 p.2.2 c c.T.scratch.bytes s.feature t (c.active h)
          if r.1 = [] then (∀ u, u < 256 → c.T.cmd? u ≠ none) ∧ e = 0x80000001
          else ∃ y ∈ r.1, (∀ z ∈ r.1, y.1 < z.1 ∨ y.1 = z.1 ∧ y.2 ≤ z.2) ∧ e = errorWord y.1 y.2)
        (fun _ h c T' => { T' with threads := c.T.threads } = c.T ∧
          ∀ u th, c.T.threads[u]? = some th → u ∈ c.active h → ∃ th', T'.threads[u]? = some th' ∧ th.Posted h d e th')) ∧
  ∀ h d a, ∀ p : Instr × ((Nat → Bool) → LaunchRec → Nat → List Byte → Parsed),
    p ∈ ([(.cpost h d a, parseCopy), (.mzero h d a, parseZero), (.mcvt h d a, parseConv), (.mpost h .f1x4 d a, parseMat .f1x4),
      (.mpost h .f2x2 d a, parseMat .f2x2), (.mpost h .f4x1 d a, parseMat .f4x1), (.mpost h .ind d a, parseMat .ind)]) →
    ∀ t (x : Word),
      TeamWord p.1
        (fun s h c =>
          let o := effOffset ((c.env t).r32 a) 0 128
          c.active h = [t] ∧
          if c.L.rcd.scratch < o + 128 then x = 0x80000005
          else c.T.scratch.full (o / 128) = true ∧ LineClean s c false (o / 128) ∧
            let r := p.2 s.feature c.L.rcd t (c.T.scratch.bytes.read o 128)
            if r.1 = [] then (∀ u, u < 256 → c.T.cmd? u ≠ none) ∧ x = 0x80000001
            else ∃ y ∈ r.1, (∀ z ∈ r.1, y.1 < z.1 ∨ y.1 = z.1 ∧ y.2 ≤ z.2) ∧ x = errorWord y.1 y.2)
        (fun _ h c T' => { T' with threads := c.T.threads } = c.T ∧
          ∀ th, c.T.threads[t]? = some th → ∃ th', T'.threads[t]? = some th' ∧ th.Posted h d x th')

/-- Lane posts (R240, R241, R244, R314-R318): where the active threads are of one group and no check of the lowest
thread's control word or of a lane fails, the group's lanes become one command on the lowest FREE tag, and every
active thread receives that tag; a command that names or covers one that has failed ends FAILED at once. The payloads
that it reads hold no uncorrectable error. It rests on the model's choices in log 45. -/
def Obligations.LanePosts : Prop :=
  ∀ h d a b x, ∀ p : Instr × LaneForm × LaneOps,
    p ∈ ([(.vgath h d a b x, .gath, ⟨a, b, x, false, false⟩), (.vscat h d a b x, .scat, ⟨a, b, x, false, false⟩),
      (.vscatr h d a b x, .scatr, ⟨a, b, x, false, false⟩)] ++
      ([false, true].flatMap fun comb => [false, true].flatMap fun a2 =>
        [(.ocall h comb a2 d a b x, .call, ⟨a, b, x, a2, comb⟩), (.ocalln h comb a2 d a x, .calln, ⟨a, .k1 0, x, a2, comb⟩)])) →
    ∀ g t tag q,
      let posts (s : State) (h : Hdr) (c : Cur) : Prop :=
        (c.active h).head? = some t ∧ (∀ u ∈ c.active h, c.L.rcd.groupOf u = g) ∧ LowestFree c.T tag ∧
        parseLanes p.2.1 p.2.2 c c.T.scratch.bytes s.feature t (c.active h) = ([], q) ∧
        ∀ y ∈ q.lanes, y.payload ≠ [] → LineClean s c false (y.arg0.toNat % 2 ^ 32 / 128)
      let told (h : Hdr) (c : Cur) (T' : Team) : Prop :=
        ∀ u th, c.T.threads[u]? = some th → u ∈ c.active h → ∃ th', T'.threads[u]? = some th' ∧
          th.Posted h d (BitVec.ofNat 32 tag) th'
      TeamWord p.1 (fun s h c => posts s h c ∧ NoneFailed c.T q) (fun _ h c T' => Accepted c.T T' q tag ∧ told h c T') ∧
      TeamWord p.1 (fun s h c => posts s h c ∧ ¬ NoneFailed c.T q ∧ Unnamed s c q tag)
        (fun _ h c T' => FailedAtOnce c.T T' q tag ∧ told h c T')

/-- CFENCE (R217, R223, R226, R319): the fence covers the held commands of its colours, those that have failed are
reported, it takes the next place in the team's order of acceptances, one accepted during calving completes under the
new generation only, and its thread waits for it, to go on after the word. It rests on the model's choices in log 179.
-/
def Obligations.Fences : Prop :=
  ∀ h kind scope (mask : BitVec 8) d t,
    TeamWordBy (fun s' c => StaysOn (c.idle h) s' c) (.cfence h kind scope mask d) (fun _ h c => c.active h = [t])
      (fun s h c T' =>
        let cov := c.T.cmds.filter fun x => mask &&& colourBit x.colour != 0
        T'.fences = c.T.fences ++ [{
          thread := t, seq := c.T.accepted, kind := kind, scope := scope, mask := mask
          covers := (cov.filter fun x => x.st == .waiting || x.st == .running).map (·.tag)
          failed := ((cov.filter fun x => x.st == .failed).map fun x => colourBit x.colour).foldl (· ||| ·) 0
          relUpTo := none, under := if s.fabric.phase = .normal then 0 else s.fabric.begun, d := d, ctr := h.ctr }] ∧
        T'.accepted = c.T.accepted + 1 ∧
        { T' with threads := c.T.threads, fences := c.T.fences, accepted := c.T.accepted } = c.T ∧
        ∀ th, c.T.threads[t]? = some th → ∃ th', T'.threads[t]? = some th' ∧
          th'.wait = some (.fence c.T.accepted) ∧ th'.woken = false ∧ th'.pc = c.after.1 ∧ th'.widx = c.after.2 ∧
          th.Rested th')

/-- CWAITT, CSTAT and CCANCEL (R246, R248, R320, R321): an error word passes through; CWAITT on a tag whose command has
ended and CSTAT give the tag's status word, with .rel releasing a tag whose command has ended; CCANCEL gives the
status word as it stood and ends a WAITING command as FAILED with status 2, and with it, as FAILED with status
PREDECESSOR_FAILED, a WAITING command that counts it. A RUNNING command performs nothing more: its lanes that are not
performed are dropped, what it wrote stays, its lines and its engine are free, fences report it, and it ends as FAILED
with status 2; but lanes that have left for a caldera, a residual write under way and a block of rows begun are
performed first, the command to end so then. On a command that has ended, or is to end so, and on a free tag CCANCEL
has no effect. That a scatter-reduction's lane is kept as an object call's is log 197's choice. It rests on the
model's choices in logs 179 and 197. -/
def Obligations.TagWords : Prop :=
  (∀ h (rel : Bool) d a, ∀ i ∈ ([.cwaitt h rel d a, .cstat h rel d a, .ccancel h d a] : List Instr), ∀ t,
    TeamWord i (fun _ h c => c.active h = [t] ∧ ((c.env t).r32 a).getLsbD 31 = true)
      (fun _ h c T' => { T' with threads := c.T.threads } = c.T ∧ Gets h c T' fun t => .reg (w32 d ((c.env t).r32 a)))) ∧
  (∀ h (rel wait : Bool) d a t, TeamWord (if wait then .cwaitt h rel d a else .cstat h rel d a)
    (fun _ h c => let tag := ((c.env t).r32 a).toNat % 256
      c.active h = [t] ∧ ((c.env t).r32 a).getLsbD 31 = false ∧
        (wait = true → ∀ x ∈ c.T.cmds, x.tag = tag → x.st = .done ∨ x.st = .failed))
    (fun _ h c T' => let tag := ((c.env t).r32 a).toNat % 256
      T'.cmds = (if rel then c.T.cmds.filter fun x => x.tag != tag || x.st == .waiting || x.st == .running else c.T.cmds) ∧
      { T' with threads := c.T.threads, cmds := c.T.cmds } = c.T ∧ Gets h c T' fun _ => .reg (w32 d (c.T.statusWord tag)))) ∧
  (∀ h (rel : Bool) d a t, TeamWordBy (fun s' c => StaysOn (c.idle h) s' c) (.cwaitt h rel d a)
    (fun _ h c => let tag := ((c.env t).r32 a).toNat % 256
      c.active h = [t] ∧ ((c.env t).r32 a).getLsbD 31 = false ∧
        ∃ x, c.T.cmd? tag = some x ∧ (x.st = .waiting ∨ x.st = .running))
    (fun _ h c T' => { T' with threads := c.T.threads } = c.T ∧
      ∀ th, c.T.threads[t]? = some th → ∃ th', T'.threads[t]? = some th' ∧
        th'.wait = some (.tag (((c.env t).r32 a).toNat % 256) rel d h.ctr) ∧ th'.woken = false ∧
        th'.pc = c.b.addr ∧ th'.widx = c.b.idx + 1 ∧ th.Rested th')) ∧
  (∀ h d a t x y, TeamWord (.ccancel h d a)
    (fun s h c => let tag := ((c.env t).r32 a).toNat % 256
      c.active h = [t] ∧ ((c.env t).r32 a).getLsbD 31 = false ∧ c.T.cmd? tag = some x ∧ x.st = .waiting ∧
        x.ending = none ∧ x.mcast? = none ∧ x.lanes = [] ∧ y.mcast? = none ∧ y.st = .waiting ∧ tag ∈ y.waits ∧ y.tag ≠ tag ∧
        (∀ z ∈ c.T.cmds, tag ∈ z.waits ∨ z.tag = y.tag → z = y) ∧ (∀ z ∈ c.T.cmds, y.tag ∉ z.waits) ∧ y ∈ c.T.cmds ∧
        (∀ m, (s.coreAt c.T.core).mat = some m → ¬(m.team = c.b.team ∧ (m.tag = tag ∨ m.tag = y.tag))) ∧
        c.L.ended = false ∧ c.T.live ≠ [])
    (fun _ h c T' => let tag := ((c.env t).r32 a).toNat % 256
      (∃ z, T'.cmd? tag = some z ∧ z.st = .failed ∧ z.status = 2 ∧ z.code = 0) ∧
      (∃ z, T'.cmd? y.tag = some z ∧ z.st = .failed ∧ z.status = 1 ∧ z.code = 0) ∧
      (∀ u, u ≠ tag → u ≠ y.tag → T'.cmd? u = c.T.cmd? u) ∧
      (∀ tile l, (l, tag) ∉ (T'.store tile).claims ∧ (l, y.tag) ∉ (T'.store tile).claims) ∧
      Gets h c T' fun _ => .reg (w32 d (c.T.statusWord tag)))) ∧
  (∀ h d a t x, TeamWord (.ccancel h d a)
    (fun s h c => let tag := ((c.env t).r32 a).toNat % 256
      c.active h = [t] ∧ ((c.env t).r32 a).getLsbD 31 = false ∧ c.T.cmd? tag = some x ∧ x.st = .waiting ∧
        x.ending = none ∧ x.mcast? = none ∧ x.lanes = [] ∧ (∀ y ∈ c.T.cmds, tag ∉ y.waits) ∧
        (∀ m, (s.coreAt c.T.core).mat = some m → ¬(m.team = c.b.team ∧ m.tag = tag)) ∧ c.L.ended = false ∧ c.T.live ≠ [])
    (fun _ h c T' => let tag := ((c.env t).r32 a).toNat % 256
      (∃ y, T'.cmd? tag = some y ∧ y.st = .failed ∧ y.status = 2 ∧ y.code = 0) ∧
      (∀ u, u ≠ tag → T'.cmd? u = c.T.cmd? u) ∧ (∀ tile l, (l, tag) ∉ (T'.store tile).claims) ∧
      Gets h c T' fun _ => .reg (w32 d (c.T.statusWord tag)))) ∧
  (∀ h d a t x, TeamWordIn (fun s s' c =>
      let core := c.T.core
      let mine (m : MatRun) : Prop := m.team = c.b.team ∧ m.tag = ((c.env t).r32 a).toNat % 256
      OutsideKept s (s'.modCore core fun k => { k with mat := (s.coreAt core).mat }) c ∧
        (∀ m, (s.coreAt core).mat = some m → mine m → (s'.coreAt core).mat = none) ∧
        ((∀ m, (s.coreAt core).mat = some m → ¬ mine m) → (s'.coreAt core).mat = (s.coreAt core).mat)) MovedOn
    (.ccancel h d a)
    (fun s h c => let tag := ((c.env t).r32 a).toNat % 256
      c.active h = [t] ∧ ((c.env t).r32 a).getLsbD 31 = false ∧ c.T.cmd? tag = some x ∧ x.st = .running ∧
        x.ending = none ∧ x.mcast? = none ∧ ¬ MustEnd s c.b.team x ∧ (∀ y ∈ x.acq, y.scope = .team ∨ y.scope = .die) ∧
        (∀ y ∈ c.T.cmds, tag ∉ y.waits) ∧ c.L.ended = false ∧ c.T.live ≠ [])
    (fun _ h c T' => let tag := ((c.env t).r32 a).toNat % 256
      T'.cmd? tag = some { x with
        st := .failed, status := 2, code := 0, parks := [], waits := []
        lanes := x.lanes.map fun l => if l.st = .done then l else { l with st := .dropped } } ∧
      (∀ u, u ≠ tag → T'.cmd? u = c.T.cmd? u) ∧
      (∀ tile, (T'.store tile).bytes = (c.T.store tile).bytes ∧
        ∀ l u, (l, u) ∈ (T'.store tile).claims ↔ (l, u) ∈ (c.T.store tile).claims ∧ u ≠ tag) ∧
      T'.fences = c.T.fences.map (fun f => if tag ∈ f.covers then
        { f with covers := f.covers.filter (· ≠ tag), failed := f.failed ||| colourBit x.colour } else f) ∧
      Gets h c T' fun _ => .reg (w32 d (c.T.statusWord tag)))) ∧
  (∀ h d a t x, TeamWord (.ccancel h d a)
    (fun s h c => let tag := ((c.env t).r32 a).toNat % 256
      c.active h = [t] ∧ ((c.env t).r32 a).getLsbD 31 = false ∧ c.T.cmd? tag = some x ∧ x.st = .running ∧
        x.ending = none ∧ MustEnd s c.b.team x)
    (fun _ h c T' => let tag := ((c.env t).r32 a).toNat % 256
      (∃ z, T'.cmd? tag = some z ∧ z = { x with ending := some (2, 0), parks := [], lanes := z.lanes } ∧
        z.lanes.length = x.lanes.length ∧ ∀ (n : Nat) (l : Lane), x.lanes[n]? = some l →
          (l.st = .done ∨ x.calling l → z.lanes[n]? = some l) ∧
          (¬(l.st = .done ∨ x.calling l) → z.lanes[n]? = some { l with st := .dropped })) ∧
      (∀ u, u ≠ tag → T'.cmd? u = c.T.cmd? u) ∧ { T' with threads := c.T.threads, cmds := c.T.cmds } = c.T ∧
      Gets h c T' fun _ => .reg (w32 d (c.T.statusWord tag)))) ∧
  ∀ h d a t, TeamWord (.ccancel h d a)
    (fun _ h c => let tag := ((c.env t).r32 a).toNat % 256
      c.active h = [t] ∧ ((c.env t).r32 a).getLsbD 31 = false ∧
        ∀ x, c.T.cmd? tag = some x → x.st = .done ∨ x.st = .failed ∨ x.ending ≠ none)
    (fun _ h c T' => let tag := ((c.env t).r32 a).toNat % 256
      { T' with threads := c.T.threads } = c.T ∧ Gets h c T' fun _ => .reg (w32 d (c.T.statusWord tag)))

/-! ### Slices and placement -/

/-- PICK_BUNDLE (R50-R53, R70, R89): a free slice with ready threads forms a bundle of threads of one team that are ready
at one issue point: the previous bundle's, where they are all ready at one, it did not yield and no ready thread has
reached age 512, else those of an oldest ready thread. Its members have distinct home lanes, every home lane that has
such a thread is represented, and of two such threads on one home lane the older is taken, of equals the one of the
lower group, unless the other is of the previous bundle. Its members' ages become zero. A clause that could not be
fetched, has reserved header bits or holds an undecodable word traps instead. It rests on the model's choices in logs
2, 19, 21, 164 and 179. -/
def Obligations.Bundles : Prop :=
  ∀ (s : State) core sl,
    let x := s.sliceAt core sl
    let ready := s.readyThreads core sl
    core < s.cores.length → sl < (s.coreAt core).slices.length → x.bundle = none →
    (ready ≠ [] →
      (∀ y ∈ ready, ∃ L header words, s.launch? y.key.launch = some L ∧
        x.fetchedAt y.key y.pc = some (.ok header words) ∧ ∀ ts, checkClause s.features L.rcd ts y.pc header words = none) →
      ∃ (s' : State) (b : Bundle) (w : Nat) (header : DWord) (T T' : Team), exec (.pickBundle core sl) s = .next s' ∧ b.idx = w - 1 ∧
        (s'.sliceAt core sl).bundle = some b ∧ x.fetchedAt b.team b.addr = some (.ok header b.words) ∧
        b.all = b.threads ∧ b.threads ≠ [] ∧ b.threads.Pairwise (· < ·) ∧ b.yielded = header.getLsbD 15 ∧
        (∀ t ∈ b.threads, ∃ y ∈ ready, y.key = b.team ∧ y.t = t ∧ y.pc = b.addr ∧ y.widx = w) ∧
        (∀ y ∈ ready, y.key = b.team → y.pc = b.addr → y.widx = w →
          ∃ z ∈ ready, z.key = b.team ∧ z.t ∈ b.threads ∧ z.lane = y.lane ∧
            (y.t ∉ b.threads → z.before y = true ∨ ∃ k ts, x.prev = some (k, ts, false) ∧ z.t ∈ ts)) ∧
        ((∀ k ts f, x.prev = some (k, ts, f) → ∀ y ∈ ready, ∀ z ∈ ready, y.key = k → z.key = k → y.t ∈ ts → z.t ∈ ts →
            y.lane = z.lane → y.t = z.t) →
          ∀ y ∈ ready, ∀ z ∈ ready, y.key = b.team → z.key = b.team → y.t ∈ b.threads → z.t ∈ b.threads →
            y.pc = b.addr → z.pc = b.addr → y.widx = w → z.widx = w → y.lane = z.lane → y.t = z.t) ∧
        (let again := ∃ k ts, x.prev = some (k, ts, false) ∧ ts ≠ [] ∧
            (ready.filter fun y => y.key == k && ts.contains y.t).length = ts.length ∧
            (∀ y ∈ ready, ∀ z ∈ ready, y.key = k → z.key = k → y.t ∈ ts → z.t ∈ ts → y.pc = z.pc ∧ y.widx = z.widx) ∧
            ∀ y ∈ ready, y.age < 512
         (again → ∀ k ts, x.prev = some (k, ts, false) → b.team = k ∧
            ∀ y ∈ ready, y.key = k → y.t ∈ ts → y.t ∈ b.threads) ∧
         (¬ again → ∃ o ∈ ready, o.key = b.team ∧ o.t ∈ b.threads ∧ ∀ y ∈ ready, Cand.before y o = false)) ∧
        s.team? b.team = some T ∧ s'.team? b.team = some T' ∧ T'.unready = false ∧
        { T' with threads := T.threads, unready := T.unready } = T ∧
        (∀ (t : Nat) (th : Thread), T.threads[t]? = some th →
          T'.threads[t]? = some (if t ∈ b.threads then { th with age := 0, spaceFull := false } else th)) ∧
        OtherTeams s s' b.team ∧ { s' with teams := s.teams, cores := s.cores } = s) ∧
    (∀ y, ready = [y] → ∀ byte, x.fetchedAt y.key y.pc = some (.fault byte) →
      ∃ s1 : State, { s1 with teams := s.teams, cores := s.cores } = s ∧ exec (.pickBundle core sl) s =
        .next (s1.takeTrap y.key ⟨0x0A, y.pc, y.pc, 0, y.pc, byte, 0, y.t, [y.t]⟩)) ∧
    (∀ y, ready = [y] → ∀ header words, x.fetchedAt y.key y.pc = some (.ok header words) →
      (headerOk header = false → ∃ s1 : State, { s1 with teams := s.teams, cores := s.cores } = s ∧
        exec (.pickBundle core sl) s = .next (s1.takeTrap y.key ⟨1, y.pc, y.pc, header, y.pc, y.pc, 0, y.t, [y.t]⟩)) ∧
      (headerOk header = true → ∀ w rest e, words = w :: rest → decodeWord w = .error e →
        ∃ s1 : State, { s1 with teams := s.teams, cores := s.cores } = s ∧ exec (.pickBundle core sl) s =
          .next (s1.takeTrap y.key ⟨1, y.pc, y.pc + 8, w, y.pc, y.pc, 0, y.t, [y.t]⟩)))

/-- CLAUSE_FETCH (R67, R70): where a thread of the slice stands at an address, and all bytes of the header and of the
words it counts can be fetched, the slice holds the clause; where a byte cannot be, it holds the first such byte.
Nothing else changes but the die's TLB, which holds the leaf of the clause's address where it has room for what a
fetch may load. It rests on the model's choices in logs 2, 19, 20 and 181. -/
def Obligations.Fetches : Prop :=
  ∀ (s : State) core sl team (addr : DWord) (T : Team) (L : Launch) (f : Nat → Byte) (n m : Nat),
    s.team? team = some T → s.launch? team.launch = some L → T.core = core → T.place.isSome = true →
    core < s.cores.length → sl < (s.coreAt core).slices.length →
    (∃ t ∈ T.onSlice L.rcd sl, ∃ th, T.threads[t]? = some th ∧ th.exited = false ∧ th.pc = addr) →
    n = (f 0).toNat % 16 + 1 → m ≤ 8 + 8 * n →
    (∀ i, i < m → s.fetchByte L.ctx T.die (addr.toNat + i) = .ok (f i)) →
    let word (j : Nat) : DWord := BitVec.ofNat 64 (leNat ((List.range 8).map fun i => f (8 * j + i)))
    let got (r : FetchResult) : Prop := ∃ s', exec (.clauseFetch core sl team addr) s = .next s' ∧
      (s'.sliceAt core sl).fetchedAt team addr = some r ∧
      (∀ k a, (k, a) ≠ (team, addr) → (s'.sliceAt core sl).fetchedAt k a = (s.sliceAt core sl).fetchedAt k a) ∧
      (s'.sliceAt core sl).bundle = (s.sliceAt core sl).bundle ∧ { s' with cores := s.cores, dies := s.dies } = s ∧
      OnlyTlbs s s' ∧ (∀ d, d ≠ T.die → s'.dieAt d = s.dieAt d) ∧
      ∀ c base size e, s.context? L.ctx = some c → s.dieEntry T.die c addr.toNat = .leaf base size e →
        T.die < s.dies.length → (s.dieAt T.die).tlb.length + 4 ≤ 16384 → ⟨L.ctx, base, size, e⟩ ∈ (s'.dieAt T.die).tlb
    (m = 8 + 8 * n → got (.ok (word 0) ((List.range n).map fun j => word (j + 1)))) ∧
    (m < 8 + 8 * n → s.fetchByte L.ctx T.die (addr.toNat + m) = .fault →
      got (.fault (BitVec.ofNat 64 (addr.toNat + m))))

/-- The clocked steps of a core (R12, R52, R64, R84, R390, R391, R393, R394): a completed counted write writes its oldest
results and takes them off its counter; a thread whose 16 cycles have passed retries; a slice cycle ages every thread
of the core's teams by one up to 65,535, brings refused parkings nearer to their retry, counts every group with a live
thread as issued or else under its lead thread's reason, and advances the cycle counter. A sample is taken once in a
cycle that the period divides: the slice's pointer moves on to the next eligible group, and the record is written
whole at its home, with its flag for records dropped before it, and `written` counts it, or, where the ring is full,
`dropped` does; while the slice holds no eligible group its pointer names none. It rests on the model's choices in
logs 2, 5, 7, 24, 35, 36, 37, 93, 94 and 163. -/
def Obligations.ClockedSteps : Prop :=
  (∀ (s : State) team t (k : Nat) (T : Team) (th : Thread) (l1 l2 : List Pending) (p : Pending),
    s.Canonical → s.team? team = some T → T.threads[t]? = some th → th.pending = l1 ++ p :: l2 →
    (∀ q ∈ l1, q.ctr ≠ BitVec.ofNat 3 k) → p.ctr = BitVec.ofNat 3 k →
    ∃ s' T' th', exec (.countedWriteComplete team t k) s = .next s' ∧ s'.team? team = some T' ∧
      T'.threads[t]? = some th' ∧ th'.pending = l1 ++ l2 ∧
      (∀ n, sget 0 th'.regs n = latest p.regs n (sget 0 th.regs n)) ∧
      (∀ j, j < 7 → th'.preds.getLsbD j = latest p.preds j (th.preds.getLsbD j)) ∧
      th'.streams = p.streams.foldl (fun l x => l.set x.1 x.2) th.streams ∧
      { th' with pending := th.pending, regs := th.regs, preds := th.preds, streams := th.streams } = th ∧
      (∀ u, u ≠ t → T'.threads[u]? = T.threads[u]?) ∧ { T' with threads := T.threads } = T ∧
      OtherTeams s s' team ∧ { s' with teams := s.teams } = s) ∧
  (∀ (s : State) team t (T : Team) (th : Thread), s.team? team = some T → T.threads[t]? = some th →
    ∃ s' T', exec (.waitTableRetry team t) s = .next s' ∧ s'.team? team = some T' ∧
      T'.threads[t]? = some
        (if th.wait = some (.retry 0) then
          if T.halted ∨ T.place = none then { th with woken := true } else { th with wait := none, woken := false }
         else th) ∧
      (∀ u, u ≠ t → T'.threads[u]? = T.threads[u]?) ∧ { T' with threads := T.threads } = T ∧
      OtherTeams s s' team ∧ { s' with teams := s.teams } = s) ∧
  (∀ (s : State) core, core < s.cores.length → (s.teams.map (·.key)).Nodup →
    ∃ s', exec (.sliceCycle core) s = .next s' ∧ s'.coreAt core = { s.coreAt core with cycle := (s.coreAt core).cycle + 1 } ∧
      (∀ c, c ≠ core → s'.coreAt c = s.coreAt c) ∧ { s' with teams := s.teams, cores := s.cores, tree := s.tree } = s ∧
      s'.teams.length = s.teams.length ∧
      ∀ (n : Nat) (T : Team), s.teams[n]? = some T → ∃ T' : Team, s'.teams[n]? = some T' ∧
        { T' with threads := T.threads, banks := T.banks, unready := T.unready } = T ∧
        T'.unready = (if T.place.isSome = true ∧ T.core = core then s.teamUnready core T else T.unready) ∧ T'.threads.length = T.threads.length ∧
        (∀ (t : Nat) (th : Thread), T.threads[t]? = some th → T'.threads[t]? = some
          (if T.place.isSome = true ∧ T.core = core ∧ th.exited = false then
            { th with
              age := min 65535 (th.age + 1)
              wait := match th.wait with
                | some (.retry (k + 1)) => some (.retry k)
                | w => w }
           else th)) ∧
        ∀ (p : Place) (L : Launch), T.place = some p → s.launch? T.key.launch = some L → ∀ g bank, g < p.slices.length →
          T.banks[g]? = some bank →
          let sl := (p.slices[g]?).getD 0
          (p.core ≠ core ∨ T.lead L.rcd g = none → T'.banks[g]? = some bank) ∧
          ∀ t th, p.core = core → T.lead L.rcd g = some (t, th) →
            T'.banks[g]? = some (bank.modify
              (if s.groupIssues core sl T L.rcd g then 0 else 1 + s.reason core sl T t th) (· + 1))) ∧
  (∀ (s : State) core sl, core < s.cores.length → sl < (s.coreAt core).slices.length →
    let x := s.sliceAt core sl
    let now := (s.coreAt core).cycle
    (s.eligible core sl = [] → ∃ s', exec (.sample core sl) s = .next s' ∧
      s'.sliceAt core sl = { x with sampled := none } ∧
      (∀ n l, (n, l) ≠ (core, sl) → s'.sliceAt n l = s.sliceAt n l) ∧ { s' with cores := s.cores } = s) ∧
    ∀ p slot L T g, s.samplePeriod core sl = some p → nextGroup x.sampled (s.eligible core sl) = some (slot, L, T, g) →
      (now.toNat % p ≠ 0 ∨ x.sampledIn = some now → exec (.sample core sl) s = .next s) ∧
      ∀ base j (w : Where), now.toNat % p = 0 → x.sampledIn ≠ some now → s.ringOf L.ctx = some (base, j) →
        L.ctx ∉ s.service.sampleStop → s.service.samples = [] →
        (∀ o ∈ s.fabric.out, o.why ≠ .record s.service.nextMap) →
        s.homePlace L.ctx base .write = some w → w.dev = none → base % 4096 = 0 → s.mem.wf →
        let written := s.mem.readNat w.dpa 8
        let dropped := s.mem.readNat (w.dpa + 16) 8
        let lost := L.ctx ∈ s.service.sampleDrop
        let record := if lost then (s.sampleBytes core sl L T g).modify 29 (· ||| 4) else s.sampleBytes core sl L T g
        let Sampled (m : Memory) (drops : List Nat) : Prop :=
          ∃ s', exec (.sample core sl) s = .next s' ∧ s'.mem = m ∧
            s'.sliceAt core sl = { x with sampled := some (slot, g), sampledIn := some now } ∧
            (∀ n l, (n, l) ≠ (core, sl) → s'.sliceAt n l = s.sliceAt n l) ∧
            s'.service = { s.service with nextMap := s.service.nextMap + 1, sampleDrop := drops } ∧
            { s' with mem := s.mem, cores := s.cores, service := s.service } = s
        if (written + 2 ^ 64 - s.mem.readNat (w.dpa + 8) 8) % 2 ^ 64 = 2 ^ j then
          ∀ v : Where, s.homePlace L.ctx (base + 16) .write = some v → v.dev = none →
            Sampled (s.mem.write v.dpa (leBytes 8 ((dropped + 1) % 2 ^ 64)))
              (if lost then s.service.sampleDrop else s.service.sampleDrop ++ [L.ctx])
        else
          ∀ u v : Where, s.homePlace L.ctx (base + 128 + 32 * (written % 2 ^ j)) .write = some u → u.dev = none →
            record.length = 32 → let m := s.mem.write u.dpa record
            State.homePlace { s with mem := m } L.ctx base .write = some v → v.dev = none →
              Sampled (m.write v.dpa (leBytes 8 ((written + 1) % 2 ^ 64))) (s.service.sampleDrop.filter (· ≠ L.ctx)))

/-- Placement, pre-emption and restoration (R39, R41-R45, R336-R341). PLACE_TEAMS places the next unit of the launch at
the head of the order where it fits; each team starts as R39 says, and halted where a trap has halted its launch.
PREEMPT stops a unit that R45 calls for; a stopped team with nothing under way gives up its places and keeps its
state, and its image's sections stand in device memory where no other saved team's does and no context maps, where
there is such a place. RESTORE_TEAM places a saved team again: a discarded one with its threads at their checkpoints.
It rests on the model's choices in logs 24, 86, 87, 88, 91, 154, 155, 156 and 169. -/
def Obligations.Placement : Prop :=
  (∀ (s : State) (L : Launch) (ps : List Place), s.headLaunch = some L → s.launch? L.num = some L → s.saved L = [] →
    placeClusters L.rcd (if L.rcd.coResident then L.rcd.teams / L.rcd.cluster else 1) s.residents = some ps →
    (∀ T ∈ s.teams, T.key.launch = L.num → T.key.n < L.nextTeam) →
    ∃ s' L', exec .placeTeams s = .next s' ∧ s'.launch? L.num = some L' ∧ L'.nextTeam = L.nextTeam + ps.length ∧
      { L' with nextTeam := L.nextTeam, held := L.held } = L ∧ s'.mem = s.mem ∧
      (∀ k, (∀ i, i < ps.length → k ≠ ⟨L.num, L.nextTeam + i⟩) → s'.team? k = s.team? k) ∧
      ∀ i p, ps[i]? = some p → ∃ T, s'.team? ⟨L.num, L.nextTeam + i⟩ = some T ∧ T.place = some p ∧
        T.threads = List.replicate L.rcd.threads (Thread.start L.rcd.code) ∧
        (∀ a, T.scratch.bytes.byte a = (L.rcd.params[a]?).getD 0) ∧ (∀ a, T.tile.bytes.byte a = 0) ∧
        (∀ tile l, (T.store tile).full l = true) ∧ T.bars = List.replicate 16 ⟨0, []⟩ ∧ T.queues = [[], [], [], []] ∧
        T.mcast = 0 ∧ T.cmds = [] ∧ T.fences = [] ∧ T.accepted = 0 ∧ T.scrinfo = 0 ∧ T.tileinfo = 0 ∧
        T.halted = L.halted ∧ T.stopping = false ∧ T.unready = true ∧ T.image = none ∧ T.records = []) ∧
  (∀ (s : State) team (T : Team) (L : Launch), s.team? team = some T → s.launch? team.launch = some L → T.stopping = false →
    T.place.isSome = true → s.mayPreempt team = true → (∃ U ∈ s.unitOf L team, s.hasBundle U.key = true) →
    ∃ s', exec (.preempt team) s = .next s' ∧ { s' with teams := s.teams } = s ∧
      ∀ q U, s.team? q = some U → ∃ U', s'.team? q = some U' ∧ { U' with stopping := U.stopping } = U ∧
        U'.stopping = (U.stopping || (s.unitOf L team).any fun V => V.key == q)) ∧
  (∀ (s : State) team (T : Team) (L : Launch) n, s.team? team = some T → s.launch? team.launch = some L →
    T.stopping = true → s.unitOf L team = [T] → s.hasBundle team = false → T.cmds = [] → T.relUpTo = some n →
    (∀ o ∈ s.fabric.out, n ≤ o.id) → s.fabric.phase = .normal → (∀ c ∈ s.cores, ∀ m, c.mat = some m → m.team ≠ team) →
    T.discards L = false → (∀ th ∈ T.threads, th.pending = []) → T.reduced = false → s.mem.wf → s.freeImages 1 ≠ [] →
    ∃ s' k, exec (.preempt team) s = .next s' ∧ (∀ U ∈ s.teams, U.image ≠ some k) ∧
      (∀ r ∈ s.mappedRanges, r.meets ⟨none, imageAddr k, imageRoom⟩ = false) ∧
      s'.team? team = some { T with place := none, stopping := false, relUpTo := none, image := some k } ∧
      OtherTeams s s' team ∧ { s' with teams := s.teams, cores := s.cores, mem := s.mem } = s ∧
      let image := [1, 2, 3, 4, 5, 6, 7].flatMap (sectionBytes L { T with place := none, stopping := false, relUpTo := none })
      ∀ a, s'.mem.byte a = if imageAddr k ≤ a ∧ a < imageAddr k + image.length then (image[a - imageAddr k]?).getD 0
        else s.mem.byte a) ∧
  (∀ (s : State) team (T : Team) (L : Launch) p, s.team? team = some T → s.launch? team.launch = some L →
    T.place = none → T.cmds = [] → s.headLaunch = some L → (s.saved L).filter (fun U => sameUnit L team U.key) = [T] →
    placeSaved s.residents L.rcd [[team]] = some [(team, p)] →
    ∃ s' T', exec (.restoreTeam team) s = .next s' ∧ s'.team? team = some T' ∧ OtherTeams s s' team ∧ s'.mem = s.mem ∧
      T'.place = some p ∧ T'.threads.length = T.threads.length ∧ T'.unready = true ∧ T'.image = none ∧
      if T.reduced then
        T'.reduced = false ∧ T'.halted = T.halted ∧ ∀ (t : Nat) (th : Thread), T.threads[t]? = some th → ∃ th' : Thread, T'.threads[t]? = some th' ∧
          (∀ c, th.ckpt = some c → th'.pc = c.entry ∧ th'.widx = 0 ∧ th'.preds = c.preds ∧ th'.depth = c.stack.length ∧
            th'.fp = c.fp ∧ th'.srstep = c.srstep ∧ th'.ckpt = some c ∧ th'.wait = none ∧ th'.pending = [] ∧
            ∀ r, sget 0 th'.regs r = latest c.regs r 0) ∧
          (th.ckpt = none → th'.exited = th.exited)
      else { T' with
          place := T.place, placedAt := T.placedAt, threads := T.threads, unready := T.unready, image := T.image } = T ∧
        ∀ (t : Nat) (th : Thread), T.threads[t]? = some th → ∃ th' : Thread, T'.threads[t]? = some th' ∧ th'.age = 0 ∧
          { th' with age := th.age, wait := th.wait, woken := th.woken } = th ∧
          if th.woken = true ∧ T.halted = false then th'.wait = none ∧ th'.woken = false
          else th'.wait = th.wait ∧ th'.woken = th.woken)

/-! ### Commands and their engines -/

/-- Starting (R15, R218, R222-R227, R245, R256, R261, R262, R273, R276): COMMAND_START runs a WAITING command on which
nothing is outstanding; its lanes enter the request collector, which has room for them, in order, and a matrix
operation takes the sub-arrays with C as it stands, when the engine is free. One whose release waits for
acknowledgements stays WAITING. MULTICAST_RELEASE starts a multicast whose receivers are all armed or have retired:
their signals fall and its lines are claimed in each. FENCE_COMPLETE ends a fence that covers nothing outstanding: its
thread receives the failed colours and goes on, and an acquire leaves no clean copy of its colours. A release of scope
DIE, PKG or FAB drains the core's write queue, whose writes land, in order, at their homes on the die and in its
copies; one of scope PKG or FAB has the dirty sectors of its colours stand at their homes in the package and hands
those homed on peers to their planes; and one of scope FAB goes on waiting while any request that the device had
produced, a write or a contribution, is not acknowledged, or the fabric is calving. It rests on the model's choices in
logs 2, 24, 56, 62, 75, 152 and 153. -/
def Obligations.Starting : Prop :=
  (∀ (s : State) team tag (T : Team) (c : Cmd), s.team? team = some T → T.cmd? tag = some c → c.st = .waiting →
    c.waits = [] → (∀ f ∈ T.fences, f.seq < c.seq → f.mask &&& colourBit c.colour = 0) → T.place.isSome = true →
    T.stopping = false → c.rel = none → c.mcast? = none → T.core < s.cores.length →
    ((∃ x, c.body = .mat x) ∨ (∃ base n, c.body = .zero base n) ∨ (∃ x, c.body = .conv x) →
      (s.coreAt T.core).mat = none) →
    ((∃ d, c.body = .lanes d) →
      (s.heldLanes T.core).length + (c.lanes.filter fun y => y.st == .idle).length ≤ 1024) →
    ∃ (s' : State) (T' : Team) (c' : Cmd), exec (.commandStart team tag) s = .next s' ∧ s'.team? team = some T' ∧
      T'.cmd? tag = some c' ∧ c'.st = .running ∧ { c' with st := c.st, lanes := c.lanes } = c ∧
      { T' with cmds := T.cmds } = T ∧ (∀ u, u ≠ tag → T'.cmd? u = T.cmd? u) ∧ OtherTeams s s' team ∧
      (∀ n, n ≠ T.core → s'.coreAt n = s.coreAt n) ∧ { s' with teams := s.teams, cores := s.cores } = s ∧
      (∀ d, c.body = .lanes d →
        (s'.coreAt T.core).entered = (s.coreAt T.core).entered + (c.lanes.filter fun y => y.st == .idle).length ∧
        ∀ (n : Nat) (x : Lane), c.lanes[n]? = some x → c'.lanes[n]? = some
          (if x.st = .idle then
            { x with st := .held ((s.coreAt T.core).entered + ((c.lanes.take n).filter fun y => y.st == .idle).length) }
           else x)) ∧
      ((∀ d, c.body ≠ .lanes d) → c'.lanes = c.lanes) ∧
      (∀ x, c.body = .mat x → ∃ m, (s'.coreAt T.core).mat = some m ∧ m.team = team ∧ m.tag = tag ∧ m.subs.length = 4 ∧
        ∀ i r, m.subs[i]? = some r → r.step = 0 ∧ r.rows = 0 ∧ ∀ j k, j < 64 → k < 64 →
          r.acc[64 * j + k]? = some (BitVec.ofNat 32 (T.tile.bytes.readNat (x.blockRow i j + 4 * k) 4))) ∧
      ((∃ base n, c.body = .zero base n) ∨ (∃ x, c.body = .conv x) →
        (s'.coreAt T.core).mat = some ⟨team, tag, []⟩)) ∧
  (∀ (s : State) team tag (T : Team) (c : Cmd) r n, s.team? team = some T → T.cmd? tag = some c → c.rel = some r →
    c.relUpTo = some n → (∃ o ∈ s.fabric.out, o.id < n) → exec (.commandStart team tag) s = .next s) ∧
  (∀ (s : State) team tag (T : Team) (L : Launch) (c : Cmd) (d : CopyDesc), s.team? team = some T →
    s.launch? team.launch = some L → T.cmd? tag = some c → c.mcast? = some d → c.st = .waiting → c.waits = [] →
    (∀ f ∈ T.fences, f.seq < c.seq → f.mask &&& colourBit c.colour = 0) → T.place.isSome = true → T.stopping = false →
    c.rel = none →
    (∀ k ∈ receivers L team d.ranks, match s.team? k with
      | some R => R.mcast.getLsbD d.bufid = true ∧ R.halted = false ∧ R.place.isSome = true
      | none => k.n < L.nextTeam) →
    ∃ (s' : State) (c' : Cmd), exec (.multicastRelease team tag) s = .next s' ∧ s'.cmd? team tag = some c' ∧
      c' = { c with st := .running } ∧ { s' with teams := s.teams } = s ∧
      (∀ k ∈ receivers L team d.ranks, ∀ R, s.team? k = some R → ∃ R', s'.team? k = some R' ∧
        (∀ j, j < 4 → R'.mcast.getLsbD j = (R.mcast.getLsbD j && decide (j ≠ d.bufid))) ∧
        (∀ p ∈ c.lasts, (p.1, 256 * (team.n % L.rcd.cluster + 1) + tag) ∈ R'.scratch.claims) ∧
        R'.scratch.bytes = R.scratch.bytes ∧ R'.tile = R.tile) ∧
      ∀ k, k ≠ team → k ∉ receivers L team d.ranks → s'.team? k = s.team? k) ∧
  (∀ (s : State) team t (T : Team) (th : Thread) (f : Fence), s.Canonical → s.team? team = some T →
    T.threads[t]? = some th → T.fences.find? (fun g => g.thread == t) = some f → T.place.isSome = true → f.covers = [] →
    f.under ≤ s.fabric.gen →
    (f.relUpTo = none ∧ (f.scope = .team ∨ f.kind = .acq ∧ f.scope ≠ .fab) ∨
      ∃ n, f.relUpTo = some n ∧ (∀ o ∈ s.fabric.out, n ≤ o.id) ∧ (f.scope = .fab → s.fabric.phase = .normal)) →
    ∃ (s' : State) (T' : Team) (th' : Thread), exec (.fenceComplete team t) s = .next s' ∧ s'.team? team = some T' ∧
      T'.fences = T.fences.filter (fun g => g.seq != f.seq) ∧ { T' with fences := T.fences, threads := T.threads } = T ∧
      T'.threads[t]? = some th' ∧ (∀ u, u ≠ t → T'.threads[u]? = T.threads[u]?) ∧
      (if T.halted then th'.wait = th.wait ∧ th'.woken = true else th'.wait = none ∧ th'.woken = false) ∧
      (if f.ctr = 0 then
        (∀ n, sget 0 th'.regs n = latest (w32 f.d (f.failed.setWidth 32)) n (sget 0 th.regs n)) ∧ th'.pending = th.pending
       else th'.regs = th.regs ∧ th'.pending = th.pending ++ [⟨f.ctr, w32 f.d (f.failed.setWidth 32), [], []⟩]) ∧
      { th' with wait := th.wait, woken := th.woken, regs := th.regs, pending := th.pending } = th ∧
      OtherTeams s s' team ∧ s'.mem = s.mem ∧
      (f.kind ≠ .rel → f.scope = .pkg ∨ f.scope = .fab → ∀ l ∈ (s'.dieAt T.die).l2, l.colours &&& f.mask ≠ 0 →
        ∀ x ∈ l.sectors, x.2.dirty = true ∨ f.scope = .pkg ∧ l.key.dev ≠ none)) ∧
  (∀ (s : State) team t (T : Team) (f : Fence), s.Canonical → s.team? team = some T →
    T.fences.find? (fun g => g.thread == t) = some f → T.place.isSome = true → f.covers = [] →
    f.kind = .rel ∨ f.kind = .full ∧ f.scope = .die → f.scope ≠ .team → f.mask ≠ 0 → f.relUpTo = none →
    f.under ≤ s.fabric.gen → s.errors = [] → T.core < s.cores.length → T.die < s.dies.length →
    ((s.dieAt T.die).l2.map (·.key)).Nodup →
    (∀ l ∈ (s.dieAt T.die).l2, isHome T.die l.key = false ∧ (l.sectors.map (·.1)).Nodup ∧
      ∀ x ∈ l.sectors, x.1 < 4 ∧ x.2.bytes.length = 32) →
    (∀ w ∈ (s.coreAt T.core).wq, w.off < 128 ∧ w.off % 32 + w.bytes.length ≤ 32 ∧
      (isHome T.die w.key = true ∨ ((s.dieAt T.die).sector? w.key (w.off / 32)).isSome = true)) →
    let q := (s.coreAt T.core).wq
    ∃ (s' : State) (T' : Team), exec (.fenceComplete team t) s = .next s' ∧ s'.team? team = some T' ∧
      (f.scope ≠ .fab → T'.fences = T.fences.filter fun g => g.seq != f.seq) ∧ OtherTeams s s' team ∧
      s'.coreAt T.core = { s.coreAt T.core with wq := [] } ∧ (∀ n, n ≠ T.core → s'.coreAt n = s.coreAt n) ∧
      (∀ n, n ≠ T.die → s'.dieAt n = s.dieAt n) ∧
      (∀ k o, isHome T.die k = true → o < 128 →
        s'.mem.byte (k.line * 128 + o) = queuedByte q k o (s.mem.byte (k.line * 128 + o))) ∧
      (∀ l ∈ (s.dieAt T.die).l2, ∀ x ∈ l.sectors, ∃ x', (s'.dieAt T.die).sector? l.key x.1 = some x' ∧
        x'.bytes = (List.range 32).map (fun o => queuedByte q l.key (32 * x.1 + o) (x.2.bytes.getD o 0)) ∧
        (f.scope = .die → x'.dirty = (x.2.dirty || q.any fun w => w.key == l.key && w.off / 32 == x.1))) ∧
      (f.scope = .die → ∀ a, dpaDie a ≠ T.die → s'.mem.byte a = s.mem.byte a)) ∧
  ∀ (s : State) team t (T : Team) (f : Fence), s.Canonical → s.team? team = some T →
    T.fences.find? (fun g => g.thread == t) = some f → T.place.isSome = true → f.covers = [] → f.kind ≠ .acq →
    f.scope = .pkg ∨ f.scope = .fab → f.relUpTo = none → f.under ≤ s.fabric.gen → (s.coreAt T.core).wq = [] →
    s.errors = [] → T.die < s.dies.length → (∀ o ∈ s.fabric.out, o.id < s.fabric.nextId) →
    ((s.dieAt T.die).l2.map (·.key)).Nodup →
    (∀ l ∈ (s.dieAt T.die).l2, (l.sectors.map (·.1)).Nodup ∧ ∀ x ∈ l.sectors, x.1 < 4 ∧ x.2.bytes.length = 32) →
    let back (l : L2Line) (x : Nat × Sector) : Prop := l.colours &&& f.mask ≠ 0 ∧ x.2.dirty = true
    let ends : Prop := f.scope = .pkg ∨ s.fabric.phase = .normal ∧ s.fabric.out = [] ∧
      ∀ l ∈ (s.dieAt T.die).l2, ∀ x ∈ l.sectors, back l x → l.key.dev = none
    ∃ (s' : State) (T' : Team), exec (.fenceComplete team t) s = .next s' ∧ s'.team? team = some T' ∧
      (ends → T'.fences = T.fences.filter fun g => g.seq != f.seq) ∧
      (¬ ends → T' = { T with fences := T.fences.map fun g =>
        if g.seq = f.seq then { g with relUpTo := some s'.fabric.nextId } else g }) ∧
      OtherTeams s s' team ∧ (∀ n, n ≠ T.die → s'.dieAt n = s.dieAt n) ∧ s'.cores = s.cores ∧
      (f.kind = .rel ∨ ¬ ends →
        ((s'.dieAt T.die).l2.map fun l => (l.key, l.colours)) = ((s.dieAt T.die).l2.map fun l => (l.key, l.colours)) ∧
        ∀ l ∈ (s.dieAt T.die).l2, ∀ x ∈ l.sectors,
          (back l x → (s'.dieAt T.die).sector? l.key x.1 = some { x.2 with dirty := false, writer := none, wrote := [] }) ∧
          (¬ back l x → (s'.dieAt T.die).sector? l.key x.1 = some x.2)) ∧
      (f.kind = .full → ends → ∀ l ∈ (s'.dieAt T.die).l2, l.colours &&& f.mask ≠ 0 → f.scope = .fab ∨ l.key.dev = none →
        ∀ x ∈ l.sectors, x.2.dirty = true) ∧
      (∀ l ∈ (s.dieAt T.die).l2, ∀ x ∈ l.sectors, back l x → match l.key.dev with
        | none => s'.mem.read (l.key.line * 128 + 32 * x.1) 32 = x.2.bytes
        | some dev => ∃ o ∈ s'.fabric.out, s.fabric.nextId ≤ o.id ∧ o.id < s'.fabric.nextId ∧ o.pkt.kind = 2 ∧
          o.pkt.target = dev ∧ o.pkt.addr = l.key.line * 128 + 32 * x.1 ∧
          ∃ ws, o.pkt.body = .write ((List.range 32).zip x.2.bytes) ws) ∧
      ∀ a, (∀ l ∈ (s.dieAt T.die).l2, ∀ x ∈ l.sectors, back l x → l.key.dev = none →
          ¬(l.key.line * 128 + 32 * x.1 ≤ a ∧ a < l.key.line * 128 + 32 * x.1 + 32)) →
        s'.mem.byte a = s.mem.byte a

/-- The engines (R125, R132, R134, R214, R250, R251, R263, R265, R274, R276, R278, R279, R306, R308, R309): a copy
performs its next element, unchanged or converted, from scratch, tile store or a line at home on its die, to scratch,
tile store or, through the core's write queue, device memory, and ends DONE with its last; a multicast writes it to
every receiver that is there; a contribution forms its bytes and hands the pieces of the blocks that no later element
touches to their planes. MZERO clears the next line of its region, MCVT writes its slabs' next row, their lines fill
one after another, and both end DONE with the last; a sub-array's step adds the exact dot products of its slab rows
(for plain integers, modulo 2^32) to its accumulators, and after its last step it writes its block row by row, whose
lines fill, the last row of the last block ending the command. It rests on the model's choices in logs 47, 48, 50, 62,
73, 74, 75, 147 and 174. -/
def Obligations.Engines : Prop :=
  (∀ (s : State) team tag (T : Team) (L : Launch) (c : Cmd) (d : CopyDesc) (bs : List Byte) (v : Where),
    Lone s team tag T L c → s.Canonical → ElementReady s T L c d bs → d.op = 1 →
    (d.dkind = 2 → s.resolve T.core L.ctx ⟨d.dst.elem d.ext c.n, .write, 1⟩ = .ok v ∧
      (v.dev = none ∨ ((s.dieAt T.die).sector? v.key (v.off / 32)).isSome = true)) →
    let b := (d.dst.elem d.ext c.n).toNat
    let out := elementOut L c d bs
    ∃ (s' : State) (T' : Team), exec (.copyElement team tag) s = .next s' ∧ s'.team? team = some T' ∧
      OtherTeams s s' team ∧ { s' with teams := s.teams, cores := s.cores } = s ∧
      (∀ n, n ≠ T.core → s'.coreAt n = s.coreAt n) ∧
      (s'.coreAt T.core).wq = (s.coreAt T.core).wq ++ (if d.dkind = 2 then
        [⟨v.key, v.off, out.1, BitVec.ofNat 8 (2 ^ (c.colour % 8)), c.relaxed, ⟨none, team, c.seq, L.ctx⟩⟩] else []) ∧
      (∀ y, (T'.store (d.dkind == 1)).bytes.byte y =
        if d.dkind ≠ 2 ∧ b ≤ y ∧ y < b + out.1.length then (out.1[y - b]?).getD 0
        else (T.store (d.dkind == 1)).bytes.byte y) ∧
      (T'.store (!(d.dkind == 1))).bytes = (T.store (!(d.dkind == 1))).bytes ∧
      (∀ p ∈ c.lasts, p.2 ≤ c.n → (p.1, tag) ∉ (T'.store (d.dkind == 1)).claims) ∧
      (∀ u, u ≠ tag → T'.cmd? u = T.cmd? u) ∧
      if c.n + 1 < d.count then
        ∃ y, T'.cmd? tag = some y ∧ y.n = c.n + 1 ∧ y.lasts = c.lasts.filter (fun p => decide (c.n < p.2)) ∧
          y.flags = c.flags ||| out.2 ∧
          { y with n := c.n, lasts := c.lasts, carry := c.carry, resid := c.resid, flags := c.flags } = c
      else EndedDone T' tag c.foe (c.flags ||| out.2)) ∧
  (∀ (s : State) team tag (T : Team) (L : Launch) (c : Cmd) (d : CopyDesc) (bs : List Byte),
    s.team? team = some T → s.launch? team.launch = some L → T.cmd? tag = some c →
    (∀ x ∈ T.cmds, x.tag = tag → x = c) → s.Canonical → ElementReady s T L c d bs → d.op = 2 → d.dkind = 0 →
    c.n + 1 < d.count →
    let b := (d.dst.elem d.ext c.n).toNat
    let out := elementOut L c d bs
    let rs := receivers L team d.ranks
    ∃ (s' : State) (c' : Cmd), exec (.copyElement team tag) s = .next s' ∧ s'.cmd? team tag = some c' ∧
      c'.n = c.n + 1 ∧ c'.flags = c.flags ||| out.2 ∧ (c'.retired = true ↔ c.retired = true ∨ ∃ k ∈ rs, s.team? k = none) ∧
      { c' with
        n := c.n, lasts := c.lasts, carry := c.carry, resid := c.resid, flags := c.flags, retired := c.retired } = c ∧
      { s' with teams := s.teams } = s ∧
      (∀ k ∈ rs, ∀ R, s.team? k = some R → ∃ R', s'.team? k = some R' ∧ R'.tile = R.tile ∧
        (∀ y, R'.scratch.bytes.byte y =
          if b ≤ y ∧ y < b + out.1.length then (out.1[y - b]?).getD 0 else R.scratch.bytes.byte y) ∧
        (∀ p ∈ c.lasts, p.2 ≤ c.n → (p.1, 256 * (team.n % L.rcd.cluster + 1) + tag) ∉ R'.scratch.claims) ∧
        { R' with threads := R.threads, scratch := R.scratch, cmds := R.cmds } = R) ∧
      ∀ k, k ≠ team → k ∉ rs → s'.team? k = s.team? k) ∧
  (∀ (s : State) team tag (T : Team) (L : Launch) (c : Cmd) (d : CopyDesc) (bs : List Byte) (v : Where),
    Lone s team tag T L c → s.Canonical → ElementReady s T L c d bs → d.op = 3 → d.dkind = 2 →
    s.resolve T.core L.ctx ⟨d.dst.elem d.ext c.n, .write, 1⟩ = .ok v →
    let out := elementOut L c d bs
    let contrib := addContrib d.dbase c.contrib (d.dst.elem d.ext c.n, out.1)
    let block := contribBlock d.dbase (contribOff d.dbase (d.dst.elem d.ext c.n))
    let areas := aset c.areas block (v.dev.getD s.devno, v.dpa / 256 * 256)
    let later (b : Nat) : Bool := ((d.contribOffs (c.n + 1)).map (contribBlock d.dbase)).contains b
    let formed := contribPieces d (contrib.filter fun p => !later (contribBlock d.dbase p.1))
    ∃ (s' : State) (c' : Cmd), exec (.copyElement team tag) s = .next s' ∧ s'.cmd? team tag = some c' ∧
      c'.st = .running ∧ c'.n = c.n + 1 ∧ c'.contrib = contrib.filter (fun p => later (contribBlock d.dbase p.1)) ∧
      c'.areas = areas.filter (fun a => later a.1) ∧ c'.flags = c.flags ||| out.2 ∧
      OtherTeams s s' team ∧ { s' with teams := s.teams, fabric := s.fabric } = s ∧
      (formed = [] → s'.fabric = s.fabric) ∧
      s'.fabric.out.length = s.fabric.out.length + formed.length ∧
      ∀ p ∈ formed, ∃ o ∈ s'.fabric.out, s.fabric.nextId ≤ o.id ∧ o.why = .piece team c.seq false ∧
        o.pkt.kind = 4 ∧ o.pkt.context = L.ctx ∧
        let a := (aget? areas p.block).getD (s.devno, 0)
        o.pkt.target = a.1 ∧ o.pkt.addr = a.2 + (d.dbase + p.first) % 256 ∧
        ∃ q : Piece, o.pkt.body = .piece q ∧ q.target = a.1 ∧ { q with target := p.target, pages := p.pages } = p) ∧
  (∀ (s : State) team tag (T : Team) (L : Launch) (c : Cmd) base n, Lone s team tag T L c → s.Canonical →
    c.st = .running → c.body = .zero base n → ∀ l, (linesOfRange base n)[c.n]? = some l →
    ∃ (s' : State) (T' : Team), exec (.zeroTile team tag) s = .next s' ∧ s'.team? team = some T' ∧ OtherTeams s s' team ∧
      s'.mem = s.mem ∧ T'.scratch.bytes = T.scratch.bytes ∧
      (∀ a, T'.tile.bytes.byte a = if l * 128 ≤ a ∧ a < l * 128 + 128 then 0 else T.tile.bytes.byte a) ∧
      (l, tag) ∉ T'.tile.claims ∧ (∀ u, u ≠ tag → T'.cmd? u = T.cmd? u) ∧
      if c.n + 1 < (linesOfRange base n).length then
        T'.cmd? tag = some { c with n := c.n + 1 } ∧
        ∀ m, m ≠ l → ((m, tag) ∈ T'.tile.claims ↔ (m, tag) ∈ T.tile.claims)
      else EndedDone T' tag c.foe c.flags) ∧
  (∀ (s : State) team tag (T : Team) (L : Launch) (c : Cmd) (d : ConvDesc), Lone s team tag T L c → s.Canonical →
    c.st = .running → c.body = .conv d → s.errors = [] → c.n < d.rows →
    let r := d.doRow (L.rcd.key.extractLsb' 0 32 ^^^ L.rcd.key.extractLsb' 32 32) c.salt T.tile.bytes (T.scratch.bytes, 0) c.n
    ∃ (s' : State) (T' : Team), exec (.convertTile team tag) s = .next s' ∧ s'.team? team = some T' ∧
      OtherTeams s s' team ∧ s'.mem = s.mem ∧ T'.scratch.bytes = r.1 ∧ T'.tile.bytes = T.tile.bytes ∧
      (∀ l ∈ d.lastLines c.n, (l, tag) ∉ T'.scratch.claims) ∧ (∀ u, u ≠ tag → T'.cmd? u = T.cmd? u) ∧
      if c.n + 1 < d.rows then
        T'.cmd? tag = some { c with n := c.n + 1, flags := c.flags ||| r.2 } ∧
        ∀ m, m ∉ d.lastLines c.n → ((m, tag) ∈ T'.scratch.claims ↔ (m, tag) ∈ T.scratch.claims)
      else EndedDone T' tag c.foe (c.flags ||| r.2)) ∧
  (∀ (s : State) core sub (m : MatRun) (T : Team) (L : Launch) (c : Cmd) (x : MatDesc) (r : SubRun),
    s.matCmd core = some (m, T, L, c, x) → m.subs[sub]? = some r → r.step < x.steps → c.ending = none → s.errors = [] →
    ∃ (s' : State) (m' : MatRun) (r' : SubRun), exec (.matrixStep core sub) s = .next s' ∧
      (s'.coreAt core).mat = some m' ∧ m'.team = m.team ∧ m'.tag = m.tag ∧ m'.subs[sub]? = some r' ∧
      (∀ i, i ≠ sub → m'.subs[i]? = m.subs[i]?) ∧ r' = (r.next x sub T.scratch.bytes).1 ∧ r'.step = r.step + 1 ∧
      s'.cmd? m.team m.tag = some { c with flags := c.flags ||| (r.next x sub T.scratch.bytes).2 } ∧
      OtherTeams s s' m.team ∧ (∀ n, n ≠ core → s'.coreAt n = s.coreAt n) ∧
      { s' with teams := s.teams, cores := s.cores } = s ∧
      (slotRun x.aslot = 0 → slotRun x.bslot = 0 → 10 ≤ slotCode x.aslot → ∀ i j, i < 64 → j < 64 →
        let code (o : Operand) (row k : Nat) : Nat := ((o.codes T.scratch.bytes r.step row)[k]?).getD 0
        r'.acc[64 * i + j]? = some ((r.acc[64 * i + j]?).getD 0 + BitVec.ofInt 32 ((List.range x.kstep).map fun k =>
          matInt x.aslot (code x.opA (64 * (fusionBlock x.fusion sub).1 + i) k) 0 *
          matInt x.bslot (code x.opB (64 * (fusionBlock x.fusion sub).2 + j) k) 0).sum))) ∧
  (∀ (s : State) core sub (m : MatRun) (T : Team) (L : Launch) (c : Cmd) (x : MatDesc) (r : SubRun),
    s.matCmd core = some (m, T, L, c, x) → Lone s m.team m.tag T L c → s.Canonical → c.st = .running →
    m.subs[sub]? = some r → x.steps ≤ r.step → r.rows < 64 → c.ending = none → r.acc.length = 4096 →
    let a := x.blockRow sub r.rows
    let r' := { r with rows := r.rows + 1 }
    ∃ (s' : State) (T' : Team), exec (.matrixBlockWrite core sub) s = .next s' ∧ s'.team? m.team = some T' ∧
      OtherTeams s s' m.team ∧ s'.mem = s.mem ∧ T'.scratch.bytes = T.scratch.bytes ∧
      (∀ j, j < 64 → T'.tile.bytes.readNat (a + 4 * j) 4 = ((r.acc[64 * r.rows + j]?).getD 0).toNat) ∧
      (∀ y, ¬(a ≤ y ∧ y < a + 256) → T'.tile.bytes.byte y = T.tile.bytes.byte y) ∧
      (∀ l ∈ linesOfRange a 256, (l, m.tag) ∉ T'.tile.claims) ∧
      if (m.subs.set sub r').all (fun q => decide (64 ≤ q.rows)) then EndedDone T' m.tag c.foe c.flags
      else T'.cmd? m.tag = some c ∧ ∃ m', (s'.coreAt core).mat = some m' ∧ m'.subs[sub]? = some r' ∧
        ∀ i, i ≠ sub → m'.subs[i]? = m.subs[i]?)

/-- Translation and faults (R231, R235, R251, R328-R333, Tables 21.2 and 21.3): a walk fills both TLBs, or parks its copy
and sends a fault record; a record held back is written when a slot frees and the command it was raised for, no later
one of its tag, or the team that took the trap learns its number; RESUME lets the command go on, its parked lanes
entering the collector again; CANCEL ends it FAULT_CANCELLED with the answer's code; an answer that names no parked
fault is counted in the ring's control line. It rests on the model's choices in logs 2, 13, 46, 61, 152, 157 and 170.
-/
def Obligations.Faults : Prop :=
  (∀ (s : State) team tag lane victim (T : Team) (L : Launch) (c : Cmd) (d : CopyDesc) (x : Context) (a : Acc),
    s.team? team = some T → s.launch? team.launch = some L → T.cmd? tag = some c → c.st = .running → c.body = .copy d →
    T.place.isSome = true → T.stopping = false → c.ending = none → c.parks = [] → c.resWait = false → c.n < d.count →
    c.lanes = [] → s.firstBlocked T.core L.ctx (unitAccesses d c.n) = some (a, .miss) → s.context? L.ctx = some x →
    (∀ e ∈ (s.dieAt T.die).tlb, e.hit L.ctx a.va.toNat = false) → T.core < s.cores.length →
    (∀ base size e w, walk s x a.va.toNat = .leaf base size e →
      checkPlace (leafPlace x s.devno base e a.va.toNat) a.acc base size = .ok w →
      ∃ s', exec (.translationWalk team tag lane victim) s = .next s' ∧ s'.resolve T.core L.ctx a = .ok w ∧
        { s' with cores := s.cores, dies := s.dies } = s ∧ (T.die < s.dies.length →
          ∃ y ∈ (s'.dieAt T.die).tlb, y.ctx = L.ctx ∧ y.base = base ∧ y.size = size ∧ y.entry = e)) ∧
    (∀ cause base size, walk s x a.va.toNat = .fault cause base size → s.ringFull T.die = false →
      (s.dieAt T.die).deferred = [] → s.mem.wf →
      let D := s.dieAt T.die
      ∃ s', exec (.translationWalk team tag lane victim) s = .next s' ∧
        s'.cmd? team tag = some { c with parks := [⟨T.die, some D.seq, (a.va % 2 ^ 64).toNat, base, size, [], none⟩] } ∧
        s'.mem.read (D.ringBase + 128 + 64 * (s.produced T.die % 2 ^ D.ringLog)) 64 =
          (faultRec team L.ctx tag c.thread a cause c.n none).bytes D.seq ∧
        s'.produced T.die = (s.produced T.die + 1) % 2 ^ 64)) ∧
  (∀ (s : State) die (r : FaultRec) rest, (s.dieAt die).deferred = r :: rest → s.ringFull die = false →
    die < s.dies.length → s.mem.wf →
    let D := s.dieAt die
    ∃ s', exec (.faultRecordDeferred die) s = .next s' ∧ (s'.dieAt die).deferred = rest ∧ (s'.dieAt die).seq = D.seq + 1 ∧
      s'.mem.read (D.ringBase + 128 + 64 * (s.produced die % 2 ^ D.ringLog)) 64 = r.bytes D.seq ∧
      s'.produced die = (s.produced die + 1) % 2 ^ 64 ∧
      (r.type = 1 → ∀ c, s.cmd? ⟨r.launch, r.team⟩ (r.f48.toNat % 256) = some c →
        s'.cmd? ⟨r.launch, r.team⟩ (r.f48.toNat % 256) = some { c with parks := c.parks.map fun p =>
          if r.link = (some c.seq) ∧ p.die = die ∧ p.seq = none ∧ p.va = r.f24.toNat then { p with seq := some D.seq }
          else p }) ∧
      (r.type = 2 → ∀ T, s.team? ⟨r.launch, r.team⟩ = some T → OtherTeams s s' ⟨r.launch, r.team⟩ ∧
        s'.team? ⟨r.launch, r.team⟩ = some { T with records := T.records.map fun y =>
          if y.1.link = r.link ∧ y.2 = none then (y.1, some D.seq) else y }) ∧
      (r.type ≠ 1 → r.type ≠ 2 → s'.teams = s.teams)) ∧
  (∀ (s : State) die (w : DWord) team tag (p : Park) (T : Team) (c : Cmd),
    s.parkedOn die (w.setWidth 32) = some (team, tag, p) → s.team? team = some T → T.cmd? tag = some c →
    T.place.isSome = true → w.toNat / 2 ^ 48 = 0 → T.core < s.cores.length →
    (w.toNat / 2 ^ 32 % 256 = 1 → (s.heldLanes T.core).length + p.lanes.length ≤ 1024 →
      ∃ s' c', exec (.faultAnswerResume die w) s = .next s' ∧ s'.cmd? team tag = some c' ∧
        c'.parks = c.parks.filter (· ≠ p) ∧ { c' with parks := c.parks, lanes := c.lanes } = c ∧
        OtherTeams s s' team ∧ { s' with teams := s.teams, cores := s.cores } = s ∧
        ∀ (n : Nat) (x : Lane), c.lanes[n]? = some x → ∃ e, c'.lanes[n]? = some
          (if x.h ∈ p.lanes ∧ x.st = .parked then { x with st := .held e } else x) ∧ (s.coreAt T.core).entered ≤ e) ∧
    ∀ L, w.toNat / 2 ^ 32 % 256 = 2 → Lone s team tag T L c → c.lanes = [] → c.resWait = false → (∀ x, c.body ≠ .mat x) →
      (∀ q ∈ s.cores, ∀ m, q.mat = some m → ¬(m.team = team ∧ m.tag = tag)) →
      (c.st = .running ∨ c.st = .waiting) →
      ∃ s' T' y, exec (.faultAnswerCancel die w) s = .next s' ∧ s'.team? team = some T' ∧ T'.cmd? tag = some y ∧
        y.st = .failed ∧ y.status = 3 ∧ y.code = w.toNat / 2 ^ 40 % 256 ∧ y.parks = [] ∧
        (∀ tile l, (l, tag) ∉ (T'.store tile).claims) ∧ OtherTeams s s' team ∧ s'.mem = s.mem) ∧
  ∀ (s : State) die (w : DWord), s.parkedOn die (w.setWidth 32) = none → s.mem.wf →
    let a := (s.dieAt die).ringBase + 24
    ∃ s', (if w.toNat / 2 ^ 32 % 256 = 2 then exec (.faultAnswerCancel die w) s else exec (.faultAnswerResume die w) s) =
        .next s' ∧ s'.mem.readNat a 8 = (s.mem.readNat a 8 + 1) % 2 ^ 64 ∧
      (∀ y, ¬(a ≤ y ∧ y < a + 8) → s'.mem.byte y = s.mem.byte y) ∧ { s' with mem := s.mem } = s

/-! ### Lanes, calderas and the L2 -/

/-- Lanes (R230, R250, R253, R254, R256, R258, R259, R281, R283, R291, R292, R316): the oldest request leaves the
collector once its address translates, a read or write unless a lower lane of its command keeps it, a home operation
travelling to its caldera, which has room for it, as Table 15.1 says; the held lanes of an OCALL.comb at one element
leave as one request, whose argument is joined from theirs or which packs them, and each receives the value that those
before it leave; a gather's lane is performed when its bytes are in the team's store, a scatter's when they stand in
the core's write queue; and a reply is written whole into its slot as Table 15.4 says. It rests on the model's choices
in logs 2, 55, 143, 151, 152, 157 and 158. -/
def Obligations.Lanes : Prop :=
  (∀ (s : State) core (x : HeldLane) (T : Team) (L : Launch) (c : Cmd) (l : Lane) (d : LaneDesc) (w : Where),
    s.oldestHeld core 1 = [x] → s.team? x.team = some T → s.launch? x.team.launch = some L → T.cmd? x.tag = some c →
    c.body = .lanes d → s.lane? x.team x.tag x.h = some l → l.st = .held x.entry →
    s.resolve core L.ctx (laneAcc d.form l) = .ok w → s.NoneToAdmit →
    let colour : BitVec 8 := BitVec.ofNat 8 (2 ^ (c.colour % 8))
    let issued (x : HeldLane) : LaneSt := .issued x.entry x.entry colour
    (d.form = .gath ∨ d.form = .scat → core < s.cores.length →
      (s.staysHeld L.ctx x.team c d l [] = false → ∃ s', exec (.collectorIssue core 1) s = .next s' ∧
        s'.lane? x.team x.tag x.h = some { l with st := .issued x.entry (s.coreAt core).entered colour } ∧
        s'.coreAt core = { s.coreAt core with entered := (s.coreAt core).entered + 1 } ∧
        (∀ n, n ≠ core → s'.coreAt n = s.coreAt n) ∧
        OtherTeams s s' x.team ∧ { s' with teams := s.teams, cores := s.cores } = s) ∧
      (s.staysHeld L.ctx x.team c d l [] = true → exec (.collectorIssue core 1) s = .next s)) ∧
    (d.form = .call ∨ d.form = .calln → d.comb = true → joins d.method = true ∨ d.method = 4 → w.dev = none →
      s.callHeld T L.ctx c l = false → s.peerCallHeld L.ctx c l = false → s.entriesRoom w.key 64 → c.lanes.length ≤ 64 →
      ∀ ls, ls = (c.lanes.filter fun y =>
          y.isHeld && y.va % 128 == l.va % 128 && s.objectOf L.ctx y == s.objectOf L.ctx l) →
        (∀ y ∈ ls, ∃ u, s.resolve core L.ctx (laneAcc d.form y) = .ok u) → (c.lanes.map (·.h)).Nodup →
        ∃ s', exec (.collectorIssue core 1) s = .next s' ∧
          (∀ y ∈ ls, ∃ y', s'.lane? x.team x.tag y.h = some y' ∧ y'.flying = true ∧ { y' with st := y.st } = y) ∧
          s'.transit = s.transit ++ [{
            team := some T.key, tag := c.tag, seq := c.seq, peer := none, ctx := L.ctx, core := T.core, key := w.key
            entries :=
              if d.method = 4 then ls.map fun y => ⟨y.va % 128, d.size, 4, y.arg0, y.arg1, y.payload⟩
              else (ls.take 1).map fun y => ⟨y.va % 128, d.size, d.method,
                BitVec.ofNat 64 ((ls.drop 1).foldl (fun a z => (builtin d.method d.size a z.arg0.toNat 0).new) y.arg0.toNat),
                y.arg1, y.payload⟩
            homes := if d.method = 4 then ls.map fun y => [(y.h, y.arg0)] else [ls.map fun y => (y.h, y.arg0)]
            noReply := d.form != .call }] ∧
          OtherTeams s s' x.team ∧ { s' with teams := s.teams, transit := s.transit } = s) ∧
    (d.form = .call ∨ d.form = .calln → d.comb = false → w.dev = none → s.callHeld T L.ctx c l = false →
      s.peerCallHeld L.ctx c l = false → s.entriesRoom w.key 1 →
      ∃ s', exec (.collectorIssue core 1) s = .next s' ∧
        s'.lane? x.team x.tag x.h = some { l with st := issued x } ∧
        s'.transit = s.transit ++ [{
          team := some T.key, tag := c.tag, seq := c.seq, peer := none, ctx := L.ctx, core := T.core, key := w.key
          entries := [⟨l.va % 128, d.size, d.method, l.arg0, l.arg1, l.payload⟩], homes := [[(l.h, l.arg0)]]
          noReply := d.form != .call }] ∧
        OtherTeams s s' x.team ∧ { s' with teams := s.teams, transit := s.transit } = s)) ∧
  (∀ (s : State) team tag lane (T : Team) (L : Launch) (c : Cmd) (x : Lane) (d : LaneDesc) (e batch : Nat) (col : BitVec 8) (w : Where),
    s.Canonical → s.team? team = some T → s.launch? team.launch = some L → T.cmd? tag = some c →
    s.lane? team tag lane = some x → c.body = .lanes d → x.st = .issued e batch col → s.errors = [] →
    s.lineHeld L.ctx c x = false → s.peerLaneHeld L.ctx T.die c x = false →
    s.resolve T.core L.ctx (laneAcc d.form x) = .ok w → T.core < s.cores.length →
    (∃ y ∈ c.lanes, y.h ≠ lane ∧ y.st ≠ .done ∧ y.st ≠ .dropped) →
    (d.form = .gath → isHome T.die w.key = true → (s.coreAt T.core).wq = [] →
      ∃ (s' : State) (T' : Team), exec (.lanePerformed team tag lane) s = .next s' ∧ s'.team? team = some T' ∧
        s'.lane? team tag lane = some { x with st := .done } ∧ OtherTeams s s' team ∧ { s' with teams := s.teams } = s ∧
        (T'.store (!d.tile)).bytes = (T.store (!d.tile)).bytes ∧
        ∀ y, (T'.store d.tile).bytes.byte y =
          if x.loc ≤ y ∧ y < x.loc + d.size then s.mem.byte (w.dpa + (y - x.loc)) else (T.store d.tile).bytes.byte y) ∧
    (d.form = .scat → s.laneHeld L.ctx d.size c x = false → s.mergeHeld T L.ctx c x = false → w.dev ≠ none → d.size < 32 →
      (s.dieAt T.die).sector? w.key (w.off / 32) = none →
      ∃ (s' : State), exec (.lanePerformed team tag lane) s = .next s' ∧ { s' with fabric := s.fabric } = s) ∧
    (d.form = .scat → s.laneHeld L.ctx d.size c x = false → s.mergeHeld T L.ctx c x = false →
      (w.dev = none ∨ ((s.dieAt T.die).sector? w.key (w.off / 32)).isSome = true) →
      ∃ (s' : State), exec (.lanePerformed team tag lane) s = .next s' ∧
        s'.lane? team tag lane = some { x with st := .done } ∧ OtherTeams s s' team ∧
        (s'.coreAt T.core).wq = (s.coreAt T.core).wq ++
          [⟨w.key, w.off, (T.store d.tile).bytes.read x.loc d.size, col, c.relaxed, ⟨none, team, c.seq, L.ctx⟩⟩] ∧
        (∀ n, n ≠ T.core → s'.coreAt n = s.coreAt n) ∧ { s' with teams := s.teams, cores := s.cores } = s)) ∧
  (∀ (s : State) k team tag (hs : List (Nat × DWord)) (r : CallReply) (T : Team) (c : Cmd) (d : LaneDesc),
    s.Canonical → s.replies[k]? = some ⟨team, tag, hs, r⟩ → joins r.method = true → r.status = 0 → 2 ≤ hs.length →
    s.team? team = some T → T.cmd? tag = some c → c.body = .lanes d →
    (∀ x ∈ hs, ∃ l, s.lane? team tag x.1 = some l) → (c.lanes.map (·.h)).Nodup → (hs.map (·.1)).Nodup →
    (∀ x ∈ c.lanes, ∀ y ∈ c.lanes, x.h ≠ y.h → x.loc + 16 ≤ y.loc ∨ y.loc + 16 ≤ x.loc) →
    (∃ y ∈ c.lanes, y.h ∉ hs.map (·.1) ∧ y.st ≠ .done ∧ y.st ≠ .dropped) →
    ∃ (s' : State) (T' : Team), exec (.replyLands k) s = .next s' ∧ s'.team? team = some T' ∧
      s'.replies = s.replies.eraseIdx k ∧ s'.mem = s.mem ∧ OtherTeams s s' team ∧
      ∀ (i h : Nat) (arg : DWord) (l : Lane), hs[i]? = some (h, arg) → s.lane? team tag h = some l →
        s'.lane? team tag h = some { l with st := .done } ∧
        T'.scratch.bytes.readNat l.loc 8 = ((hs.take i).foldl (fun a x => (builtin r.method d.size a x.2.toNat 0).new)
          r.value.toNat) % 2 ^ 64) ∧
  (∀ (s : State) k team tag h arg (r : CallReply) (T : Team) (c : Cmd) (d : LaneDesc) (x : Lane),
    s.Canonical → s.replies[k]? = some ⟨team, tag, [(h, arg)], r⟩ → r.method ≠ 22 → s.team? team = some T →
    T.cmd? tag = some c → c.body = .lanes d → s.lane? team tag h = some x →
    (∃ y ∈ c.lanes, y.h ≠ h ∧ y.st ≠ .done ∧ y.st ≠ .dropped) →
    let bad : Bool := r.status == 0x10 || r.status == 0x11
    ∃ (s' : State) (T' : Team) (c' : Cmd), exec (.replyLands k) s = .next s' ∧ s'.team? team = some T' ∧
      s'.replies = s.replies.eraseIdx k ∧ s'.mem = s.mem ∧ OtherTeams s s' team ∧ T'.cmd? tag = some c' ∧
      c'.flags = c.flags ||| r.flags ∧ s'.lane? team tag h = some { x with st := .done } ∧
      T'.scratch.bytes.readNat x.loc 8 = (if bad then 0 else r.value.toNat) ∧
      T'.scratch.bytes.readNat (x.loc + 8) 4 = (if bad then 0 else r.aux.toNat) ∧
      T'.scratch.bytes.readNat (x.loc + 12) 2 = 0 ∧
      T'.scratch.bytes.byte (x.loc + 14) = BitVec.ofNat 8 r.method ∧ T'.scratch.bytes.byte (x.loc + 15) = r.status ∧
      (∀ y, ¬(x.loc ≤ y ∧ y < x.loc + 16) → T'.scratch.bytes.byte y = T.scratch.bytes.byte y) ∧
      T'.tile.bytes = T.tile.bytes)

/-- Calderas (R10, R282-R290, R292-R295, R297): a request enters its caldera's buffer unless an earlier one between the
same dies is still on its way or 512 entries are occupied. A wave of one built-in call replaces its element by the
method's new value, touches no other byte, and sends the method's reply; ENQ places its payload in the ring of the
queue that the object heads and DEQ takes the oldest entry, and a full or an empty queue answers so; a wave of a user
method leaves the object as the method's lanes leave it, with their replies, and one that faults leaves it as it was,
answers METHOD_FAULT and leaves a record. It rests on the model's choices in logs 2, 54, 66, 67, 68, 69 and 159. -/
def Obligations.Calderas : Prop :=
  (∀ (s : State) k (r : Request), s.transit[k]? = some r → s.dies.length = 8 →
    ∃ s', exec (.calderaRequestArrive k) s = .next s' ∧
      if (∀ q ∈ s.transit.take k, q.source = r.source → q.die ≠ r.die) ∧
        (((s.waiting r.die r.slice).map fun q => q.entries.length).sum + r.entries.length ≤ 512) then
        s'.transit = s.transit.eraseIdx k ∧ (s'.dieAt r.die).buffer = (s.dieAt r.die).buffer ++ [r] ∧
        (∀ n, n ≠ r.die → s'.dieAt n = s.dieAt n) ∧ { s' with transit := s.transit, dies := s.dies } = s
      else s' = s) ∧
  ∀ (s : State) die slice (r : Request) team, s.waiting die slice = [r] → r.entries.length ≤ 64 → r.peer = none →
    r.team = some team → r.noReply = false → (s.coreAt r.core).wq = [] → (∀ d ∈ s.dies, d.l2 = []) → s.errors = [] →
    s.service.remaps = [] → (∀ p ∈ s.fabric.recvs, p.todo = []) → s.mem.wf →
    let at' := r.key.line * 128
    let Answered (m : Memory) (rs : List CallReply) : Prop :=
      ∃ s', exec (.calderaWave die slice) s = .next s' ∧ s'.teams = s.teams ∧ (∀ y, s'.mem.byte y = m.byte y) ∧
        s'.replies = s.replies ++ (r.homes.zip rs).map (fun x => ⟨team, r.tag, x.1, x.2⟩) ∧
        (die < s.dies.length → (s'.dieAt die).buffer = (s.dieAt die).buffer.filter (· ≠ r))
    (∀ a, r.entries = [a] → a.method < 21 → a.off + a.size ≤ 128 →
      let m := builtin a.method a.size (s.mem.readNat (at' + a.off) a.size) a.arg0.toNat a.arg1.toNat
      Answered (s.mem.write (at' + a.off) (leBytes a.size m.new))
        [⟨BitVec.ofNat 64 m.value, BitVec.ofNat 32 m.aux, a.method, 0, [], m.flags⟩]) ∧
    (∀ a, r.entries = [a] → a.method = 21 ∨ a.method = 22 →
      let base := s.mem.readNat at' 8
      let cap := s.mem.readNat (at' + 8) 4
      let head := s.mem.readNat (at' + 16) 8
      let tail := s.mem.readNat (at' + 24) 8
      let held := (tail + 2 ^ 64 - head) % 2 ^ 64
      let reply (value aux : Nat) (status : Byte) (entry : List Byte) : List CallReply :=
        [⟨BitVec.ofNat 64 value, BitVec.ofNat 32 aux, a.method, status, entry, 0⟩]
      s.mem.readNat (at' + 12) 4 = 0 → base % 32 = 0 → 1 ≤ cap → cap ≤ 16777216 → held ≤ cap →
      (a.method = 21 → held = cap → Answered s.mem (reply tail 0 2 [])) ∧
      (a.method = 22 → held = 0 → Answered s.mem (reply head 0 1 [])) ∧
      (∀ dpa, a.method = 21 → held ≠ cap → s.ringPlace r.ctx (base + 32 * (tail % cap)) .write = some dpa →
        dpa + 32 ≤ at' ∨ at' + 128 ≤ dpa → a.payload.length = 32 →
        Answered ((s.mem.write dpa a.payload).write (at' + 24) (leBytes 8 (tail + 1))) (reply tail 1 0 [])) ∧
      ∀ dpa, a.method = 22 → held ≠ 0 → s.ringPlace r.ctx (base + 32 * (head % cap)) .read = some dpa →
        Answered (s.mem.write (at' + 16) (leBytes 8 (head + 1))) (reply head 0 0 (s.mem.read dpa 32))) ∧
    ∀ m, 32 ≤ m → r.entries ≠ [] → (∀ a ∈ r.entries, a.method = m) →
      let obj := s.mem.read at' 128
      let failed (cause : Nat) : Prop :=
        Answered (s.record die
          { type := 3, cause := cause, answer := false, ctx := r.ctx, launch := 0xFFFFFFFF, team := 0xFFFFFFFF
            thread := 0xFFFFFFFF, f24 := BitVec.ofNat 64 (at' % 2 ^ 40), f32 := 0xFFFFFFFF, f40 := 0
            f48 := BitVec.ofNat 64 (m % 256 + 256 * r.entries.length), f56 := 0 }).mem
          (r.entries.map fun a => ⟨0, 0, a.method, 0x10, [], 0⟩)
      (s.methodCode r.ctx m = none → failed 3) ∧
      ∀ code, s.methodCode r.ctx m = some code →
        (∀ bs rs, runMethod s.features code obj r.entries = .ok (bs, rs) → Answered (s.mem.write at' bs) rs) ∧
        ∀ cause, runMethod s.features code obj r.entries = .error cause → failed cause

/-- The L2 (R219-R222): the oldest queued write of a core reaches its home, if that is on its die, or the die's copy of
its sector, which becomes dirty under its colours beside those of the line; before it writes part of a sector that the
die does not hold, that sector is filled from home, and one of a peer is asked for; where the L2 has no room the write
waits. A clean copy may be dropped; a dirty one is written back whole and becomes clean. No other byte, no other
sector and no other line's colours change. Each step then lets waiting changes of mappings and closing launches go on
(R237, R379). It rests on the model's choices in logs 2, 54, 64, 143, 145 and 146. -/
def Obligations.CacheSteps : Prop :=
  let Calm (s : State) : Prop := s.service.remaps = [] ∧ ∀ L ∈ s.launches, L.closing = none
  let colours (D : Die) (k : LineKey) : Option (BitVec 8) := (D.l2.find? fun l => l.key == k).map (·.colours)
  (∀ (s : State) core (w : QueuedWrite) rest, (s.coreAt core).wq = w :: rest → core < s.cores.length → s.errors = [] →
    Calm s → s.mem.wf → dieOf core < s.dies.length →
    let d := dieOf core
    let D := s.dieAt d
    let i := w.off / 32
    let a := w.key.line * 128 + w.off
    let Enters (old : Nat → Byte) : Prop := ∃ s' y, exec (.writeQueueDrain core) s = .next s' ∧
      (s'.coreAt core).wq = rest ∧ (∀ n, n ≠ core → s'.coreAt n = s.coreAt n) ∧
      (s'.dieAt d).sector? w.key i = some y ∧ y.dirty = true ∧ y.writer = some w.writer ∧ y.bytes.length = 32 ∧
      (∀ j, j < 32 → y.bytes[j]? =
        if w.off % 32 ≤ j ∧ j < w.off % 32 + w.bytes.length then w.bytes[j - w.off % 32]? else some (old j)) ∧
      (∀ e k j, (e, k, j) ≠ (d, w.key, i) → (s'.dieAt e).sector? k j = (s.dieAt e).sector? k j) ∧
      colours (s'.dieAt d) w.key = some ((colours D w.key).getD 0 ||| w.colours) ∧
      (∀ k, k ≠ w.key → colours (s'.dieAt d) k = colours D k) ∧ { s'.dieAt d with l2 := D.l2 } = D ∧
      (∀ e, e ≠ d → s'.dieAt e = s.dieAt e) ∧ { s' with cores := s.cores, dies := s.dies, tree := s.tree } = s
    (isHome d w.key = true → ∃ s', exec (.writeQueueDrain core) s = .next s' ∧ (s'.coreAt core).wq = rest ∧
      (∀ n, n ≠ core → s'.coreAt n = s.coreAt n) ∧ { s' with mem := s.mem, cores := s.cores } = s ∧
      ∀ y, s'.mem.byte y = if a ≤ y ∧ y < a + w.bytes.length then (w.bytes[y - a]?).getD 0 else s.mem.byte y) ∧
    (isHome d w.key = false →
      (∀ x, D.sector? w.key i = some x → x.bytes.length = 32 → Enters fun j => (x.bytes[j]?).getD 0) ∧
      (D.sector? w.key i = none → D.room w.key = true → w.bytes.length = 32 → Enters fun _ => 0) ∧
      (D.sector? w.key i = none → D.room w.key = true → w.bytes.length ≠ 32 → w.key.dev = none →
        Enters fun j => s.mem.byte (w.key.line * 128 + 32 * i + j)) ∧
      (D.sector? w.key i = none → D.room w.key = true → w.bytes.length ≠ 32 → w.key.dev ≠ none →
        ∃ s', exec (.writeQueueDrain core) s = .next s' ∧ { s' with fabric := s.fabric } = s) ∧
      (D.sector? w.key i = none → D.room w.key = false → exec (.writeQueueDrain core) s = .next s))) ∧
  (∀ (s : State) core, (s.coreAt core).wq = [] →
    exec (.writeQueueDrain core) s = .next s.settleRemaps.closeAll ∧ (Calm s → s.settleRemaps.closeAll = s)) ∧
  (∀ (s : State) die key sector (x : Sector), (s.dieAt die).sector? key sector = some x →
    ((s.dieAt die).l2.map (·.key)).Nodup → (∀ l ∈ (s.dieAt die).l2, l.sectors ≠ [] ∧ (l.sectors.map (·.1)).Nodup) →
    s.errors = [] → die < s.dies.length → Calm s →
    ∃ s', exec (.l2DropClean die key sector) s = .next s' ∧ { s' with dies := s.dies } = s ∧
      (s'.dieAt die).sector? key sector = (if x.dirty then some x else none) ∧
      (∀ d k i, (d, k, i) ≠ (die, key, sector) → (s'.dieAt d).sector? k i = (s.dieAt d).sector? k i) ∧
      (∀ k, k ≠ key ∨ x.dirty = true ∨ (∃ i, i ≠ sector ∧ ((s.dieAt die).sector? key i).isSome = true) →
        colours (s'.dieAt die) k = colours (s.dieAt die) k) ∧
      ∀ d, d ≠ die → s'.dieAt d = s.dieAt d) ∧
  ∀ (s : State) die key sector (x : Sector), (s.dieAt die).sector? key sector = some x → s.errors = [] → s.mem.wf →
    die < s.dies.length → Calm s →
    let a := key.line * 128 + 32 * sector
    (x.dirty = false → exec (.l2WriteBack die key sector) s = .next s) ∧
    (x.dirty = true → ∃ s', exec (.l2WriteBack die key sector) s = .next s' ∧
      (s'.dieAt die).sector? key sector = some { x with dirty := false, writer := none, wrote := [] } ∧
      (∀ d k i, (d, k, i) ≠ (die, key, sector) → (s'.dieAt d).sector? k i = (s.dieAt d).sector? k i) ∧
      (∀ d k, colours (s'.dieAt d) k = colours (s.dieAt d) k) ∧
      (key.dev = none → { s' with mem := s.mem, dies := s.dies } = s ∧
        ∀ y, s'.mem.byte y = if a ≤ y ∧ y < a + x.bytes.length then (x.bytes[y - a]?).getD 0 else s.mem.byte y) ∧
      ∀ peer, key.dev = some peer → { s' with dies := s.dies, fabric := s.fabric } = s ∧
        ∃ o ∈ s'.fabric.out, o.id = s.fabric.nextId ∧ o.pkt.kind = 2 ∧ o.pkt.target = peer ∧ o.pkt.addr = a ∧
          o.pkt.body = .write ((List.range 32).zip x.bytes) (x.wrote.map fun y => (y.1, y.2.setWidth 128)))

/-! ### The fabric -/

/-- Requests, answers and contributions (R309, R356-R358, R361-R367, R370): a request on a dead plane or with a number
accepted before changes nothing; the next of a path on which nothing waits is accepted, performed at its home and
answered, a call going to its caldera if that has room and waiting otherwise; an answer ends its request, a fill
putting the sector into its die's L2, if that has room and no acquire or home operation came first; a contribution
whose elements are all performed and whose pieces are all accepted ends DONE, and a piece joins its block at its
switch, which delivers the sum when the last has come; a delivered sum or piece lands with its count, each byte at the
place of its offset in the area. It rests on the model's choices in logs 2, 50, 54, 57, 63, 65, 66, 76, 77, 145, 146,
147, 173, 174 and 187. -/
def Obligations.FabricTraffic : Prop :=
  (∀ (s : State) (p : Packet), (packetAsks p = false ∨ p.target ≠ s.devno ∨ s.fabric.dead.getLsbD p.plane = true ∨
      let r := s.fabric.recv p.source p.plane
      let i := (p.pseq - r.mark - 1).toNat
      256 ≤ i ∨ r.window.getLsbD i = true) →
    exec (.fabricRequest p) s = .next s) ∧
  (∀ (s : State) (p : Packet), packetAsks p = true → p.target = s.devno → s.fabric.dead.getLsbD p.plane = false →
    p.pseq = (s.fabric.recv p.source p.plane).mark + 1 → (s.fabric.recv p.source p.plane).window.getLsbD 0 = false →
    (s.fabric.recv p.source p.plane).todo = [] → s.peerCalls p.source p.plane = [] → s.errors = [] → s.mem.wf →
    ∃ s', exec (.fabricRequest p) s = .next s' ∧
      (s'.fabric.recv p.source p.plane).todo = (if s.callFits p then [] else [p]) ∧
      (s'.fabric.recv p.source p.plane).accept p.pseq = none ∧
      (s.callFits p = false → { s' with fabric := s.fabric } = s ∧ s'.fabric.sentReplies = s.fabric.sentReplies) ∧
      let Answered (kind : Nat) (body : PacketBody) : Prop :=
        ∃ a : Packet, s'.fabric.sentReplies = s.fabric.sentReplies ++ [a] ∧ a.kind = kind ∧ a.source = s.devno ∧
          a.target = p.source ∧ a.plane = p.plane ∧ a.pseq = p.pseq ∧ a.body = body
      (∀ n, p.body = .read n → { s' with fabric := s.fabric } = s ∧ Answered 8 (.data (s.mem.read p.addr n))) ∧
      (∀ bs ws, p.body = .write bs ws → { s' with fabric := s.fabric, mem := s.mem } = s ∧ Answered 9 .ack ∧
        ∀ y, s'.mem.byte y = latest (bs.map fun b => (p.addr + b.1, b.2)) y (s.mem.byte y)) ∧
      (∀ n, p.body = .zero n → { s' with fabric := s.fabric, mem := s.mem, dies := s.dies } = s ∧ Answered 9 .ack ∧
        ∀ y, s'.mem.byte y = if p.addr ≤ y ∧ y < p.addr + n then 0 else s.mem.byte y) ∧
      ∀ ls b, p.body = .call ls b → s.entriesRoom ⟨none, p.addr / 128⟩ ls.length →
        { s' with fabric := s.fabric, transit := s.transit } = s ∧
        s'.transit = s.transit ++ [peerRequest p ls b] ∧ s'.fabric.sentReplies = s.fabric.sentReplies) ∧
  (∀ (s : State) (p : Packet), (p.kind ≠ 8 ∧ p.kind ≠ 9 ∨ s.fabric.dead.getLsbD p.plane = true ∧ p.retrans = false ∨
      p.target ≠ s.devno ∨ s.fabric.answered p = none) → exec (.fabricReply p) s = .next s) ∧
  (∀ (s : State) (p : Packet) (o : OutPkt), p.kind = 8 ∨ p.kind = 9 → p.target = s.devno →
    s.fabric.dead.getLsbD p.plane = false → s.fabric.answered p = some o → s.NoneWaits →
    (∀ n ls, o.why = .back n ∨ o.why = .stale ls → ∃ s', exec (.fabricReply p) s = .next s' ∧ s'.fabric.out = s.fabric.out.filter (fun x => x.id != o.id) ∧
      { s' with fabric := s.fabric, service := s.service } = s) ∧
    ∀ d k i colours ls bs, o.why = .fill d k i colours ls → p.body = .data bs → d < s.dies.length →
      ∃ s', exec (.fabricReply p) s = .next s' ∧ s'.fabric.out = s.fabric.out.filter (fun x => x.id != o.id) ∧
        ((s.dieAt d).room k = false → { s' with fabric := s.fabric, service := s.service } = s) ∧
        ((s.dieAt d).room k = true →
          (s'.dieAt d).sector? k i = some (((s.dieAt d).sector? k i).getD ⟨bs, false, none, []⟩) ∧
          (∃ l ∈ (s'.dieAt d).l2, l.key = k ∧ l.colours &&& colours = colours) ∧
          (∀ d' k' i', (d', k', i') ≠ (d, k, i) → (s'.dieAt d').sector? k' i' = (s.dieAt d').sector? k' i') ∧
          { s' with fabric := s.fabric, service := s.service, dies := s.dies, tree := s.tree } = s ∧
          s'.tree = if ((s.dieAt d).sector? k i).isSome then s.tree
            else (s.tallyOf (ls.headD (0, 0)).1 (ls.headD (0, 0)).2 22 1).tree)) ∧
  (∀ (s : State) plane k (q : Piece) (o : OutPkt) key seq p (T : Team) (L : Launch) (c : Cmd) (d : CopyDesc),
    s.fabric.out.find? (fun o => o.id == k && o.pkt.plane == plane && o.offered.isSome) = some o →
    o.offered = some (key, seq, p) → s.cmdBySeq key seq = some c → Lone s key c.tag T L c → c.st = .running →
    c.body = .copy d →
    ∃ (s' : State) (T' : Team), exec (.contribPieceAccepted plane k q) s = .next s' ∧ s'.team? key = some T' ∧
      s'.fabric.out = s.fabric.out.map (fun y => if y.id = k then { y with why := .piece key seq true } else y) ∧
      s'.mem = s.mem ∧ OtherTeams s s' key ∧ (∀ u, u ≠ c.tag → T'.cmd? u = T.cmd? u) ∧
      if d.count ≤ c.n ∧ ∀ y ∈ s.fabric.out, y.why = .piece key seq false → y.id = k then EndedDone T' c.tag c.foe c.flags
      else T'.cmd? c.tag = some c) ∧
  (∀ (s : State) plane k (p : Piece) (x : PlaneSwitch) (e : CombEntry) (b : CombBlock),
    s.fabric.out.find? (fun o => o.id == k && o.pkt.plane == plane && o.offered.isSome) = none →
    s.fabric.switches[plane]? = some x → plane < 8 → aget? x.loose p.tag = none →
    x.entries.find? (fun y => y.tag == p.tag) = some e → e.fits p = true → b ∈ e.blocks → b.block = p.block →
    (∀ y ∈ e.blocks, y.block = p.block → y = b) → (e.blocks.filter fun y => y.block == p.block).length = 1 →
    (∀ y ∈ e.blocks, y.count < e.expect) →
    ∃ (s' : State) (x' : PlaneSwitch), exec (.contribPieceAccepted plane k p) s = .next s' ∧
      s'.fabric.switches[plane]? = some x' ∧ { s' with fabric := s.fabric } = s ∧
      let sum := List.zipWith (combineWord e.cmeth) b.sum (pieceWords p)
      if b.count + 1 < e.expect then
        s'.fabric.deliveries = s.fabric.deliveries ∧ ∃ e' ∈ x'.entries, e'.tag = p.tag ∧
          ∃ b' ∈ e'.blocks, b'.block = p.block ∧ b'.sum = sum ∧ b'.count = b.count + 1
      else
        s'.fabric.deliveries = s.fabric.deliveries ++ (if p.target = s.devno then
          [(plane, ⟨e.tag, e.target, e.pages, e.nb, e.cmeth, e.dfmt, e.expect, p.block, b.first,
            sumBytes e.cmeth e.dfmt sum, e.expect, true⟩)] else []) ∧
        ∀ e' ∈ x'.entries, e'.tag = p.tag → ∀ b' ∈ e'.blocks, b'.block ≠ p.block) ∧
  ∀ (s : State) (p : Piece), (p.target ≠ s.devno → exec (.contributionDelivery p) s = .next s) ∧
    (p.target = s.devno → s.errors = [] → s.mem.wf → s.NoneWaits →
      let na := landingOff p.nb
      let place (off : Nat) : Nat := areaDpa p.pages (off % 2 ^ 56)
      let word := areaDpa p.pages na
      let n := s.mem.readNat (word + 4) 4
      let slot := na + 128 + n * (na + 128)
      let first := if p.full then p.first else slot + 128 + p.first
      let counts := if p.full then 4 else 8
      let written (off : Nat) : Prop := na ≤ off ∧ off < na + counts ∨ first ≤ off ∧ off < first + p.data.length ∨
        p.full = false ∧ slot ≤ off ∧ off < slot + 8
      (∀ j, j < 8 → place (na + j) = word + j) → (∀ a b, written a → written b → place a = place b → a = b) →
      (p.full = true → p.first + p.data.length ≤ na ∨ na + 4 ≤ p.first) →
      ∃ s', exec (.contributionDelivery p) s = .next s' ∧
        { s' with mem := s.mem, fabric := s.fabric, rewritten := s.rewritten } = s ∧
        s'.fabric.deliveries = s.fabric.deliveries.eraseP (fun x => x.2 == p) ∧
        s'.mem.readNat word 4 = (s.mem.readNat word 4 + p.count) % 2 ^ 32 ∧
        (∀ i x, p.data[i]? = some x → s'.mem.byte (place (first + i)) = x) ∧
        (p.full = false → s'.mem.readNat (word + 4) 4 = (n + 1) % 2 ^ 32 ∧
          ∀ i, i < 4 → s'.mem.byte (place (slot + i)) = ((leBytes 4 (2 ^ p.block))[i]?).getD 0 ∧
            s'.mem.byte (place (slot + 4 + i)) = ((leBytes 4 p.count)[i]?).getD 0) ∧
        ∀ y, (∀ off, written off → place off ≠ y) → s'.mem.byte y = s.mem.byte y)

/-- Links (R349-R352, R387): the expected good flit is taken and acknowledged and its credits are returned, any other is
not taken, and NAK names the number expected; an acknowledgement empties the replay buffer up to its flit; a NAK sends
again from its flit on, the 16th in a row taking the link down; the first lane failure retrains the link and is told
to the host, the second takes it down; a retrained link replays. Flits wait for credits and for room in the replay
buffer, and no flit passes another of its channel. A link that goes down leaves the others up, and every flit it held
goes, in order and before any later one, to the link of the same plane that takes its route; with its plane's last
link, or its switch, the plane is dead. It rests on the model's choices in logs 2, 40, 58, 59, 79, 80, 81, 82 and 121.
-/
def Obligations.Links : Prop :=
  let sameOrder (l l' : Link) (more : List WaitFlit) : Prop := ∀ vc,
    l'.unsent.filter (fun w => w.vc == vc) = l.unsent.filter (fun w => w.vc == vc) ++ more.filter fun w => w.vc == vc
  let within (l : Link) : Prop := l.replay.length ≤ Config.replayFlits ∧
    ∀ c, c < 3 → (l.used[c]?).getD 0 ≤ Config.linkCredits c
  (∀ (s : State) plane link (f : Flit), let i := 4 * (plane % 8) + link % 4
    i < s.fabric.links.length → (s.fabric.link i).up = true → (s.fabric.link i).training = false →
    s.fabric.dead.getLsbD (plane % 8) = false →
    let l := s.fabric.link i
    ∃ s', exec (.flitReceive plane link f) s = .next s' ∧ { s' with fabric := s.fabric } = s ∧
      { s'.fabric with links := s.fabric.links } = s.fabric ∧ (∀ j, j ≠ i → s'.fabric.link j = s.fabric.link j) ∧
      (within l → within (s'.fabric.link i)) ∧ sameOrder l (s'.fabric.link i) [] ∧
      (f.crc = crc32 (flitBody f) ∧ f.lseq = l.expect →
        let used := l.used.modify (f.credit.toNat / 64) (· - f.credit.toNat % 64)
        let l' : Link :=
          if f.kind = 1 ∨ f.kind = 2 then { l with
            expect := l.expect + 1, skip := false, used := used
            rx := l.rx.modify f.vc.toNat fun bs => if f.kind = 1 then f.payload else bs ++ f.payload
            ctl := l.ctl ++ [mkFlit 3 2 l.next (BitVec.ofNat 8 (64 * f.vc.toNat + 1)) (Config.linkControl true f.lseq)] }
          else { l with skip := false, used := used }
        (l.waiting = [] → s'.fabric.link i = l') ∧
        { s'.fabric.link i with next := l'.next, used := l'.used, replay := l'.replay, waiting := l'.waiting } = l' ∧
        ∃ more, (s'.fabric.link i).replay = l.replay ++ more) ∧
      (f.crc ≠ crc32 (flitBody f) ∨ f.lseq ≠ l.expect ∧ l.skip = false →
        s'.fabric.link i = { l with
          skip := true, ctl := l.ctl ++ [mkFlit 3 2 l.next 0 (Config.linkControl false l.expect)] }) ∧
      (f.crc = crc32 (flitBody f) ∧ f.lseq ≠ l.expect ∧ l.skip = true → s' = s)) ∧
  (∀ (s : State) plane link lseq, let i := 4 * (plane % 8) + link % 4
    i < s.fabric.links.length →
    let l := s.fabric.link i
    (∀ a f b, l.replay = a ++ f :: b → f.2.lseq = lseq → (∀ x ∈ a, x.2.lseq ≠ lseq) →
      ∃ s', exec (.linkAck plane link lseq) s = .next s' ∧ (within l → within (s'.fabric.link i)) ∧
        sameOrder { l with replay := b } (s'.fabric.link i) [] ∧
        (∃ more, (s'.fabric.link i).replay = b ++ more ∧ (l.waiting = [] → more = [])) ∧
        (l.waiting = [] → s'.fabric.link i = { l with replay := b, nak := none }) ∧
        (∀ j, j ≠ i → s'.fabric.link j = s.fabric.link j) ∧
        { s'.fabric with links := s.fabric.links } = s.fabric ∧ { s' with fabric := s.fabric } = s) ∧
    (∀ a f b, l.replay = a ++ f :: b → f.2.lseq = lseq → (∀ x ∈ a, x.2.lseq ≠ lseq) →
      (∀ k, l.nak = some (lseq, k) → k < 15) →
      ∃ s', exec (.linkNak plane link lseq) s = .next s' ∧
        s'.fabric.link i = { l with
          resent := l.resent ++ f.2 :: b.map (·.2)
          nak := some (lseq, match l.nak with
            | some (m, k) => if m = lseq then k + 1 else 1
            | none => 1) } ∧
        (∀ j, j ≠ i → s'.fabric.link j = s.fabric.link j) ∧
        { s'.fabric with links := s.fabric.links } = s.fabric ∧ { s' with fabric := s.fabric } = s) ∧
    (∃ s', exec (.linkRetrained plane link) s = .next s' ∧ (within l → within (s'.fabric.link i)) ∧
      sameOrder l (s'.fabric.link i) [] ∧ (l.training = false → s' = s) ∧
      (l.training = true → (s'.fabric.link i).training = false ∧
        (s'.fabric.link i).resent = l.resent ++ l.replay.map (·.2) ∧
        (∃ more, (s'.fabric.link i).replay = l.replay ++ more) ∧
        (l.waiting = [] → s'.fabric.link i = { l with training := false, resent := l.resent ++ l.replay.map (·.2) })) ∧
      (∀ j, j ≠ i → s'.fabric.link j = s.fabric.link j) ∧
      { s'.fabric with links := s.fabric.links } = s.fabric ∧ { s' with fabric := s.fabric } = s)) ∧
  (∀ (s : State) plane link lane, let i := 4 * (plane % 8) + link % 4
    i < s.fabric.links.length → (s.fabric.link i).up = true → (s.fabric.link i).failed = 0 →
    ∃ s', exec (.laneFailure plane link lane) s = .next s' ∧
      s'.fabric.link i = { s.fabric.link i with failed := 1, training := true } ∧
      (∀ j, j ≠ i → s'.fabric.link j = s.fabric.link j) ∧ { s'.fabric with links := s.fabric.links } = s.fabric ∧
      s'.events = s.events ++ [⟨5, 0xFFFFFFFF, 0xFFFFFFFF, leBytes 1 4 ++ leBytes 1 (plane % 8 / 4) ++ leBytes 2 (i % 16)⟩] ∧
      { s' with fabric := s.fabric, events := s.events, ports := s.ports, service := s.service } = s ∧ ServiceKept s s') ∧
  (∀ (s : State) plane link lane lseq, let i := 4 * (plane % 8) + link % 4
    32 ≤ s.fabric.links.length → (s.fabric.link i).up = true →
    ∀ e, (e = .laneFailure plane link lane ∧ (s.fabric.link i).failed ≠ 0 ∨
      e = .linkNak plane link lseq ∧ ∃ k, (s.fabric.link i).nak = some (lseq, k) ∧ 15 ≤ k) →
    ∃ s', exec e s = .next s' ∧
      (s'.fabric.link i).up = false ∧ (∀ j, j ≠ i → (s'.fabric.link j).up = (s.fabric.link j).up) ∧
      ((∀ j, j < 4 → 4 * (plane % 8) + j ≠ i → (s.fabric.link (4 * (plane % 8) + j)).up = false) →
        s'.fabric.dead.getLsbD (plane % 8) = true) ∧
      ((∃ j, j < 4 ∧ 4 * (plane % 8) + j ≠ i ∧ (s.fabric.link (4 * (plane % 8) + j)).up = true) →
        { s' with fabric := s.fabric } = s ∧ { s'.fabric with links := s.fabric.links } = s.fabric ∧
        (∀ w ∈ (s.fabric.link i).unsent, ∃ j, j < 4 ∧ 4 * (plane % 8) + j ≠ i ∧
          s'.fabric.route (plane % 8) w.target = some (4 * (plane % 8) + j) ∧
          (s'.fabric.link (4 * (plane % 8) + j)).up = true) ∧
        (s'.fabric.link i).unsent = [] ∧ (∀ j, j / 4 ≠ plane % 8 → s'.fabric.link j = s.fabric.link j) ∧
        ∀ j, j ≠ i → sameOrder (s.fabric.link j) (s'.fabric.link j)
          ((s.fabric.link i).unsent.filter fun w => s'.fabric.route (plane % 8) w.target == some j))) ∧
  ∀ (s : State) plane, 32 ≤ s.fabric.links.length →
    ∃ s', exec (.switchPlaneFailed plane) s = .next s' ∧ s'.fabric.dead.getLsbD (plane % 8) = true ∧
      (∀ j, j < 4 → (s'.fabric.link (4 * (plane % 8) + j)).up = false) ∧
      (∀ j, j / 4 ≠ plane % 8 → (s'.fabric.link j).up = (s.fabric.link j).up) ∧ s'.teams = s.teams ∧ s'.mem = s.mem ∧
      (s.fabric.dead.getLsbD (plane % 8) = true → s'.fabric.dead = s.fabric.dead ∧ s'.fabric.calved = s.fabric.calved ∧
        ∀ j, j / 4 ≠ plane % 8 → s'.fabric.link j = s.fabric.link j) ∧
      (s.fabric.dead.getLsbD (plane % 8) = false → s'.fabric.phase = .suspend ∧
        s'.fabric.dead = s.fabric.dead ||| BitVec.ofNat 8 (2 ^ (plane % 8)) ∧ s'.fabric.begun = s.fabric.begun + 1 ∧
        ∀ d ∈ s.others, ∀ p, p < 8 → s'.fabric.dead.getLsbD p = false →
          (1, [d, p, s.fabric.begun + 1, s'.fabric.dead.toNat, s.fabric.gen]) ∈ s'.fabric.control)

/-- Calving (R368-R373, R398): CALVE of a later generation, or with further planes or a larger base of the last one, is
begun: SUSPEND, its planes dead and nothing left at their switches, its base map kept, the reports of its generation
kept, the host told; an older one changes nothing. With closed ports a device in SUSPEND that has a plane left reports
to every other device on every dead plane, and a request accepted there is performed and answered, though one before
it on its path was lost. A report is kept once, also before its generation is begun; after the last one every request
that no report names is sent again on its plane under the generation's map, as far as its path admits it, and so are
this device's own contributions on a dead plane; when all are sent the generation is current and DONE goes to every
device; the last DONE ends calving; and a missing device is told to the host while calving waits, until the host
removes it. It rests on the model's choices in logs 2, 40, 77, 78, 120, 121, 148, 149 and 150. -/
def Obligations.Calving : Prop :=
  (∀ (s : State) gen mask base,
    (s.fabric.begun < gen → ∃ s', exec (.calve gen mask base) s = .next s' ∧
      s'.fabric.calved = ⟨gen, mask, base, s.fabric.mapOf base⟩ :: s.fabric.calved.filter (fun c => c.gen != gen) ∧
      s'.fabric.dead = s.fabric.dead ||| mask ∧ s'.fabric.phase = .suspend ∧
      s'.fabric.reports = s.fabric.reports.filter (fun r => decide (gen ≤ r.gen)) ∧
      (∀ p x, s.fabric.switches[p]? = some x → s'.fabric.switches[p]? = some (if mask.getLsbD p then ⟨[], []⟩ else x)) ∧
      (∀ x, x ∈ s'.fabric.deliveries ↔ x ∈ s.fabric.deliveries ∧ mask.getLsbD x.1 = false) ∧
      { s'.fabric with
        calved := s.fabric.calved, dead := s.fabric.dead, phase := s.fabric.phase, reports := s.fabric.reports
        switches := s.fabric.switches, deliveries := s.fabric.deliveries, map := s.fabric.map } = s.fabric ∧
      s'.fabric.map = (if s.fabric.phase = .retransmit then s.fabric.mapOf s.fabric.gen else s.fabric.map) ∧
      s'.events = s.events ++ [⟨6, 0xFFFFFFFF, 0xFFFFFFFF,
        leBytes 4 gen ++ leBytes 1 (s.fabric.dead ||| mask).toNat ++ leBytes 1 base⟩] ∧
      { s' with fabric := s.fabric, events := s.events, ports := s.ports, service := s.service } = s ∧ ServiceKept s s') ∧
    (∀ c, s.fabric.calved.head? = some c → gen = c.gen → c.base < base ∨ mask &&& ~~~c.mask ≠ 0 →
      ∃ s', exec (.calve gen mask base) s = .next s' ∧
        s'.fabric.calved.head? = some ⟨gen, c.mask ||| mask, max c.base base, s.fabric.mapOf (max c.base base)⟩ ∧
        s'.fabric.dead = s.fabric.dead ||| (c.mask ||| mask) ∧ s'.fabric.phase = .suspend ∧
        ∀ r ∈ s.fabric.reports, r.gen = gen → r ∈ s'.fabric.reports) ∧
    (gen < s.fabric.begun → exec (.calve gen mask base) s = .next s)) ∧
  (∀ (s : State) gen c, s.fabric.calved.find? (fun c => c.gen == gen) = some c →
    (s.fabric.mapOf gen).length = c.baseMap.length ∧
    ∀ (n p : Nat), c.baseMap[n]? = some p →
      let live := (List.range 8).filter fun q => !c.mask.getLsbD q
      let moved := ((c.baseMap.take n).filter fun q => c.mask.getLsbD q).length
      (s.fabric.mapOf gen)[n]? = some (if c.mask.getLsbD p then (live[(gen + moved) % live.length]?).getD p else p)) ∧
  let NoneHeld (s : State) : Prop := ∀ r ∈ s.fabric.recvs, s.fabric.dead.getLsbD r.plane = true → r.todo = []
  (∀ (s : State), (s.fabric.phase ≠ .suspend ∨ s.fabric.dead = 0xFF ∧ NoneHeld s →
      exec .calvingPortsClosed s = .next s) ∧
    (s.fabric.phase = .suspend → s.fabric.dead ≠ 0xFF → NoneHeld s → s.allReported = false → s.service.samples = [] →
      s.service.remaps = [] → s.service.hostOps = [] → (∀ L ∈ s.launches, L.closing = none) →
      ∃ s', exec .calvingPortsClosed s = .next s' ∧ s'.fabric.phase = .report ∧ { s' with fabric := s.fabric } = s ∧
        s'.fabric.map = s.fabric.map ∧ s'.fabric.out = s.fabric.out ∧
        ∀ d ∈ s.others, ∀ p, p < 8 → s.fabric.deadNow.getLsbD p = true →
          (∀ q, q < 8 → s.fabric.dead.getLsbD q = false →
            (2, [d, q, s.fabric.begun, p, (s.fabric.recv d p).mark.toNat, (s.fabric.recv d p).window.toNat]) ∈
              s'.fabric.control) ∧
          ∀ a ∈ (s.fabric.recv d p).kept, { a with retrans := true } ∈ s'.fabric.sentReplies)) ∧
  (∀ (s : State) (r : RecvPath) (p : Packet) bs, s.fabric.phase = .suspend → s.fabric.dead ≠ 0xFF →
    s.allReported = false → s.service.samples = [] → s.service.remaps = [] → s.service.hostOps = [] →
    (∀ L ∈ s.launches, L.closing = none) → s.fabric.recvs = [r] → s.fabric.dead.getLsbD r.plane = true → r.todo = [p] →
    p.source = r.source → p.plane = r.plane → p.body = .write bs [] → s.peerCalls r.source r.plane = [] →
    s.errors = [] → s.mem.wf →
    ∃ s', exec .calvingPortsClosed s = .next s' ∧ s'.fabric.phase = .report ∧
      { s' with fabric := s.fabric, mem := s.mem } = s ∧ (s'.fabric.recv r.source r.plane).todo = [] ∧
      (∃ a ∈ s'.fabric.sentReplies, a ∈ (s'.fabric.recv r.source r.plane).kept ∧ a.kind = 9 ∧ a.pseq = p.pseq ∧
        a.target = p.source ∧ a.retrans = true ∧ a.body = .ack) ∧
      ∀ y, s'.mem.byte y = latest (bs.map fun b => (p.addr + b.1, b.2)) y (s.mem.byte y)) ∧
  (∀ (s : State) gen src plane mark window,
    (gen < s.fabric.begun ∨ (∃ r ∈ s.fabric.reports, r.gen = gen ∧ r.src = src ∧ r.plane = plane) →
      exec (.calvingReport gen src plane mark window) s = .next s) ∧
    (s.fabric.begun ≤ gen → (∀ r ∈ s.fabric.reports, ¬(r.gen = gen ∧ r.src = src ∧ r.plane = plane)) →
      let f := { s.fabric with reports := s.fabric.reports ++ [⟨gen, src, plane, mark, window⟩] }
      (s.fabric.phase ≠ .report ∨ State.allReported { s with fabric := f } = false → s.NoneWaits →
        exec (.calvingReport gen src plane mark window) s = .next { s with fabric := f }) ∧
      (s.fabric.phase = .report → State.allReported { s with fabric := f } = true → s.allDone = false →
        (s.fabric.out.map (·.id)).Nodup → s.service.samples = [] → s.service.remaps = [] → s.service.hostOps = [] →
        (∀ L ∈ s.launches, L.closing = none) →
        ∃ s', exec (.calvingReport gen src plane mark window) s = .next s' ∧
          (s'.fabric.phase = .retransmit ∧ s'.fabric.gen = s.fabric.gen ∨
           s'.fabric.phase = .install ∧ s'.fabric.gen = s.fabric.begun ∧ ∀ d ∈ s.others, ∀ p, p < 8 →
            s.fabric.dead.getLsbD p = false → (3, [d, p, s.fabric.begun]) ∈ s'.fabric.control) ∧
          ((∀ o ∈ s.fabric.out, o.pkt.relaxed = false) → s'.fabric.phase = .install) ∧
          s'.fabric.map = s.fabric.mapOf s.fabric.begun ∧ { s' with fabric := s.fabric } = s ∧
          ∀ o ∈ s.fabric.out,
            if o.sent = true ∧ ((∃ r ∈ f.current, r.src = o.pkt.target ∧ r.plane = o.pkt.plane ∧
                r.accepted o.pkt.pseq = false) ∨
                o.pkt.target = s.devno ∧ o.pkt.plane < 8 ∧ s.fabric.deadNow.getLsbD o.pkt.plane = true) then
              ∃ y ∈ s'.fabric.out, y.id = o.id ∧ y.why = o.why.again ∧ y.pkt.retrans = true ∧ y.pkt.body = o.pkt.body ∧
                (y.sent = true → y.pkt.plane = planeOf s'.fabric.map o.pkt.target o.pkt.addr)
            else o.sent = true ∨ o.pkt.retrans = false → o ∈ s'.fabric.out))) ∧
  (∀ (s : State) gen src,
    ((gen, src) ∈ s.fabric.dones → exec (.calvingDone gen src) s = .next s) ∧
    ((gen, src) ∉ s.fabric.dones →
      let s1 : State := { s with fabric := { s.fabric with dones := s.fabric.dones ++ [(gen, src)] } }
      (s.fabric.phase ≠ .install ∨ s1.allDone = false → s.NoneWaits → exec (.calvingDone gen src) s = .next s1) ∧
      (s.fabric.phase = .install → s1.allDone = true → s.service.samples = [] → s.service.remaps = [] →
        s.service.hostOps = [] → (∀ L ∈ s.launches, L.closing = none) →
        ∃ s', exec (.calvingDone gen src) s = .next s' ∧ s'.fabric.phase = .normal ∧
          s'.fabric.dones = s.fabric.dones ++ [(gen, src)] ∧ s'.fabric.map = s.fabric.map ∧
          ((∀ o ∈ s.fabric.out, o.pkt.relaxed = false) → ∀ o ∈ s'.fabric.out, o.sent = true) ∧
          { s' with fabric := s.fabric } = s))) ∧
  ∀ (s : State) dev,
    (dev ∉ s.fabric.missing → ∃ s', exec (.deviceMissing dev) s = .next s' ∧
      s'.events = s.events ++ [⟨7, 0xFFFFFFFF, 0xFFFFFFFF, leBytes 2 dev⟩] ∧
      s'.fabric = { s.fabric with missing := s.fabric.missing ++ [dev] } ∧
      { s' with fabric := s.fabric, events := s.events, ports := s.ports, service := s.service } = s ∧ ServiceKept s s') ∧
    (dev ∈ s.fabric.removed → dev ∈ s.fabric.missing → exec (.deviceMissing dev) s = .next s) ∧
    (dev ∈ s.fabric.missing → dev ∉ s.fabric.removed → s.teams = [] → s.NoneWaits →
      let f := { s.fabric with
        removed := s.fabric.removed ++ [dev], out := s.fabric.out.filter fun o => o.pkt.target != dev }
      State.allReported { s with fabric := f } = false ∨ s.fabric.phase ≠ .report →
      State.allDone { s with fabric := f } = false ∨ s.fabric.phase ≠ .install →
      exec (.deviceMissing dev) s = .next { s with fabric := f })

/-! ### The host -/

/-- The host transport (R353, R368, R374-R378, R380): a response is a numbered frame while the window is open; a frame of
another EtherType is counted and one that is too long is not taken, one with the number expected joins its message and
is acknowledged, the last completing it, any other is acknowledged again and discarded, and an acknowledgement frees
what it covers; the loader takes only what it answers; a timeout sends the unacknowledged frames again. An EVENT of a
stream goes out on the port that carries the stream's messages, and binds a stream that has none. HELLO restarts the
port's numbering as its frame arrives; QUERY is answered at once with the offer, and SELECT, in the order of its
stream, takes the features, the number and the dead planes, or refuses. It rests on the model's choices in logs 40,
96, 97, 98, 99, 100, 101, 177 and 178. -/
def Obligations.Transport : Prop :=
  (∀ (s : State) (q : Rq) code status body (p : Port), s.ports[q.port]? = some p → p.queue = [] → p.unacked.length < 64 →
    body.length ≤ 9142 →
    let f : Frame := ⟨0x88B5, leBytes 1 1 ++ leBytes 1 code ++ [0, 0] ++ leBytes 2 p.expect.toNat ++ leBytes 2 p.next.toNat ++
      leBytes 2 q.stream ++ leBytes 2 (8 + body.length) ++ [0, 0, 0, 0] ++
      (leBytes 4 q.seq.toNat ++ leBytes 4 status ++ body)⟩
    (s.respond q code status body).ports[q.port]? = some { p with
      next := p.next + 1, unacked := p.unacked ++ [(p.next, f)], wire := p.wire ++ [f] } ∧
    { s.respond q code status body with ports := s.ports } = s ∧
    ∀ n, n ≠ q.port → (s.respond q code status body).ports[n]? = s.ports[n]?) ∧
  (∀ (s : State) port (f : Frame), 9198 < f.bytes.length → exec (.transportFrameReceive port f) s = .next s) ∧
  (∀ (s : State) port (f : Frame) (p : Port), s.ports[port]? = some p → f.etherType ≠ 0x88B5 → f.bytes.length ≤ 9198 →
    ∃ s', exec (.transportFrameReceive port f) s = .next s' ∧
      s'.ports[port]? = some { p with foreign := p.foreign + 1 } ∧
      (∀ n, n ≠ port → s'.ports[n]? = s.ports[n]?) ∧ { s' with ports := s.ports } = s) ∧
  (∀ (s : State) port stream code more payload (seq ack : BitVec 16) (p : Port), s.ports[port]? = some p → 2 ≤ code →
    code < 256 → stream < 1024 → payload.length ≤ 9150 → p.unacked = [] →
    let f : Frame := mkFrame ⟨stream, code, more, payload⟩ seq ack
    let answer (n : BitVec 16) : Frame := mkFrame ⟨stream, 0, false, []⟩ p.next n
    let old := p.parts.find? fun x => x.stream == stream
    let part : PartMsg := match old with
      | some x => { x with payload := x.payload ++ payload }
      | none => ⟨stream, code, seq, payload⟩
    let rest := p.parts.filter fun x => x.stream != stream
    ∃ s', exec (.transportFrameReceive port f) s = .next s' ∧ (∀ n, n ≠ port → s'.ports[n]? = s.ports[n]?) ∧
      (seq ≠ p.expect → { s' with ports := s.ports } = s ∧
        s'.ports[port]? = some { p with wire := p.wire ++ [answer p.expect] }) ∧
      (seq = p.expect → more = true →
        { s' with ports := s.ports, service := s.service } = s ∧
        s'.service = { s.service with streamPorts := aset s.service.streamPorts stream port } ∧
        s'.ports[port]? = some { p with
          expect := p.expect + 1, parts := rest ++ [part], wire := p.wire ++ [answer (p.expect + 1)] }) ∧
      (seq = p.expect → more = false →
        { s' with ports := s.ports, inbox := s.inbox, service := s.service } = s ∧
        s'.service = { s.service with streamPorts := aset s.service.streamPorts stream port } ∧
        s'.ports[port]? = some { p with
          expect := p.expect + 1, parts := rest, wire := p.wire ++ [answer (p.expect + 1)] } ∧
        let q : Rq := ⟨port, stream, part.seq⟩
        s'.inbox = s.inbox ++
          if s.service.loader = true ∧ ¬(part.code = 9 ∧ leNat ((part.payload.drop 4).take 2) ≤ 1) then []
          else [match readMessage q part.code part.payload with
            | some i => .act i
            | none => .unread q part.code part.payload])) ∧
  (∀ (s : State) port stream more payload (seq ack : BitVec 16) (p : Port), s.ports[port]? = some p → stream < 1024 →
    payload.length ≤ 9150 →
    let e : Instr := .transportFrameReceive port (mkFrame ⟨stream, 1, more, payload⟩ seq ack)
    let q : Rq := ⟨port, stream, 0⟩
    let Waits (m : HostMsg) : Prop := ∃ s', exec e s = .next s' ∧ s'.inbox = s.inbox ++ [m] ∧
      s'.ports[port]? = some { p with expect := 1, next := 0, unacked := [], queue := [], parts := [] } ∧
      (∀ n, n ≠ port → s'.ports[n]? = s.ports[n]?) ∧
      s'.service = { s.service with streamPorts := aset s.service.streamPorts stream port } ∧
      { s' with ports := s.ports, inbox := s.inbox, service := s.service } = s
    (seq ≠ 0 ∨ more = true → ∃ s', exec e s = .next s' ∧
      s'.ports[port]? = some { p with wire := p.wire ++ [mkFrame ⟨stream, 0, false, []⟩ p.next p.expect] } ∧
      (∀ n, n ≠ port → s'.ports[n]? = s.ports[n]?) ∧ { s' with ports := s.ports } = s) ∧
    (seq = 0 → more = false →
      (∀ i, readHello q (leNat ((payload.drop 4).take 2)) payload = some i →
        ((∃ t, i = .helloQuery q t) ∨ (∀ m ∈ s.inbox, m.stream ≠ stream) ∧ stream ∉ s.busyStreams →
          exec e s = exec i (s.bindStream stream port)) ∧
        ((∀ t, i ≠ .helloQuery q t) → (∃ m ∈ s.inbox, m.stream = stream) ∨ stream ∈ s.busyStreams → Waits (.hello i))) ∧
      (readHello q (leNat ((payload.drop 4).take 2)) payload = none → Waits (.unread q 1 payload)))) ∧
  (∀ (s : State) port stream (seq ack : BitVec 16) (p : Port) n g us, s.ports[port]? = some p → stream < 1024 →
    p.queue = [] → p.unacked = (n, g) :: us → (ack - n).toNat ≤ p.unacked.length →
    ∃ s', exec (.transportFrameReceive port (mkFrame ⟨stream, 0, false, []⟩ seq ack)) s = .next s' ∧
      s'.ports[port]? = some { p with unacked := p.unacked.drop (ack - n).toNat } ∧
      (∀ m, m ≠ port → s'.ports[m]? = s.ports[m]?) ∧ { s' with ports := s.ports } = s) ∧
  (∀ (s : State) port (p : Port), s.ports[port]? = some p →
    ∃ s', exec (.hostRetransmitTimeout port) s = .next s' ∧
      s'.ports[port]? = some { p with wire := p.wire ++ p.unacked.map fun x => x.2 } ∧
      (∀ n, n ≠ port → s'.ports[n]? = s.ports[n]?) ∧ { s' with ports := s.ports } = s) ∧
  (∀ (s : State) code launch team body, let s' := s.emit code launch team body
    let stream := s.eventStream
    s'.events = s.events ++ [⟨code, launch, team, body⟩] ∧
    aget? s'.service.streamPorts stream = some (s.eventPort stream) ∧
    (∀ x, x ≠ stream → aget? s'.service.streamPorts x = aget? s.service.streamPorts x) ∧
    (∀ port, aget? s.service.streamPorts stream = some port → ∀ n, n ≠ port → s'.ports[n]? = s.ports[n]?) ∧
    { s' with events := s.events, ports := s.ports, service := s.service } = s ∧ ServiceKept s s') ∧
  ∀ (s : State) (q : Rq) timeout (p : Port), s.ports[q.port]? = some p →
    let p' : Port := { p with expect := 1, next := 0, unacked := [], queue := [], parts := [] }
    let body (x : State) : List Byte :=
      leBytes 32 0xFF ++ ((List.range 4).flatMap fun i => leBytes 4 (Config.freeField 7 i).toNat) ++
      leBytes 4 (Config.firmwareVersion x.service.image).toNat ++
      leBytes 2 (if x.service.numbered then x.devno else 0xFFFF) ++ leBytes 2 0
    (∃ s' s0, exec (.helloQuery q timeout) s = .next s' ∧
      (∀ n, n ≠ q.port → s0.ports[n]? = s.ports[n]?) ∧ { s0 with ports := s.ports } = s ∧
      if 1 ≤ timeout ∧ timeout ≤ 65535 then
        s0.ports[q.port]? = some { p' with timeout := timeout } ∧ Responds s0 s' q 1 0 (body s)
      else s0.ports[q.port]? = some p' ∧ Responds s0 s' q 1 2 []) ∧
    ∀ devno dead (sel : BitVec 256),
      (s.contexts = [] ∧ sel.toNat < 256 ∧ devno < 4096 ∧ 1 ≤ timeout ∧ timeout ≤ 65535 →
        ∃ s' s0, exec (.helloSelect q timeout devno dead sel) s = .next s' ∧ Responds s0 s' q 1 0 (body s0) ∧
          s0.features = sel ∧ s0.devno = devno ∧ s0.service.numbered = true ∧ s0.fabric.dead = s.fabric.dead ||| dead ∧
          { s0 with
            features := s.features, devno := s.devno, service := s.service, fabric := s.fabric, events := s.events,
            ports := s.ports } = s ∧
          if dead &&& ~~~s.fabric.dead = 0 then s0.fabric = s.fabric ∧ s0.ports[q.port]? = some { p' with timeout := timeout }
          else s0.fabric.phase = .suspend ∧ s0.fabric.begun = s.fabric.begun + 1) ∧
      ((s.contexts ≠ [] ∨ 256 ≤ sel.toNat ∨ 4096 ≤ devno ∨ timeout = 0 ∨ 65535 < timeout) → ∃ s' s0, exec (.helloSelect q timeout devno dead sel) s = .next s' ∧
        s0.ports[q.port]? = some p' ∧ { s0 with ports := s.ports } = s ∧ Responds s0 s' q 1 2 [])

/-- Contexts, host memory and mappings (R229, R231, R234, R236, R237, R293, R379, R382, R396, R397): each message checks
what it names, answers with the status of the first check that fails, and has no other effect then; otherwise a
context comes or goes, methods and peer sets are installed, bytes at their homes are written or read whole, monitors
are read or cleared, and mappings come, go or change their permissions, no TLB keeping an entry of the range; a page
mapped with zeroing reads zero, and no L2 of the package keeps a copy of its lines. A change of mappings waits in the
inbox while an earlier one of its context has entries still to write. A context whose destruction is under way is gone
for the host. It rests on the model's choices in logs 14, 84, 85, 95, 103, 104, 105, 106, 107, 108, 109, 110, 124,
160, 169, 175 and 176. -/
def Obligations.HostMemory : Prop :=
  (∀ (s : State) q ctx mask root ring j,
    (1 ≤ ctx ∧ ctx ≤ 255 ∧ s.context? ctx = none ∧ root % 2 ^ 20 = 0 ∧ dpaPopulated root = true ∧ ringOk ring j = true →
      let s0 : State := { s with contexts := s.contexts ++
        [⟨ctx, root, [], [], [], mask, if ring = 0 then none else some (ring, j)⟩] }
      (∀ T ∈ s.teams, T.image.any (imageMeets s0.mappedRanges) = false) →
        exec (.contextCreate q ctx mask root ring j) s = .next (s0.respond q 2 0 [])) ∧
    (ctx = 0 ∨ 255 < ctx ∨ s.context? ctx ≠ none ∨ root % 2 ^ 20 ≠ 0 ∨ dpaPopulated root = false ∨ ringOk ring j = false →
      exec (.contextCreate q ctx mask root ring j) s = .next (s.respond q 2 2 []))) ∧
  (∀ (s : State) q ctx,
    (s.hostContext? ctx = none → exec (.contextDestroy q ctx) s = .next (s.respond q 2 5 [])) ∧
    ∀ x, s.hostContext? ctx = some x →
      ((∃ L ∈ s.launches, L.ctx = ctx) → exec (.contextDestroy q ctx) s = .next (s.respond q 2 2 [])) ∧
      ((∀ L ∈ s.launches, L.ctx ≠ ctx) → s.Quiet → ∃ s' s0, exec (.contextDestroy q ctx) s = .next s' ∧
        Responds s0 s' q 2 0 [] ∧ s0.contexts = s.contexts.filter (fun y => y.num != ctx) ∧
        (∀ k ∈ s0.cores, ∀ e ∈ k.utlb, e.ctx ≠ ctx) ∧ (∀ d ∈ s0.dies, ∀ e ∈ d.tlb, e.ctx ≠ ctx) ∧
        (∀ y, ¬(x.root ≤ y ∧ y < x.root + 2 ^ 20) → s0.mem.byte y = s.mem.byte y) ∧
        { s0 with mem := s.mem, cores := s.cores, dies := s.dies, contexts := s.contexts, service := s.service } = s)) ∧
  (∀ (s : State) q ctx (table : List MethodEntry), table.length = 32 →
    (s.hostContext? ctx = none → exec (.contextMethods q ctx table) s = .next (s.respond q 2 5 [])) ∧
    ∀ x, s.hostContext? ctx = some x →
      (s.features.getLsbD 0 = false → exec (.contextMethods q ctx table) s = .next (s.respond q 2 3 [])) ∧
      (s.features.getLsbD 0 = true → ∀ i, s.badMethod ctx table = some i →
        exec (.contextMethods q ctx table) s = .next (s.respond q 2 2 (leBytes 1 i))) ∧
      (s.features.getLsbD 0 = true → s.badMethod ctx table = none → s.service.hostOps = [] → s.fabric.out = [] →
        let ps := (validMethods table).flatMap fun m => (s.methodPieces ctx m.2).getD []
        (∀ p ∈ ps, p.place.dev = none) →
        ∃ s' s0, exec (.contextMethods q ctx table) s = .next s' ∧ Responds s0 s' q 2 0 [] ∧
          s0.context? ctx = some { x with
            methods := table, code := cutCode (validMethods table) (ps.flatMap fun p => s.mem.read p.place.dpa p.len) } ∧
          (∀ n, n ≠ ctx → s0.context? n = s.context? n) ∧ { s0 with contexts := s.contexts, service := s.service } = s)) ∧
  (∀ (s : State) q ctx first (sets : List (List (BitVec 16))),
    (s.hostContext? ctx = none → exec (.contextPeers q ctx first sets) s = .next (s.respond q 2 5 [])) ∧
    ∀ x, s.hostContext? ctx = some x →
      let ok := 1 ≤ sets.length ∧ sets.length ≤ 64 ∧ first + sets.length ≤ 256 ∧
        ∀ l ∈ sets, l.length = 64 ∧ ∀ d ∈ l, d.toNat < 4096 ∨ d = 0xFFFF
      (¬ok → exec (.contextPeers q ctx first sets) s = .next (s.respond q 2 2 [])) ∧
      (ok → ∃ s' s0 x', exec (.contextPeers q ctx first sets) s = .next s' ∧ Responds s0 s' q 2 0 [] ∧
        s0.context? ctx = some x' ∧ { x' with peers := x.peers } = x ∧
        (∀ i, i < sets.length → aget? x'.peers (first + i) = sets[i]?) ∧
        (∀ n, n < first ∨ first + sets.length ≤ n → aget? x'.peers n = aget? x.peers n) ∧
        (∀ n, n ≠ ctx → s0.context? n = s.context? n) ∧ { s0 with contexts := s.contexts } = s)) ∧
  (∀ (s : State) q ctx (va : DWord) data,
    (ctx = 0 → exec (.memwrite q ctx va data) s = .next (s.respond q 3 2 [])) ∧
    (ctx ≠ 0 → s.hostContext? ctx = none → exec (.memwrite q ctx va data) s = .next (s.respond q 3 5 [])) ∧
    (ctx ≠ 0 → s.hostContext? ctx ≠ none →
      let r := s.homePieces ctx va.toNat data.length .write
      (r.2 ≠ none → exec (.memwrite q ctx va data) s = .next (s.respond q 3 6 [])) ∧
      (r.2 = none → (∀ p ∈ r.1, p.place.dev = none) → s.service.hostOps = [] → s.fabric.out = [] → s.errors = [] →
        s.mem.wf → ∃ s' s0, exec (.memwrite q ctx va data) s = .next s' ∧ Responds s0 s' q 3 0 [] ∧
          { s0 with mem := s.mem, service := s.service } = s ∧
          (∀ y, (∀ p ∈ r.1, ¬(p.place.dpa ≤ y ∧ y < p.place.dpa + p.len)) → s0.mem.byte y = s.mem.byte y) ∧
          (r.1.Pairwise (fun a b => a.place.dpa + a.len ≤ b.place.dpa ∨ b.place.dpa + b.len ≤ a.place.dpa) →
            ∀ p ∈ r.1, s0.mem.read p.place.dpa p.len = (data.drop p.off).take p.len)))) ∧
  (∀ (s : State) q ctx (va : DWord) len,
    (ctx = 0 ∨ s.hostContext? ctx ≠ none → 9000 < len → exec (.memread q ctx va len) s = .next (s.respond q 4 2 [])) ∧
    (ctx ≠ 0 → s.hostContext? ctx = none → exec (.memread q ctx va len) s = .next (s.respond q 4 5 [])) ∧
    (len ≤ 9000 → ctx ≠ 0 → s.hostContext? ctx ≠ none →
      let r := s.homePieces ctx va.toNat len .read
      (r.2 ≠ none → exec (.memread q ctx va len) s = .next (s.respond q 4 6 [])) ∧
      (r.2 = none → (∀ p ∈ r.1, p.place.dev = none) → s.service.hostOps = [] → s.fabric.out = [] →
        ∃ s' s0, exec (.memread q ctx va len) s = .next s' ∧ { s0 with service := s.service } = s ∧
          Responds s0 s' q 4 0 (r.1.flatMap fun p => s.mem.read p.place.dpa p.len))) ∧
    ∀ i m, s.service.monitors[i]? = some m → i < 66 → m.buckets.length = 16 →
      exec (.memread q 0 (BitVec.ofNat 64 (80 * i)) 80) s = .next (s.respond q 4 0
        (leBytes 8 m.count.toNat ++ leBytes 4 m.low.toNat ++ leBytes 4 m.high.toNat ++
          m.buckets.flatMap fun b => leBytes 4 b.toNat))) ∧
  (∀ (s : State) q, exec (.clearMonitors q) s = .next (State.respond { s with service := { s.service with
    monitors := List.replicate 66 ⟨0, 0xFFFFFFFF, 0, List.replicate 16 0⟩ } } q 3 0 [])) ∧
  (∀ (s : State) q ctx size (va leaf : DWord) x a, s.hostContext? ctx = some x → rangeOk size 1 va.toNat = true →
    leavesOk size 1 leaf.toNat = true → s.sizesOk x size 1 va.toNat = true → s.mappedPages x size 1 va.toNat = [] →
    s.service.remaps = [] → s.errors = [] → s.mem.wf → s.Whole → entryStripe leaf.toNat = 0 →
    (∀ T ∈ s.teams, T.image = none) →
    let base := entryAddr leaf.toNat
    let n := pageBytes size
    findEntry (s.mem.clear base n) 4 (pageLevel size) 0 x.root va.toNat = some a →
    ∃ s' s0, exec (.map q ctx true size 1 va leaf) s = .next s' ∧ Responds s0 s' q 5 0 [] ∧
      (∀ y, s0.mem.byte y = if a ≤ y ∧ y < a + 8 then ((leBytes 8 leaf.toNat)[y - a]?).getD 0
        else if base ≤ y ∧ y < base + n then 0 else s.mem.byte y) ∧
      (∀ d k j, (s0.dieAt d).sector? k j =
        if k.dev = none ∧ base < k.line * 128 + 128 ∧ k.line * 128 < base + n then none else (s.dieAt d).sector? k j) ∧
      { s0 with mem := s.mem, service := s.service, cores := s.cores, dies := s.dies } = s) ∧
  ∀ (s : State) q ctx size count (va leaf : DWord) zero i, i = .map q ctx zero size count va leaf ∨
      i = .unmap q ctx size count va ∨ i = .protect q ctx size count va leaf →
    (s.hostContext? ctx = none → exec i s = .next (s.respond q 5 5 [])) ∧
    ∀ x, s.hostContext? ctx = some x →
      let ok := rangeOk size count va.toNat = true ∧
        (i = .map q ctx zero size count va leaf → leavesOk size count leaf.toNat = true) ∧
        (i ≠ .unmap q ctx size count va → s.sizesOk x size count va.toNat = true) ∧
        (i ≠ .map q ctx zero size count va leaf → (s.mappedPages x size count va.toNat).length = count)
      (s.mapping ctx = true → exec i s = .next { s with inbox := .act i :: s.inbox }) ∧
      (¬ok → s.mapping ctx = false → exec i s = .next (s.respond q 5 2 [])) ∧
      (ok → s.Quiet → s.mem.wf → (∀ T ∈ s.teams, T.image = none) →
        (i = .map q ctx zero size count va leaf → zero = true → ∀ k, k < count →
          ∀ r ∈ leafRanges x s.devno (BitVec.ofNat 64 (leaf.toNat + k * pageBytes size)).toNat (pageBytes size),
            r.dev = none) →
        ∃ s' s0, exec i s = .next s' ∧ Responds s0 s' q 5 0 [] ∧
          { s0 with mem := s.mem, service := s.service, cores := s.cores, dies := s.dies } = s ∧
          (∀ e, (∃ k ∈ s0.cores, e ∈ k.utlb) ∨ (∃ d ∈ s0.dies, e ∈ d.tlb) →
            e.ctx ≠ ctx ∨ va.toNat + count * pageBytes size ≤ e.base ∨ e.base + e.size ≤ va.toNat) ∧
          (i = .map q ctx zero size count va leaf → zero = false → count = 1 → x.setOk leaf.toNat = true →
            dpaPopulated (entryAt x.root 0 va.toNat) = true →
            entryBit (s.mem.readNat (entryAt x.root 0 va.toNat) 8) 0 = false →
            x.root + 2 ^ 20 ≤ frameAddr s.service.nextFrame → frameAddr (s.service.nextFrame + 3) ≤ 0xF7FF000000 →
            walk s0 x va.toNat = .leaf va.toNat (pageBytes size) leaf) ∧
          ∀ a, count = 1 → findEntry s.mem 4 (pageLevel size) 0 x.root va.toNat = some a →
            let e := s.mem.readNat a 8
            (i = .unmap q ctx size count va → ∀ y, s0.mem.byte y = if a ≤ y ∧ y < a + 8 then 0 else s.mem.byte y) ∧
            (i = .protect q ctx size count va leaf → s0.mem.readNat a 8 = e / 64 * 64 + leaf.toNat / 4 % 16 * 4 + e % 4 ∧
              ∀ y, ¬(a ≤ y ∧ y < a + 8) → s0.mem.byte y = s.mem.byte y) ∧
            (i = .map q ctx zero size count va leaf → zero = false → entryBit e 0 = false →
              s0.mem.readNat a 8 = leaf.toNat ∧ ∀ y, ¬(a ≤ y ∧ y < a + 8) → s0.mem.byte y = s.mem.byte y))

/-- Launches, dumps and firmware (R36, R37, R40, R46, R327, R337, R345, R346, R379, R381, R384-R386, R392, R395): START
answers the status of the first test that fails, or accepts the launch under the next number; END completes one
without commands HALTED, with its exit records and tree reading, and abandons what it sent to peers when no plane is
left; RESUME lets a halted team go on, with the sections that the host replaced; DUMP writes its header; a new image
is staged, committed if its signature verifies, and attested while keys last, of which two levels of trees have 2^30.
It rests on the model's choices in logs 15, 19, 40, 100, 111, 112, 113, 114, 115, 121, 160 and 171. -/
def Obligations.Launches : Prop :=
  (∀ (s : State) q ctx record params, let r := readRecord record params
    (s.hostContext? ctx = none → exec (.launchStart q ctx record params) s = .next (s.respond q 6 5 (leBytes 4 0))) ∧
    ∀ x, s.hostContext? ctx = some x →
      let valid := recordReservedOk record && r.shapeOk && r.partsOk && r.profileOk && paramsOk record params r &&
        sampleRingOk x r
      (valid = false → exec (.launchStart q ctx record params) s = .next (s.respond q 6 2 (leBytes 4 0))) ∧
      (valid = true → s.deniesLaunch r = true →
        exec (.launchStart q ctx record params) s = .next (s.respond q 6 3 (leBytes 4 0))) ∧
      (valid = true → s.deniesLaunch r = false → fitsDevice r = false →
        exec (.launchStart q ctx record params) s = .next (s.respond q 6 4 (leBytes 4 0))) ∧
      (valid = true → s.deniesLaunch r = false → fitsDevice r = true →
        ∃ s' s0 n, exec (.launchStart q ctx record params) s = .next s' ∧ Responds s0 s' q 6 0 (leBytes 4 n) ∧
          s0.launches = s.launches ++ [⟨n, ctx, r, [], [Barrier.start, Barrier.start], 0, q.stream, s.service.nextOrder, 0,
            [], false, false, none⟩] ∧
          s0.service = { s.service with
            nextLaunch := if n < 0xFFFFFFFE then n + 1 else 1, nextOrder := s.service.nextOrder + 1 } ∧
          (s.launch? s.service.nextLaunch = none → n = s.service.nextLaunch) ∧
          (s.launch? s.service.nextLaunch ≠ none → s.launch? (nextNumber s.service.nextLaunch) = none →
            n = nextNumber s.service.nextLaunch) ∧
          { s0 with launches := s.launches, service := s.service } = s)) ∧
  (∀ (s : State) q launch,
    (s.launch? launch = none → exec (.launchEnd q launch) s = .next (s.respond q 6 2 [])) ∧
    ∀ L, s.launch? launch = some L →
      (L.ended = true → exec (.launchEnd q launch) s = .next (s.respond q 6 0 [])) ∧
      (L.ended = false → (∀ T ∈ s.teams, T.key.launch = launch → T.cmds = []) →
        ∃ s', exec (.launchEnd q launch) s = .next s' ∧ s'.launches = s.launches.filter (fun M => M.num != launch) ∧
          s'.teams = s.teams.filter (fun T => T.key.launch != launch) ∧
          (∀ k ∈ s'.cores, ∀ x ∈ k.slices, ∀ b, x.bundle = some b → b.team.launch ≠ launch) ∧
          s'.events = s.events ++
            (if L.rcd.profile.getLsbD 17 then (s.teamsOf launch).filterMap fun k =>
              (s.team? k).map fun T => ⟨4, launch, T.key.n, exitRecord L T⟩ else []) ++
            [⟨1, launch, 0xFFFFFFFF, [1, 0, 0, 0, 0, 0, 0, 0] ++ s.treeReading L⟩] ∧
          s'.mem = s.mem ∧ s'.contexts = s.contexts ∧ s'.dies = s.dies ∧ ServiceKept s s' ∧
          s'.fabric = if s.fabric.dead = 0xFF then
            { s.fabric with out := s.fabric.out.filterMap fun o => (o.why.without launch).map fun w => { o with why := w } }
          else s.fabric)) ∧
  (∀ (s : State) q launch n secs,
    (s.launch? launch = none ∨ s.team? ⟨launch, n⟩ = none →
      exec (.launchResume q launch n secs) s = .next (s.respond q 6 2 [])) ∧
    ∀ L T, s.launch? launch = some L → s.team? ⟨launch, n⟩ = some T →
      (T.halted = false ∨ L.ended = true ∨ (∃ x ∈ secs, sectionOk L.rcd T x = false) →
        exec (.launchResume q launch n secs) s = .next (s.respond q 6 2 [])) ∧
      (T.halted = true → L.ended = false → T.live ≠ [] →
        (secs = [] → ∃ s', exec (.launchResume q launch n secs) s = .next s' ∧
          s'.team? ⟨launch, n⟩ = some T.resume ∧ OtherTeams s s' ⟨launch, n⟩ ∧ Unfetched s s' ⟨launch, n⟩ ∧
          Responds { s with teams := s'.teams, cores := s'.cores } s' q 6 0 []) ∧
        (∀ bs, secs = [⟨3, n, bs⟩] → bs.length = 4 * ((List.range L.rcd.threads).map L.rcd.budgetOf).sum →
          ∃ s' T', exec (.launchResume q launch n secs) s = .next s' ∧ s'.team? ⟨launch, n⟩ = some T' ∧
            OtherTeams s s' ⟨launch, n⟩ ∧ Unfetched s s' ⟨launch, n⟩ ∧
            { s' with teams := s.teams, cores := s.cores, ports := s.ports } = s ∧ T'.halted = false ∧
            { T' with threads := T.threads, halted := true, records := T.records } = T ∧
            ∀ (t : Nat) (th : Thread), T.threads[t]? = some th → ∃ th' : Thread, T'.threads[t]? = some th' ∧
              th'.trapped = none ∧ th'.age = 0 ∧ (∀ i, i < L.rcd.budgetOf t → sget 0 th'.regs i =
                BitVec.ofNat 32 (leNat ((bs.drop (4 * (((List.range t).map L.rcd.budgetOf).sum + i))).take 4))) ∧
              { th' with
                regs := th.regs, trapped := th.trapped, age := th.age, wait := th.wait, woken := th.woken } = th) ∧
        (∀ bs, secs = [⟨4, n, bs⟩] → bs.length = L.rcd.scratchAlloc + bitmapBytes L.rcd.scratchAlloc →
          ∃ s' T', exec (.launchResume q launch n secs) s = .next s' ∧ s'.team? ⟨launch, n⟩ = some T' ∧
            T'.halted = false ∧ T'.tile = T.tile ∧ T'.cmds = T.cmds ∧
            (∀ a, T'.scratch.bytes.byte a = if a < L.rcd.scratchAlloc then (bs[a]?).getD 0 else 0) ∧
            let mark (l : Nat) : LineMark := ((Config.lineContents (bs.drop L.rcd.scratchAlloc))[l]?).getD .full
            (∀ l, l < L.rcd.scratchAlloc / 128 → (l ∈ T'.scratch.empties ↔ mark l = .empty)) ∧
            ∀ l who, (l, who) ∈ T'.scratch.claims ↔ (l, who) ∈ T.scratch.claims ∧ mark l = .claimed) ∧
        (∀ bs, secs = [⟨1, n, bs⟩] → bs.length = 4096 + L.rcd.groups * 136 →
          let y := Config.teamContents bs
          ∃ s' T', exec (.launchResume q launch n secs) s = .next s' ∧ s'.team? ⟨launch, n⟩ = some T' ∧
            OtherTeams s s' ⟨launch, n⟩ ∧ T'.halted = false ∧ T'.mcast = y.mcast ∧ T'.scrinfo = y.scrinfo ∧
            T'.scrthread = y.scrthread ∧ T'.tileinfo = y.tileinfo ∧ T'.tilethread = y.tilethread ∧
            (∀ i, i < 16 → T'.bars[i]? = some ((y.bars[i]?).getD Barrier.start)) ∧
            (∀ i, i < 4 → T'.queues[i]? = some (((y.queues[i]?).getD []).take ((L.rcd.depths[i]?).getD 0))) ∧
            T'.scratch = T.scratch ∧ T'.tile = T.tile ∧ T'.cmds = T.cmds ∧ T'.fences = T.fences ∧ s'.mem = s.mem) ∧
        (∀ bs, secs = [⟨2, n, bs⟩] → bs.length = L.rcd.threads * 256 →
          ∃ s' T', exec (.launchResume q launch n secs) s = .next s' ∧ s'.team? ⟨launch, n⟩ = some T' ∧
            OtherTeams s s' ⟨launch, n⟩ ∧ { T' with threads := T.threads, halted := true, records := T.records } = T ∧
            { s' with teams := s.teams, cores := s.cores, ports := s.ports } = s ∧
            ∀ (t : Nat) (th : Thread) y, T.threads[t]? = some th → (Config.threadContents bs)[t]? = some y →
              ∃ th' : Thread, T'.threads[t]? = some th' ∧ th'.trapped = none ∧ th'.pc = y.pc ∧ th'.widx = y.widx ∧
                th'.depth = y.depth ∧ th'.preds = y.preds ∧ th'.fp = y.fp ∧ th'.srstep = y.srstep ∧ th'.mark = y.mark ∧
                th'.wait = (if th.woken = true ∧ y.wait = th.wait then none else y.wait) ∧
                (y.idem = false → th'.ckpt = none) ∧ th'.regs = th.regs) ∧
        (∀ bs, secs = [⟨6, n, bs⟩] → 65536 ≤ bs.length → bs.length % 16 = 0 →
          ∃ s' T', exec (.launchResume q launch n secs) s = .next s' ∧ s'.team? ⟨launch, n⟩ = some T' ∧
            OtherTeams s s' ⟨launch, n⟩ ∧ T'.halted = false ∧ T'.fences = (Config.commandContents bs).2 ∧
            (∀ tag, T'.cmd? tag = if tag < 256 then (Config.commandContents bs).1.find? fun c => c.tag == tag else none) ∧
            T'.scratch = T.scratch ∧ T'.tile = T.tile) ∧
        (∀ bs, secs = [⟨7, n, bs⟩] → bs.length % (128 + L.rcd.stack) = 0 →
          ∃ s' T', exec (.launchResume q launch n secs) s = .next s' ∧ s'.team? ⟨launch, n⟩ = some T' ∧
            OtherTeams s s' ⟨launch, n⟩ ∧ { T' with threads := T.threads, halted := true, records := T.records } = T ∧
            ∀ (t : Nat) (th : Thread), T.threads[t]? = some th → ∃ th' : Thread, T'.threads[t]? = some th' ∧
              th'.ckpt = aget? (Config.checkpointContents bs) t ∧ th'.pc = th.pc ∧ th'.regs = th.regs))) ∧
  (∀ (s : State) q launch (va len : DWord),
    (s.launch? launch = none ∨ len.toNat < 64 → exec (.dump q launch va len) s = .next (s.respond q 8 2 [])) ∧
    ∀ L, s.launch? launch = some L → 64 ≤ len.toNat → va.toNat % 128 ≤ 64 → s.service.hostOps = [] →
      s.fabric.out = [] → s.errors = [] → s.mem.wf → (∀ r ∈ (s.dumpRecords L).head?, len.toNat < 64 + r.length) →
      (∀ w, s.homePlace L.ctx va.toNat .write = some w → w.dev = none →
        ∃ s' s0, exec (.dump q launch va len) s = .next s' ∧ Responds s0 s' q 8 0 [] ∧
          { s0 with mem := s.mem, service := s.service } = s ∧
          (∀ y, ¬(w.dpa ≤ y ∧ y < w.dpa + 64) → s0.mem.byte y = s.mem.byte y) ∧
          s0.mem.read w.dpa 64 = [0x47, 0x44, 0x4D, 0x50] ++ leBytes 4 1 ++
            leBytes 4 (if s.dumpRecords L = [] then 0 else 1) ++ leBytes 4 0 ++ List.replicate 24 0 ++ leBytes 8 64 ++
            leBytes 8 (64 + ((s.dumpRecords L).map fun r => r.length).sum) ++ leBytes 8 0) ∧
      (s.homePlace L.ctx va.toNat .write = none →
        ∃ s', exec (.dump q launch va len) s = .next s' ∧
          s'.events = s.events ++ [⟨9, L.num, 0xFFFFFFFF, leBytes 8 0⟩] ∧
          { s' with events := s.events, ports := s.ports, service := s.service } = s)) ∧
  (∀ (s : State) q off data, s.service.staging.wf →
    ∃ s' s0, exec (.firmwareLoad q off data) s = .next s' ∧ Responds s0 s' q 9 0 [] ∧
      { s0 with service := { s0.service with staging := s.service.staging } } = s ∧
      ∀ y, s0.service.staging.byte y =
        if off ≤ y ∧ y < off + data.length then (data[y - off]?).getD 0 else s.service.staging.byte y) ∧
  (∀ (s : State) q len, let image := s.service.staging.read 0 len
    (signatureOk image = true → exec (.firmwareCommit q len) s =
      .next (State.respond { s with service := { s.service with flash := image, flashOk := true } } q 9 0 [])) ∧
    (signatureOk image = false → exec (.firmwareCommit q len) s = .next (s.respond q 9 7 []))) ∧
  ∀ (s : State) q nonce, nonce.length = 32 →
    (s.service.keysUsed < 2 ^ 30 →
      let b := ((List.range 4).flatMap fun i => leBytes 4 (Config.freeField 7 i).toNat) ++
        leBytes 4 (Config.firmwareVersion s.service.image).toNat ++ leBytes 4 0 ++ sha256 s.service.image ++
        s.configMeasure ++ nonce
      exec (.firmwareAttest q nonce) s = .next (State.respond
        { s with service := { s.service with keysUsed := s.service.keysUsed + 1 } } q 9 0
        (b ++ Config.hssSignature s.service.keysUsed b))) ∧
    (2 ^ 30 ≤ s.service.keysUsed → exec (.firmwareAttest q nonce) s = .next (s.respond q 9 2 []))

/-! ### The device as a whole -/

/-- What happens to the device (R24, R342, R384, R387, R388, R396): a reset boots an image that verifies, applies the
spares that are due and tells the host of each, or enters the loader, and nothing that ran survives; power loss stops
the device, and a COMMIT under way leaves the old image, the new one, or none that verifies; levels enter their
monitors; an error of one bit is counted, an uncorrectable one stays where it is; a slice of an L2 gets its one spare
way, and a failing core one of its die's two; a retired service core is to be replaced, or its loss reported. It rests
on the model's choices in logs 2, 11, 12, 40, 83, 92, 116, 117, 118, 121, 123 and 124. -/
def Obligations.DeviceEvents : Prop :=
  (∀ (s : State), ∃ s', exec .deviceReset s = .next s' ∧ s'.mem = [] ∧ s'.contexts = [] ∧ s'.launches = [] ∧ s'.teams = [] ∧
    s'.cores = State.reset.cores ∧ s'.dies = State.reset.dies ∧ s'.fabric = State.reset.fabric ∧ s'.errors = [] ∧
    s'.devno = 0 ∧ s'.features = 0 ∧ s'.inbox = [] ∧ s'.transit = [] ∧ s'.replies = [] ∧
    s'.service.running = true ∧ s'.service.flash = s.service.flash ∧ s'.service.keysUsed = s.service.keysUsed ∧
    s'.service.monitors = List.replicate 66 ⟨0, 0xFFFFFFFF, 0, List.replicate 16 0⟩ ∧
    if s.service.flashOk then
      s'.service.loader = false ∧ s'.service.image = s.service.flash ∧ s'.service.dueSpares = [] ∧
      s'.service.usedSpares = s.service.usedSpares ++ s.service.dueSpares ∧
      s'.events = s.events ++ s.service.dueSpares.map fun x =>
        ⟨5, 0xFFFFFFFF, 0xFFFFFFFF, leBytes 1 x.kind ++ leBytes 1 x.die ++ leBytes 2 x.index⟩
    else s'.service.loader = true ∧ s'.service.usedSpares = s.service.usedSpares ∧ s'.events = s.events) ∧
  (∀ (s : State), ∃ s', exec .powerLoss s = .next s' ∧ s'.service.running = false ∧ s'.mem = [] ∧ s'.contexts = [] ∧
    s'.launches = [] ∧ s'.teams = [] ∧ s'.service.keysUsed = s.service.keysUsed ∧ s'.events = s.events ∧
    (s.committing = none → s'.service.flash = s.service.flash ∧ s'.service.flashOk = s.service.flashOk) ∧
    ∀ image, s.committing = some image → s'.service.flash = s.service.flash ∧ s'.service.flashOk = s.service.flashOk ∨
      s'.service.flash = image ∧ s'.service.flashOk = true ∨ s'.service.flashOk = false) ∧
  (∀ (s : State) temps volts, ∃ s', exec (.monitorLevelSample temps volts) s = .next s' ∧
    { s' with service := s.service } = s ∧
    (∀ i v m, (i < 10 ∧ temps[i]? = some v ∧ s.service.monitors[32 + i]? = some m →
        s'.service.monitors[32 + i]? = some (m.note (BitVec.ofNat 32 v))) ∧
      (i < 24 ∧ volts[i]? = some v ∧ s.service.monitors[42 + i]? = some m →
        s'.service.monitors[42 + i]? = some (m.note (BitVec.ofNat 32 v)))) ∧
    ∀ i, 16 ≤ i ∧ i < 32 → s'.service.monitors[i]? = s.service.monitors[i]?) ∧
  (∀ (m : Mon) (v : Word), (m.note v).count = m.count + 1 ∧ (m.note v).low.toNat = min m.low.toNat v.toNat ∧
    (m.note v).high.toNat = max m.high.toNat v.toNat ∧
    ∀ i (b : Word), m.buckets[i]? = some b → (m.note v).buckets[i]? = some
      (if (i < 15 ∧ 2 ^ i ≤ v.toNat ∧ v.toNat < 2 ^ (i + 1) ∨ i = 15 ∧ 2 ^ 15 ≤ v.toNat ∨ i = 0 ∧ v = 0) ∧
        b ≠ 0xFFFFFFFF then b + 1 else b)) ∧
  (∀ (s : State) loc, (∀ b, s.errPlace loc = false → exec (.memoryError loc b) s = .next s) ∧
    (s.errPlace loc = true → ∃ s', exec (.memoryError loc false) s = .next s' ∧
      s'.mem = s.mem ∧ s'.teams = s.teams ∧ s'.dies = s.dies ∧ s'.errors = s.errors ∧
      s'.service.corrected = s.service.corrected.modify (errKind loc) (· + 1) ∧
      s'.service.usedSpares = s.service.usedSpares) ∧
    (s.errPlace loc = true → ∃ s', exec (.memoryError loc true) s = .next s' ∧
      s'.mem = s.mem ∧ s'.teams = s.teams ∧ s'.dies = s.dies ∧ (∀ e, e ∈ s'.errors ↔ e = loc ∨ e ∈ s.errors) ∧
      s'.service.corrected = s.service.corrected ∧
      ∀ c, s.errCore loc = some c → (s'.service.errorsOf c).hard = (s.service.errorsOf c).hard + 1 ∧
        ((s.service.errorsOf c).hard = 1 → (s.service.errorsOf c).soft < 4096 →
          if s.service.taken 1 (dieOf c) < 2 then
            s'.service.dueSpares = s.service.dueSpares ++ [⟨1, dieOf c, c % 24⟩] ∧ s'.events = s.events
          else s'.events = s.events ++ [⟨10, 0xFFFFFFFF, 0xFFFFFFFF, leBytes 1 (dieOf c)⟩]))) ∧
  (∀ (s : State) d k i hard, s.errPlace (.l2 d k i) = true →
    let due (x : Spare) : Prop := x.kind = 2 ∧ x.die = d ∧ x.index / 16 = homeSlice (k.line * 128)
    ∃ s', exec (.memoryError (.l2 d k i) hard) s = .next s' ∧
      ((∃ x ∈ s.service.usedSpares ++ s.service.dueSpares, due x) → s'.service.dueSpares = s.service.dueSpares) ∧
      ((∀ x ∈ s.service.usedSpares ++ s.service.dueSpares, ¬due x) →
        ∃ x, due x ∧ s'.service.dueSpares = s.service.dueSpares ++ [x])) ∧
  (∀ (s : State) line, dpaPopulated (line * 128) = true →
    ∃ s' x, exec (.memoryError (.hbm line) true) s = .next s' ∧ x.kind = 3 ∧ x.die = dpaDie (line * 128) ∧
      s'.service.dueSpares = if x ∈ s.service.dueSpares then s.service.dueSpares else s.service.dueSpares ++ [x]) ∧
  ∀ (s : State) core,
    (8 ≤ core ∨ core ∈ s.service.retired → exec (.serviceCoreRetired core) s = .next s) ∧
    (core < 8 → core ∉ s.service.retired → ∃ s', exec (.serviceCoreRetired core) s = .next s' ∧
      s'.service.retired = s.service.retired ++ [core] ∧ { s' with service := s.service, events := s.events, ports := s.ports } = s ∧
      if s.service.taken 5 (core / 4) = 0 then
        s'.service.hasSpare ⟨5, core / 4, core % 4⟩ = true ∧ s'.events = s.events
      else s'.events = s.events ++ [⟨8, 0xFFFFFFFF, 0xFFFFFFFF, leBytes 1 (core / 4)⟩] ∧
        s'.service.dueSpares = s.service.dueSpares)

/-! ### Encoding -/

/-- Decoding an encoded instruction gives it back (R73-R89, Table 04.6): every well-formed instruction word, with every
operand at every value, has a 64-bit word, and the decoder reads that instruction from it. -/
def Obligations.DecodeOfEncode : Prop :=
  ∀ i : Instr, i.isWord = true → i.wf = true → ∃ w, encode i = some w ∧ decodeWord w = .ok i ∧
    decode (leBytes 8 w.toNat) = .ok (i, []) ∧ decodeTableWord 64 w.toNat = some i

/-- Encoding a decoded word gives it back: a word that decodes is the word of one well-formed instruction, no bit of it
ignored. The 127 assigned opcodes are those of Table 04.6, consecutive within each row (R88); a word with an
unassigned opcode, or with the guard ¬pt, decodes to nothing. -/
def Obligations.EncodeOfDecode : Prop :=
  (∀ w i, decodeWord w = .ok i → i.isWord = true ∧ i.wf = true ∧ encode i = some w ∧ i.opcode = some (w.toNat / 2 ^ 55)) ∧
  (∀ (h : Hdr) (t : ITy) (x : Bool) (o : Opnd) (p : BitVec 3) (vbitvec8 : BitVec 8) (vicmp : ICmp) (w : Word) (vpop :
      POp) (vpmovform : PMovForm) (vrnd : Rnd) (vfcmp : FCmp) (vclasssrc : ClassSrc) (vcvtsrc : CvtSrc) (vpacksrc :
      PackSrc) (vvoteform : VoteForm) (vshflmode : ShflMode) (vgop : GOp) (vmemw : MemW) (vbitvec10 : BitVec 10)
      (vstmode : StMode) (vaop : AOp) (vbarlevel : BarLevel) (vbitvec4 : BitVec 4) (vbitvec2 : BitVec 2) (vscrdsel :
      ScrdSel) (vfencekind : FenceKind) (vscope : Scope) (vfusion : Fusion) (vbitvec30 : BitVec 30) (vbitvec20 :
      BitVec 20),
    let words : List Instr := [
      .iadd h t x o o o, .isub h t x o o o, .iaddc h p o o o, .imul h t x o o o, .imulh h t o o o, .imad h x o o o o,
      .imadw h x o o o o, .imin h t o o o, .imax h t o o o, .iabs h t x o o, .ineg h t x o o, .shl h x o o o,
      .shr h x o o o, .sar h x o o o, .rotl h o o o, .and h x o o o, .or h x o o o, .xor h x o o o, .andn h x o o o,
      .not h x o o, .lop3 h x vbitvec8 o o o, .popc h o o, .clz h o o, .ctz h o o, .brev h o o, .bfx h x o o o,
      .bfi h o o o o, .bperm h o o o o, .iset h t vicmp p o o, .sel h p o o o, .mov h x o o, .movi h w o,
      .pset h vpop p p p, .pmov h vpmovform, .fadd h vrnd o o o, .fsub h vrnd o o o, .fmul h vrnd o o o,
      .ffma h vrnd o o o o, .fmin h o o o, .fmax h o o o, .fset h vfcmp p o o, .fclass h vclasssrc o o,
      .frnd h vrnd x o o, .frcp h vrnd o o, .frsq h vrnd o o, .fsqrt h vrnd o o, .fdiv h vrnd o o o, .fex2 h o o,
      .flg2 h o o, .fsin h o o, .fcos h o o, .ftanh h o o, .hadd2 h x vrnd o o o, .hmul2 h x vrnd o o o,
      .hfma2 h x x o o o o, .dadd h vrnd o o o, .dmul h vrnd o o o, .dfma h vrnd o o o o, .dmin h o o o,
      .dmax h o o o, .dset h vfcmp p o o, .drcp h vrnd o o, .cvt h p vcvtsrc vrnd o o, .qnt h p vrnd o o o,
      .dqnt h p vrnd o o o, .pack h p vpacksrc vrnd o o, .unpk h p x o o, .gvote h vvoteform p,
      .gshfl h vshflmode x o o o, .gred h vgop o o, .gscan h vgop x o o, .gelect h p o, .gmatch h x p o o,
      .lds h vmemw vbitvec10 o o, .sts h vmemw vstmode vbitvec10 o o, .atoms h vaop o o o, .cass h x o o o o,
      .ldt h vmemw vbitvec10 o o, .stt h vmemw vstmode vbitvec10 o o, .waitf h x x vbitvec10 o,
      .markf h x vbitvec10 o, .marke h x vbitvec10 o, .probef h x p vbitvec10 o, .bar h vbarlevel vbitvec4,
      .bara h vbarlevel vbitvec4 o, .barw h vbarlevel vbitvec4 o, .barq h vbarlevel vbitvec4 p o, .qput h vbitvec2 o,
      .qget h vbitvec2 o, .qpeek h vbitvec2 o, .mcarm h vbitvec2, .sopen h p o, .sadv h p o, .stend h p p,
      .sclose h p, .scrd h vscrdsel o p, .sisect h o p p, .sunion h o p p, .cpost h o o, .vgath h o o o o,
      .vscat h o o o o, .vscatr h o o o o, .ocall h x x o o o o, .ocalln h x x o o o,
      .cfence h vfencekind vscope vbitvec8 o, .cwaitt h x o o, .cstat h x o o, .ccancel h o o, .mpost h vfusion o o,
      .mzero h o o, .mcvt h o o, .bra h vbitvec30, .brx h vbitvec20 o, .call h vbitvec30, .callx h o, .ret h,
      .exit h, .trap h vbitvec10, .bkpt h vbitvec10, .nop h, .yield h, .idembeg h vbitvec20 o, .idemend h,
      .mfsr h vbitvec10 o, .mtsr h vbitvec10 o, .rngx h o o o o, .pmark h o]
    let rows : List (Nat × Nat) := [(0x001, 11), (0x010, 4), (0x018, 6), (0x020, 7), (0x028, 6), (0x040, 9), (0x050, 9),
      (0x060, 3), (0x080, 7), (0x0A0, 5), (0x0C0, 6), (0x0E0, 4), (0x0E8, 2), (0x0F0, 4), (0x100, 4), (0x108, 3), (0x110, 1),
      (0x120, 7), (0x140, 6), (0x150, 4), (0x180, 3), (0x1A0, 12), (0x1C0, 4)]
    words.length = 127 ∧ words.map Instr.opcode = rows.flatMap fun r => (List.range r.2).map fun i => some (r.1 + i)) ∧
  (∀ w : DWord, (∀ i : Instr, i.isWord = true → i.opcode ≠ some (w.toNat / 2 ^ 55)) → ∃ e, decodeWord w = .error e) ∧
  ∀ w : DWord, w.extractLsb' 51 4 = 0xF → ∃ e, decodeWord w = .error e

/-- Words as the manual encodes them (Tables 04.3 and 04.6 with their worked examples in R91, R188, R211 and R323) decode
to the instructions they stand for. -/
def Obligations.WordsDecode : Prop :=
  let h : Hdr := ⟨7, false, 0, 0, 0⟩
  decodeWord 0x00B8080080401000 = .ok (.iadd h .s32 false (.v 4) (.v 1) (.v 2)) ∧
  decodeWord 0x15B80DFC00000000 = .ok (.movi h 0x3F800000 (.v 6)) ∧
  decodeWord 0x2138120300600000 = .ok (.fmul h .rne (.v 9) (.v 6) (.v 3)) ∧
  decodeWord 0x29B80A0080400020 = .ok (.fdiv { h with la := 1 } .rne (.v 5) (.v 1) (.v 2)) ∧
  decodeWord 0x0EB80E0280C4B000 = .ok (.lop3 h false 0x96 (.v 7) (.v 5) (.v 6)) ∧
  decodeWord 0x1438040401203002 = .ok (.iset h .n32 .lt 2 (.v 8) (.v 9)) ∧
  decodeWord 0xD01001FFFFFFE800 = .ok (.bra { h with psel := 2 } 0x3FFFFFFD) ∧
  decodeWord 0x7038080100603004 = .ok (.lds { h with ctr := 1 } (.ty .n32) 3 (.v 4) (.v 2)) ∧
  decodeWord 0x70B812017FA02800 = .ok (.sts h (.ty .n16) .plain 0x3FD (.v 9) (.v 2)) ∧
  decodeWord 0x8038000000400001 = .ok (.bar h .clus 2) ∧
  decodeWord 0x92B8100080400000 = .ok (.sisect h (.v 8) 1 2) ∧
  decodeWord 0xA038080100000004 = .ok (.cpost { h with ctr := 1 } (.v 4) (.v 2)) ∧
  decodeWord 0xA838120100400000 = .ok (.cfence h .rel .pkg 2 (.v 9)) ∧
  decodeWord 0xA238140602009001 = .ok (.ocall h true false (.v 10) (.v 12) (.v 16) (.v 18)) ∧
  decodeWord 0xC0380A0100000001 = .ok (.mpost h .f2x2 (.v 5) (.v 2)) ∧
  decodeWord 0xD538000780A00000 = .ok (.idembeg h 5 (.v 15)) ∧
  decodeWord 0xD438000000000000 = .ok (.nop h)

/-! ### Steps, invariants and rounding -/

/-- A step runs the decoded instruction (R72, R89, R384, R388): when the turn is a slice's and the bundle's next word
decodes, the step is its execution there, and a word that does not decode takes the illegal-instruction trap of its
bundle; when it is the host's, the step is the execution of the oldest message that may be acted on; when it is an
event's, of that event. With the power off, only a reset happens. Which turn comes next is the model's own agenda,
free where that is empty (log 1). It rests on the model's choices in logs 1, 2, 3, 4, 100, 160, 164 and 176. -/
def Obligations.StepRunsDecoded : Prop :=
  (∀ (s : State) core sl rest (c : Cur), s.agenda = .slice core sl :: rest → s.service.running = true →
    s.service.loader = false →
    let s1 : State := { s with agenda := rest, focus := (core, sl) }
    s1.cur? = some c →
    (∀ i, decodeWord c.word = .ok i → step s = exec i s1) ∧
    ∀ e, decodeWord c.word = .error e → step s = .next (s1.runTrap c 1 (c.b.threads.headD 0) false 0)) ∧
  (∀ (s : State) core sl rest, s.agenda = .slice core sl :: rest → s.service.running = true → s.service.loader = false →
    (s.sliceAt core sl).bundle = none → step s = .next { s with agenda := rest, focus := (core, sl) }) ∧
  (∀ (s : State) rest i s1, s.agenda = .host :: rest → s.service.running = true →
    State.nextMessage { s with agenda := rest } = some (.act i, s1) → step s = exec i s1) ∧
  (∀ (s : State) rest i s1, s.agenda = .host :: rest → s.service.running = true →
    State.nextMessage { s with agenda := rest } = some (.hello i, s1) → step s = .next (s1.actHello i)) ∧
  (∀ (s : State) rest q code p s1, s.agenda = .host :: rest → s.service.running = true →
    State.nextMessage { s with agenda := rest } = some (.unread q code p, s1) →
    let sub := leNat ((p.drop 4).take 2)
    let ctx := leNat ((p.drop 8).take 1)
    let missing := namesContext code sub = true ∧ 9 ≤ p.length ∧ s1.hostContext? ctx = none ∧
      ¬((code = 3 ∨ code = 4) ∧ ctx = 0)
    step s = .next (s1.respond q code (if missing then 5 else 2) (if code = 6 ∧ sub = 0 then leBytes 4 0 else []))) ∧
  (∀ (s : State) rest, s.agenda = .host :: rest → s.service.running = true →
    State.nextMessage { s with agenda := rest } = none → step s = .next { s with agenda := rest }) ∧
  (∀ (s : State) e rest, s.agenda = .event e :: rest → s.service.running = true → s.service.loader = false →
    e.isWord = false → step s = exec e { s with agenda := rest }) ∧
  (∀ (s : State) rest, s.agenda = .event .deviceReset :: rest → step s = exec .deviceReset { s with agenda := rest }) ∧
  (∀ (s : State) t rest, s.agenda = t :: rest → s.service.running = false → t ≠ .event .deviceReset →
    step s = .next { s with agenda := rest }) ∧
  ∀ (s : State), s.agenda = [] → step s = takeTurn (Config.freeTurn s.turns) { s with turns := s.turns + 1 }

/-- What a reset leaves: no launch, context or team, memory cleared, the identity map of generation 0 with every plane
alive and no entry at a switch, monitors that have counted nothing, and 1 as the next launch number (R356, R381, R388,
R396). That counters stand at 0, that L2s, TLBs, queues and buffers are empty and that no spare is in use is the
model's choice (logs 9, 12 and 16). It rests on the model's choices in logs 9, 10, 12, 16, 123 and 124. -/
def Obligations.AfterReset : Prop :=
  State.reset.launches = [] ∧ State.reset.contexts = [] ∧ State.reset.teams = [] ∧
  (∀ k ∈ State.reset.cores, k.cycle = 0 ∧ k.wq = [] ∧ k.utlb = [] ∧ ∀ x ∈ k.slices, x.bundle = none) ∧
  (∀ d ∈ State.reset.dies, d.l2 = [] ∧ d.tlb = [] ∧ d.buffer = [] ∧ d.deferred = []) ∧
  State.reset.fabric.gen = 0 ∧ State.reset.fabric.map = [0, 1, 2, 3, 4, 5, 6, 7] ∧ State.reset.fabric.dead = 0 ∧
  State.reset.fabric.phase = .normal ∧ (∀ x ∈ State.reset.fabric.switches, x.entries = []) ∧
  State.reset.service.usedSpares = [] ∧ (∀ m ∈ State.reset.service.monitors, m.count = 0 ∧ m.low = 0xFFFFFFFF ∧ m.high = 0) ∧
  State.reset.service.nextLaunch = 1 ∧ ∀ a, State.reset.mem.byte a = 0

/-- The state after reset meets the invariants that steps keep. It rests on the model's choices in logs 8 and 10. -/
def Obligations.ResetInvariant : Prop := State.reset.Canonical ∧ State.reset.Ascending ∧ State.reset.Whole

/-- Every step keeps device memory, the teams' stores and the register files in their canonical form, so that equal
contents are equal data. -/
def Obligations.CanonicalKept : Prop := ∀ s s', s.Canonical → step s = .next s' → s'.Canonical

/-- Every step keeps the members of every running bundle in ascending order, each once (R49): threads only leave a bundle,
and a new one is picked in order. -/
def Obligations.AscendingKept : Prop := ∀ s s', s.Ascending → step s = .next s' → s'.Ascending

/-- Every step keeps the device whole (R1, R9, R11): 192 cores of four slices on 8 dies. -/
def Obligations.WholeKept : Prop := ∀ s s', s.Whole → step s = .next s' → s'.Whole

/-- Rounding (R123, R157): a magnitude m/d in grid steps is rounded to itself if it is whole, else to one of its two
neighbours: RZ to the lower, RDN and RUP by sign, RNE to the nearest, at a tie to the even one, SR by the comparison
value. The steps are those of the value's binade, of the least one for a subnormal value, and tininess is judged on
the grid without subnormals. A result that does not overflow is encoded without loss, NX and UF as R123 has them; a
value that a format holds is its own result, without flags; and an overflow sets OF and NX and gives infinity or the
largest finite value by mode. It rests on the model's choices in log 167. -/
def Obligations.Rounding : Prop :=
  (∀ mode neg m (e q : Int), q ≤ e → roundTo mode neg m e q = (m * 2 ^ (e - q).toNat, true)) ∧
  (∀ mode neg m (e q : Int), e < q →
    let d := 2 ^ (q - e).toNat
    let n := (roundTo mode neg m e q).1
    (m % d = 0 → n = m / d) ∧ (n = m / d ∨ n = m / d + 1) ∧ ((roundTo mode neg m e q).2 = true ↔ m % d = 0) ∧
    (mode = .rz → n * d ≤ m) ∧ (mode = .rdn → if neg then m ≤ n * d else n * d ≤ m) ∧
    (mode = .rup → if neg then n * d ≤ m else m ≤ n * d) ∧
    (mode = .rne → 2 * (n * d) ≤ 2 * m + d ∧ 2 * m ≤ 2 * (n * d) + d ∧ (2 * (m % d) = d → n % 2 = 0)) ∧
    ∀ u, mode = .sr u → m % d ≠ 0 → (n = m / d + 1 ↔
      if neg then (d - m % d) * 2 ^ 32 / d ≤ u else u < m % d * 2 ^ 32 / d)) ∧
  (∀ (f : FFmt) mode neg m (e : Int), 0 < m →
    let lead : Int := (Nat.log2 m : Int) + e
    let r := f.round mode neg m e
    r.neg = neg ∧ r.q = (if lead < f.emin then f.emin else lead) - f.fbits ∧
    (r.n, !r.inexact) = roundTo mode neg m e r.q ∧
    r.tiny = Num.lt (.fin false (roundTo mode neg m e (lead - f.fbits)).1 (lead - f.fbits)) (.fin false 1 f.emin) ∧
    f.overflows r.n r.q = (f.max false).lt (.fin false r.n r.q)) ∧
  (∀ f ∈ [fp64, fp32, fp16, bf16], ∀ mode x, x < 2 ^ f.width → (f.decode x).isNaN = false →
    f.finish mode (f.decode x) = ⟨x, 0⟩) ∧
  ∀ f ∈ [fp64, fp32, fp16, bf16], ∀ mode neg m (e : Int), 0 < m →
    let r := f.round mode neg m e
    (f.overflows r.n r.q = false → ∃ m' e', f.decode (f.finish mode (.fin neg m e)).bits = .fin neg m' e' ∧
      scaled neg m' e' (min e' r.q) = scaled neg r.n r.q (min e' r.q) ∧
      ((f.finish mode (.fin neg m e)).flags &&& fNX = 0 ↔ r.inexact = false) ∧
      ((f.finish mode (.fin neg m e)).flags &&& fUF = 0 ↔ r.inexact = false ∨ r.tiny = false)) ∧
    (f.overflows r.n r.q = true → (f.finish mode (.fin neg m e)).flags = fOF ||| fNX ∧
      (f.decode (f.finish mode (.fin neg m e)).bits =
        if mode = .rz ∨ mode = .rdn ∧ neg = false ∨ mode = .rup ∧ neg = true then f.decode (f.encode (f.max neg))
        else .inf neg))
end

