-- ==== Sys2Proof/Machine/AsmLex.lean ====
section
/-! DEFINITION. The assembler `gytas`: lines, tokens, symbols and expressions (R91, R93, R95-R98). `gytas` runs outside
the device, so nothing here touches `State`: it is a function from source lines to an object (Machine/AsmObject.lean). -/

namespace Sys2Proof.Machine

/-- An error names the line and the rule of the manual that the line breaks (R111). -/
structure AsmError where
  line : Nat
  rule : Nat
  deriving DecidableEq, Repr

/-- A token of a line. A floating literal is m × 10^e (R98). -/
inductive Tok where
  | id (s : String)
  | num (n : Nat)
  | flt (m : Nat) (e : Int)
  | sym (c : Char)
  | shl
  | shr
  deriving DecidableEq, Repr

/-! ### Characters -/

def isIdStart (c : Char) : Bool := c.isAlpha || c == '_' || c == '.'
def isIdChar (c : Char) : Bool := c.isAlphanum || c == '_' || c == '.'

/-- Mnemonics, modifiers, directive names, register names and keywords may be written in either case (R91). -/
def lowerOf (s : String) : String := String.ofList (s.toList.map Char.toLower)

/-- The value of a digit in a base. -/
def digitOf (base : Nat) (c : Char) : Option Nat :=
  let v := if c.isDigit then some (c.toNat - '0'.toNat)
    else if 'a' ≤ c ∧ c ≤ 'f' then some (c.toNat - 'a'.toNat + 10)
    else if 'A' ≤ c ∧ c ≤ 'F' then some (c.toNat - 'A'.toNat + 10)
    else none
  v.bind fun n => if n < base then some n else none

/-- Digits with underscores between digits (R96).
(DEDUCED, log 129) -/
def digitsGo (base : Nat) : List Char → Nat → Option Nat
  | [], acc => some acc
  | '_' :: cs, acc => digitsGo base cs acc
  | c :: cs, acc => (digitOf base c).bind fun d => digitsGo base cs (acc * base + d)

/-- A run of digits and underscores that begins and ends with a digit. -/
def digitsNat (base : Nat) (cs : List Char) : Option Nat :=
  match cs.head?, cs.getLast? with
  | some a, some b => if a == '_' || b == '_' then none else digitsGo base cs 0
  | _, _ => none

/-- Plain decimal digits, at least one. -/
def plainNat (cs : List Char) : Option Nat :=
  if !cs.isEmpty && cs.all Char.isDigit then digitsGo 10 cs 0 else none

/-- A floating-point literal from the part before the exponent, and the exponent (R98).
(DEDUCED, log 130) -/
def floatTok (mant : List Char) (e : Int) : Option Tok :=
  let ip := mant.takeWhile (· != '.')
  let fp := (mant.dropWhile (· != '.')).drop 1
  if fp.all Char.isDigit then
    (plainNat ip).bind fun _ => (plainNat (ip ++ fp)).map fun m => .flt m (e - fp.length)
  else none

/-- The token of a word that begins with a digit, and what follows it: an exponent's sign stands outside the word. -/
def numTok (w rest : List Char) : Option (Tok × List Char) :=
  match w with
  | '0' :: 'x' :: ds => (digitsNat 16 ds).map fun n => (.num n, rest)
  | '0' :: 'b' :: ds => (digitsNat 2 ds).map fun n => (.num n, rest)
  | _ =>
    if w.all (fun c => c.isDigit || c == '_') then (digitsNat 10 w).map fun n => (.num n, rest)
    else
      let isE := fun c => c == 'e' || c == 'E'
      let mant := w.takeWhile (!isE ·)
      match (w.dropWhile (!isE ·)) with
      | [] => (floatTok mant 0).map fun t => (t, rest)
      | _ :: [] =>
        match rest with
        | s :: cs =>
          let ds := cs.takeWhile Char.isDigit
          if s == '-' then (plainNat ds).bind fun n => (floatTok mant (-(n : Int))).map fun t => (t, cs.dropWhile Char.isDigit)
          else if s == '+' then (plainNat ds).bind fun n => (floatTok mant n).map fun t => (t, cs.dropWhile Char.isDigit)
          else none
        | [] => none
      | _ :: ds => (plainNat ds).bind fun n => (floatTok mant n).map fun t => (t, rest)

/-- The rule that a malformed literal breaks: one with a point or an exponent is a floating-point literal (R98), every
other an integer literal (R96). -/
def literalRule (w : List Char) : Nat :=
  match w with
  | '0' :: 'x' :: _ | '0' :: 'b' :: _ => 96
  | _ => if w.any fun c => c == '.' || c == 'e' || c == 'E' then 98 else 96

/-- The tokens of a line, or the rule that its first malformed literal or character breaks; a comment runs from a
semicolon to the line's end (R91). -/
def lexGo : Nat → List Char → Except Nat (List Tok)
  | 0, _ => .ok []
  | _ + 1, [] => .ok []
  | n + 1, c :: cs =>
    if c == ' ' || c == '\t' then lexGo n cs
    else if c == ';' then .ok []
    else if isIdStart c then
      let w := (c :: cs).takeWhile isIdChar
      (lexGo n ((c :: cs).dropWhile isIdChar)).map fun ts => .id (String.ofList w) :: ts
    else if c.isDigit then
      let w := (c :: cs).takeWhile isIdChar
      match numTok w ((c :: cs).dropWhile isIdChar) with
      | some x => (lexGo n x.2).map fun ts => x.1 :: ts
      | none => .error (literalRule w)
    else match c, cs with
      | '<', '<' :: r => (lexGo n r).map (.shl :: ·)
      | '>', '>' :: r => (lexGo n r).map (.shr :: ·)
      | _, _ =>
        if ['(', ')', ',', ':', '=', '!', '-', '~', '*', '/', '%', '+', '&', '^', '|'].contains c then
          (lexGo n cs).map (.sym c :: ·)
        else .error 91

/-- A line: 7-bit ASCII, at most 4,096 characters (R91). -/
def lexLine (line : Nat) (s : String) : Except AsmError (List Tok) :=
  let cs := s.toList
  if cs.length > 4096 || cs.any (fun c => decide (128 ≤ c.toNat)) then .error ⟨line, 91⟩
  else (lexGo (cs.length + 1) cs).mapError fun rule => ⟨line, rule⟩

/-! ### Names -/

/-- A name made of one letter and a number below a bound, such as v12 (R93).
(DESIGN CHOICE, log 183) -/
def letterNum (c : Char) (lo hi : Nat) (s : String) : Option Nat :=
  match s.toList with
  | x :: ds =>
    if x == c then (plainNat ds).bind fun n => if lo ≤ n ∧ n < hi then some n else none else none
  | [] => none

/-- Table 04.4: the special registers from index 1 on. -/
def srNames : List String :=
  ["sr.lane", "sr.thread", "sr.group", "sr.role", "sr.width", "sr.depth", "sr.groups", "sr.team.x", "sr.team.y",
   "sr.team.z", "sr.teams.x", "sr.teams.y", "sr.teams.z", "sr.teamidx", "sr.rank", "sr.clustersize", "sr.cluster",
   "sr.core", "sr.die", "sr.cyclelo", "sr.cyclehi", "sr.seed", "sr.seedhi", "sr.launch", "sr.scratchsize",
   "sr.tilesize", "sr.stacksize", "sr.paramsize"]

/-- Table 09.2: the system registers from number 0 on. -/
def sysNames : List String :=
  ["sys.fpstatus", "sys.srstep", "sys.scrinfo", "sys.scrthread", "sys.tileinfo", "sys.tilethread", "sys.idem",
   "sys.mark"]

/-- Where a name stands in a list. -/
def nameIndex (xs : List String) (s : String) : Option Nat :=
  let n := (xs.takeWhile (· != s)).length
  if n < xs.length then some n else none

/-- The directives of R99, R101, R105, R107 and R108. -/
def directiveNames : List String :=
  [".kernel", ".end", ".width", ".role", ".team", ".cluster", ".grid", ".coresident", ".stack", ".slot", ".param",
   ".clause", ".align", ".word", ".bytes"]

/-- The operand field of a register, the literal zero or a special register (R93), from a name in lower case. -/
def regField (s : String) : Option (BitVec 10) :=
  match letterNum 'v' 0 512 s with
  | some n => some (BitVec.ofNat 10 n)
  | none =>
    if s == "zero" then some 512
    else (nameIndex srNames s).map fun i => BitVec.ofNat 10 (512 + 1 + i)

/-- The code of a predicate: p0..p6, or pt (R93, R140). -/
def predCode (s : String) : Option (BitVec 3) :=
  if s == "pt" then some 7 else (letterNum 'p' 0 7 s).map (BitVec.ofNat 3 ·)

def streamCode (s : String) : Option (BitVec 3) := (letterNum 'f' 0 8 s).map (BitVec.ofNat 3 ·)
def counterCode (s : String) : Option (BitVec 3) := (letterNum 'k' 1 8 s).map (BitVec.ofNat 3 ·)

/-- Names that no symbol may have, mnemonics apart (R95); from a name in lower case. -/
def reservedName (s : String) : Bool :=
  (regField s).isSome || (predCode s).isSome || (streamCode s).isSome || (counterCode s).isSome ||
  (nameIndex sysNames s).isSome || s.toList.take 3 == ['s', 'r', '.'] || s == "." || directiveNames.contains s

/-! ### Expressions -/

/-- The operators of R96. -/
inductive BinOp where
  | mul | div | mod | add | sub | shl | shr | and | xor | or
  deriving DecidableEq, Repr

inductive Expr where
  | num (n : Nat)
  | name (s : String)
  | dot
  | neg (e : Expr)
  | not (e : Expr)
  | bin (o : BinOp) (x y : Expr)
  deriving DecidableEq, Repr

/-- The operator of a row of R96's table (rows 2..7 are levels 1..6 here) at the head of the tokens. -/
def binAt (level : Nat) : List Tok → Option (BinOp × List Tok)
  | .sym '*' :: r => if level = 1 then some (.mul, r) else none
  | .sym '/' :: r => if level = 1 then some (.div, r) else none
  | .sym '%' :: r => if level = 1 then some (.mod, r) else none
  | .sym '+' :: r => if level = 2 then some (.add, r) else none
  | .sym '-' :: r => if level = 2 then some (.sub, r) else none
  | .shl :: r => if level = 3 then some (.shl, r) else none
  | .shr :: r => if level = 3 then some (.shr, r) else none
  | .sym '&' :: r => if level = 4 then some (.and, r) else none
  | .sym '^' :: r => if level = 5 then some (.xor, r) else none
  | .sym '|' :: r => if level = 6 then some (.or, r) else none
  | _ => none

/-- Parses one level: 0 is a unary expression, 6 a whole one. With a left operand it goes on to the right of it, so that
a row associates to the left (R96). The first argument bounds the depth. -/
def parseLevel : Nat → Nat → Option Expr → List Tok → Option (Expr × List Tok)
  | 0, _, _, _ => none
  | n + 1, 0, _, ts =>
    match ts with
    | .sym '-' :: r => (parseLevel n 0 none r).map fun x => (.neg x.1, x.2)
    | .sym '~' :: r => (parseLevel n 0 none r).map fun x => (.not x.1, x.2)
    | .sym '(' :: r =>
      match parseLevel n 6 none r with
      | some (e, .sym ')' :: r) => some (e, r)
      | _ => none
    | .num v :: r => some (.num v, r)
    | .id s :: r => if s == "." then some (.dot, r) else if reservedName (lowerOf s) then none else some (.name s, r)
    | _ => none
  | n + 1, k + 1, none, ts => (parseLevel n k none ts).bind fun x => parseLevel n (k + 1) (some x.1) x.2
  | n + 1, k + 1, some l, ts =>
    match binAt (k + 1) ts with
    | some (o, r) => (parseLevel n k none r).bind fun x => parseLevel n (k + 1) (some (.bin o l x.1)) x.2
    | none => some (l, ts)

def parseExpr (ts : List Tok) : Option (Expr × List Tok) := parseLevel (10 * ts.length + 20) 6 none ts

/-- Expressions with commas between them, at least one. -/
def parseExprs : Nat → List Tok → Option (List Expr × List Tok)
  | 0, _ => none
  | n + 1, ts =>
    match parseExpr ts with
    | some (e, .sym ',' :: r) => (parseExprs n r).map fun x => (e :: x.1, x.2)
    | some (e, r) => some ([e], r)
    | none => none

/-! ### Values -/

/-- A segment of the object: the code of a kernel or a data segment, each by its number. -/
inductive Seg where
  | code (k : Nat)
  | data (k : Nat)
  deriving DecidableEq, Repr

/-- A value: a number, and the segments whose base it holds with their coefficients (R110). -/
structure AVal where
  n : BitVec 64
  terms : List (Seg × Int)
  deriving DecidableEq, Repr

def AVal.ofNum (n : BitVec 64) : AVal := ⟨n, []⟩
def AVal.ofSeg (g : Seg) (off : Nat) : AVal := ⟨BitVec.ofNat 64 off, [(g, 1)]⟩

def addTerm (ts : List (Seg × Int)) (t : Seg × Int) : List (Seg × Int) :=
  match ts with
  | [] => [t]
  | x :: xs => if x.1 = t.1 then (x.1, x.2 + t.2) :: xs else x :: addTerm xs t

/-- Collects terms; those that cancel leave (R110). -/
def addTerms (x y : List (Seg × Int)) : List (Seg × Int) := (y.foldl addTerm x).filter fun t => t.2 != 0

def AVal.scale (c : BitVec 64) (x : AVal) : AVal :=
  ⟨c * x.n, (x.terms.map fun t => (t.1, c.toInt * t.2)).filter fun t => t.2 != 0⟩

/-- A plain number (R108, R110). -/
def AVal.plain? (x : AVal) : Option (BitVec 64) := if x.terms.isEmpty then some x.n else none

/-- An address: one symbol remains with coefficient +1 (R110). -/
def AVal.addr? (x : AVal) : Option (Seg × BitVec 64) :=
  match x.terms with
  | [(g, 1)] => some (g, x.n)
  | _ => none

/-- An operator on plain numbers, in 64-bit two's complement (R96). -/
def binPlain (o : BinOp) (x y : BitVec 64) : Except Nat (BitVec 64) :=
  match o with
  | .mul => .ok (x * y)
  | .add => .ok (x + y)
  | .sub => .ok (x - y)
  | .and => .ok (x &&& y)
  | .xor => .ok (x ^^^ y)
  | .or => .ok (x ||| y)
  | .div => if y = 0 then .error 96 else .ok (BitVec.ofInt 64 (x.toInt.tdiv y.toInt))
  | .mod => if y = 0 then .error 96 else .ok (BitVec.ofInt 64 (x.toInt.tmod y.toInt))
  | .shl => if y.toNat < 64 then .ok (x <<< y.toNat) else .error 96
  | .shr => if y.toNat < 64 then .ok (x.sshiftRight y.toNat) else .error 96

/-- An operator on values. Sums and products with a plain number keep their symbols; any other use of a symbol is an
error (R110).
(DEDUCED, log 132) -/
def binVal (o : BinOp) (x y : AVal) : Except Nat AVal :=
  match x.plain?, y.plain? with
  | some a, some b => (binPlain o a b).map .ofNum
  | p, q =>
    match o with
    | .add => .ok ⟨x.n + y.n, addTerms x.terms y.terms⟩
    | .sub => .ok ⟨x.n - y.n, addTerms x.terms (y.scale (-1)).terms⟩
    | .mul =>
      match p, q with
      | some a, _ => .ok (y.scale a)
      | _, some b => .ok (x.scale b)
      | _, _ => .error 110
    | _ => .error 110

/-- What an expression may use: the symbols in scope and the offset of the current statement. -/
structure AsmEnv where
  syms : List (String × AVal)
  dot : AVal

/-- The value of an expression, or the rule it breaks (R95, R96, R110).
(DEDUCED, log 131) -/
def Expr.eval (env : AsmEnv) : Expr → Except Nat AVal
  | .num n => .ok (.ofNum (BitVec.ofNat 64 n))
  | .name s =>
    match env.syms.lookup s with
    | some v => .ok v
    | none => .error 95
  | .dot => .ok env.dot
  | .neg e => (e.eval env).map (·.scale (-1))
  | .not e =>
    match e.eval env with
    | .ok v => match v.plain? with
      | some n => .ok (.ofNum (~~~ n))
      | none => .error 110
    | .error r => .error r
  | .bin o x y =>
    match x.eval env, y.eval env with
    | .ok a, .ok b => binVal o a b
    | .error r, _ => .error r
    | _, .error r => .error r

/-- A plain number as a signed value; an address in such a place is an error (R110). -/
def Expr.plain (env : AsmEnv) (e : Expr) : Except Nat Int :=
  match e.eval env with
  | .ok v => match v.plain? with
    | some n => .ok n.toInt
    | none => .error 110
  | .error r => .error r

/-- A value of a field of w bits: -2^(w-1)..2^w - 1, stored modulo 2^w (R97). A 64-bit pattern with its top bit set is
one value whichever way it is read, so it fits a field of 64 bits. -/
def fitField (w : Nat) (v : Int) : Except Nat Nat :=
  if -(2 ^ (w - 1) : Int) ≤ v ∧ v ≤ 2 ^ w - 1 then .ok (v % 2 ^ w).toNat else .error 97

/-- A value in a range lo..hi that an entry or Table 02.2 gives. -/
def inRange (rule : Nat) (lo hi : Int) (v : Int) : Except Nat Nat :=
  if lo ≤ v ∧ v ≤ hi then .ok v.toNat else .error rule

/-- A floating literal in a format, rounded RNE; overflow is an error (R98). -/
def floatBits (f : FFmt) (neg : Bool) (m : Nat) (e : Int) : Except Nat Nat :=
  let x := if 0 ≤ e then Num.fin neg (m * 10 ^ e.toNat) 0 else divSticky neg m (10 ^ (-e).toNat) 0 stickyBits
  let r := f.finish .rne x
  if r.flags &&& fOF != 0 then .error 98 else .ok r.bits

end Sys2Proof.Machine
end

