-- ==== Sys2Proof/Machine/AsmForms.lean ====
section
/-! DEFINITION. The assembler's instruction forms (R92-R94): for each entry its modifiers with the bits they set, and its
operands with the fields they fill, in the order the entry writes them. -/

namespace Sys2Proof.Machine

/-- An operand field of the word. -/
inductive Fld where
  | d | a | b | c
  deriving DecidableEq, Repr

/-- What an operand of an entry is and where it goes (R93). -/
inductive ArgKind where
  /-- a register, the literal zero or a special register -/
  | reg (f : Fld)
  /-- a predicate field (R140) -/
  | pred (f : Fld)
  /-- a predicate in pm: bit 9 of the modifier word and m (R140) -/
  | predPm
  | stream (f : Fld)
  /-- a value of w bits in the low bits of a field (R97) -/
  | imm (f : Fld) (w : Nat)
  /-- a value 0..max that the entry states -/
  | number (f : Fld) (max : Nat)
  /-- a barrier number 0..15, 0..3 or 0..1 by the level in m (R204) -/
  | bar
  /-- a byte offset in units of the access size, field b (R193) -/
  | off
  /-- a byte offset in units of lines, field b (R196) -/
  | line
  /-- MOVI's immediate (R81) -/
  | imm32
  /-- a 30-bit clause-relative target in a, b and c (R173) -/
  | target
  /-- a 20-bit clause-relative offset in b and c (R174) -/
  | table
  /-- a 20-bit clause-relative offset in d and b (R180) -/
  | entry
  /-- a system register, field b (R182) -/
  | sys
  deriving DecidableEq, Repr

/-- A set of modifiers of which a line writes at most one: each sets bits of the modifier word and of m, and for GSCAN's
`.excl` of field b. Without one, the default holds, or the line is in error (R94). -/
structure ModGroup where
  alts : List (String × Nat × Nat × Nat)
  dflt : Option (Nat × Nat × Nat)
  deriving DecidableEq, Repr

/-- An entry's form: mnemonic, opcode, modifiers and operands. -/
structure AsmForm where
  name : String
  op : Nat
  mods : List ModGroup
  args : List ArgKind
  deriving DecidableEq, Repr

def oneOf (xs : List (String × Nat × Nat)) : ModGroup := ⟨xs.map fun x => (x.1, x.2.1, x.2.2, 0), none⟩
def optOf (xs : List (String × Nat × Nat)) : ModGroup := ⟨xs.map fun x => (x.1, x.2.1, x.2.2, 0), some (0, 0, 0)⟩
def flagMod (s : String) (c m : Nat) : ModGroup := optOf [(s, c, m)]
def exclMod : ModGroup := ⟨[("excl", 0, 0, 1)], some (0, 0, 0)⟩

/-- Table 04.5. -/
def allTypes : List (String × Nat) :=
  [("s8", 0), ("s16", 1), ("s32", 2), ("s64", 3), ("n8", 4), ("n16", 5), ("n32", 6), ("n64", 7)]
def signedTypes : List (String × Nat) := allTypes.take 4
def typeMod (xs : List (String × Nat)) (dflt : Option Nat) : ModGroup :=
  ⟨xs.map fun x => (x.1, x.2, 0, 0), dflt.map fun t => (t, 0, 0)⟩
/-- IADD and ISUB take `.x64` as a spelling of `.n64` (R144). -/
def intMod : ModGroup := typeMod (allTypes ++ [("x64", 7)]) (some 2)

/-- Rounding codes below a bound, in bits 5:3 of the modifier word; omitted, it is RNE (R94). -/
def rndMod (n : Nat) : ModGroup :=
  ⟨([("rne", 0, 0, 0), ("rz", 8, 0, 0), ("rdn", 16, 0, 0), ("rup", 24, 0, 0), ("sr", 32, 0, 0), ("rslot", 40, 0, 0)] :
    List (String × Nat × Nat × Nat)).take n, some (0, 0, 0)⟩
/-- Rounding in m (R156). -/
def rndM : ModGroup := optOf [("rne", 0, 0), ("rz", 0, 1), ("rdn", 0, 2), ("rup", 0, 3)]
/-- A format slot, bits 8:6 of the modifier word. -/
def slotMod : ModGroup :=
  oneOf [("fs0", 0, 0), ("fs1", 64, 0), ("fs2", 128, 0), ("fs3", 192, 0), ("fs4", 256, 0), ("fs5", 320, 0),
    ("fs6", 384, 0), ("fs7", 448, 0)]
/-- A code spread over bit 9 of the modifier word and m (R140). -/
def pmMod (xs : List String) : ModGroup :=
  oneOf ((List.range xs.length).zip xs |>.map fun x => (x.2, 512 * (x.1 / 4), x.1 % 4))
/-- A fence's scope, field b (R319). -/
def scopeMod : ModGroup :=
  ⟨[("team", 0, 0, 0), ("die", 0, 0, 1), ("pkg", 0, 0, 2), ("fab", 0, 0, 3)], none⟩

/-- Integer, shift, logic, move and predicate entries (R144-R155). -/
def formsInteger : List AsmForm :=
  [⟨"iadd", 0x001, [intMod, flagMod "sat" 0 1], [.reg .d, .reg .a, .reg .b]⟩,
   ⟨"isub", 0x002, [intMod, flagMod "sat" 0 1], [.reg .d, .reg .a, .reg .b]⟩,
   ⟨"iaddc", 0x003, [], [.reg .d, .reg .a, .reg .b, .predPm]⟩,
   ⟨"imul", 0x004, [typeMod allTypes (some 2), flagMod "sat" 0 1], [.reg .d, .reg .a, .reg .b]⟩,
   ⟨"imulh", 0x005, [typeMod allTypes (some 2)], [.reg .d, .reg .a, .reg .b]⟩,
   ⟨"imad", 0x006, [flagMod "x64" 0 1], [.reg .d, .reg .a, .reg .b, .reg .c]⟩,
   ⟨"imadw", 0x007, [oneOf [("s32", 0, 0), ("n32", 0, 1)]], [.reg .d, .reg .a, .reg .b, .reg .c]⟩,
   ⟨"imin", 0x008, [typeMod allTypes (some 2)], [.reg .d, .reg .a, .reg .b]⟩,
   ⟨"imax", 0x009, [typeMod allTypes (some 2)], [.reg .d, .reg .a, .reg .b]⟩,
   ⟨"iabs", 0x00A, [typeMod signedTypes (some 2), flagMod "sat" 0 1], [.reg .d, .reg .a]⟩,
   ⟨"ineg", 0x00B, [typeMod allTypes (some 2), flagMod "sat" 0 1], [.reg .d, .reg .a]⟩,
   ⟨"shl", 0x010, [flagMod "x64" 0 1], [.reg .d, .reg .a, .reg .b]⟩,
   ⟨"shr", 0x011, [flagMod "x64" 0 1], [.reg .d, .reg .a, .reg .b]⟩,
   ⟨"sar", 0x012, [flagMod "x64" 0 1], [.reg .d, .reg .a, .reg .b]⟩,
   ⟨"rotl", 0x013, [], [.reg .d, .reg .a, .reg .b]⟩,
   ⟨"and", 0x018, [flagMod "x64" 0 1], [.reg .d, .reg .a, .reg .b]⟩] ++
  [⟨"or", 0x019, [flagMod "x64" 0 1], [.reg .d, .reg .a, .reg .b]⟩,
   ⟨"xor", 0x01A, [flagMod "x64" 0 1], [.reg .d, .reg .a, .reg .b]⟩,
   ⟨"andn", 0x01B, [flagMod "x64" 0 1], [.reg .d, .reg .a, .reg .b]⟩,
   ⟨"not", 0x01C, [flagMod "x64" 0 1], [.reg .d, .reg .a]⟩,
   ⟨"lop3", 0x01D, [flagMod "x64" 0 1], [.reg .d, .reg .a, .reg .b, .imm .c 8]⟩,
   ⟨"popc", 0x020, [], [.reg .d, .reg .a]⟩,
   ⟨"clz", 0x021, [], [.reg .d, .reg .a]⟩,
   ⟨"ctz", 0x022, [], [.reg .d, .reg .a]⟩,
   ⟨"brev", 0x023, [], [.reg .d, .reg .a]⟩,
   ⟨"bfx", 0x024, [typeMod [("s32", 2), ("n32", 6)] (some 6)], [.reg .d, .reg .a, .reg .b]⟩,
   ⟨"bfi", 0x025, [], [.reg .d, .reg .a, .reg .b, .reg .c]⟩,
   ⟨"bperm", 0x026, [], [.reg .d, .reg .a, .reg .b, .reg .c]⟩,
   ⟨"iset", 0x028, [typeMod allTypes (some 2), pmMod ["eq", "ne", "lt", "le", "gt", "ge"]], [.pred .d, .reg .a, .reg .b]⟩,
   ⟨"sel", 0x029, [], [.reg .d, .reg .a, .reg .b, .predPm]⟩,
   ⟨"mov", 0x02A, [flagMod "x64" 0 1], [.reg .d, .reg .a]⟩,
   ⟨"movi", 0x02B, [], [.reg .d, .imm32]⟩] ++
  [⟨"pset", 0x02C, [pmMod ["and", "or", "xor", "andn", "orn", "nand", "nor", "xnor"]], [.pred .d, .pred .a, .pred .b]⟩,
   ⟨"pmov", 0x02D, [oneOf [("get", 0, 0)]], [.reg .d]⟩,
   ⟨"pmov", 0x02D, [oneOf [("set", 0, 1)]], [.reg .a]⟩]

/-- FP32, packed-half, FP64 and conversion entries (R156-R171). -/
def formsFloat : List AsmForm :=
  [⟨"fadd", 0x040, [rndMod 5], [.reg .d, .reg .a, .reg .b]⟩,
   ⟨"fsub", 0x041, [rndMod 5], [.reg .d, .reg .a, .reg .b]⟩,
   ⟨"fmul", 0x042, [rndMod 5], [.reg .d, .reg .a, .reg .b]⟩,
   ⟨"ffma", 0x043, [rndM], [.reg .d, .reg .a, .reg .b, .reg .c]⟩,
   ⟨"fmin", 0x044, [], [.reg .d, .reg .a, .reg .b]⟩,
   ⟨"fmax", 0x045, [], [.reg .d, .reg .a, .reg .b]⟩,
   ⟨"fset", 0x046, [pmMod ["eq", "ne", "lt", "le", "gt", "ge", "num", "nan"]], [.pred .d, .reg .a, .reg .b]⟩,
   ⟨"fclass", 0x047, [optOf [("f16", 0, 1), ("bf16", 0, 2)]], [.reg .d, .reg .a]⟩,
   ⟨"frnd", 0x048, [rndMod 4, flagMod "exact" 0 1], [.reg .d, .reg .a]⟩,
   ⟨"frcp", 0x050, [rndMod 5], [.reg .d, .reg .a]⟩,
   ⟨"frsq", 0x051, [rndMod 5], [.reg .d, .reg .a]⟩,
   ⟨"fsqrt", 0x052, [rndMod 5], [.reg .d, .reg .a]⟩,
   ⟨"fdiv", 0x053, [rndMod 5], [.reg .d, .reg .a, .reg .b]⟩,
   ⟨"fex2", 0x054, [], [.reg .d, .reg .a]⟩,
   ⟨"flg2", 0x055, [], [.reg .d, .reg .a]⟩,
   ⟨"fsin", 0x056, [], [.reg .d, .reg .a]⟩] ++
  [⟨"fcos", 0x057, [], [.reg .d, .reg .a]⟩,
   ⟨"ftanh", 0x058, [], [.reg .d, .reg .a]⟩,
   ⟨"hadd2", 0x060, [optOf [("f16", 0, 0), ("bf16", 0, 1)], rndMod 5], [.reg .d, .reg .a, .reg .b]⟩,
   ⟨"hmul2", 0x061, [optOf [("f16", 0, 0), ("bf16", 0, 1)], rndMod 5], [.reg .d, .reg .a, .reg .b]⟩,
   ⟨"hfma2", 0x062, [optOf [("f16", 0, 0), ("bf16", 0, 1)], optOf [("rne", 0, 0), ("rz", 0, 2)]], [.reg .d, .reg .a, .reg .b, .reg .c]⟩,
   ⟨"dadd", 0x080, [rndMod 5], [.reg .d, .reg .a, .reg .b]⟩,
   ⟨"dmul", 0x081, [rndMod 5], [.reg .d, .reg .a, .reg .b]⟩,
   ⟨"dfma", 0x082, [rndM], [.reg .d, .reg .a, .reg .b, .reg .c]⟩,
   ⟨"dmin", 0x083, [], [.reg .d, .reg .a, .reg .b]⟩,
   ⟨"dmax", 0x084, [], [.reg .d, .reg .a, .reg .b]⟩,
   ⟨"dset", 0x085, [pmMod ["eq", "ne", "lt", "le", "gt", "ge", "num", "nan"]], [.pred .d, .reg .a, .reg .b]⟩,
   ⟨"drcp", 0x086, [rndMod 5], [.reg .d, .reg .a]⟩,
   ⟨"cvt", 0x0A0, [slotMod, pmMod ["from_fp32", "from_fp16", "from_bf16", "from_fp64", "from_s32", "from_n32", "from_s64", "from_n64"], rndMod 6], [.reg .d, .reg .a]⟩,
   ⟨"qnt", 0x0A1, [slotMod, rndMod 6], [.reg .d, .reg .a, .reg .b]⟩,
   ⟨"dqnt", 0x0A2, [slotMod, rndMod 6], [.reg .d, .reg .a, .reg .b]⟩,
   ⟨"pack", 0x0A3, [slotMod, oneOf [("from_fp32", 0, 0), ("from_s32", 0, 1), ("from_n32", 0, 2)], rndMod 6], [.reg .d, .reg .a]⟩] ++
  [⟨"unpk", 0x0A4, [slotMod, oneOf [("to_fp32", 0, 0), ("to_int", 0, 1)]], [.reg .d, .reg .a]⟩]

/-- Group collectives and scratch and tile-store entries (R193-R203). -/
def formsGroup : List AsmForm :=
  [⟨"gvote", 0x0C0, [oneOf [("all", 0, 0), ("any", 0, 1), ("uni", 0, 2)]], [.pred .d, .pred .a]⟩,
   ⟨"gvote", 0x0C0, [oneOf [("ballot", 0, 3)]], [.reg .d, .pred .a]⟩,
   ⟨"gshfl", 0x0C1, [oneOf [("idx", 0, 0), ("up", 0, 1), ("down", 0, 2), ("xor", 0, 3)], flagMod "x64" 512 0], [.reg .d, .reg .a, .reg .b]⟩,
   ⟨"gred", 0x0C2, [oneOf [("add", 0, 0), ("min", 0, 1), ("max", 0, 2), ("and", 0, 3), ("or", 512, 0)], typeMod allTypes (some 2)], [.reg .d, .reg .a]⟩,
   ⟨"gred", 0x0C2, [oneOf [("fadd", 512, 1)], rndMod 4], [.reg .d, .reg .a]⟩,
   ⟨"gred", 0x0C2, [oneOf [("fmin", 512, 2), ("fmax", 512, 3)]], [.reg .d, .reg .a]⟩,
   ⟨"gscan", 0x0C3, [oneOf [("add", 0, 0), ("min", 0, 1), ("max", 0, 2), ("and", 0, 3), ("or", 512, 0)], typeMod allTypes (some 2), exclMod], [.reg .d, .reg .a]⟩,
   ⟨"gscan", 0x0C3, [oneOf [("fadd", 512, 1)], rndMod 4, exclMod], [.reg .d, .reg .a]⟩,
   ⟨"gscan", 0x0C3, [oneOf [("fmin", 512, 2), ("fmax", 512, 3)], exclMod], [.reg .d, .reg .a]⟩,
   ⟨"gelect", 0x0C4, [], [.reg .d, .pred .a]⟩,
   ⟨"gmatch", 0x0C5, [flagMod "x64" 0 1], [.reg .d, .reg .a, .pred .b]⟩,
   ⟨"lds", 0x0E0, [typeMod allTypes none], [.reg .d, .reg .a, .off]⟩,
   ⟨"lds", 0x0E0, [oneOf [("b128", 512, 0)]], [.reg .d, .reg .a, .off]⟩,
   ⟨"ldt", 0x0E8, [typeMod allTypes none], [.reg .d, .reg .a, .off]⟩,
   ⟨"ldt", 0x0E8, [oneOf [("b128", 512, 0)]], [.reg .d, .reg .a, .off]⟩,
   ⟨"sts", 0x0E1, [typeMod allTypes none, optOf [("ewr", 0, 1), ("fill", 0, 2)]], [.reg .a, .off, .reg .d]⟩] ++
  [⟨"sts", 0x0E1, [oneOf [("b128", 512, 0)], optOf [("ewr", 0, 1), ("fill", 0, 2)]], [.reg .a, .off, .reg .d]⟩,
   ⟨"stt", 0x0E9, [typeMod allTypes none, optOf [("ewr", 0, 1), ("fill", 0, 2)]], [.reg .a, .off, .reg .d]⟩,
   ⟨"stt", 0x0E9, [oneOf [("b128", 512, 0)], optOf [("ewr", 0, 1), ("fill", 0, 2)]], [.reg .a, .off, .reg .d]⟩,
   ⟨"atoms", 0x0E2, [oneOf [("add", 0, 0), ("min", 0, 1), ("max", 0, 2), ("and", 0, 3), ("or", 512, 0), ("xor", 512, 1), ("swap", 512, 2)], typeMod [("s32", 2), ("s64", 3), ("n32", 6), ("n64", 7)] none], [.reg .d, .reg .a, .reg .b]⟩,
   ⟨"atoms", 0x0E2, [oneOf [("fadd", 512, 3)], rndMod 4], [.reg .d, .reg .a, .reg .b]⟩,
   ⟨"cass", 0x0E3, [flagMod "x64" 0 1], [.reg .d, .reg .a, .reg .b, .reg .c]⟩,
   ⟨"waitf", 0x0F0, [flagMod "t" 0 1, flagMod "empty" 0 2], [.reg .a, .line]⟩,
   ⟨"markf", 0x0F1, [flagMod "t" 0 1], [.reg .a, .line]⟩,
   ⟨"marke", 0x0F2, [flagMod "t" 0 1], [.reg .a, .line]⟩,
   ⟨"probef", 0x0F3, [flagMod "t" 0 1], [.pred .d, .reg .a, .line]⟩]

/-- Barriers, queues, multicast arming and streams (R204-R210). -/
def formsLocal : List AsmForm :=
  [⟨"bar", 0x100, [oneOf [("team", 0, 0), ("clus", 0, 1), ("grid", 0, 2)]], [.bar]⟩,
   ⟨"bara", 0x101, [oneOf [("team", 0, 0), ("clus", 0, 1), ("grid", 0, 2)]], [.reg .d, .bar]⟩,
   ⟨"barw", 0x102, [oneOf [("team", 0, 0), ("clus", 0, 1), ("grid", 0, 2)]], [.bar, .reg .a]⟩,
   ⟨"barq", 0x103, [oneOf [("team", 0, 0), ("clus", 0, 1), ("grid", 0, 2)]], [.pred .d, .bar, .reg .a]⟩,
   ⟨"qput", 0x108, [], [.number .b 3, .reg .a]⟩,
   ⟨"qget", 0x109, [], [.reg .d, .number .b 3]⟩,
   ⟨"qpeek", 0x10A, [], [.reg .d, .number .b 3]⟩,
   ⟨"mcarm", 0x110, [], [.number .b 3]⟩,
   ⟨"sopen", 0x120, [], [.stream .d, .reg .a]⟩,
   ⟨"sadv", 0x121, [], [.stream .d, .reg .a]⟩,
   ⟨"stend", 0x122, [], [.pred .d, .stream .a]⟩,
   ⟨"sclose", 0x123, [], [.stream .d]⟩,
   ⟨"scrd", 0x124, [oneOf [("coord", 0, 0), ("val", 0, 1), ("pos", 0, 2), ("len", 0, 3)]], [.reg .d, .stream .a]⟩,
   ⟨"sisect", 0x125, [], [.reg .d, .stream .a, .stream .b]⟩,
   ⟨"sunion", 0x126, [], [.reg .d, .stream .a, .stream .b]⟩]

/-- Engine entries (R299-R321). -/
def formsEngine : List AsmForm :=
  [⟨"cpost", 0x140, [], [.reg .d, .reg .a]⟩,
   ⟨"vgath", 0x141, [], [.reg .d, .reg .a, .reg .b, .reg .c]⟩,
   ⟨"vscat", 0x142, [], [.reg .d, .reg .a, .reg .b, .reg .c]⟩,
   ⟨"vscatr", 0x143, [], [.reg .d, .reg .a, .reg .b, .reg .c]⟩,
   ⟨"ocall", 0x144, [flagMod "comb" 0 1, flagMod "a2" 0 2], [.reg .d, .reg .a, .reg .b, .reg .c]⟩,
   ⟨"ocalln", 0x145, [flagMod "comb" 0 1, flagMod "a2" 0 2], [.reg .d, .reg .a, .reg .c]⟩,
   ⟨"cfence", 0x150, [oneOf [("rel", 0, 0), ("acq", 0, 1), ("full", 0, 2)], scopeMod], [.reg .d, .imm .a 8]⟩,
   ⟨"cwaitt", 0x151, [flagMod "rel" 0 1], [.reg .d, .reg .a]⟩,
   ⟨"cstat", 0x152, [flagMod "rel" 0 1], [.reg .d, .reg .a]⟩,
   ⟨"ccancel", 0x153, [], [.reg .d, .reg .a]⟩,
   ⟨"mpost", 0x180, [oneOf [("1x4", 0, 0), ("2x2", 0, 1), ("4x1", 0, 2), ("ind", 0, 3)]], [.reg .d, .reg .a]⟩,
   ⟨"mzero", 0x181, [], [.reg .d, .reg .a]⟩,
   ⟨"mcvt", 0x182, [], [.reg .d, .reg .a]⟩]

/-- Control, idempotent-region and system entries (R172-R186). -/
def formsControl : List AsmForm :=
  [⟨"bra", 0x1A0, [], [.target]⟩,
   ⟨"brx", 0x1A1, [], [.reg .a, .table]⟩,
   ⟨"call", 0x1A2, [], [.target]⟩,
   ⟨"callx", 0x1A3, [], [.reg .a]⟩,
   ⟨"ret", 0x1A4, [], []⟩,
   ⟨"exit", 0x1A5, [], []⟩,
   ⟨"trap", 0x1A6, [], [.number .b 1023]⟩,
   ⟨"bkpt", 0x1A7, [], [.number .b 1023]⟩,
   ⟨"nop", 0x1A8, [], []⟩,
   ⟨"yield", 0x1A9, [], []⟩,
   ⟨"idembeg", 0x1AA, [], [.reg .a, .entry]⟩,
   ⟨"idemend", 0x1AB, [], []⟩,
   ⟨"mfsr", 0x1C0, [], [.reg .d, .sys]⟩,
   ⟨"mtsr", 0x1C1, [], [.sys, .reg .a]⟩,
   ⟨"rngx", 0x1C2, [], [.reg .d, .reg .a, .reg .b, .reg .c]⟩,
   ⟨"pmark", 0x1C3, [], [.reg .a]⟩]

def asmForms : List AsmForm :=
  formsInteger ++ formsFloat ++ formsGroup ++ formsLocal ++ formsEngine ++ formsControl

/-- The opcode of a mnemonic, written in lower case. -/
def mnemonicOp (s : String) : Option Nat := (asmForms.find? fun f => f.name == s).map (·.op)

/-- The bits that a line's modifiers set in the modifier word, m and field b: each modifier belongs to one set, and a set
gives at most one (R92, R94).
(DEDUCED, log 128) -/
def modBits (gs : List ModGroup) (sufs : List String) : Option (Nat × Nat × Nat) :=
  if sufs.all fun s => gs.any fun g => (g.alts.lookup s).isSome then
    gs.foldl (init := some (0, 0, 0)) fun acc g =>
      acc.bind fun t =>
        let pick := match sufs.filter fun s => (g.alts.lookup s).isSome with
          | [] => g.dflt
          | [s] => g.alts.lookup s
          | _ => none
        pick.map fun x => (t.1 + x.1, t.2.1 + x.2.1, t.2.2 + x.2.2)
  else none

/-- The rule of each opcode's entry, by the last opcode of a run that has it. -/
def entryRules : List (Nat × Nat) :=
  [(0x002, 144), (0x003, 145), (0x005, 144), (0x007, 146), (0x00B, 144), (0x013, 147), (0x01D, 148), (0x023, 149)] ++
  [(0x025, 150), (0x026, 151), (0x028, 152), (0x02A, 153), (0x02B, 81), (0x02C, 154), (0x02D, 155), (0x043, 156)] ++
  [(0x045, 158), (0x046, 159), (0x047, 160), (0x048, 161), (0x053, 162), (0x058, 163), (0x062, 164), (0x086, 165)] ++
  [(0x0A0, 166), (0x0A1, 167), (0x0A2, 168), (0x0A3, 169), (0x0A4, 170), (0x0C0, 199), (0x0C1, 200), (0x0C3, 201)] ++
  [(0x0C4, 202), (0x0C5, 203), (0x0E1, 193), (0x0E2, 194), (0x0E3, 195), (0x0E9, 193), (0x0F3, 196), (0x103, 204)] ++
  [(0x10A, 206), (0x110, 207), (0x124, 209), (0x126, 210), (0x140, 310), (0x142, 316), (0x143, 317), (0x145, 318)] ++
  [(0x150, 319), (0x152, 321), (0x153, 248), (0x180, 311), (0x181, 312), (0x182, 313), (0x1A0, 173), (0x1A1, 174)] ++
  [(0x1A2, 173), (0x1A3, 175), (0x1A4, 176), (0x1A5, 177), (0x1A7, 178), (0x1A9, 179), (0x1AA, 180), (0x1AB, 181)] ++
  [(0x1C1, 182), (0x1C2, 186), (0x1C3, 185)]

def entryRule (op : Nat) : Nat := ((entryRules.find? fun x => decide (op ≤ x.1)).map (·.2)).getD 88

/-- The rule that a line's modifiers break where no form of its entry takes them: a rounding `.rslot` where no slot is
named breaks R80, another type or rounding the entry's own rule, a suffix that no form of the entry has breaks R92, a
modifier that may not be left out R94, and modifiers that do not stand together the entry's rule.
(DESIGN CHOICE, log 196) -/
def suffixRule (op : Nat) (fs : List AsmForm) (sufs : List String) : Nat :=
  let has (gs : List ModGroup) (s : String) : Bool := gs.any fun g => (g.alts.lookup s).isSome
  let all := fs.flatMap (·.mods)
  let types := allTypes.map (·.1)
  let rounds := ["rne", "rz", "rdn", "rup", "sr", "rslot"]
  match sufs.find? fun s => !has all s with
  | some s =>
    if s == "rslot" && has all "rne" then 80
    else if types.contains s && types.any (has all) then entryRule op
    else if rounds.contains s && has all "rne" then entryRule op
    else 92
  | none =>
    let misses (f : AsmForm) : Bool :=
      sufs.all (has f.mods) && f.mods.all fun g => (sufs.filter fun s => (g.alts.lookup s).isSome).length ≤ 1
    if fs.any misses then 94 else entryRule op

/-! ### Operands -/

/-- An operand as the line writes it (R93, R98). -/
inductive AsmArg where
  | field (x : BitVec 10)
  | pred (p : BitVec 3)
  | stream (f : BitVec 3)
  | sys (n : Nat)
  | flt (neg : Bool) (m : Nat) (e : Int)
  | expr (e : Expr)
  deriving DecidableEq, Repr

/-- An instruction line (R92). -/
structure AsmInstr where
  psel : BitVec 3
  pneg : BitVec 1
  name : String
  mods : List String
  args : List AsmArg
  ctr : BitVec 3
  la : BitVec 4
  retain : BitVec 2
  deriving DecidableEq, Repr

def orField (f : Fields) (g : Fld) (x : BitVec 10) : Fields :=
  match g with
  | .d => { f with d := f.d ||| x }
  | .a => { f with a := f.a ||| x }
  | .b => { f with b := f.b ||| x }
  | .c => { f with c := f.c ||| x }

/-- The access size of a load or store, from its modifier word (R193). -/
def accessSize (c : BitVec 10) : Nat := if c.getLsbD 9 then 16 else 2 ^ (c.toNat % 4)

/-- A byte offset in units of z bytes, a multiple of z in -512 × z..511 × z (R193, R196). -/
def scaledOff (rule z : Nat) (v : Int) : Except Nat (BitVec 10) :=
  if v % z = 0 ∧ -512 * (z : Int) ≤ v ∧ v ≤ 511 * (z : Int) then .ok (BitVec.ofInt 10 (v / z)) else .error rule

/-- The signed clause-relative offset of a target in words of 8 bytes, w bits wide (R173, R174, R180). The target is an
offset in the kernel's own segment; `own` is that segment and `base` the offset of the instruction's clause.
(DEDUCED, log 140) -/
def relOff (rule w : Nat) (own : Seg) (base : Nat) (v : AVal) : Except Nat (BitVec w) :=
  let t : Except Nat Int := match v.plain?, v.addr? with
    | some n, _ => .ok n.toInt
    | none, some (g, n) => if g = own then .ok n.toInt else .error 110
    | none, none => .error 110
  match t with
  | .error r => .error r
  | .ok t =>
    let d := t - base
    if d % 8 = 0 ∧ -(2 ^ (w - 1) : Int) ≤ d / 8 ∧ d / 8 < 2 ^ (w - 1) then .ok (BitVec.ofInt w (d / 8)) else .error rule

/-- Where an instruction stands. -/
structure AsmPlace where
  env : AsmEnv
  own : Seg
  base : Nat

/-- Puts one operand into its fields (R93, R97). -/
def placeArg (pl : AsmPlace) (f : Fields) (k : ArgKind) (x : AsmArg) : Except Nat Fields :=
  let value (e : Expr) (go : Int → Except Nat Fields) : Except Nat Fields :=
    match e.plain pl.env with
    | .ok v => go v
    | .error r => .error r
  let rel (e : Expr) (rule w : Nat) (go : BitVec w → Fields) : Except Nat Fields :=
    match e.eval pl.env with
    | .ok v => (relOff rule w pl.own pl.base v).map go
    | .error r => .error r
  match k, x with
  | .reg g, .field r => .ok (orField f g r)
  | .pred g, .pred p => .ok (orField f g (bits3 p))
  | .predPm, .pred p => .ok { orField f .c (cPm p) with m := f.m ||| low2 p }
  | .stream g, .stream s => .ok (orField f g (bits3 s))
  | .imm g w, .expr e => value e fun v => (fitField w v).map fun n => orField f g (BitVec.ofNat 10 n)
  | .number g hi, .expr e => value e fun v => (inRange 97 0 hi v).map fun n => orField f g (BitVec.ofNat 10 n)
  | .bar, .expr e =>
    value e fun v => (inRange 204 0 (if f.m = 0 then 15 else if f.m = 1 then 3 else 1) v).map fun n =>
      orField f .b (BitVec.ofNat 10 n)
  | .off, .expr e => value e fun v => (scaledOff 193 (accessSize f.c) v).map fun n => orField f .b n
  | .line, .expr e => value e fun v => (scaledOff 196 128 v).map fun n => orField f .b n
  | .imm32, .expr e =>
    value e fun v => (fitField 32 v).map fun n =>
      let w := BitVec.ofNat 32 n
      { f with m := w.extractLsb' 30 2, a := w.extractLsb' 20 10, b := w.extractLsb' 10 10, c := w.extractLsb' 0 10 }
  | .imm32, .flt neg m e =>
    (floatBits fp32 neg m e).map fun n =>
      let w := BitVec.ofNat 32 n
      { f with m := w.extractLsb' 30 2, a := w.extractLsb' 20 10, b := w.extractLsb' 10 10, c := w.extractLsb' 0 10 }
  | .target, .expr e =>
    rel e 173 30 fun w => { f with a := w.extractLsb' 20 10, b := w.extractLsb' 10 10, c := w.extractLsb' 0 10 }
  | .table, .expr e => rel e 174 20 fun w => { f with b := w.extractLsb' 10 10, c := w.extractLsb' 0 10 }
  | .entry, .expr e => rel e 180 20 fun w => { f with d := w.extractLsb' 10 10, b := w.extractLsb' 0 10 }
  | .sys, .sys n => .ok (orField f .b (BitVec.ofNat 10 n))
  | _, .flt .. => .error 98
  | _, _ => .error 93

def placeArgs (pl : AsmPlace) (f : Fields) : List ArgKind → List AsmArg → Except Nat Fields
  | [], [] => .ok f
  | k :: ks, x :: xs =>
    match placeArg pl f k x with
    | .ok g => placeArgs pl g ks xs
    | .error r => .error r
  | _, _ => .error 93

/-- The word of an instruction line, or the rule it breaks (R92-R98, R111). -/
def AsmInstr.word (i : AsmInstr) (pl : AsmPlace) : Except Nat DWord :=
  let fs := asmForms.filter fun f => f.name == i.name
  match fs.findSome? fun f => (modBits f.mods i.mods).map fun b => (f, b) with
  | none => .error (((fs.head?).map fun f => suffixRule f.op fs i.mods).getD 92)
  | some (f, c, m, b) =>
    let w : Fields :=
      { op := BitVec.ofNat 9 f.op, pneg := i.pneg, psel := i.psel, d := 0, a := 0, b := BitVec.ofNat 10 b,
        c := BitVec.ofNat 10 c, retain := i.retain, la := i.la, ctr := i.ctr, m := BitVec.ofNat 2 m }
    (placeArgs pl w f.args i.args).map Fields.join

/-! ### Instruction lines -/

/-- A mnemonic and its modifiers: the parts of a name between full stops, in lower case. -/
def splitDots : List Char → List Char → List String
  | [], cur => [String.ofList cur.reverse]
  | '.' :: cs, cur => String.ofList cur.reverse :: splitDots cs []
  | c :: cs, cur => splitDots cs (c.toLower :: cur)

/-- One operand: a name of R93, a floating literal with its sign (R98) or an expression. -/
def parseArg (ts : List Tok) : Option (AsmArg × List Tok) :=
  match ts with
  | .flt m e :: r => some (.flt false m e, r)
  | .sym '-' :: .flt m e :: r => some (.flt true m e, r)
  | .id s :: r =>
    let l := lowerOf s
    match regField l, predCode l, streamCode l, nameIndex sysNames l with
    | some x, _, _, _ => some (.field x, r)
    | _, some p, _, _ => some (.pred p, r)
    | _, _, some f, _ => some (.stream f, r)
    | _, _, _, some n => some (.sys n, r)
    | _, _, _, _ => (parseExpr ts).map fun x => (.expr x.1, x.2)
  | _ => (parseExpr ts).map fun x => (.expr x.1, x.2)

/-- Operands with commas between them, none at the end of the line or before an annotation. -/
def parseArgs : Nat → List Tok → Option (List AsmArg × List Tok)
  | 0, _ => none
  | n + 1, ts =>
    match parseArg ts with
    | some (a, .sym ',' :: r) => (parseArgs n r).map fun x => (a :: x.1, x.2)
    | some (a, r) => some ([a], r)
    | none => none

/-- The annotations, in any order and each at most once (R92); the lookahead is an integer literal.
(DESIGN CHOICE, log 188) -/
def parseNotes : Nat → List Tok → AsmInstr → List String → Except Nat AsmInstr
  | 0, _, _, _ => .error 92
  | _, [], i, _ => .ok i
  | n + 1, .id k :: .sym '=' :: r, i, seen =>
    let key := lowerOf k
    if seen.contains key then .error 92
    else if key == "ld" then
      match r with
      | .id v :: r =>
        match counterCode (lowerOf v) with
        | some c => parseNotes n r { i with ctr := c } (key :: seen)
        | none => .error 92
      | _ => .error 92
    else if key == "la" then
      match r with
      | .num v :: r => if v < 16 then parseNotes n r { i with la := BitVec.ofNat 4 v } (key :: seen) else .error 92
      | _ => .error 92
    else if key == "keep" then
      match r with
      | .id v :: r =>
        match nameIndex ["a", "b", "c"] (lowerOf v) with
        | some c => parseNotes n r { i with retain := BitVec.ofNat 2 (c + 1) } (key :: seen)
        | none => .error 92
      | _ => .error 92
    else .error 92
  | _, _, _, _ => .error 92

/-- An instruction after its guard. -/
def parseInstrBody (psel : BitVec 3) (pneg : BitVec 1) (ts : List Tok) : Except Nat AsmInstr :=
  match ts with
  | .id s :: r =>
    match splitDots s.toList [] with
    | name :: mods =>
      if (mnemonicOp name).isNone then .error 92
      else
        let i : AsmInstr := ⟨psel, pneg, name, mods, [], 0, 0, 0⟩
        match r with
        | [] => .ok i
        | .id _ :: .sym '=' :: _ => parseNotes (r.length + 1) r i []
        | _ =>
          match parseArgs (r.length + 1) r with
          | some (as, r) => parseNotes (r.length + 1) r { i with args := as } []
          | none => .error 93
    | [] => .error 92
  | _ => .error 92

/-- An instruction line: `(guard) OPC.mod.mod d, a, b, c ld=kj la=L keep=x` (R92). -/
def parseInstr (ts : List Tok) : Except Nat AsmInstr :=
  match ts with
  | .sym '(' :: .id p :: .sym ')' :: r =>
    match predCode (lowerOf p) with
    | some c => parseInstrBody c 0 r
    | none => .error 92
  | .sym '(' :: .sym '!' :: .id p :: .sym ')' :: r =>
    match predCode (lowerOf p) with
    | some c => if c = 7 then .error 92 else parseInstrBody c 1 r
    | none => .error 92
  | _ => parseInstrBody 7 0 ts

end Sys2Proof.Machine
end

