-- ==== Sys2Proof/Machine/AsmLayout.lean ====
section
/-! DEFINITION. The assembler's statements and its first pass (R91, R95, R99-R101, R104-R108): it forms clauses, places raw
data and padding, and gives every label its offset. -/

namespace Sys2Proof.Machine

/-! ### Statements -/

/-- A value of a data directive: a floating literal or an expression (R98, R108). -/
inductive DataVal where
  | flt (neg : Bool) (m : Nat) (e : Int)
  | expr (e : Expr)
  deriving DecidableEq, Repr

/-- A statement (R91). The keywords of `.team`, `.cluster` and `.grid` carry their values as a list (Table 05.1). -/
inductive Stmt where
  | instr (i : AsmInstr)
  | kernel (name : String)
  | fin
  | width (w : Expr)
  | role (name : String) (groups regs : Expr)
  | keys (dir : String) (kvs : List (String × List Expr))
  | coresident
  | stack (n : Expr)
  | slotVal (i e : Expr)
  | slotKeys (i : Expr) (kvs : List (String × List Expr))
  | param (name : String) (size : Expr) (align : Option Expr)
  | clause (wait : Nat) (yield : Bool) (cls : Option Nat)
  | align (n : Expr)
  | word (size : Nat) (vals : List DataVal)
  | bytes (vals : List DataVal)
  deriving DecidableEq, Repr

/-- What stands between two `key=value` pairs: nothing, and the value may be a list; a comma, or a comma or nothing, and
it is one expression (Table 05.1). -/
inductive KeySep where
  | space | comma | either
  deriving DecidableEq, Repr

/-- `key=value` pairs, at least one. No key may come twice (R105).
(DESIGN CHOICE, log 189) -/
def parseKeys (sep : KeySep) : Nat → List Tok → List String → Option (List (String × List Expr))
  | 0, _, _ => none
  | n + 1, .id k :: .sym '=' :: r, seen =>
    let key := lowerOf k
    if seen.contains key then none
    else
      let one : Option (List Expr × List Tok) :=
        if sep = .space then parseExprs (r.length + 1) r else (parseExpr r).map fun x => ([x.1], x.2)
      match one with
      | none => none
      | some (vs, []) => some [(key, vs)]
      | some (vs, .sym ',' :: r) => if sep = .space then none else (parseKeys sep n r (key :: seen)).map ((key, vs) :: ·)
      | some (vs, r) => if sep = .comma then none else (parseKeys sep n r (key :: seen)).map ((key, vs) :: ·)
  | _, _, _ => none

/-- `k1,k3`, …: counters as bits of the header's wait field, with k1 as bit 0 (R101, Table 04.1). -/
def parseWaits : Nat → List Tok → Option (Nat × List Tok)
  | 0, _ => none
  | n + 1, .id k :: r =>
    match counterCode (lowerOf k) with
    | none => none
    | some c =>
      let bit := 2 ^ (c.toNat - 1)
      match r with
      | .sym ',' :: r => (parseWaits n r).map fun x => (x.1 ||| bit, x.2)
      | _ => some (bit, r)
  | _, _ => none

/-- The options of `.clause`, each at most once (R101); the class is an integer literal. -/
def parseClause : Nat → List Tok → Option Nat → Bool → Option Nat → Option Stmt
  | 0, _, _, _, _ => none
  | _, [], w, y, c => some (.clause (w.getD 0) y c)
  | n + 1, .id k :: r, w, y, c =>
    let key := lowerOf k
    if key == "yield" then (if y then none else parseClause n r w true c)
    else if key == "wait" then
      match w, r with
      | none, .sym '=' :: r => (parseWaits (r.length + 1) r).bind fun x => parseClause n x.2 (some x.1) y c
      | _, _ => none
    else if key == "class" then
      match c, r with
      | none, .sym '=' :: .num v :: r => if v ≤ 4 then parseClause n r w y (some v) else none
      | _, _ => none
    else none
  | _, _, _, _, _ => none

/-- The values of `.word` and `.bytes`, at least one (R98, R108). -/
def parseVals : Nat → List Tok → Option (List DataVal)
  | 0, _ => none
  | n + 1, ts =>
    let one : Option (DataVal × List Tok) := match ts with
      | .flt m e :: r => some (.flt false m e, r)
      | .sym '-' :: .flt m e :: r => some (.flt true m e, r)
      | _ => (parseExpr ts).map fun x => (.expr x.1, x.2)
    match one with
    | some (v, .sym ',' :: r) => (parseVals n r).map (v :: ·)
    | some (v, []) => some [v]
    | _ => none

/-- One expression that ends the line. -/
def wholeExpr (ts : List Tok) : Option Expr :=
  match parseExpr ts with
  | some (e, []) => some e
  | _ => none

/-- A directive; the rule named in an error is the directive's own (Table 05.1, R101, R107, R108). -/
def parseDirective (d : String) (ts : List Tok) : Except Nat Stmt :=
  let need (rule : Nat) (x : Option Stmt) : Except Nat Stmt := match x with
    | some s => .ok s
    | none => .error rule
  let n := ts.length + 1
  if d == ".kernel" then
    need 105 (match ts with | [.id s] => some (.kernel s) | _ => none)
  else if d == ".end" then need 105 (if ts.isEmpty then some .fin else none)
  else if d == ".width" then need 105 ((wholeExpr ts).map .width)
  else if d == ".role" then
    need 105 (match ts with
      | .id s :: .sym ',' :: r =>
        (parseKeys .comma n r []).bind fun kvs =>
          match kvs.lookup "groups", kvs.lookup "regs" with
          | some [g], some [b] => if kvs.length = 2 then some (.role s g b) else none
          | _, _ => none
      | _ => none)
  else if d == ".team" || d == ".cluster" || d == ".grid" then
    need 105 ((parseKeys .space n ts []).map (.keys d))
  else if d == ".coresident" then need 105 (if ts.isEmpty then some .coresident else none)
  else if d == ".stack" then need 105 ((wholeExpr ts).map .stack)
  else if d == ".slot" then
    need 105 (match parseExpr ts with
      | some (i, .sym ',' :: r) =>
        match r with
        | .id _ :: .sym '=' :: _ => (parseKeys .either n r []).map (.slotKeys i)
        | _ => (wholeExpr r).map (.slotVal i)
      | _ => none)
  else if d == ".param" then
    need 106 (match ts with
      | .id s :: .sym ',' :: r =>
        match parseExpr r with
        | some (e, []) => some (.param s e none)
        | some (e, .sym ',' :: r) => (wholeExpr r).map fun a => .param s e (some a)
        | _ => none
      | _ => none)
  else if d == ".clause" then need 101 (parseClause n ts none false none)
  else if d == ".align" then need 107 ((wholeExpr ts).map .align)
  else if d == ".word" then
    need 108 (match ts with
      | .id k :: .sym '=' :: .num s :: .sym ',' :: r =>
        if lowerOf k == "size" && (s == 4 || s == 8) then (parseVals n r).map (.word s) else none
      | _ => (parseVals n ts).map (.word 4))
  else need 108 ((parseVals n ts).map .bytes)

/-- A line's label and statement (R91). -/
structure AsmLine where
  label : Option String
  stmt : Option Stmt
  deriving DecidableEq, Repr

/-- A name may be a symbol (R95). -/
def symbolOk (s : String) : Bool := !reservedName (lowerOf s) && (mnemonicOp (lowerOf s)).isNone

/-- Every floating literal of the tokens is a whole value: it opens one, behind at most a minus sign, and no operator
follows it (R98). `start` says that a value may begin here. -/
def floatsWhole : Bool → List Tok → Bool
  | _, [] => true
  | start, .flt _ _ :: r =>
    start && (match r with
      | [] | .sym ',' :: _ | .id _ :: _ => true
      | _ => false) && floatsWhole false r
  | _, .sym ',' :: r => floatsWhole true r
  | start, .sym '-' :: r =>
    floatsWhole (start && match r with
      | .flt _ _ :: _ => true
      | _ => false) r
  | _, _ :: r => floatsWhole false r

/-- The statement has its floating literals where R98 permits them: as a whole operand of an instruction, of which only
MOVI then takes one, and as a whole value of `.word`. -/
def floatsPlaced (ts : List Tok) : Bool :=
  match ts with
  | .id s :: r =>
    let l := lowerOf s
    if l == ".word" then floatsWhole true r
    else if directiveNames.contains l then r.all fun
      | .flt _ _ => false
      | _ => true
    else floatsWhole false ts
  | _ => floatsWhole false ts

def parseStmt (ts : List Tok) : Except Nat (Option Stmt) :=
  if !floatsPlaced ts then .error 98
  else match ts with
  | [] => .ok none
  | .id s :: r =>
    let l := lowerOf s
    if directiveNames.contains l then (parseDirective l r).map some
    else (parseInstr ts).map fun i => some (.instr i)
  | _ => (parseInstr ts).map fun i => some (.instr i)

def parseLine (ts : List Tok) : Except Nat AsmLine :=
  match ts with
  | .id s :: .sym ':' :: r => if symbolOk s then (parseStmt r).map fun x => ⟨some s, x⟩ else .error 95
  | _ => (parseStmt ts).map fun x => ⟨none, x⟩

/-! ### What the first pass leaves -/

/-- An instruction with its line and opcode. -/
structure AsmWord where
  line : Nat
  op : Nat
  i : AsmInstr
  deriving DecidableEq, Repr

/-- A clause as it is formed. -/
structure AsmClause where
  line : Nat
  start : Nat
  explicit : Bool
  cls : Option Nat
  wait : Nat
  yield : Bool
  words : List AsmWord
  deriving DecidableEq, Repr

/-- A piece of a segment, at its offset. -/
inductive AsmItem where
  | clause (c : AsmClause)
  /-- padding clauses of NOP words, by their bytes (R107) -/
  | pad (off : Nat) (cuts : List Nat)
  /-- zero bytes that align data (R107) -/
  | zeros (n : Nat)
  /-- raw values of s bytes each (R108) -/
  | raw (line off s : Nat) (vals : List DataVal)
  deriving DecidableEq, Repr

/-- Where a statement stands: its line and its offset in the segment. -/
structure AsmAt where
  line : Nat
  off : Nat
  deriving DecidableEq, Repr

/-- A kernel in the first pass. `params` gives each field's offset; `setup` the launch directives in order. -/
structure AsmKernel where
  name : String
  line : Nat
  setup : List (AsmAt × Stmt)
  params : List (String × Nat)
  paramEnd : Nat
  labels : List (String × Nat)
  items : List AsmItem
  off : Nat
  cur : Option AsmClause
  started : Bool
  deriving DecidableEq, Repr

/-- A data segment in the first pass; `align` is the largest `.align` in it. -/
structure AsmData where
  name : String
  items : List AsmItem
  off : Nat
  align : Nat
  deriving DecidableEq, Repr

/-- Where the next line stands. -/
inductive AsmPlaceIn where
  | outside
  | kernel (k : AsmKernel)
  | data (d : AsmData)
  deriving DecidableEq, Repr

/-- The first pass's state: what is finished, and what is open. -/
structure AsmPass where
  kernels : List AsmKernel
  datas : List AsmData
  place : AsmPlaceIn
  deriving DecidableEq, Repr

/-! ### Clauses (R99-R101) -/

/-- The class that an opcode outside the base set fixes (R100, Table 04.2). -/
def fixesClass (op : Nat) : Option Nat :=
  if baseSet op || (decide (0x1A0 ≤ op) && decide (op ≤ 0x1A9)) then none
  else if op ≤ 0x05F || (decide (0x080 ≤ op) && decide (op ≤ 0x09F)) then some 1
  else if op ≤ 0x13F then some 2
  else if op ≤ 0x19F then some 3
  else some 4

/-- The transfer instructions (R69). -/
def isTransferOp (op : Nat) : Bool := decide (0x1A0 ≤ op) && decide (op ≤ 0x1A7)

/-- Closes the open clause; one that ends with no instruction is an error (R101). -/
def AsmKernel.close (k : AsmKernel) : Except AsmError AsmKernel :=
  match k.cur with
  | none => .ok k
  | some c =>
    if c.words.isEmpty then .error ⟨c.line, 101⟩
    else .ok { k with items := k.items ++ [.clause c], off := c.start + 8 + 8 * c.words.length, cur := none }

/-- The offset of the next statement. -/
def AsmKernel.here (k : AsmKernel) : Nat :=
  match k.cur with
  | some c => if c.words.isEmpty then c.start else c.start + 8 + 8 * c.words.length
  | none => k.off

/-- Opens a clause at the current offset, which is a multiple of 8 (R67). -/
def AsmKernel.openAt (k : AsmKernel) (c : AsmClause) : Except AsmError AsmKernel :=
  if k.off % 8 = 0 then .ok { k with cur := some { c with start := k.off } } else .error ⟨c.line, 67⟩

def autoClause (line : Nat) : AsmClause := ⟨line, 0, false, none, 0, false, []⟩

/-- A clause admits the instruction: its class is open or admits the opcode (R100). -/
def AsmClause.admits (c : AsmClause) (op : Nat) : Bool :=
  match c.cls with
  | none => true
  | some n => classAdmits n op

/-- The clause with one more instruction. -/
def AsmClause.push (c : AsmClause) (w : AsmWord) : AsmClause :=
  { c with words := c.words ++ [w], cls := c.cls.orElse fun _ => fixesClass w.op }

/-- Adds an instruction to the open clause or to a new one (R99, R101); a transfer instruction ends the clause. -/
def AsmKernel.addWord (k : AsmKernel) (w : AsmWord) : Except AsmError AsmKernel := do
  let fits : Bool := match k.cur with
    | some c => decide (c.words.length < 16) && c.admits w.op
    | none => false
  let k ← match k.cur with
    | none => k.openAt (autoClause w.line)
    | some c =>
      if fits then .ok k
      else if c.explicit then .error ⟨w.line, 101⟩
      else (← k.close).openAt (autoClause w.line)
  let k := { k with cur := k.cur.map (·.push w), started := true }
  if isTransferOp w.op then k.close else return k

/-! ### Alignment (R107) -/

def alignUp (n off : Nat) : Nat := (off + n - 1) / n * n

/-- The nearest multiple of n at a distance of 0 or at least 16 bytes. -/
def alignCode (n off : Nat) : Nat :=
  let t := alignUp n off
  if t = off || 16 ≤ t - off then t else alignUp n (off + 16)

/-- The clauses of a gap, by their bytes, cut from its front; `fuel` bounds their number. -/
def padCuts : Nat → Nat → List Nat
  | 0, _ => []
  | fuel + 1, g =>
    if g = 0 then []
    else if g > 152 then 136 :: padCuts fuel (g - 136)
    else if g > 136 then [g - 16, 16]
    else [g]

/-- The value of `.align`: a power of two from 8 to 4,096.
(DEDUCED, log 142) -/
def alignValue (env : AsmEnv) (e : Expr) : Except Nat Nat :=
  match e.plain env with
  | .ok v => if [8, 16, 32, 64, 128, 256, 512, 1024, 2048, 4096].contains v.toNat && 0 ≤ v then .ok v.toNat else .error 107
  | .error r => .error r

/-! ### Symbols -/

/-- The symbols of a kernel that its own lines define (R95, R106). -/
def AsmKernel.syms (k : AsmKernel) (num : Nat) : List (String × AVal) :=
  (k.params.map fun p => (p.1, AVal.ofNum (BitVec.ofNat 64 p.2))) ++
  k.labels.map fun l => (l.1, AVal.ofSeg (.code num) l.2)

def AsmKernel.hasSym (k : AsmKernel) (s : String) : Bool :=
  (k.params.lookup s).isSome || (k.labels.lookup s).isSome

/-- The global symbols of the finished parts: kernel names and the labels of data segments (R95). An open part adds its
own name (AsmKernel.stmt, AsmData.stmt).
(DEDUCED, log 134) -/
def AsmPass.globals (p : AsmPass) : List (String × AVal) :=
  ((List.range p.kernels.length).zip p.kernels).map (fun x => (x.2.name, AVal.ofSeg (.code x.1) 0)) ++
  ((List.range p.datas.length).zip p.datas).map fun x => (x.2.name, AVal.ofSeg (.data x.1) 0)

def AsmKernel.addLabel (k : AsmKernel) (line : Nat) (s : String) (off : Nat) : Except AsmError AsmKernel :=
  if k.hasSym s then .error ⟨line, 95⟩ else .ok { k with labels := k.labels ++ [(s, off)] }

/-! ### Parameter blocks (R106) -/

/-- The default alignment: the largest of 1, 2, 4, 8 and 16 that does not exceed the size. -/
def paramAlign (size : Nat) : Nat :=
  if size ≥ 16 then 16 else if size ≥ 8 then 8 else if size ≥ 4 then 4 else if size ≥ 2 then 2 else 1

def AsmKernel.paramSize (k : AsmKernel) : Nat := alignUp 4 k.paramEnd

/-- Allots a field at the next multiple of its alignment. -/
def AsmKernel.addParam (k : AsmKernel) (line : Nat) (s : String) (size : Nat) (align : Option Nat) :
    Except AsmError AsmKernel :=
  let a := align.getD (paramAlign size)
  let off := alignUp a k.paramEnd
  if !symbolOk s || k.hasSym s then .error ⟨line, 95⟩
  else if size < 1 || size > 4096 || !([1, 2, 4, 8, 16].contains a) || alignUp 4 (off + size) > 4096 then .error ⟨line, 106⟩
  else .ok { k with params := k.params ++ [(s, off)], paramEnd := off + size }

/-! ### Lines -/

/-- Names the line of a rule that it breaks. -/
def onLine {α : Type} (line : Nat) : Except Nat α → Except AsmError α
  | .ok x => .ok x
  | .error r => .error ⟨line, r⟩

/-- The last clause of the code ends with BRA, BRX, RET, EXIT or TRAP (R104). A padding clause ends with a NOP.
(DEDUCED, log 136) -/
def lastClauseOk (items : List AsmItem) : Bool :=
  items.foldl (init := false) fun ok x =>
    match x with
    | .clause c =>
      match c.words.getLast? with
      | some w => [0x1A0, 0x1A1, 0x1A4, 0x1A5, 0x1A6].contains w.op
      | none => false
    | .pad _ cuts => ok && cuts.isEmpty
    | _ => ok

/-- A statement inside a kernel; `line` carries its label, if any (R95, R99, R101, R104-R108).
(DEDUCED, log 137) -/
def AsmKernel.stmt (k : AsmKernel) (globals : List (String × AVal)) (num line : Nat) (x : AsmLine) :
    Except AsmError AsmKernel := do
  let k ← if x.label.isSome then k.close else .ok k
  let label (k : AsmKernel) (off : Nat) : Except AsmError AsmKernel := match x.label with
    | some s => k.addLabel line s off
    | none => .ok k
  let env (k : AsmKernel) : AsmEnv :=
    ⟨k.syms num ++ (k.name, .ofSeg (.code num) 0) :: globals, .ofSeg (.code num) k.here⟩
  let setup (s : Stmt) : Except AsmError AsmKernel :=
    if k.started then .error ⟨line, 105⟩
    else do
      let k ← label k k.off
      return { k with setup := k.setup ++ [(⟨line, k.off⟩, s)] }
  let rawData (s : Nat) (vals : List DataVal) : Except AsmError AsmKernel := do
    let k ← k.close
    let k ← label k k.off
    if k.off % 8 ≠ 0 then .error ⟨line, 108⟩
    else return { k with items := k.items ++ [.raw line k.off s vals], off := k.off + s * vals.length }
  match x.stmt with
  | none => label k k.off
  | some (.instr i) => do
    let k ← label k k.off
    match mnemonicOp i.name with
    | some op => k.addWord ⟨line, op, i⟩
    | none => .error ⟨line, 92⟩
  | some (.param s size al) =>
    if k.started then .error ⟨line, 105⟩
    else do
      let k ← label k k.off
      let n ← onLine line (size.plain (env k))
      let a ← match al with
        | some e => (onLine line (e.plain (env k))).map fun v => some v.toNat
        | none => .ok none
      k.addParam line s n.toNat a
  | some (.clause w y c) => do
    let k ← k.close
    let k ← label k k.off
    k.openAt ⟨line, 0, true, c, w, y, []⟩
  | some (.align e) => do
    let k ← k.close
    let n ← onLine line (alignValue (env k) e)
    if k.off % 8 ≠ 0 then .error ⟨line, 107⟩
    else do
      let t := alignCode n k.off
      let k := { k with items := k.items ++ [.pad k.off (padCuts (t - k.off) (t - k.off))], off := t }
      label k t
  | some (.word s vals) => rawData s vals
  | some (.bytes vals) => rawData 1 vals
  | some (.kernel _) => .error ⟨line, 105⟩
  | some .fin => do
    let k ← k.close
    let k ← label k k.off
    if lastClauseOk k.items then .ok k else .error ⟨line, 104⟩
  | some s => setup s

/-- The rule that a statement breaks where it may not stand outside a kernel (R99, R105, R108). -/
def Stmt.outsideRule : Stmt → Nat
  | .word .. | .bytes .. | .align .. => 108
  | .clause .. => 101
  | _ => 105

/-- A statement of a data segment (R107, R108). -/
def AsmData.stmt (d : AsmData) (globals : List (String × AVal)) (num line : Nat) (s : Stmt) : Except AsmError AsmData :=
  let env : AsmEnv := ⟨(d.name, .ofSeg (.data num) 0) :: globals, .ofSeg (.data num) d.off⟩
  let rawData (s : Nat) (vals : List DataVal) : AsmData :=
    { d with items := d.items ++ [.raw line d.off s vals], off := d.off + s * vals.length }
  match s with
  | .word s vals => .ok (rawData s vals)
  | .bytes vals => .ok (rawData 1 vals)
  | .align e =>
    match alignValue env e with
    | .ok n =>
      let t := alignUp n d.off
      .ok { d with items := d.items ++ [.zeros (t - d.off)], off := t, align := max n d.align }
    | .error r => .error ⟨line, r⟩
  | s => .error ⟨line, s.outsideRule⟩

/-- Finishes an open data segment. -/
def AsmPass.flush (p : AsmPass) : AsmPass :=
  match p.place with
  | .data d => { p with datas := p.datas ++ [d], place := .outside }
  | _ => p

/-- One line of the source (R91, R95, R105, R108). Outside a kernel a label opens a data segment.
(DEDUCED, log 135) -/
def AsmPass.line (p : AsmPass) (line : Nat) (x : AsmLine) : Except AsmError AsmPass :=
  match p.place with
  | .kernel k => do
    let k ← k.stmt p.globals p.kernels.length line x
    if x.stmt = some .fin then return { p with kernels := p.kernels ++ [k], place := .outside }
    else return { p with place := .kernel k }
  | _ =>
    match x.label, x.stmt with
    | none, none => .ok p
    | none, some (.kernel s) =>
      let p := p.flush
      if !symbolOk s || (p.globals.lookup s).isSome then .error ⟨line, 95⟩
      else .ok { p with place := .kernel ⟨s, line, [], [], 0, [], [], 0, none, false⟩ }
    | some _, some (.kernel _) => .error ⟨line, 105⟩
    | some s, st =>
      let p := p.flush
      if (p.globals.lookup s).isSome then .error ⟨line, 95⟩
      else
        let d : AsmData := ⟨s, [], 0, 8⟩
        match st with
        | none => .ok { p with place := .data d }
        | some st => (d.stmt p.globals p.datas.length line st).map fun d => { p with place := .data d }
    | none, some st =>
      match p.place with
      | .data d => (d.stmt p.globals p.datas.length line st).map fun d => { p with place := .data d }
      | _ => .error ⟨line, st.outsideRule⟩

/-- The first pass over the lines, numbered from 1. -/
def firstPass : Nat → List String → AsmPass → Except AsmError AsmPass
  | _, [], p =>
    match p.place with
    | .kernel k => .error ⟨k.line, 105⟩
    | _ => .ok p.flush
  | n, s :: rest, p => do
    let ts ← lexLine n s
    let x ← onLine n (parseLine ts)
    firstPass (n + 1) rest (← p.line n x)

end Sys2Proof.Machine
end

