-- ==== Sys2Proof/Machine/AsmObject.lean ====
section
/-! DEFINITION. The assembler's second pass and the object it writes (R97, R98, R101-R103, R105-R111, Table 05.1,
Table 05.2), and what the loader does with it (R110). -/

namespace Sys2Proof.Machine

/-! ### The launch template (R105) -/

/-- The symbols that a kernel's directives may use, and its segment. -/
structure AsmScope where
  syms : List (String × AVal)
  own : Seg

/-- What an expression at a place may use; `.` is the statement's offset (R96). -/
def AsmScope.here (x : AsmScope) (a : AsmAt) : AsmEnv := ⟨x.syms, .ofSeg x.own a.off⟩

/-- A keyword of `.team`, `.cluster` or `.grid`, with its place. -/
structure AsmKey where
  at_ : AsmAt
  dir : String
  key : String
  vals : List Expr
  deriving DecidableEq, Repr

/-- The keywords of Table 05.1. -/
def keyKnown (dir key : String) : Bool :=
  let bars := fun n => (List.range n).map fun i => "bar" ++ toString i
  if dir == ".team" then (["dims", "scratch", "tile", "queues"] ++ bars 16).contains key
  else if dir == ".cluster" then (["size"] ++ bars 4).contains key
  else (["priority", "trap", "idem", "profile", "seed"] ++ bars 2).contains key

/-- The keywords in order; one that is unknown or given twice is an error. -/
def setupKeys : List (AsmAt × Stmt) → List AsmKey → Except AsmError (List AsmKey)
  | [], acc => .ok acc
  | (a, .keys d kvs) :: rest, acc =>
    if kvs.all fun kv => keyKnown d kv.1 && acc.all fun x => !(x.dir == d && x.key == kv.1) then
      setupKeys rest (acc ++ kvs.map fun kv => ⟨a, d, kv.1, kv.2⟩)
    else .error ⟨a.line, 105⟩
  | _ :: rest, acc => setupKeys rest acc

/-- The one statement that a selector finds, with its place; a second one is an error (R105). -/
def setupOnce {α : Type} (pick : Stmt → Option α) (setup : List (AsmAt × Stmt)) : Except AsmError (Option (AsmAt × α)) :=
  match setup.filterMap fun x => (pick x.2).map fun v => (x.1, v) with
  | [] => .ok none
  | [x] => .ok (some x)
  | _ :: x :: _ => .error ⟨x.1.line, 105⟩

/-- The value names of a format slot's fields (Table 07.2, Table 07.3), by code. -/
def slotNames (key : String) : List String :=
  if key == "fmt" then
    ["fp32", "fp16", "bf16", "fp64", "e4m3", "e5m2", "e2m1", "mxe4m3", "mxe5m2", "mxe2m1", "s8", "n8", "s4", "n4",
     "s16", "n16", "s32", "n32", "s64", "n64"]
  else if key == "place" then ["sep", "trail"]
  else if key == "sat" then ["off", "on"]
  else if key == "round" then ["rne", "rz", "rdn", "rup", "sr"]
  else []

/-- The place and width of a format slot's field (Table 07.2). -/
def slotPos (key : String) : Option (Nat × Nat) :=
  [("sat", 15, 1), ("round", 12, 3), ("zp", 11, 1), ("place", 9, 2), ("group", 7, 2), ("fmt", 0, 5)].lookup key

/-- A number as the code of a slot's field; `group` is written 0, 32, 64 or 128 (Table 07.2). -/
def slotNumber (key : String) (w : Nat) (v : Int) : Except Nat Nat :=
  if key == "group" then
    (if v = 0 then .ok 0 else if v = 32 then .ok 1 else if v = 64 then .ok 2 else if v = 128 then .ok 3 else .error 120)
  else fitField w v

/-- A field of a format slot, at its place (R105, R120): a value name, or a number.
(DEDUCED, log 138) -/
def slotField (env : AsmEnv) (key : String) (vals : List Expr) : Except Nat Nat :=
  match slotPos key, vals with
  | some (pos, w), [e] =>
    let code : Except Nat Nat :=
      match e with
      | .name s =>
        match nameIndex (slotNames key) (lowerOf s) with
        | some n => .ok n
        | none => (e.plain env).bind (slotNumber key w)
      | _ => (e.plain env).bind (slotNumber key w)
    code.map (· * 2 ^ pos)
  | _, _ => .error 105

/-- The format slots; each slot once (R105). -/
def setupSlots (x : AsmScope) : List (AsmAt × Stmt) → List (Nat × Nat) → Except AsmError (List (Nat × Nat))
  | [], acc => .ok acc
  | (a, s) :: rest, acc => do
    let env := x.here a
    let one : Option (Expr × Except Nat Nat) := match s with
      | .slotVal i e => some (i, (e.plain env).bind (fitField 64))
      | .slotKeys i kvs =>
        some (i, kvs.foldl (init := .ok 0) fun t kv => t.bind fun n => (slotField env kv.1 kv.2).map (n + ·))
      | _ => none
    match one with
    | none => setupSlots x rest acc
    | some (i, v) =>
      let i ← onLine a.line ((i.plain env).bind (inRange 105 0 7))
      let v ← onLine a.line v
      if (acc.lookup i).isSome then .error ⟨a.line, 105⟩ else setupSlots x rest (acc ++ [(i, v)])

/-- The value of an expression in a range of Table 02.2. -/
def exprIn (x : AsmScope) (a : AsmAt) (lo hi : Int) (e : Expr) : Except AsmError Nat :=
  onLine a.line ((e.plain (x.here a)).bind (inRange 105 lo hi))

def findKey (keys : List AsmKey) (d key : String) : Option AsmKey := keys.find? fun x => x.dir == d && x.key == key

/-- A keyword's n values, each in a range; absent, it has its default (Table 05.1). -/
def keyVals (env : AsmScope) (keys : List AsmKey) (d key : String) (n : Nat) (lo hi : Int) (dflt : List Nat) :
    Except AsmError (List Nat) :=
  match findKey keys d key with
  | none => .ok dflt
  | some x => if x.vals.length = n then x.vals.mapM (exprIn env x.at_ lo hi) else .error ⟨x.at_.line, 105⟩

def keyVal (env : AsmScope) (keys : List AsmKey) (d key : String) (lo hi : Int) (dflt : Nat) : Except AsmError Nat :=
  (keyVals env keys d key 1 lo hi [dflt]).map fun vs => vs.headD dflt

/-- A directive's value that breaks a rule is an error of its line (R111); one that has its default is not (Table 05.1). -/
def keyRule (keys : List AsmKey) (d key : String) (rule : Nat) (ok : Bool) : Except AsmError Unit :=
  match findKey keys d key with
  | some x => if ok then .ok () else .error ⟨x.at_.line, rule⟩
  | none => .ok ()

/-- The random key: a field of 64 bits (R97). -/
def seedVal (env : AsmScope) (keys : List AsmKey) : Except AsmError Nat :=
  match findKey keys ".grid" "seed" with
  | none => .ok 0
  | some x => match x.vals with
    | [e] => onLine x.at_.line ((e.plain (env.here x.at_)).bind (fitField 64))
    | _ => .error ⟨x.at_.line, 105⟩

/-- The trap policy halts the launch unless `trap=team` stands (Table 05.1). -/
def trapVal (keys : List AsmKey) : Except AsmError Bool :=
  match findKey keys ".grid" "trap" with
  | none => .ok true
  | some x => match x.vals with
    | [.name s] =>
      if lowerOf s == "launch" then .ok true else if lowerOf s == "team" then .ok false else .error ⟨x.at_.line, 105⟩
    | _ => .error ⟨x.at_.line, 105⟩

/-- A declared role: its name, groups and budget. -/
structure AsmRole where
  name : String
  groups : Nat
  regs : Nat
  deriving DecidableEq, Repr

/-- The roles in order of declaration, the first being role 0 (Table 05.1). Two roles may have one name, of which
a membership value then means the first, and `all` always means every role.
(DESIGN CHOICE, log 166) -/
def setupRoles (env : AsmScope) : List (AsmAt × Stmt) → List AsmRole → Except AsmError (List AsmRole)
  | [], acc => .ok acc
  | (a, .role n g b) :: rest, acc =>
    if !symbolOk n then .error ⟨a.line, 95⟩
    else match exprIn env a (if acc.isEmpty then 1 else 0) 32 g, exprIn env a 8 512 b with
    | .ok g, .ok b =>
      if acc.length < 2 && (acc.map (·.groups)).sum + g ≤ 32 && b % 8 = 0 then setupRoles env rest (acc ++ [⟨n, g, b⟩])
      else .error ⟨a.line, 105⟩
    | .error e, _ => .error e
    | _, .error e => .error e
  | _ :: rest, acc => setupRoles env rest acc

/-- The membership code of a barrier: `all`, or the name of a role (Table 05.1). -/
def memberCode (roles : List AsmRole) (vals : List Expr) : Option Nat :=
  match vals with
  | [.name s] => if lowerOf s == "all" then some 0 else (nameIndex (roles.map (·.name)) s).map (· + 1)
  | _ => none

/-- The memberships of n barriers from the one numbered `base` on, two bits each (Table 25.5). -/
def barVals (keys : List AsmKey) (roles : List AsmRole) (d : String) (base : Nat) : Nat → Except AsmError Nat
  | 0 => .ok 0
  | n + 1 =>
    match barVals keys roles d base n, findKey keys d ("bar" ++ toString n) with
    | .error e, _ => .error e
    | .ok t, none => .ok t
    | .ok t, some x =>
      match memberCode roles x.vals with
      | some c => .ok (t + c * 4 ^ (base + n))
      | none => .error ⟨x.at_.line, 105⟩

/-- The value of a directive that may stand once, of the values that `ok` admits. -/
def onceVal (env : AsmScope) (pick : Stmt → Option Expr) (setup : List (AsmAt × Stmt)) (lo hi : Int) (ok : Nat → Bool) :
    Except AsmError (Option Nat) :=
  match setupOnce pick setup with
  | .error e => .error e
  | .ok none => .ok none
  | .ok (some (a, e)) =>
    match exprIn env a lo hi e with
    | .error e => .error e
    | .ok v => if ok v then .ok (some v) else .error ⟨a.line, 105⟩

def Stmt.width? : Stmt → Option Expr
  | .width w => some w
  | _ => none

def Stmt.stack? : Stmt → Option Expr
  | .stack n => some n
  | _ => none

def Stmt.coresident? : Stmt → Option Unit
  | .coresident => some ()
  | _ => none

/-- A value that the source gives, or the error of a required directive that is absent (Table 05.1). -/
def required {α : Type} (line : Nat) : Option α → Except AsmError α
  | some x => .ok x
  | none => .error ⟨line, 105⟩

/-- The launch record that the directives give (Table 05.1, R105, R106).
(DEDUCED, log 141) -/
def AsmKernel.record (k : AsmKernel) (env : AsmScope) : Except AsmError LaunchRec := do
  let keys ← setupKeys k.setup []
  let width ← required k.line (← onceVal env Stmt.width? k.setup 32 128 fun w => w == 32 || w == 64 || w == 128)
  let roles ← setupRoles env k.setup []
  let role0 ← required k.line roles.head?
  let role1 : AsmRole := roles.getD 1 ⟨"", 0, 0⟩
  let dims ← keyVals env keys ".team" "dims" 3 1 65535 []
  let teams := (dims.getD 0 0) * (dims.getD 1 0) * (dims.getD 2 0)
  if dims.isEmpty then .error ⟨k.line, 105⟩
  keyRule keys ".team" "dims" 105 (decide (teams ≤ 16777216))
  let scratch ← keyVal env keys ".team" "scratch" 0 1572864 k.paramSize
  keyRule keys ".team" "scratch" 106 (decide (k.paramSize ≤ scratch))
  let tile ← keyVal env keys ".team" "tile" 0 786432 0
  let queues ← keyVals env keys ".team" "queues" 4 0 16 [0, 0, 0, 0]
  let cluster ← keyVal env keys ".cluster" "size" 1 8 1
  keyRule keys ".cluster" "size" 105 (teams % cluster == 0)
  let priority ← keyVal env keys ".grid" "priority" 0 3 0
  let idem ← keyVal env keys ".grid" "idem" 0 1 0
  let profile ← keyVal env keys ".grid" "profile" 0 0xFFFFFFFF 0
  keyRule keys ".grid" "profile" 105 (profileFits profile)
  let seed ← seedVal env keys
  let trap ← trapVal keys
  let co ← setupOnce Stmt.coresident? k.setup
  let stack ← onceVal env Stmt.stack? k.setup 0 2048 fun n => n % 8 == 0
  let slots ← setupSlots env k.setup []
  let teamBars ← barVals keys roles ".team" 0 16
  let clusterBars ← barVals keys roles ".cluster" 16 4
  let gridBars ← barVals keys roles ".grid" 20 2
  return {
      code := 0
      width := width
      roles := roles.length
      groups0 := role0.groups
      groups1 := role1.groups
      budget0 := role0.regs
      budget1 := role1.regs
      x := dims.getD 0 0
      y := dims.getD 1 0
      z := dims.getD 2 0
      cluster := cluster
      scratch := scratch
      tile := tile
      stack := stack.getD 0
      params := List.replicate k.paramSize 0
      slots := (List.range 8).map fun i => BitVec.ofNat 64 ((slots.lookup i).getD 0)
      depths := queues
      bars := BitVec.ofNat 64 (teamBars + clusterBars + gridBars)
      coResident := co.isSome
      priority := priority
      idem := idem == 1
      profile := BitVec.ofNat 32 profile
      haltLaunch := trap
      key := BitVec.ofNat 64 seed }

/-- A launch record in its binary layout (Table 25.5), without the parameter block that follows it in a START (R381). -/
def LaunchRec.bytes (r : LaunchRec) : List Byte :=
  leBytes 8 r.code.toNat ++ leBytes 1 r.width ++ leBytes 1 r.roles ++ leBytes 1 r.groups0 ++ leBytes 1 r.groups1 ++
  leBytes 2 r.budget0 ++ leBytes 2 r.budget1 ++ leBytes 2 r.x ++ leBytes 2 r.y ++ leBytes 2 r.z ++ leBytes 1 r.cluster ++
  leBytes 1 ((if r.coResident then 1 else 0) + 2 * r.priority + (if r.idem then 8 else 0) +
    (if r.haltLaunch then 16 else 0)) ++
  leBytes 4 r.scratch ++ leBytes 4 r.tile ++ leBytes 2 r.stack ++ leBytes 2 r.params.length ++
  (r.depths.flatMap fun n => leBytes 1 n) ++ leBytes 8 r.bars.toNat ++ leBytes 4 r.profile.toNat ++ leBytes 4 0 ++
  leBytes 8 r.key.toNat ++ r.slots.flatMap fun x => leBytes 8 x.toNat

/-! ### Checks on a clause (R102, R103) -/

/-- The rule that an illegal word breaks. A source line sets no unused field, so that a reserved value is one that the
instruction's own entry forbids. -/
def rejectRule (w : DWord) : Reject → Nat
  | .truncated => 102
  | .opcode => 88
  | .guard => 74
  | .reserved => entryRule (w.extractLsb' 55 9).toNat
  | .rounding => 80
  | .counter => if (Fields.split w).ctr = 0 then 179 else 84

/-- The rule of a check that rests on the launch record. -/
def launchRule (r : LaunchRec) (i : Instr) : Nat :=
  if !slotFits r.slots i then 171
  else match i with
    | .qput .. | .qget .. | .qpeek .. => 206
    | .idembeg .. => 180
    | _ => 182

/-- The rule that an operand index breaks: R77 where a special register that Table 04.4 assigns is read as a 64-bit source
with an odd index or as a 128-bit source, else R75. -/
def srcRule : Opnd × Nat → Nat
  | (.v _, _) => 75
  | (.k1 i, w) => if decide (i.toNat ≤ 28) && (w == 4 || (w == 2 && i.toNat % 2 == 1)) then 77 else 75

/-- The first rule that a word of a clause breaks, of the checks of Table 04.7 that do not depend on the running thread,
and of R103; `rest` are the words after it. All features count as selected: selection is the driver's.
(DEDUCED, log 139) -/
def asmWordRule (r : LaunchRec) (cl : Nat) (w : DWord) (rest : List DWord) : Option Nat :=
  match decodeWord w with
  | .error e => some (rejectRule w e)
  | .ok i =>
    match i.hdr? with
    | none => some 102
    | some h =>
      let x := i.shape r.width r.slots
      if !classAdmits cl (w.extractLsb' 55 9).toNat || (i.isTransfer && !rest.isEmpty) then some 69
      else if !lookaheadOk r i h rest then some 83
      else if !(x.srcs.all srcIndexOk) then (x.srcs.find? fun o => !srcIndexOk o).map srcRule
      else if !(x.dsts.all dstIndexOk) then some 75
      else if !launchOk r i then some (launchRule r i)
      else if !((x.srcs ++ x.dsts).all alignOk) then some 76
      else if wordOverBudget r w (max r.budget0 r.budget1) then some 103
      else none

/-- Checks the words of a clause in order; each comes with its line. -/
def asmCheckWords (r : LaunchRec) (cl : Nat) : List (Nat × DWord) → Except AsmError Unit
  | [] => .ok ()
  | (line, w) :: rest =>
    match asmWordRule r cl w (rest.map (·.2)) with
    | some rule => .error ⟨line, rule⟩
    | none => asmCheckWords r cl rest

/-! ### Bytes of a segment -/

/-- A clause header (Table 04.1). -/
def clauseHeader (n cl wait : Nat) (yield : Bool) : DWord :=
  BitVec.ofNat 64 ((n - 1) + 16 * cl + 256 * wait + (if yield then 32768 else 0))

/-- NOP with guard always (R107). -/
def nopWord : DWord := 0xD438000000000000

def wordsBytes (ws : List DWord) : List Byte := ws.flatMap fun w => leBytes 8 w.toNat

/-- A padding clause of the given bytes (R107). -/
def padClause (bytes : Nat) : List Byte :=
  let n := bytes / 8 - 1
  wordsBytes (clauseHeader n 0 0 false :: List.replicate n nopWord)

/-- Bytes, with the places to relocate: an offset in them and the segment whose base is added (R110). -/
abbrev AsmBytes := List Byte × List (Nat × Seg)

/-- One value of a data directive (R97, R98, R108, R110). -/
def dataVal (env : AsmEnv) (s off : Nat) (v : DataVal) : Except Nat AsmBytes :=
  match v with
  | .flt neg m e =>
    if s = 4 then (floatBits fp32 neg m e).map fun n => (leBytes 4 n, [])
    else if s = 8 then (floatBits fp64 neg m e).map fun n => (leBytes 8 n, [])
    else .error 98
  | .expr e =>
    match e.eval env with
    | .error r => .error r
    | .ok x =>
      match x.plain?, x.addr? with
      | some n, _ =>
        (if s = 1 then inRange 108 0 255 n.toInt else fitField (8 * s) n.toInt).map fun v => (leBytes s v, [])
      | none, some (g, n) => if s = 8 then .ok (leBytes 8 n.toNat, [(off, g)]) else .error 108
      | none, none => .error 110

def dataVals (env : AsmEnv) (s : Nat) : Nat → List DataVal → Except Nat AsmBytes
  | _, [] => .ok ([], [])
  | off, v :: vs =>
    match dataVal env s off v with
    | .error r => .error r
    | .ok x => (dataVals env s (off + s) vs).map fun y => (x.1 ++ y.1, x.2 ++ y.2)

/-- The words of a clause with their lines; `.` is the offset of the word (R96).
(DEDUCED, log 133) -/
def clauseWords (syms : List (String × AVal)) (own : Seg) (base : Nat) :
    Nat → List AsmWord → Except AsmError (List (Nat × DWord))
  | _, [] => .ok []
  | off, w :: ws => do
    let x ← onLine w.line (w.i.word ⟨⟨syms, .ofSeg own off⟩, own, base⟩)
    return (w.line, x) :: (← clauseWords syms own base (off + 8) ws)

/-- The bytes of a piece of a segment. -/
def itemBytes (r : Option LaunchRec) (syms : List (String × AVal)) (own : Seg) (x : AsmItem) : Except AsmError AsmBytes :=
  match x with
  | .clause c => do
    let ws ← clauseWords syms own c.start (c.start + 8) c.words
    let cl := c.cls.getD 0
    match r with
    | some r => asmCheckWords r cl ws
    | none => pure ()
    return (wordsBytes (clauseHeader ws.length cl c.wait c.yield :: ws.map (·.2)), [])
  | .pad _ cuts => .ok (cuts.flatMap padClause, [])
  | .zeros n => .ok (List.replicate n 0, [])
  | .raw line off s vals => onLine line (dataVals ⟨syms, .ofSeg own off⟩ s off vals)

def itemsBytes (r : Option LaunchRec) (syms : List (String × AVal)) (own : Seg) : List AsmItem → Except AsmError AsmBytes
  | [] => .ok ([], [])
  | x :: xs => do
    let a ← itemBytes r syms own x
    let b ← itemsBytes r syms own xs
    return (a.1 ++ b.1, a.2 ++ b.2)

/-! ### The object (R109, R110) -/

/-- What gytas knows of a kernel: its name, its launch template, its code and the code's relocations. -/
structure KernelObj where
  name : String
  record : LaunchRec
  code : List Byte
  relocs : List (Nat × Seg)
  deriving DecidableEq, Repr

structure DataObj where
  name : String
  align : Nat
  bytes : List Byte
  relocs : List (Nat × Seg)
  deriving DecidableEq, Repr

/-- An object before it is written as a file. -/
structure AsmObject where
  kernels : List KernelObj
  datas : List DataObj
  deriving DecidableEq, Repr

/-- A kernel's second pass; its own symbols hide the global ones (R95). -/
def AsmKernel.build (k : AsmKernel) (globals : List (String × AVal)) (num : Nat) : Except AsmError KernelObj := do
  let syms := k.syms num ++ globals
  let r ← k.record ⟨syms, .code num⟩
  let b ← itemsBytes (some r) syms (.code num) k.items
  return ⟨k.name, r, b.1, b.2⟩

def AsmData.build (d : AsmData) (globals : List (String × AVal)) (num : Nat) : Except AsmError DataObj := do
  let b ← itemsBytes none globals (.data num) d.items
  return ⟨d.name, d.align, b.1, b.2⟩

/-- Builds the parts of a list in order, with their numbers. -/
def buildAll {α β : Type} (f : α → Nat → Except AsmError β) : Nat → List α → Except AsmError (List β)
  | _, [] => .ok []
  | n, x :: xs => do
    let y ← f x n
    return y :: (← buildAll f (n + 1) xs)

/-- `gytas` on the lines of a source: the object, or the first error (R91, R111).
(DEDUCED, log 127) -/
def gytas (source : List String) : Except AsmError AsmObject := do
  let p ← firstPass 1 source ⟨[], [], .outside⟩
  let ks ← buildAll (fun k n => k.build p.globals n) 0 p.kernels
  let ds ← buildAll (fun d n => d.build p.globals n) 0 p.datas
  return ⟨ks, ds⟩

/-! ### The object file (R109) -/

/-- The words of a code segment that round with SR need feature bit 2 (R141, R380). -/
def codeUsesSr (r : LaunchRec) (ws : List DWord) : Bool :=
  ws.any fun w => match decodeWord w with
    | .ok i => !srAllowed 0 r.slots i
    | .error _ => false

/-- The 8-byte words of a segment. -/
def segWords : Nat → List Byte → List DWord
  | 0, _ => []
  | n + 1, bs => BitVec.ofNat 64 (leNat (bs.take 8)) :: segWords n (bs.drop 8)

/-- Bits 63:0 of the feature bitmap that the object's launches require: what the launch record and the code show. What a
descriptor asks for at run time no source shows (Table 25.4).
(DEDUCED, log 126) -/
def AsmObject.features (o : AsmObject) : Nat :=
  let bit := fun (n : Nat) (p : KernelObj → Bool) => if o.kernels.any p then 2 ^ n else 0
  bit 2 (fun k => codeUsesSr k.record (segWords (k.code.length / 8) k.code)) + bit 3 (·.record.idem) +
  bit 4 (fun k => k.record.profile.toNat % 65536 != 0) + bit 6 (·.record.coResident)

/-- A section of the file (R109): its kind, the number of its kernel or data segment, its alignment and its bytes. -/
structure AsmSection where
  kind : Nat
  index : Nat
  align : Nat
  bytes : List Byte
  deriving DecidableEq, Repr

/-- The places to relocate: the section's kind and number, the offset in it and the segment (R110). The template's code
address is one of them. -/
def AsmObject.relocs (o : AsmObject) : List (Nat × Nat × Nat × Seg) :=
  (((List.range o.kernels.length).zip o.kernels).flatMap fun x =>
    (2, x.1, 0, Seg.code x.1) :: x.2.relocs.map fun t => (1, x.1, t.1, t.2)) ++
  (((List.range o.datas.length).zip o.datas).flatMap fun x => x.2.relocs.map fun t => (3, x.1, t.1, t.2))

/-- The global symbols: name, kind of segment and its number (R95, R109). -/
def AsmObject.symbols (o : AsmObject) : List (String × Nat × Nat) :=
  (((List.range o.kernels.length).zip o.kernels).map fun x => (x.2.name, 1, x.1)) ++
  ((List.range o.datas.length).zip o.datas).map fun x => (x.2.name, 3, x.1)

/-- A segment as a pair of numbers, for the tables of the file. -/
def Seg.code2 : Seg → Nat × Nat
  | .code k => (1, k)
  | .data k => (3, k)

/-- The sections: for each kernel its code and its template, then the data segments, the symbol table and the relocations.
The bytes of the two tables are free values.
(DESIGN CHOICE, log 125) -/
def AsmObject.sections (o : AsmObject) : List AsmSection :=
  (((List.range o.kernels.length).zip o.kernels).flatMap fun x =>
    [⟨1, x.1, 4096, x.2.code⟩, ⟨2, x.1, 8, x.2.record.bytes⟩]) ++
  (((List.range o.datas.length).zip o.datas).map fun x => ⟨3, x.1, x.2.align, x.2.bytes⟩) ++
  [⟨4, 0, 8, Config.symbolTable o.symbols⟩,
   ⟨5, 0, 8, Config.relocationTable (o.relocs.map fun t => (t.1, t.2.1, t.2.2.1, t.2.2.2.code2))⟩]

/-- Section descriptors, with file offsets from `off` on (R109). -/
def sectionTable : Nat → List AsmSection → List Byte
  | _, [] => []
  | off, s :: rest =>
    leBytes 2 s.kind ++ leBytes 2 0 ++ leBytes 4 s.index ++ leBytes 8 off ++ leBytes 8 s.bytes.length ++
    leBytes 8 s.align ++ sectionTable (off + s.bytes.length) rest

/-- The object header (Table 05.2). -/
def objectHeader (sections features : Nat) : List Byte :=
  [0x47, 0x59, 0x54, 0x4F] ++ leBytes 2 1 ++ leBytes 2 sections ++ leBytes 8 features ++ List.replicate 16 0

/-- The bytes of the object file (R109). -/
def AsmObject.file (o : AsmObject) : List Byte :=
  let ss := o.sections
  objectHeader ss.length o.features ++ sectionTable (32 + 32 * ss.length) ss ++ ss.flatMap (·.bytes)

/-! ### Loading (R110) -/

/-- Adds a base to the 8 bytes at an offset. -/
def addBase (bs : List Byte) (off : Nat) (base : DWord) : List Byte :=
  bs.take off ++ leBytes 8 (BitVec.ofNat 64 (leNat ((bs.drop off).take 8)) + base).toNat ++ bs.drop (off + 8)

/-- A segment's bytes with the base of each relocated field's segment added. -/
def relocated (bases : Seg → DWord) (bs : List Byte) (relocs : List (Nat × Seg)) : List Byte :=
  relocs.foldl (init := bs) fun b t => addBase b t.1 (bases t.2)

/-- A kernel's code and launch record as the loader places them. -/
def KernelObj.load (bases : Seg → DWord) (num : Nat) (k : KernelObj) : List Byte × LaunchRec :=
  (relocated bases k.code k.relocs, { k.record with code := k.record.code + bases (.code num) })

def DataObj.load (bases : Seg → DWord) (d : DataObj) : List Byte := relocated bases d.bytes d.relocs

end Sys2Proof.Machine
end

