-- ==== Sys2Proof/Laws/Asm.lean ====
section
/-! SUPPORT. What the assembler's shared operations do: padding fills its gap with clauses of a legal size, an alignment
moves by 0 or at least 16 bytes, and a closed clause moves the offset past its words (R67, R107). -/

namespace Sys2Proof.Laws

open Sys2Proof.Machine

/-- The clauses of a gap fill it exactly (R107). -/
theorem padCuts_sum (fuel g : Nat) (hf : g ≤ fuel) : (padCuts fuel g).sum = g := by
  induction fuel generalizing g with
  | zero => have : g = 0 := by omega
            subst this; rfl
  | succ n ih =>
    unfold padCuts
    split
    · simp; omega
    · split
      · simp [ih (g - 136) (by omega)]; omega
      · split <;> simp <;> omega

/-- Every clause of a gap takes at least 16 and at most 136 bytes (R107). -/
theorem padCuts_bounds (fuel g : Nat) (hg : g = 0 ∨ 16 ≤ g) : ∀ c ∈ padCuts fuel g, 16 ≤ c ∧ c ≤ 136 := by
  induction fuel generalizing g with
  | zero => simp [padCuts]
  | succ n ih =>
    unfold padCuts
    split
    · simp
    · split
      · have := ih (g - 136) (by omega)
        simpa using this
      · split
        · simp; omega
        · simp; omega

theorem alignUp_dvd (n off : Nat) : n ∣ alignUp n off := Nat.dvd_mul_left _ _

theorem alignUp_ge (n off : Nat) (hn : 0 < n) : off ≤ alignUp n off := by
  have h := Nat.div_add_mod (off + n - 1) n
  have h2 := Nat.mod_lt (off + n - 1) hn
  unfold alignUp
  rw [Nat.mul_comm]
  omega

/-- `.align` in code reaches a multiple of n at a distance of 0 or at least 16 bytes (R107). -/
theorem alignCode_spec (n off : Nat) (hn : 0 < n) :
    n ∣ alignCode n off ∧ (alignCode n off = off ∨ off + 16 ≤ alignCode n off) := by
  unfold alignCode
  have h1 := alignUp_ge n off hn
  have h2 := alignUp_ge n (off + 16) hn
  dsimp only
  split
  · rename_i h
    simp only [Bool.or_eq_true, decide_eq_true_eq] at h
    refine ⟨alignUp_dvd n off, ?_⟩
    omega
  · exact ⟨alignUp_dvd n _, Or.inr h2⟩

/-- Without an open clause, closing changes nothing. -/
@[simp] theorem AsmKernel.close_none (k : AsmKernel) (h : k.cur = none) : k.close = .ok k := by
  simp [Machine.AsmKernel.close, h]

end Sys2Proof.Laws
end

