-- ==== Sys2Proof/Laws/Sparse.lean ====
section
/-! SUPPORT. Sparse maps: reading after writing, and that writing keeps the canonical form. -/

namespace Sys2Proof.Machine

variable {α : Type} [DecidableEq α]

omit [DecidableEq α] in
/-- Keys below every key of a rising map read the default. -/
theorem sget_of_lt (d : α) (l : List (Nat × α)) (a : Nat) (h : ∀ p ∈ l, a < p.1) : sget d l a = d := by
  induction l with
  | nil => rfl
  | cons p r ih =>
    obtain ⟨k, v⟩ := p
    have hk : a < k := h _ (List.mem_cons_self ..)
    simp only [sget, if_neg (Nat.ne_of_lt hk)]
    exact ih fun p hp => h p (List.mem_cons_of_mem _ hp)

theorem mem_sset {d : α} {l : List (Nat × α)} {a : Nat} {v : α} {p : Nat × α} (h : p ∈ sset d l a v) :
    (p = (a, v) ∧ v ≠ d) ∨ p ∈ l := by
  induction l with
  | nil =>
    by_cases hv : v = d
    · simp [sset, hv] at h
    · simp [sset, hv] at h; exact .inl ⟨h, hv⟩
  | cons q r ih =>
    obtain ⟨k, w⟩ := q
    simp only [sset] at h
    split at h <;> try split at h
    · exact .inr h
    · rename_i hv
      rcases List.mem_cons.1 h with h | h
      · exact .inl ⟨h, hv⟩
      · exact .inr h
    · split at h
      · exact .inr (List.mem_cons_of_mem _ h)
      · rename_i hv
        rcases List.mem_cons.1 h with h | h
        · exact .inl ⟨h, hv⟩
        · exact .inr (List.mem_cons_of_mem _ h)
    · rcases List.mem_cons.1 h with h | h
      · exact .inr (h ▸ List.mem_cons_self ..)
      · exact (ih h).imp id (List.mem_cons_of_mem _)

/-- Writing keeps the canonical form. -/
theorem sset_wf (d : α) (l : List (Nat × α)) (a : Nat) (v : α) (h : swf d l) : swf d (sset d l a v) := by
  induction l with
  | nil => by_cases hv : v = d <;> simp [sset, hv, swf]
  | cons q r ih =>
    obtain ⟨k, w⟩ := q
    obtain ⟨hs, hd⟩ := h
    rw [List.pairwise_cons] at hs
    have hr : swf d r := ⟨hs.2, fun p hp => hd p (List.mem_cons_of_mem _ hp)⟩
    simp only [sset]
    split
    · rename_i hlt
      split
      · exact ⟨List.pairwise_cons.2 hs, hd⟩
      · rename_i hv
        refine ⟨List.pairwise_cons.2 ⟨?_, List.pairwise_cons.2 hs⟩, ?_⟩
        · intro p hp
          rcases List.mem_cons.1 hp with rfl | hp
          · exact hlt
          · exact Nat.lt_trans hlt (hs.1 p hp)
        · intro p hp
          rcases List.mem_cons.1 hp with rfl | hp
          · exact hv
          · exact hd p hp
    · split
      · rename_i hak
        split
        · exact hr
        · rename_i hv
          refine ⟨List.pairwise_cons.2 ⟨fun p hp => hak ▸ hs.1 p hp, hs.2⟩, ?_⟩
          intro p hp
          rcases List.mem_cons.1 hp with rfl | hp
          · exact hv
          · exact hd p (List.mem_cons_of_mem _ hp)
      · rename_i hlt hne
        have ih := ih hr
        refine ⟨List.pairwise_cons.2 ⟨?_, ih.1⟩, ?_⟩
        · intro p hp
          rcases mem_sset hp with ⟨rfl, -⟩ | hp
          · simp only; omega
          · exact hs.1 p hp
        · intro p hp
          rcases List.mem_cons.1 hp with rfl | hp
          · exact hd _ (List.mem_cons_self ..)
          · exact ih.2 p hp

/-- What reads back after a write. -/
theorem sget_sset (d : α) (l : List (Nat × α)) (a b : Nat) (v : α) (h : swf d l) :
    sget d (sset d l a v) b = if b = a then v else sget d l b := by
  induction l with
  | nil => by_cases hv : v = d <;> by_cases hb : b = a <;> simp [sset, sget, hv, hb]
  | cons q r ih =>
    obtain ⟨k, w⟩ := q
    obtain ⟨hs, hd⟩ := h
    rw [List.pairwise_cons] at hs
    have hr : swf d r := ⟨hs.2, fun p hp => hd p (List.mem_cons_of_mem _ hp)⟩
    simp only [sset]
    split
    · rename_i hlt
      split
      · rename_i hv
        by_cases hb : b = a
        · have : sget d ((k, w) :: r) a = d := sget_of_lt d _ _ fun p hp => by
            rcases List.mem_cons.1 hp with rfl | hp
            · exact hlt
            · exact Nat.lt_trans hlt (hs.1 p hp)
          rw [if_pos hb, hb, this, hv]
        · rw [if_neg hb]
      · simp [sget]
    · split
      · rename_i hak
        subst hak
        split
        · rename_i hv
          by_cases hb : b = a
          · rw [if_pos hb, hb, hv]
            exact sget_of_lt d _ _ hs.1
          · simp [sget, hb]
        · by_cases hb : b = a <;> simp [sget, hb]
      · rename_i hlt hne
        by_cases hbk : b = k
        · have : b ≠ a := by omega
          simp [sget, hbk, hbk ▸ this]
        · simp only [sget, if_neg hbk, ih hr]

/-! ### Register files -/

theorem writeRegs_wf (m l : List (Nat × Word)) (h : swf (0 : Word) m) : swf (0 : Word) (writeRegs m l) := by
  induction l generalizing m with
  | nil => exact h
  | cons p r ih => exact ih _ (sset_wf 0 m p.1 p.2 h)

/-- A register after results were written: the last result for it, else its old value. -/
theorem sget_writeRegs (m l : List (Nat × Word)) (n : Nat) (h : swf (0 : Word) m) :
    sget 0 (writeRegs m l) n = latest l n (sget 0 m n) := by
  induction l generalizing m with
  | nil => rfl
  | cons p r ih =>
    have := ih _ (sset_wf 0 m p.1 p.2 h)
    simp only [writeRegs, List.foldl_cons, latest] at this ⊢
    rw [this, sget_sset 0 m p.1 n p.2 h]
    by_cases hn : p.1 = n
    · rw [if_pos hn.symm, if_pos hn]
    · rw [if_neg (Ne.symm hn), if_neg hn]

/-- A predicate after one was set. -/
theorem getLsbD_setPred (m : BitVec 7) (i j : Nat) (x : Bool) (hj : j < 7) :
    (setPred m i x).getLsbD j = if i = j then x else m.getLsbD j := by
  have hp : (BitVec.ofNat 7 (2 ^ i)).getLsbD j = decide (i = j) := by
    rw [BitVec.getLsbD_ofNat, Nat.testBit_two_pow, decide_eq_true hj, Bool.true_and]
  unfold setPred
  cases x <;> by_cases hij : i = j
  · rw [if_neg (by decide), BitVec.getLsbD_and, BitVec.getLsbD_not, hp]; simp [hij, hj]
  · rw [if_neg (by decide), BitVec.getLsbD_and, BitVec.getLsbD_not, hp]; simp [hij, hj]
  · rw [if_pos rfl, BitVec.getLsbD_or, hp]; simp [hij]
  · rw [if_pos rfl, BitVec.getLsbD_or, hp]; simp [hij]

theorem getLsbD_writePreds (m : BitVec 7) (l : List (Nat × Bool)) (j : Nat) (hj : j < 7) :
    (writePreds m l).getLsbD j = latest l j (m.getLsbD j) := by
  induction l generalizing m with
  | nil => rfl
  | cons p r ih =>
    have := ih (setPred m p.1 p.2)
    simp only [writePreds, List.foldl_cons, latest] at this ⊢
    rw [this, getLsbD_setPred m p.1 j p.2 hj]

/-! ### Memories -/

theorem Memory.setByte_wf (m : Memory) (a : Nat) (x : Byte) (h : m.wf) : (m.setByte a x).wf := sset_wf 0 m a x h

theorem Memory.byte_setByte (m : Memory) (a b : Nat) (x : Byte) (h : m.wf) :
    (m.setByte a x).byte b = if b = a then x else m.byte b := sget_sset 0 m a b x h

theorem Memory.write_wf (l : List Byte) (m : Memory) (a : Nat) (h : m.wf) : (m.write a l).wf := by
  induction l generalizing m a with
  | nil => exact h
  | cons x xs ih => exact ih _ _ (m.setByte_wf a x h)

/-- A byte after a list of bytes was stored. -/
theorem Memory.byte_write (l : List Byte) (m : Memory) (a b : Nat) (h : m.wf) :
    (m.write a l).byte b = if a ≤ b ∧ b < a + l.length then l[b - a]?.getD 0 else m.byte b := by
  induction l generalizing m a with
  | nil => rw [Memory.write, if_neg]; simp only [List.length_nil, Nat.add_zero]; omega
  | cons x xs ih =>
    rw [Memory.write, ih _ _ (m.setByte_wf a x h), m.byte_setByte a b x h]
    by_cases hb : b = a
    · subst hb
      rw [if_neg (by omega), if_pos rfl, if_pos (by simp)]
      simp
    · simp only [List.length_cons]
      by_cases hr : a ≤ b ∧ b < a + (xs.length + 1)
      · rw [if_pos (by omega), if_pos hr]
        obtain ⟨n, hn⟩ : ∃ n, b - a = n + 1 := ⟨b - a - 1, by omega⟩
        rw [hn, show b - (a + 1) = n by omega]
        simp
      · rw [if_neg (by omega), if_neg hb, if_neg hr]

theorem Memory.writeNat_wf (m : Memory) (a n x : Nat) (h : m.wf) : (m.writeNat a n x).wf :=
  Memory.write_wf _ _ _ h

theorem Memory.clear_wf (m : Memory) (a n : Nat) (h : m.wf) : (m.clear a n).wf :=
  ⟨h.1.filter _, fun p hp => h.2 p ((List.mem_filter.1 hp).1)⟩

end Sys2Proof.Machine
end

