-- ==== Sys2Proof/Laws/Effects.lean ====
section
/-! SUPPORT. What the operations on device memory, on the L2s and towards the host may change: each is said once. -/

namespace Sys2Proof.Machine

/-- Teams, launches, contexts and the order of steps are as before, and memory keeps its canonical form. -/
structure Aside (s s' : State) : Prop where
  teams : s'.teams = s.teams
  launches : s'.launches = s.launches
  contexts : s'.contexts = s.contexts
  agenda : s'.agenda = s.agenda
  turns : s'.turns = s.turns
  focus : s'.focus = s.focus
  mem : s.mem.wf → s'.mem.wf

theorem Aside.refl (s : State) : Aside s s := ⟨rfl, rfl, rfl, rfl, rfl, rfl, id⟩

theorem Aside.trans {s t u : State} (h : Aside s t) (g : Aside t u) : Aside s u :=
  ⟨g.teams.trans h.teams, g.launches.trans h.launches, g.contexts.trans h.contexts, g.agenda.trans h.agenda,
    g.turns.trans h.turns, g.focus.trans h.focus, fun w => g.mem (h.mem w)⟩

/-- A chain of such operations is one. -/
theorem aside_foldl {α : Type} (f : State → α → State) (h : ∀ s x, Aside s (f s x)) (l : List α) (s : State) :
    Aside s (l.foldl f s) := by
  induction l generalizing s with
  | nil => exact .refl s
  | cons x xs ih => exact (h s x).trans (ih _)

/-! ### Towards the host -/

theorem aside_sendMessage (s : State) (port stream code : Nat) (bs : List Byte) :
    Aside s (s.sendMessage port stream code bs) := ⟨rfl, rfl, rfl, rfl, rfl, rfl, id⟩

theorem aside_emit (s : State) (code launch team : Nat) (bs : List Byte) : Aside s (s.emit code launch team bs) :=
  ⟨rfl, rfl, rfl, rfl, rfl, rfl, id⟩

theorem aside_respond (s : State) (q : Rq) (code status : Nat) (bs : List Byte) :
    Aside s (s.respond q code status bs) := ⟨rfl, rfl, rfl, rfl, rfl, rfl, id⟩

theorem aside_homeWrite (s : State) (dpa : Nat) (bs : List Byte) : Aside s (s.homeWrite dpa bs) :=
  ⟨rfl, rfl, rfl, rfl, rfl, rfl, Memory.write_wf _ _ _⟩

/-! ### Records -/

theorem aside_modDie (s : State) (d : Nat) (f : Die → Die) : Aside s (s.modDie d f) := ⟨rfl, rfl, rfl, rfl, rfl, rfl, id⟩

theorem aside_modCore (s : State) (c : Nat) (f : Core → Core) : Aside s (s.modCore c f) := ⟨rfl, rfl, rfl, rfl, rfl, rfl, id⟩

theorem aside_modFabric (s : State) (f : Fabric → Fabric) : Aside s (s.modFabric f) := ⟨rfl, rfl, rfl, rfl, rfl, rfl, id⟩

theorem aside_bumpRing (s : State) (d off : Nat) : Aside s (s.bumpRing d off) :=
  ⟨rfl, rfl, rfl, rfl, rfl, rfl, fun h => Memory.writeNat_wf _ _ _ _ h⟩

theorem aside_writeRecord (s : State) (d : Nat) (r : FaultRec) : Aside s (s.writeRecord d r) := by
  have h' := ((aside_homeWrite s ((s.dieAt d).ringBase + 128 + 64 * (s.produced d % 2 ^ (s.dieAt d).ringLog))
    (r.bytes (s.dieAt d).seq)).trans (aside_bumpRing _ d 0)).trans
    (aside_modDie _ d fun D => { D with seq := D.seq + 1, signals := D.signals + 1 })
  unfold State.writeRecord
  dsimp only
  split
  · exact h'.trans (aside_emit ..)
  · exact h'

theorem aside_record (s : State) (d : Nat) (r : FaultRec) : Aside s (s.record d r) := by
  unfold State.record
  split
  · split
    · exact aside_modDie ..
    · exact aside_writeRecord ..
  · split
    · exact (aside_bumpRing s d 16).trans (aside_emit ..)
    · exact aside_writeRecord ..

/-! ### Homes and copies -/

theorem aside_noteRewrite (s : State) (line : Nat) (ws : List (Writer × BitVec 128)) : Aside s (s.noteRewrite line ws) := by
  unfold State.noteRewrite
  dsimp only
  repeat' split
  all_goals exact ⟨rfl, rfl, rfl, rfl, rfl, rfl, id⟩

theorem aside_engineWrite (s : State) (ws : List (Writer × BitVec 128)) (dpa : Nat) (bs : List Byte) :
    Aside s (s.engineWrite ws dpa bs) :=
  (aside_noteRewrite ..).trans (aside_homeWrite ..)

theorem aside_clearError (s : State) (e : ErrLoc) : Aside s (s.clearError e) := by
  unfold State.clearError
  split
  · exact .refl s
  · exact ⟨rfl, rfl, rfl, rfl, rfl, rfl, id⟩

theorem aside_dropSectors (s : State) (d : Nat) (p : L2Line → Nat → Sector → Bool) : Aside s (s.dropSectors d p) := by
  unfold State.dropSectors
  dsimp only
  split
  · exact aside_modDie ..
  · exact ⟨rfl, rfl, rfl, rfl, rfl, rfl, id⟩

theorem aside_produce (s : State) (why : Why) (kind : Nat) (relaxed : Bool) (target addr ctx : Nat) (body : PacketBody) :
    Aside s (s.produce why kind relaxed target addr ctx body) := ⟨rfl, rfl, rfl, rfl, rfl, rfl, id⟩

theorem aside_spoilFills (s : State) (p : Nat → LineKey → BitVec 8 → Bool) : Aside s (s.spoilFills p) := by
  unfold State.spoilFills
  exact aside_modFabric ..

/-- Asking for a sector changes the fabric alone. -/
theorem askSector_frame (s : State) (d : Nat) (k : LineKey) (i : Nat) (w : Wish) :
    { s.askSector d k i w with fabric := s.fabric } = s := by
  unfold State.askSector
  dsimp only
  repeat' split
  all_goals rfl

theorem aside_askSector (s : State) (d : Nat) (k : LineKey) (i : Nat) (w : Wish) : Aside s (s.askSector d k i w) := by
  unfold State.askSector
  dsimp only
  repeat' split
  all_goals exact ⟨rfl, rfl, rfl, rfl, rfl, rfl, id⟩

theorem aside_fillSector (s : State) (d : Nat) (k : LineKey) (i : Nat) (w : Wish) : Aside s (s.fillSector d k i w).1 := by
  unfold State.fillSector
  split
  · exact aside_askSector ..
  · split
    · exact aside_modDie ..
    · exact .refl s

/-- Asking for what a write needs changes the fabric alone, and nothing where the write may complete. -/
theorem fillFor_frame (s : State) (g : Agent) (k : LineKey) (off n : Nat) :
    { (s.fillFor g k off n).1 with fabric := s.fabric } = s ∧ ((s.fillFor g k off n).2 = true → (s.fillFor g k off n).1 = s) := by
  unfold State.fillFor
  dsimp only
  split
  · exact ⟨rfl, fun _ => rfl⟩
  · exact ⟨askSector_frame .., fun h => by cases h⟩

theorem aside_tally (s : State) (L : Launch) (core ev n : Nat) : Aside s (s.tally L core ev n) := by
  unfold State.tally
  dsimp only
  split
  · exact ⟨rfl, rfl, rfl, rfl, rfl, rfl, id⟩
  · exact .refl s

theorem aside_tallyOf (s : State) (launch core ev n : Nat) : Aside s (s.tallyOf launch core ev n) := by
  unfold State.tallyOf
  split
  · exact aside_tally ..
  · exact .refl s

theorem aside_readAt (s : State) (g : Agent) (k : LineKey) (off n : Nat) : Aside s (s.readAt g k off n).2 := by
  unfold State.readAt
  dsimp only
  split
  · split
    · exact .refl s
    · exact aside_clearError ..
  · split
    · split <;> exact .refl s
    · split
      · exact .refl s
      · split
        · exact .refl s
        · have h := aside_fillSector s g.die k (off / 32) g.wish
          split <;> rename_i e <;> rw [e] at h
          · exact h
          · exact h.trans (aside_tallyOf ..)

theorem aside_enqueue (s : State) (g : Agent) (k : LineKey) (off : Nat) (bs : List Byte) :
    Aside s (s.enqueue g k off bs) := aside_modCore ..

/-! ### Write queues, write-backs, releases and acquires -/

theorem aside_drainOne (s : State) (core : Nat) : Aside s (s.drainOne core).1 := by
  unfold State.drainOne
  split
  · exact .refl s
  · dsimp only
    split
    · exact (aside_engineWrite ..).trans (aside_modCore ..)
    · split
      · exact (aside_modCore ..).trans (aside_modDie ..)
      · split
        · exact .refl s
        · split
          · exact ((aside_clearError ..).trans (aside_modCore ..)).trans (aside_modDie ..)
          · split
            · exact ((aside_clearError ..).trans (aside_modCore ..)).trans (aside_modDie ..)
            · split <;> rename_i e
              · exact congrArg Prod.fst e ▸ aside_fillSector s _ _ _ _
              · have h := congrArg Prod.fst e ▸ aside_fillSector s _ _ _ _
                exact ((h.trans (aside_tallyOf ..)).trans (aside_modCore ..)).trans (aside_modDie ..)

theorem aside_drainSome (core n : Nat) (s : State) : Aside s (State.drainSome core n s) := by
  induction n generalizing s with
  | zero => exact .refl s
  | succ n ih =>
    have h := aside_drainOne s core
    unfold State.drainSome
    split <;> rename_i e <;> rw [e] at h
    · exact h.trans (ih _)
    · exact h

theorem aside_drainCore (s : State) (core : Nat) : Aside s (s.drainCore core) := aside_drainSome ..

theorem aside_drainDie (s : State) (d : Nat) : Aside s (s.drainDie d) :=
  aside_foldl _ (fun s _ => aside_drainCore s _) _ _

theorem aside_writeBack (s : State) (d : Nat) (k : LineKey) (i : Nat) : Aside s (s.writeBack d k i) := by
  unfold State.writeBack
  split
  · exact .refl s
  · split
    · exact .refl s
    · split
      · exact aside_record ..
      · dsimp only
        split
        · exact (aside_modDie ..).trans (aside_engineWrite ..)
        · exact (aside_modDie ..).trans (aside_produce ..)

theorem aside_writeBackAll (s : State) (d : Nat) (p : L2Line → Bool) : Aside s (s.writeBackAll d p).1 :=
  aside_foldl (fun s (x : LineKey × Nat) => s.writeBack d x.1 x.2) (fun s x => aside_writeBack s d x.1 x.2) _ _

theorem aside_yieldLine (s : State) (d : Nat) (k : LineKey) : Aside s (s.yieldLine d k) :=
  ((aside_writeBackAll s d _).trans (aside_dropSectors ..)).trans (aside_spoilFills ..)

theorem aside_releaseDie (s : State) (d launch core : Nat) (mask : BitVec 8) : Aside s (s.releaseDie d launch core mask) :=
  (aside_writeBackAll s d _).trans (aside_tallyOf ..)

theorem aside_acquireDie (s : State) (d : Nat) (scope : Scope) (mask : BitVec 8) : Aside s (s.acquireDie d scope mask) := by
  unfold State.acquireDie
  split
  · dsimp only
    split
    · exact (aside_dropSectors ..).trans (aside_spoilFills ..)
    · exact aside_dropSectors ..
  · exact .refl s

theorem aside_doRelease (s : State) (core launch : Nat) (scope : Scope) (mask : BitVec 8) :
    Aside s (s.doRelease core launch scope mask).1 := by
  have h : Aside s (if mask = 0 then s else s.drainCore core) := by
    split
    · exact .refl s
    · exact aside_drainCore ..
  unfold State.doRelease
  split
  · exact .refl s
  · generalize (if mask = 0 then s else s.drainCore core) = t at h
    dsimp only
    split
    · exact h
    · dsimp only
      split
      · exact h.trans (aside_releaseDie ..)
      · exact h

/-! ### Fetched clauses -/

/-- A slice from which a team's clauses were dropped holds none of them and every other. -/
theorem fetchedAt_drop (x : Slice) (k q : TeamKey) (a : DWord) :
    ({ x with fetched := x.fetched.filter fun f => f.team != k } : Slice).fetchedAt q a =
      if q = k then none else x.fetchedAt q a := by
  unfold Slice.fetchedAt
  dsimp only
  rw [List.find?_filter]
  split
  · next h =>
    subst h
    rw [List.find?_eq_none.2]
    · rfl
    · intro f _ hf
      simp at hf
      exact hf.1 hf.2.1
  · next h =>
    congr 2
    funext f
    by_cases hq : f.team = q
    · subst hq
      have : (f.team != k) = true := by simp [h]
      simp [this]
      rfl
    · simp [hq]

end Sys2Proof.Machine
end

