-- ==== Sys2Proof/Laws/PerInstr.lean ====
section
/-! SUPPORT. Per-instruction laws of the encoding, one lemma per constructor of `Instr`. -/

namespace Sys2Proof.Laws

theorem mk'_hdr (op : BitVec 9) (h : Hdr) (d a b c : BitVec 10) (m : BitVec 2) : (Fields.mk' op h d a b c m).hdr = h := by
  obtain ⟨psel, pneg, retain, la, ctr⟩ := h
  cases pneg <;> rfl

/-- An instruction word's fields hold its header and its opcode (Tables 04.3 and 04.6); a step that is no instruction word
has no encoding and is always well formed. -/
def Encoding.Statement (i : Instr) : Prop :=
  match i.hdr? with
  | some h => ∃ f, encodeFields i = some f ∧ f.hdr = h ∧ i.opcode = some f.op.toNat
  | none => encode i = none ∧ i.wf = true

theorem Encoding.iadd (h : Hdr) (t : ITy) (sat : Bool) (d a b : Opnd) : Encoding.Statement (.iadd h t sat d a b) :=
    ⟨_, rfl, mk'_hdr .., rfl⟩
theorem Encoding.isub (h : Hdr) (t : ITy) (sat : Bool) (d a b : Opnd) : Encoding.Statement (.isub h t sat d a b) :=
    ⟨_, rfl, mk'_hdr .., rfl⟩
theorem Encoding.iaddc (h : Hdr) (pk : PCode) (d a b : Opnd) : Encoding.Statement (.iaddc h pk d a b) :=
    ⟨_, rfl, mk'_hdr .., rfl⟩
theorem Encoding.imul (h : Hdr) (t : ITy) (sat : Bool) (d a b : Opnd) : Encoding.Statement (.imul h t sat d a b) :=
    ⟨_, rfl, mk'_hdr .., rfl⟩
theorem Encoding.imulh (h : Hdr) (t : ITy) (d a b : Opnd) : Encoding.Statement (.imulh h t d a b) :=
    ⟨_, rfl, mk'_hdr .., rfl⟩
theorem Encoding.imad (h : Hdr) (x64 : Bool) (d a b c : Opnd) : Encoding.Statement (.imad h x64 d a b c) :=
    ⟨_, rfl, mk'_hdr .., rfl⟩
theorem Encoding.imadw (h : Hdr) (uns : Bool) (d a b c : Opnd) : Encoding.Statement (.imadw h uns d a b c) :=
    ⟨_, rfl, mk'_hdr .., rfl⟩
theorem Encoding.imin (h : Hdr) (t : ITy) (d a b : Opnd) : Encoding.Statement (.imin h t d a b) :=
    ⟨_, rfl, mk'_hdr .., rfl⟩
theorem Encoding.imax (h : Hdr) (t : ITy) (d a b : Opnd) : Encoding.Statement (.imax h t d a b) :=
    ⟨_, rfl, mk'_hdr .., rfl⟩
theorem Encoding.iabs (h : Hdr) (t : ITy) (sat : Bool) (d a : Opnd) : Encoding.Statement (.iabs h t sat d a) :=
    ⟨_, rfl, mk'_hdr .., rfl⟩
theorem Encoding.ineg (h : Hdr) (t : ITy) (sat : Bool) (d a : Opnd) : Encoding.Statement (.ineg h t sat d a) :=
    ⟨_, rfl, mk'_hdr .., rfl⟩
theorem Encoding.shl (h : Hdr) (x64 : Bool) (d a b : Opnd) : Encoding.Statement (.shl h x64 d a b) :=
    ⟨_, rfl, mk'_hdr .., rfl⟩
theorem Encoding.shr (h : Hdr) (x64 : Bool) (d a b : Opnd) : Encoding.Statement (.shr h x64 d a b) :=
    ⟨_, rfl, mk'_hdr .., rfl⟩
theorem Encoding.sar (h : Hdr) (x64 : Bool) (d a b : Opnd) : Encoding.Statement (.sar h x64 d a b) :=
    ⟨_, rfl, mk'_hdr .., rfl⟩
theorem Encoding.rotl (h : Hdr) (d a b : Opnd) : Encoding.Statement (.rotl h d a b) := ⟨_, rfl, mk'_hdr .., rfl⟩
theorem Encoding.and (h : Hdr) (x64 : Bool) (d a b : Opnd) : Encoding.Statement (.and h x64 d a b) :=
    ⟨_, rfl, mk'_hdr .., rfl⟩
theorem Encoding.or (h : Hdr) (x64 : Bool) (d a b : Opnd) : Encoding.Statement (.or h x64 d a b) :=
    ⟨_, rfl, mk'_hdr .., rfl⟩
theorem Encoding.xor (h : Hdr) (x64 : Bool) (d a b : Opnd) : Encoding.Statement (.xor h x64 d a b) :=
    ⟨_, rfl, mk'_hdr .., rfl⟩
theorem Encoding.andn (h : Hdr) (x64 : Bool) (d a b : Opnd) : Encoding.Statement (.andn h x64 d a b) :=
    ⟨_, rfl, mk'_hdr .., rfl⟩
theorem Encoding.not (h : Hdr) (x64 : Bool) (d a : Opnd) : Encoding.Statement (.not h x64 d a) :=
    ⟨_, rfl, mk'_hdr .., rfl⟩
theorem Encoding.lop3 (h : Hdr) (x64 : Bool) (fn : BitVec 8) (d a b : Opnd) : Encoding.Statement (.lop3 h x64 fn d a b) :=
    ⟨_, rfl, mk'_hdr .., rfl⟩
theorem Encoding.popc (h : Hdr) (d a : Opnd) : Encoding.Statement (.popc h d a) := ⟨_, rfl, mk'_hdr .., rfl⟩
theorem Encoding.clz (h : Hdr) (d a : Opnd) : Encoding.Statement (.clz h d a) := ⟨_, rfl, mk'_hdr .., rfl⟩
theorem Encoding.ctz (h : Hdr) (d a : Opnd) : Encoding.Statement (.ctz h d a) := ⟨_, rfl, mk'_hdr .., rfl⟩
theorem Encoding.brev (h : Hdr) (d a : Opnd) : Encoding.Statement (.brev h d a) := ⟨_, rfl, mk'_hdr .., rfl⟩
theorem Encoding.bfx (h : Hdr) (uns : Bool) (d a b : Opnd) : Encoding.Statement (.bfx h uns d a b) :=
    ⟨_, rfl, mk'_hdr .., rfl⟩
theorem Encoding.bfi (h : Hdr) (d a b c : Opnd) : Encoding.Statement (.bfi h d a b c) := ⟨_, rfl, mk'_hdr .., rfl⟩
theorem Encoding.bperm (h : Hdr) (d a b c : Opnd) : Encoding.Statement (.bperm h d a b c) := ⟨_, rfl, mk'_hdr .., rfl⟩
theorem Encoding.iset (h : Hdr) (t : ITy) (cmp : ICmp) (pd : PCode) (a b : Opnd) : Encoding.Statement (.iset h t cmp pd a b) :=
    ⟨_, rfl, mk'_hdr .., rfl⟩
theorem Encoding.sel (h : Hdr) (pk : PCode) (d a b : Opnd) : Encoding.Statement (.sel h pk d a b) :=
    ⟨_, rfl, mk'_hdr .., rfl⟩
theorem Encoding.mov (h : Hdr) (x64 : Bool) (d a : Opnd) : Encoding.Statement (.mov h x64 d a) :=
    ⟨_, rfl, mk'_hdr .., rfl⟩
theorem Encoding.movi (h : Hdr) (imm : Word) (d : Opnd) : Encoding.Statement (.movi h imm d) :=
    ⟨_, rfl, mk'_hdr .., rfl⟩
theorem Encoding.pset (h : Hdr) (op : POp) (pd pa pb : PCode) : Encoding.Statement (.pset h op pd pa pb) :=
    ⟨_, rfl, mk'_hdr .., rfl⟩
theorem Encoding.pmov (h : Hdr) (form : PMovForm) : Encoding.Statement (.pmov h form) := by
  cases form <;> exact ⟨_, rfl, mk'_hdr .., rfl⟩
theorem Encoding.fadd (h : Hdr) (rnd : Rnd) (d a b : Opnd) : Encoding.Statement (.fadd h rnd d a b) :=
    ⟨_, rfl, mk'_hdr .., rfl⟩
theorem Encoding.fsub (h : Hdr) (rnd : Rnd) (d a b : Opnd) : Encoding.Statement (.fsub h rnd d a b) :=
    ⟨_, rfl, mk'_hdr .., rfl⟩
theorem Encoding.fmul (h : Hdr) (rnd : Rnd) (d a b : Opnd) : Encoding.Statement (.fmul h rnd d a b) :=
    ⟨_, rfl, mk'_hdr .., rfl⟩
theorem Encoding.ffma (h : Hdr) (rnd : Rnd) (d a b c : Opnd) : Encoding.Statement (.ffma h rnd d a b c) :=
    ⟨_, rfl, mk'_hdr .., rfl⟩
theorem Encoding.fmin (h : Hdr) (d a b : Opnd) : Encoding.Statement (.fmin h d a b) := ⟨_, rfl, mk'_hdr .., rfl⟩
theorem Encoding.fmax (h : Hdr) (d a b : Opnd) : Encoding.Statement (.fmax h d a b) := ⟨_, rfl, mk'_hdr .., rfl⟩
theorem Encoding.fset (h : Hdr) (cmp : FCmp) (pd : PCode) (a b : Opnd) : Encoding.Statement (.fset h cmp pd a b) :=
    ⟨_, rfl, mk'_hdr .., rfl⟩
theorem Encoding.fclass (h : Hdr) (src : ClassSrc) (d a : Opnd) : Encoding.Statement (.fclass h src d a) :=
    ⟨_, rfl, mk'_hdr .., rfl⟩
theorem Encoding.frnd (h : Hdr) (rnd : Rnd) (exact : Bool) (d a : Opnd) : Encoding.Statement (.frnd h rnd exact d a) :=
    ⟨_, rfl, mk'_hdr .., rfl⟩
theorem Encoding.frcp (h : Hdr) (rnd : Rnd) (d a : Opnd) : Encoding.Statement (.frcp h rnd d a) :=
    ⟨_, rfl, mk'_hdr .., rfl⟩
theorem Encoding.frsq (h : Hdr) (rnd : Rnd) (d a : Opnd) : Encoding.Statement (.frsq h rnd d a) :=
    ⟨_, rfl, mk'_hdr .., rfl⟩
theorem Encoding.fsqrt (h : Hdr) (rnd : Rnd) (d a : Opnd) : Encoding.Statement (.fsqrt h rnd d a) :=
    ⟨_, rfl, mk'_hdr .., rfl⟩
theorem Encoding.fdiv (h : Hdr) (rnd : Rnd) (d a b : Opnd) : Encoding.Statement (.fdiv h rnd d a b) :=
    ⟨_, rfl, mk'_hdr .., rfl⟩
theorem Encoding.fex2 (h : Hdr) (d a : Opnd) : Encoding.Statement (.fex2 h d a) := ⟨_, rfl, mk'_hdr .., rfl⟩
theorem Encoding.flg2 (h : Hdr) (d a : Opnd) : Encoding.Statement (.flg2 h d a) := ⟨_, rfl, mk'_hdr .., rfl⟩
theorem Encoding.fsin (h : Hdr) (d a : Opnd) : Encoding.Statement (.fsin h d a) := ⟨_, rfl, mk'_hdr .., rfl⟩
theorem Encoding.fcos (h : Hdr) (d a : Opnd) : Encoding.Statement (.fcos h d a) := ⟨_, rfl, mk'_hdr .., rfl⟩
theorem Encoding.ftanh (h : Hdr) (d a : Opnd) : Encoding.Statement (.ftanh h d a) := ⟨_, rfl, mk'_hdr .., rfl⟩
theorem Encoding.hadd2 (h : Hdr) (bf : Bool) (rnd : Rnd) (d a b : Opnd) : Encoding.Statement (.hadd2 h bf rnd d a b) :=
    ⟨_, rfl, mk'_hdr .., rfl⟩
theorem Encoding.hmul2 (h : Hdr) (bf : Bool) (rnd : Rnd) (d a b : Opnd) : Encoding.Statement (.hmul2 h bf rnd d a b) :=
    ⟨_, rfl, mk'_hdr .., rfl⟩
theorem Encoding.hfma2 (h : Hdr) (bf : Bool) (rz : Bool) (d a b c : Opnd) : Encoding.Statement (.hfma2 h bf rz d a b c) :=
    ⟨_, rfl, mk'_hdr .., rfl⟩
theorem Encoding.dadd (h : Hdr) (rnd : Rnd) (d a b : Opnd) : Encoding.Statement (.dadd h rnd d a b) :=
    ⟨_, rfl, mk'_hdr .., rfl⟩
theorem Encoding.dmul (h : Hdr) (rnd : Rnd) (d a b : Opnd) : Encoding.Statement (.dmul h rnd d a b) :=
    ⟨_, rfl, mk'_hdr .., rfl⟩
theorem Encoding.dfma (h : Hdr) (rnd : Rnd) (d a b c : Opnd) : Encoding.Statement (.dfma h rnd d a b c) :=
    ⟨_, rfl, mk'_hdr .., rfl⟩
theorem Encoding.dmin (h : Hdr) (d a b : Opnd) : Encoding.Statement (.dmin h d a b) := ⟨_, rfl, mk'_hdr .., rfl⟩
theorem Encoding.dmax (h : Hdr) (d a b : Opnd) : Encoding.Statement (.dmax h d a b) := ⟨_, rfl, mk'_hdr .., rfl⟩
theorem Encoding.dset (h : Hdr) (cmp : FCmp) (pd : PCode) (a b : Opnd) : Encoding.Statement (.dset h cmp pd a b) :=
    ⟨_, rfl, mk'_hdr .., rfl⟩
theorem Encoding.drcp (h : Hdr) (rnd : Rnd) (d a : Opnd) : Encoding.Statement (.drcp h rnd d a) :=
    ⟨_, rfl, mk'_hdr .., rfl⟩
theorem Encoding.cvt (h : Hdr) (fs : BitVec 3) (src : CvtSrc) (rnd : Rnd) (d a : Opnd) : Encoding.Statement (.cvt h fs src rnd d a) :=
    ⟨_, rfl, mk'_hdr .., rfl⟩
theorem Encoding.qnt (h : Hdr) (fs : BitVec 3) (rnd : Rnd) (d a b : Opnd) : Encoding.Statement (.qnt h fs rnd d a b) :=
    ⟨_, rfl, mk'_hdr .., rfl⟩
theorem Encoding.dqnt (h : Hdr) (fs : BitVec 3) (rnd : Rnd) (d a b : Opnd) : Encoding.Statement (.dqnt h fs rnd d a b) :=
    ⟨_, rfl, mk'_hdr .., rfl⟩
theorem Encoding.pack (h : Hdr) (fs : BitVec 3) (src : PackSrc) (rnd : Rnd) (d a : Opnd) : Encoding.Statement (.pack h fs src rnd d a) :=
    ⟨_, rfl, mk'_hdr .., rfl⟩
theorem Encoding.unpk (h : Hdr) (fs : BitVec 3) (toInt : Bool) (d a : Opnd) : Encoding.Statement (.unpk h fs toInt d a) :=
    ⟨_, rfl, mk'_hdr .., rfl⟩
theorem Encoding.gvote (h : Hdr) (form : VoteForm) (pa : PCode) : Encoding.Statement (.gvote h form pa) := by
  cases form <;> exact ⟨_, rfl, mk'_hdr .., rfl⟩
theorem Encoding.gshfl (h : Hdr) (mode : ShflMode) (x64 : Bool) (d a b : Opnd) : Encoding.Statement (.gshfl h mode x64 d a b) :=
    ⟨_, rfl, mk'_hdr .., rfl⟩
theorem Encoding.gred (h : Hdr) (op : GOp) (d a : Opnd) : Encoding.Statement (.gred h op d a) :=
    ⟨_, rfl, mk'_hdr .., rfl⟩
theorem Encoding.gscan (h : Hdr) (op : GOp) (excl : Bool) (d a : Opnd) : Encoding.Statement (.gscan h op excl d a) :=
    ⟨_, rfl, mk'_hdr .., rfl⟩
theorem Encoding.gelect (h : Hdr) (pk : PCode) (d : Opnd) : Encoding.Statement (.gelect h pk d) :=
    ⟨_, rfl, mk'_hdr .., rfl⟩
theorem Encoding.gmatch (h : Hdr) (x64 : Bool) (pk : PCode) (d a : Opnd) : Encoding.Statement (.gmatch h x64 pk d a) :=
    ⟨_, rfl, mk'_hdr .., rfl⟩
theorem Encoding.lds (h : Hdr) (w : MemW) (off : BitVec 10) (d a : Opnd) : Encoding.Statement (.lds h w off d a) :=
    ⟨_, rfl, mk'_hdr .., rfl⟩
theorem Encoding.sts (h : Hdr) (w : MemW) (mode : StMode) (off : BitVec 10) (s a : Opnd) : Encoding.Statement (.sts h w mode off s a) :=
    ⟨_, rfl, mk'_hdr .., rfl⟩
theorem Encoding.atoms (h : Hdr) (op : AOp) (d a b : Opnd) : Encoding.Statement (.atoms h op d a b) :=
    ⟨_, rfl, mk'_hdr .., rfl⟩
theorem Encoding.cass (h : Hdr) (x64 : Bool) (d a b c : Opnd) : Encoding.Statement (.cass h x64 d a b c) :=
    ⟨_, rfl, mk'_hdr .., rfl⟩
theorem Encoding.ldt (h : Hdr) (w : MemW) (off : BitVec 10) (d a : Opnd) : Encoding.Statement (.ldt h w off d a) :=
    ⟨_, rfl, mk'_hdr .., rfl⟩
theorem Encoding.stt (h : Hdr) (w : MemW) (mode : StMode) (off : BitVec 10) (s a : Opnd) : Encoding.Statement (.stt h w mode off s a) :=
    ⟨_, rfl, mk'_hdr .., rfl⟩
theorem Encoding.waitf (h : Hdr) (tile empty : Bool) (off : BitVec 10) (a : Opnd) : Encoding.Statement (.waitf h tile empty off a) :=
    ⟨_, rfl, mk'_hdr .., rfl⟩
theorem Encoding.markf (h : Hdr) (tile : Bool) (off : BitVec 10) (a : Opnd) : Encoding.Statement (.markf h tile off a) :=
    ⟨_, rfl, mk'_hdr .., rfl⟩
theorem Encoding.marke (h : Hdr) (tile : Bool) (off : BitVec 10) (a : Opnd) : Encoding.Statement (.marke h tile off a) :=
    ⟨_, rfl, mk'_hdr .., rfl⟩
theorem Encoding.probef (h : Hdr) (tile : Bool) (pd : PCode) (off : BitVec 10) (a : Opnd) : Encoding.Statement (.probef h tile pd off a) :=
    ⟨_, rfl, mk'_hdr .., rfl⟩
theorem Encoding.bar (h : Hdr) (lvl : BarLevel) (n : BitVec 4) : Encoding.Statement (.bar h lvl n) :=
    ⟨_, rfl, mk'_hdr .., rfl⟩
theorem Encoding.bara (h : Hdr) (lvl : BarLevel) (n : BitVec 4) (d : Opnd) : Encoding.Statement (.bara h lvl n d) :=
    ⟨_, rfl, mk'_hdr .., rfl⟩
theorem Encoding.barw (h : Hdr) (lvl : BarLevel) (n : BitVec 4) (a : Opnd) : Encoding.Statement (.barw h lvl n a) :=
    ⟨_, rfl, mk'_hdr .., rfl⟩
theorem Encoding.barq (h : Hdr) (lvl : BarLevel) (n : BitVec 4) (pd : PCode) (a : Opnd) : Encoding.Statement (.barq h lvl n pd a) :=
    ⟨_, rfl, mk'_hdr .., rfl⟩
theorem Encoding.qput (h : Hdr) (q : BitVec 2) (a : Opnd) : Encoding.Statement (.qput h q a) :=
    ⟨_, rfl, mk'_hdr .., rfl⟩
theorem Encoding.qget (h : Hdr) (q : BitVec 2) (d : Opnd) : Encoding.Statement (.qget h q d) :=
    ⟨_, rfl, mk'_hdr .., rfl⟩
theorem Encoding.qpeek (h : Hdr) (q : BitVec 2) (d : Opnd) : Encoding.Statement (.qpeek h q d) :=
    ⟨_, rfl, mk'_hdr .., rfl⟩
theorem Encoding.mcarm (h : Hdr) (n : BitVec 2) : Encoding.Statement (.mcarm h n) := ⟨_, rfl, mk'_hdr .., rfl⟩
theorem Encoding.sopen (h : Hdr) (f : SCode) (a : Opnd) : Encoding.Statement (.sopen h f a) := ⟨_, rfl, mk'_hdr .., rfl⟩
theorem Encoding.sadv (h : Hdr) (f : SCode) (a : Opnd) : Encoding.Statement (.sadv h f a) := ⟨_, rfl, mk'_hdr .., rfl⟩
theorem Encoding.stend (h : Hdr) (pd : PCode) (f : SCode) : Encoding.Statement (.stend h pd f) :=
    ⟨_, rfl, mk'_hdr .., rfl⟩
theorem Encoding.sclose (h : Hdr) (f : SCode) : Encoding.Statement (.sclose h f) := ⟨_, rfl, mk'_hdr .., rfl⟩
theorem Encoding.scrd (h : Hdr) (sel : ScrdSel) (d : Opnd) (f : SCode) : Encoding.Statement (.scrd h sel d f) :=
    ⟨_, rfl, mk'_hdr .., rfl⟩
theorem Encoding.sisect (h : Hdr) (d : Opnd) (fa fb : SCode) : Encoding.Statement (.sisect h d fa fb) :=
    ⟨_, rfl, mk'_hdr .., rfl⟩
theorem Encoding.sunion (h : Hdr) (d : Opnd) (fa fb : SCode) : Encoding.Statement (.sunion h d fa fb) :=
    ⟨_, rfl, mk'_hdr .., rfl⟩
theorem Encoding.cpost (h : Hdr) (d a : Opnd) : Encoding.Statement (.cpost h d a) := ⟨_, rfl, mk'_hdr .., rfl⟩
theorem Encoding.vgath (h : Hdr) (d a b c : Opnd) : Encoding.Statement (.vgath h d a b c) := ⟨_, rfl, mk'_hdr .., rfl⟩
theorem Encoding.vscat (h : Hdr) (d a b c : Opnd) : Encoding.Statement (.vscat h d a b c) := ⟨_, rfl, mk'_hdr .., rfl⟩
theorem Encoding.vscatr (h : Hdr) (d a b c : Opnd) : Encoding.Statement (.vscatr h d a b c) := ⟨_, rfl, mk'_hdr .., rfl⟩
theorem Encoding.ocall (h : Hdr) (comb a2 : Bool) (d a b c : Opnd) : Encoding.Statement (.ocall h comb a2 d a b c) :=
    ⟨_, rfl, mk'_hdr .., rfl⟩
theorem Encoding.ocalln (h : Hdr) (comb a2 : Bool) (d a c : Opnd) : Encoding.Statement (.ocalln h comb a2 d a c) :=
    ⟨_, rfl, mk'_hdr .., rfl⟩
theorem Encoding.cfence (h : Hdr) (kind : FenceKind) (scope : Scope) (mask : BitVec 8) (d : Opnd) : Encoding.Statement (.cfence h kind scope mask d) :=
    ⟨_, rfl, mk'_hdr .., rfl⟩
theorem Encoding.cwaitt (h : Hdr) (rel : Bool) (d a : Opnd) : Encoding.Statement (.cwaitt h rel d a) :=
    ⟨_, rfl, mk'_hdr .., rfl⟩
theorem Encoding.cstat (h : Hdr) (rel : Bool) (d a : Opnd) : Encoding.Statement (.cstat h rel d a) :=
    ⟨_, rfl, mk'_hdr .., rfl⟩
theorem Encoding.ccancel (h : Hdr) (d a : Opnd) : Encoding.Statement (.ccancel h d a) := ⟨_, rfl, mk'_hdr .., rfl⟩
theorem Encoding.mpost (h : Hdr) (fusion : Fusion) (d a : Opnd) : Encoding.Statement (.mpost h fusion d a) :=
    ⟨_, rfl, mk'_hdr .., rfl⟩
theorem Encoding.mzero (h : Hdr) (d a : Opnd) : Encoding.Statement (.mzero h d a) := ⟨_, rfl, mk'_hdr .., rfl⟩
theorem Encoding.mcvt (h : Hdr) (d a : Opnd) : Encoding.Statement (.mcvt h d a) := ⟨_, rfl, mk'_hdr .., rfl⟩
theorem Encoding.bra (h : Hdr) (off : BitVec 30) : Encoding.Statement (.bra h off) := ⟨_, rfl, mk'_hdr .., rfl⟩
theorem Encoding.brx (h : Hdr) (toff : BitVec 20) (a : Opnd) : Encoding.Statement (.brx h toff a) :=
    ⟨_, rfl, mk'_hdr .., rfl⟩
theorem Encoding.call (h : Hdr) (off : BitVec 30) : Encoding.Statement (.call h off) := ⟨_, rfl, mk'_hdr .., rfl⟩
theorem Encoding.callx (h : Hdr) (a : Opnd) : Encoding.Statement (.callx h a) := ⟨_, rfl, mk'_hdr .., rfl⟩
theorem Encoding.ret (h : Hdr) : Encoding.Statement (.ret h) := ⟨_, rfl, mk'_hdr .., rfl⟩
theorem Encoding.exit (h : Hdr) : Encoding.Statement (.exit h) := ⟨_, rfl, mk'_hdr .., rfl⟩
theorem Encoding.trap (h : Hdr) (code : BitVec 10) : Encoding.Statement (.trap h code) := ⟨_, rfl, mk'_hdr .., rfl⟩
theorem Encoding.bkpt (h : Hdr) (code : BitVec 10) : Encoding.Statement (.bkpt h code) := ⟨_, rfl, mk'_hdr .., rfl⟩
theorem Encoding.nop (h : Hdr) : Encoding.Statement (.nop h) := ⟨_, rfl, mk'_hdr .., rfl⟩
theorem Encoding.yield (h : Hdr) : Encoding.Statement (.yield h) := ⟨_, rfl, mk'_hdr .., rfl⟩
theorem Encoding.idembeg (h : Hdr) (eoff : BitVec 20) (a : Opnd) : Encoding.Statement (.idembeg h eoff a) :=
    ⟨_, rfl, mk'_hdr .., rfl⟩
theorem Encoding.idemend (h : Hdr) : Encoding.Statement (.idemend h) := ⟨_, rfl, mk'_hdr .., rfl⟩
theorem Encoding.mfsr (h : Hdr) (num : BitVec 10) (d : Opnd) : Encoding.Statement (.mfsr h num d) :=
    ⟨_, rfl, mk'_hdr .., rfl⟩
theorem Encoding.mtsr (h : Hdr) (num : BitVec 10) (a : Opnd) : Encoding.Statement (.mtsr h num a) :=
    ⟨_, rfl, mk'_hdr .., rfl⟩
theorem Encoding.rngx (h : Hdr) (d a b c : Opnd) : Encoding.Statement (.rngx h d a b c) := ⟨_, rfl, mk'_hdr .., rfl⟩
theorem Encoding.pmark (h : Hdr) (a : Opnd) : Encoding.Statement (.pmark h a) := ⟨_, rfl, mk'_hdr .., rfl⟩
theorem Encoding.pickBundle (core sl : Nat) : Encoding.Statement (.pickBundle core sl) := ⟨rfl, rfl⟩
theorem Encoding.clauseFetch (core sl : Nat) (team : TeamKey) (addr : DWord) : Encoding.Statement (.clauseFetch core sl team addr) :=
    ⟨rfl, rfl⟩
theorem Encoding.countedWriteComplete (team : TeamKey) (t k : Nat) : Encoding.Statement (.countedWriteComplete team t k) :=
    ⟨rfl, rfl⟩
theorem Encoding.waitTableRetry (team : TeamKey) (t : Nat) : Encoding.Statement (.waitTableRetry team t) := ⟨rfl, rfl⟩
theorem Encoding.placeTeams : Encoding.Statement (.placeTeams) := ⟨rfl, rfl⟩
theorem Encoding.preempt (team : TeamKey) : Encoding.Statement (.preempt team) := ⟨rfl, rfl⟩
theorem Encoding.restoreTeam (team : TeamKey) : Encoding.Statement (.restoreTeam team) := ⟨rfl, rfl⟩
theorem Encoding.commandStart (team : TeamKey) (tag : Nat) : Encoding.Statement (.commandStart team tag) := ⟨rfl, rfl⟩
theorem Encoding.copyElement (team : TeamKey) (tag : Nat) : Encoding.Statement (.copyElement team tag) := ⟨rfl, rfl⟩
theorem Encoding.translationWalk (team : TeamKey) (tag lane : Nat) (victim : Nat) : Encoding.Statement (.translationWalk team tag lane victim) :=
    ⟨rfl, rfl⟩
theorem Encoding.faultRecordDeferred (die : Nat) : Encoding.Statement (.faultRecordDeferred die) := ⟨rfl, rfl⟩
theorem Encoding.faultAnswerResume (die : Nat) (w : DWord) : Encoding.Statement (.faultAnswerResume die w) := ⟨rfl, rfl⟩
theorem Encoding.faultAnswerCancel (die : Nat) (w : DWord) : Encoding.Statement (.faultAnswerCancel die w) := ⟨rfl, rfl⟩
theorem Encoding.multicastRelease (team : TeamKey) (tag : Nat) : Encoding.Statement (.multicastRelease team tag) :=
    ⟨rfl, rfl⟩
theorem Encoding.contribPieceAccepted (plane : Nat) (k : Nat) (p : Piece) : Encoding.Statement (.contribPieceAccepted plane k p) :=
    ⟨rfl, rfl⟩
theorem Encoding.collectorIssue (core k : Nat) : Encoding.Statement (.collectorIssue core k) := ⟨rfl, rfl⟩
theorem Encoding.lanePerformed (team : TeamKey) (tag lane : Nat) : Encoding.Statement (.lanePerformed team tag lane) :=
    ⟨rfl, rfl⟩
theorem Encoding.replyLands (k : Nat) : Encoding.Statement (.replyLands k) := ⟨rfl, rfl⟩
theorem Encoding.calderaRequestArrive (k : Nat) : Encoding.Statement (.calderaRequestArrive k) := ⟨rfl, rfl⟩
theorem Encoding.calderaWave (die slice : Nat) : Encoding.Statement (.calderaWave die slice) := ⟨rfl, rfl⟩
theorem Encoding.matrixStep (core sub : Nat) : Encoding.Statement (.matrixStep core sub) := ⟨rfl, rfl⟩
theorem Encoding.matrixBlockWrite (core sub : Nat) : Encoding.Statement (.matrixBlockWrite core sub) := ⟨rfl, rfl⟩
theorem Encoding.zeroTile (team : TeamKey) (tag : Nat) : Encoding.Statement (.zeroTile team tag) := ⟨rfl, rfl⟩
theorem Encoding.convertTile (team : TeamKey) (tag : Nat) : Encoding.Statement (.convertTile team tag) := ⟨rfl, rfl⟩
theorem Encoding.fenceComplete (team : TeamKey) (t : Nat) : Encoding.Statement (.fenceComplete team t) := ⟨rfl, rfl⟩
theorem Encoding.writeQueueDrain (core : Nat) : Encoding.Statement (.writeQueueDrain core) := ⟨rfl, rfl⟩
theorem Encoding.l2DropClean (die : Nat) (key : LineKey) (sector : Nat) : Encoding.Statement (.l2DropClean die key sector) :=
    ⟨rfl, rfl⟩
theorem Encoding.l2WriteBack (die : Nat) (key : LineKey) (sector : Nat) : Encoding.Statement (.l2WriteBack die key sector) :=
    ⟨rfl, rfl⟩
theorem Encoding.fabricRequest (p : Packet) : Encoding.Statement (.fabricRequest p) := ⟨rfl, rfl⟩
theorem Encoding.fabricReply (p : Packet) : Encoding.Statement (.fabricReply p) := ⟨rfl, rfl⟩
theorem Encoding.contributionDelivery (p : Piece) : Encoding.Statement (.contributionDelivery p) := ⟨rfl, rfl⟩
theorem Encoding.flitReceive (plane link : Nat) (f : Flit) : Encoding.Statement (.flitReceive plane link f) :=
    ⟨rfl, rfl⟩
theorem Encoding.linkAck (plane link : Nat) (lseq : BitVec 12) : Encoding.Statement (.linkAck plane link lseq) :=
    ⟨rfl, rfl⟩
theorem Encoding.linkNak (plane link : Nat) (lseq : BitVec 12) : Encoding.Statement (.linkNak plane link lseq) :=
    ⟨rfl, rfl⟩
theorem Encoding.laneFailure (plane link lane : Nat) : Encoding.Statement (.laneFailure plane link lane) := ⟨rfl, rfl⟩
theorem Encoding.linkRetrained (plane link : Nat) : Encoding.Statement (.linkRetrained plane link) := ⟨rfl, rfl⟩
theorem Encoding.switchPlaneFailed (plane : Nat) : Encoding.Statement (.switchPlaneFailed plane) := ⟨rfl, rfl⟩
theorem Encoding.calve (gen : Nat) (mask : BitVec 8) (base : Nat) : Encoding.Statement (.calve gen mask base) :=
    ⟨rfl, rfl⟩
theorem Encoding.calvingPortsClosed : Encoding.Statement (.calvingPortsClosed) := ⟨rfl, rfl⟩
theorem Encoding.calvingReport (gen src plane : Nat) (mark : BitVec 32) (window : BitVec 256) : Encoding.Statement (.calvingReport gen src plane mark window) :=
    ⟨rfl, rfl⟩
theorem Encoding.calvingDone (gen src : Nat) : Encoding.Statement (.calvingDone gen src) := ⟨rfl, rfl⟩
theorem Encoding.transportFrameReceive (port : Nat) (f : Frame) : Encoding.Statement (.transportFrameReceive port f) :=
    ⟨rfl, rfl⟩
theorem Encoding.hostRetransmitTimeout (port : Nat) : Encoding.Statement (.hostRetransmitTimeout port) := ⟨rfl, rfl⟩
theorem Encoding.helloQuery (q : Rq) (timeout : Nat) : Encoding.Statement (.helloQuery q timeout) := ⟨rfl, rfl⟩
theorem Encoding.helloSelect (q : Rq) (timeout devno : Nat) (dead : BitVec 8) (sel : BitVec 256) : Encoding.Statement (.helloSelect q timeout devno dead sel) :=
    ⟨rfl, rfl⟩
theorem Encoding.contextCreate (q : Rq) (ctx : Nat) (mask : Word) (root : Nat) (ring : DWord) (j : Nat) : Encoding.Statement (.contextCreate q ctx mask root ring j) :=
    ⟨rfl, rfl⟩
theorem Encoding.contextDestroy (q : Rq) (ctx : Nat) : Encoding.Statement (.contextDestroy q ctx) := ⟨rfl, rfl⟩
theorem Encoding.contextMethods (q : Rq) (ctx : Nat) (table : List MethodEntry) : Encoding.Statement (.contextMethods q ctx table) :=
    ⟨rfl, rfl⟩
theorem Encoding.contextPeers (q : Rq) (ctx first : Nat) (sets : List (List (BitVec 16))) : Encoding.Statement (.contextPeers q ctx first sets) :=
    ⟨rfl, rfl⟩
theorem Encoding.memwrite (q : Rq) (ctx : Nat) (va : DWord) (data : List Byte) : Encoding.Statement (.memwrite q ctx va data) :=
    ⟨rfl, rfl⟩
theorem Encoding.memread (q : Rq) (ctx : Nat) (va : DWord) (len : Nat) : Encoding.Statement (.memread q ctx va len) :=
    ⟨rfl, rfl⟩
theorem Encoding.clearMonitors (q : Rq) : Encoding.Statement (.clearMonitors q) := ⟨rfl, rfl⟩
theorem Encoding.map (q : Rq) (ctx : Nat) (zero : Bool) (size count : Nat) (va leaf : DWord) : Encoding.Statement (.map q ctx zero size count va leaf) :=
    ⟨rfl, rfl⟩
theorem Encoding.unmap (q : Rq) (ctx : Nat) (size count : Nat) (va : DWord) : Encoding.Statement (.unmap q ctx size count va) :=
    ⟨rfl, rfl⟩
theorem Encoding.protect (q : Rq) (ctx : Nat) (size count : Nat) (va leaf : DWord) : Encoding.Statement (.protect q ctx size count va leaf) :=
    ⟨rfl, rfl⟩
theorem Encoding.launchStart (q : Rq) (ctx : Nat) (record : List Byte) (params : List Byte) : Encoding.Statement (.launchStart q ctx record params) :=
    ⟨rfl, rfl⟩
theorem Encoding.launchEnd (q : Rq) (launch : Nat) : Encoding.Statement (.launchEnd q launch) := ⟨rfl, rfl⟩
theorem Encoding.launchResume (q : Rq) (launch n : Nat) (secs : List Section) : Encoding.Statement (.launchResume q launch n secs) :=
    ⟨rfl, rfl⟩
theorem Encoding.dump (q : Rq) (launch : Nat) (va : DWord) (len : DWord) : Encoding.Statement (.dump q launch va len) :=
    ⟨rfl, rfl⟩
theorem Encoding.firmwareLoad (q : Rq) (off : Nat) (data : List Byte) : Encoding.Statement (.firmwareLoad q off data) :=
    ⟨rfl, rfl⟩
theorem Encoding.firmwareCommit (q : Rq) (len : Nat) : Encoding.Statement (.firmwareCommit q len) := ⟨rfl, rfl⟩
theorem Encoding.firmwareAttest (q : Rq) (nonce : List Byte) : Encoding.Statement (.firmwareAttest q nonce) :=
    ⟨rfl, rfl⟩
theorem Encoding.deviceReset : Encoding.Statement (.deviceReset) := ⟨rfl, rfl⟩
theorem Encoding.sample (core sl : Nat) : Encoding.Statement (.sample core sl) := ⟨rfl, rfl⟩
theorem Encoding.monitorLevelSample (temps volts : List Nat) : Encoding.Statement (.monitorLevelSample temps volts) :=
    ⟨rfl, rfl⟩
theorem Encoding.sliceCycle (core : Nat) : Encoding.Statement (.sliceCycle core) := ⟨rfl, rfl⟩
theorem Encoding.memoryError (loc : ErrLoc) (uncorrectable : Bool) : Encoding.Statement (.memoryError loc uncorrectable) :=
    ⟨rfl, rfl⟩
theorem Encoding.deviceMissing (dev : Nat) : Encoding.Statement (.deviceMissing dev) := ⟨rfl, rfl⟩
theorem Encoding.serviceCoreRetired (core : Nat) : Encoding.Statement (.serviceCoreRetired core) := ⟨rfl, rfl⟩
theorem Encoding.powerLoss : Encoding.Statement (.powerLoss) := ⟨rfl, rfl⟩

end Sys2Proof.Laws
end

