-- ==== Sys2Proof/Laws/State.lean ====
section
/-! SUPPORT. Every update of a part of the state leaves every other field as it is: one lemma per field and update. -/

namespace Sys2Proof.Machine

@[simp] theorem State.modCore_agenda (s : State) (n : Nat) (f : Core → Core) : (s.modCore n f).agenda = s.agenda := rfl
@[simp] theorem State.modCore_turns (s : State) (n : Nat) (f : Core → Core) : (s.modCore n f).turns = s.turns := rfl
@[simp] theorem State.modCore_focus (s : State) (n : Nat) (f : Core → Core) : (s.modCore n f).focus = s.focus := rfl
@[simp] theorem State.modCore_mem (s : State) (n : Nat) (f : Core → Core) : (s.modCore n f).mem = s.mem := rfl
@[simp] theorem State.modCore_devno (s : State) (n : Nat) (f : Core → Core) : (s.modCore n f).devno = s.devno := rfl
@[simp] theorem State.modCore_features (s : State) (n : Nat) (f : Core → Core) : (s.modCore n f).features = s.features := rfl
@[simp] theorem State.modCore_contexts (s : State) (n : Nat) (f : Core → Core) : (s.modCore n f).contexts = s.contexts := rfl
@[simp] theorem State.modCore_launches (s : State) (n : Nat) (f : Core → Core) : (s.modCore n f).launches = s.launches := rfl
@[simp] theorem State.modCore_teams (s : State) (n : Nat) (f : Core → Core) : (s.modCore n f).teams = s.teams := rfl
@[simp] theorem State.modCore_dies (s : State) (n : Nat) (f : Core → Core) : (s.modCore n f).dies = s.dies := rfl
@[simp] theorem State.modCore_errors (s : State) (n : Nat) (f : Core → Core) : (s.modCore n f).errors = s.errors := rfl
@[simp] theorem State.modCore_rewritten (s : State) (n : Nat) (f : Core → Core) : (s.modCore n f).rewritten = s.rewritten := rfl
@[simp] theorem State.modCore_events (s : State) (n : Nat) (f : Core → Core) : (s.modCore n f).events = s.events := rfl
@[simp] theorem State.modCore_tree (s : State) (n : Nat) (f : Core → Core) : (s.modCore n f).tree = s.tree := rfl
@[simp] theorem State.modCore_transit (s : State) (n : Nat) (f : Core → Core) : (s.modCore n f).transit = s.transit := rfl
@[simp] theorem State.modCore_replies (s : State) (n : Nat) (f : Core → Core) : (s.modCore n f).replies = s.replies := rfl
@[simp] theorem State.modCore_fabric (s : State) (n : Nat) (f : Core → Core) : (s.modCore n f).fabric = s.fabric := rfl
@[simp] theorem State.modCore_ports (s : State) (n : Nat) (f : Core → Core) : (s.modCore n f).ports = s.ports := rfl
@[simp] theorem State.modCore_inbox (s : State) (n : Nat) (f : Core → Core) : (s.modCore n f).inbox = s.inbox := rfl
@[simp] theorem State.modCore_service (s : State) (n : Nat) (f : Core → Core) : (s.modCore n f).service = s.service := rfl

@[simp] theorem State.modSlice_agenda (s : State) (n l : Nat) (f : Slice → Slice) : (s.modSlice n l f).agenda = s.agenda := rfl
@[simp] theorem State.modSlice_turns (s : State) (n l : Nat) (f : Slice → Slice) : (s.modSlice n l f).turns = s.turns := rfl
@[simp] theorem State.modSlice_focus (s : State) (n l : Nat) (f : Slice → Slice) : (s.modSlice n l f).focus = s.focus := rfl
@[simp] theorem State.modSlice_mem (s : State) (n l : Nat) (f : Slice → Slice) : (s.modSlice n l f).mem = s.mem := rfl
@[simp] theorem State.modSlice_devno (s : State) (n l : Nat) (f : Slice → Slice) : (s.modSlice n l f).devno = s.devno := rfl
@[simp] theorem State.modSlice_features (s : State) (n l : Nat) (f : Slice → Slice) : (s.modSlice n l f).features = s.features := rfl
@[simp] theorem State.modSlice_contexts (s : State) (n l : Nat) (f : Slice → Slice) : (s.modSlice n l f).contexts = s.contexts := rfl
@[simp] theorem State.modSlice_launches (s : State) (n l : Nat) (f : Slice → Slice) : (s.modSlice n l f).launches = s.launches := rfl
@[simp] theorem State.modSlice_teams (s : State) (n l : Nat) (f : Slice → Slice) : (s.modSlice n l f).teams = s.teams := rfl
@[simp] theorem State.modSlice_dies (s : State) (n l : Nat) (f : Slice → Slice) : (s.modSlice n l f).dies = s.dies := rfl
@[simp] theorem State.modSlice_errors (s : State) (n l : Nat) (f : Slice → Slice) : (s.modSlice n l f).errors = s.errors := rfl
@[simp] theorem State.modSlice_rewritten (s : State) (n l : Nat) (f : Slice → Slice) : (s.modSlice n l f).rewritten = s.rewritten := rfl
@[simp] theorem State.modSlice_events (s : State) (n l : Nat) (f : Slice → Slice) : (s.modSlice n l f).events = s.events := rfl
@[simp] theorem State.modSlice_tree (s : State) (n l : Nat) (f : Slice → Slice) : (s.modSlice n l f).tree = s.tree := rfl
@[simp] theorem State.modSlice_transit (s : State) (n l : Nat) (f : Slice → Slice) : (s.modSlice n l f).transit = s.transit := rfl
@[simp] theorem State.modSlice_replies (s : State) (n l : Nat) (f : Slice → Slice) : (s.modSlice n l f).replies = s.replies := rfl
@[simp] theorem State.modSlice_fabric (s : State) (n l : Nat) (f : Slice → Slice) : (s.modSlice n l f).fabric = s.fabric := rfl
@[simp] theorem State.modSlice_ports (s : State) (n l : Nat) (f : Slice → Slice) : (s.modSlice n l f).ports = s.ports := rfl
@[simp] theorem State.modSlice_inbox (s : State) (n l : Nat) (f : Slice → Slice) : (s.modSlice n l f).inbox = s.inbox := rfl
@[simp] theorem State.modSlice_service (s : State) (n l : Nat) (f : Slice → Slice) : (s.modSlice n l f).service = s.service := rfl

@[simp] theorem State.modDie_agenda (s : State) (n : Nat) (f : Die → Die) : (s.modDie n f).agenda = s.agenda := rfl
@[simp] theorem State.modDie_turns (s : State) (n : Nat) (f : Die → Die) : (s.modDie n f).turns = s.turns := rfl
@[simp] theorem State.modDie_focus (s : State) (n : Nat) (f : Die → Die) : (s.modDie n f).focus = s.focus := rfl
@[simp] theorem State.modDie_mem (s : State) (n : Nat) (f : Die → Die) : (s.modDie n f).mem = s.mem := rfl
@[simp] theorem State.modDie_devno (s : State) (n : Nat) (f : Die → Die) : (s.modDie n f).devno = s.devno := rfl
@[simp] theorem State.modDie_features (s : State) (n : Nat) (f : Die → Die) : (s.modDie n f).features = s.features := rfl
@[simp] theorem State.modDie_contexts (s : State) (n : Nat) (f : Die → Die) : (s.modDie n f).contexts = s.contexts := rfl
@[simp] theorem State.modDie_launches (s : State) (n : Nat) (f : Die → Die) : (s.modDie n f).launches = s.launches := rfl
@[simp] theorem State.modDie_teams (s : State) (n : Nat) (f : Die → Die) : (s.modDie n f).teams = s.teams := rfl
@[simp] theorem State.modDie_cores (s : State) (n : Nat) (f : Die → Die) : (s.modDie n f).cores = s.cores := rfl
@[simp] theorem State.modDie_errors (s : State) (n : Nat) (f : Die → Die) : (s.modDie n f).errors = s.errors := rfl
@[simp] theorem State.modDie_rewritten (s : State) (n : Nat) (f : Die → Die) : (s.modDie n f).rewritten = s.rewritten := rfl
@[simp] theorem State.modDie_events (s : State) (n : Nat) (f : Die → Die) : (s.modDie n f).events = s.events := rfl
@[simp] theorem State.modDie_tree (s : State) (n : Nat) (f : Die → Die) : (s.modDie n f).tree = s.tree := rfl
@[simp] theorem State.modDie_transit (s : State) (n : Nat) (f : Die → Die) : (s.modDie n f).transit = s.transit := rfl
@[simp] theorem State.modDie_replies (s : State) (n : Nat) (f : Die → Die) : (s.modDie n f).replies = s.replies := rfl
@[simp] theorem State.modDie_fabric (s : State) (n : Nat) (f : Die → Die) : (s.modDie n f).fabric = s.fabric := rfl
@[simp] theorem State.modDie_ports (s : State) (n : Nat) (f : Die → Die) : (s.modDie n f).ports = s.ports := rfl
@[simp] theorem State.modDie_inbox (s : State) (n : Nat) (f : Die → Die) : (s.modDie n f).inbox = s.inbox := rfl
@[simp] theorem State.modDie_service (s : State) (n : Nat) (f : Die → Die) : (s.modDie n f).service = s.service := rfl

@[simp] theorem State.modTeam_agenda (s : State) (k : TeamKey) (f : Team → Team) : (s.modTeam k f).agenda = s.agenda := rfl
@[simp] theorem State.modTeam_turns (s : State) (k : TeamKey) (f : Team → Team) : (s.modTeam k f).turns = s.turns := rfl
@[simp] theorem State.modTeam_focus (s : State) (k : TeamKey) (f : Team → Team) : (s.modTeam k f).focus = s.focus := rfl
@[simp] theorem State.modTeam_mem (s : State) (k : TeamKey) (f : Team → Team) : (s.modTeam k f).mem = s.mem := rfl
@[simp] theorem State.modTeam_devno (s : State) (k : TeamKey) (f : Team → Team) : (s.modTeam k f).devno = s.devno := rfl
@[simp] theorem State.modTeam_features (s : State) (k : TeamKey) (f : Team → Team) : (s.modTeam k f).features = s.features := rfl
@[simp] theorem State.modTeam_contexts (s : State) (k : TeamKey) (f : Team → Team) : (s.modTeam k f).contexts = s.contexts := rfl
@[simp] theorem State.modTeam_launches (s : State) (k : TeamKey) (f : Team → Team) : (s.modTeam k f).launches = s.launches := rfl
@[simp] theorem State.modTeam_cores (s : State) (k : TeamKey) (f : Team → Team) : (s.modTeam k f).cores = s.cores := rfl
@[simp] theorem State.modTeam_dies (s : State) (k : TeamKey) (f : Team → Team) : (s.modTeam k f).dies = s.dies := rfl
@[simp] theorem State.modTeam_errors (s : State) (k : TeamKey) (f : Team → Team) : (s.modTeam k f).errors = s.errors := rfl
@[simp] theorem State.modTeam_rewritten (s : State) (k : TeamKey) (f : Team → Team) : (s.modTeam k f).rewritten = s.rewritten := rfl
@[simp] theorem State.modTeam_events (s : State) (k : TeamKey) (f : Team → Team) : (s.modTeam k f).events = s.events := rfl
@[simp] theorem State.modTeam_tree (s : State) (k : TeamKey) (f : Team → Team) : (s.modTeam k f).tree = s.tree := rfl
@[simp] theorem State.modTeam_transit (s : State) (k : TeamKey) (f : Team → Team) : (s.modTeam k f).transit = s.transit := rfl
@[simp] theorem State.modTeam_replies (s : State) (k : TeamKey) (f : Team → Team) : (s.modTeam k f).replies = s.replies := rfl
@[simp] theorem State.modTeam_fabric (s : State) (k : TeamKey) (f : Team → Team) : (s.modTeam k f).fabric = s.fabric := rfl
@[simp] theorem State.modTeam_ports (s : State) (k : TeamKey) (f : Team → Team) : (s.modTeam k f).ports = s.ports := rfl
@[simp] theorem State.modTeam_inbox (s : State) (k : TeamKey) (f : Team → Team) : (s.modTeam k f).inbox = s.inbox := rfl
@[simp] theorem State.modTeam_service (s : State) (k : TeamKey) (f : Team → Team) : (s.modTeam k f).service = s.service := rfl

@[simp] theorem State.modLaunch_agenda (s : State) (n : Nat) (f : Launch → Launch) : (s.modLaunch n f).agenda = s.agenda := rfl
@[simp] theorem State.modLaunch_turns (s : State) (n : Nat) (f : Launch → Launch) : (s.modLaunch n f).turns = s.turns := rfl
@[simp] theorem State.modLaunch_focus (s : State) (n : Nat) (f : Launch → Launch) : (s.modLaunch n f).focus = s.focus := rfl
@[simp] theorem State.modLaunch_mem (s : State) (n : Nat) (f : Launch → Launch) : (s.modLaunch n f).mem = s.mem := rfl
@[simp] theorem State.modLaunch_devno (s : State) (n : Nat) (f : Launch → Launch) : (s.modLaunch n f).devno = s.devno := rfl
@[simp] theorem State.modLaunch_features (s : State) (n : Nat) (f : Launch → Launch) : (s.modLaunch n f).features = s.features := rfl
@[simp] theorem State.modLaunch_contexts (s : State) (n : Nat) (f : Launch → Launch) : (s.modLaunch n f).contexts = s.contexts := rfl
@[simp] theorem State.modLaunch_teams (s : State) (n : Nat) (f : Launch → Launch) : (s.modLaunch n f).teams = s.teams := rfl
@[simp] theorem State.modLaunch_cores (s : State) (n : Nat) (f : Launch → Launch) : (s.modLaunch n f).cores = s.cores := rfl
@[simp] theorem State.modLaunch_dies (s : State) (n : Nat) (f : Launch → Launch) : (s.modLaunch n f).dies = s.dies := rfl
@[simp] theorem State.modLaunch_errors (s : State) (n : Nat) (f : Launch → Launch) : (s.modLaunch n f).errors = s.errors := rfl
@[simp] theorem State.modLaunch_rewritten (s : State) (n : Nat) (f : Launch → Launch) : (s.modLaunch n f).rewritten = s.rewritten := rfl
@[simp] theorem State.modLaunch_events (s : State) (n : Nat) (f : Launch → Launch) : (s.modLaunch n f).events = s.events := rfl
@[simp] theorem State.modLaunch_tree (s : State) (n : Nat) (f : Launch → Launch) : (s.modLaunch n f).tree = s.tree := rfl
@[simp] theorem State.modLaunch_transit (s : State) (n : Nat) (f : Launch → Launch) : (s.modLaunch n f).transit = s.transit := rfl
@[simp] theorem State.modLaunch_replies (s : State) (n : Nat) (f : Launch → Launch) : (s.modLaunch n f).replies = s.replies := rfl
@[simp] theorem State.modLaunch_fabric (s : State) (n : Nat) (f : Launch → Launch) : (s.modLaunch n f).fabric = s.fabric := rfl
@[simp] theorem State.modLaunch_ports (s : State) (n : Nat) (f : Launch → Launch) : (s.modLaunch n f).ports = s.ports := rfl
@[simp] theorem State.modLaunch_inbox (s : State) (n : Nat) (f : Launch → Launch) : (s.modLaunch n f).inbox = s.inbox := rfl
@[simp] theorem State.modLaunch_service (s : State) (n : Nat) (f : Launch → Launch) : (s.modLaunch n f).service = s.service := rfl

@[simp] theorem State.dropBundle_agenda (s : State) : (s.dropBundle).agenda = s.agenda := rfl
@[simp] theorem State.dropBundle_turns (s : State) : (s.dropBundle).turns = s.turns := rfl
@[simp] theorem State.dropBundle_focus (s : State) : (s.dropBundle).focus = s.focus := rfl
@[simp] theorem State.dropBundle_mem (s : State) : (s.dropBundle).mem = s.mem := rfl
@[simp] theorem State.dropBundle_devno (s : State) : (s.dropBundle).devno = s.devno := rfl
@[simp] theorem State.dropBundle_features (s : State) : (s.dropBundle).features = s.features := rfl
@[simp] theorem State.dropBundle_contexts (s : State) : (s.dropBundle).contexts = s.contexts := rfl
@[simp] theorem State.dropBundle_launches (s : State) : (s.dropBundle).launches = s.launches := rfl
@[simp] theorem State.dropBundle_teams (s : State) : (s.dropBundle).teams = s.teams := rfl
@[simp] theorem State.dropBundle_dies (s : State) : (s.dropBundle).dies = s.dies := rfl
@[simp] theorem State.dropBundle_errors (s : State) : (s.dropBundle).errors = s.errors := rfl
@[simp] theorem State.dropBundle_rewritten (s : State) : (s.dropBundle).rewritten = s.rewritten := rfl
@[simp] theorem State.dropBundle_events (s : State) : (s.dropBundle).events = s.events := rfl
@[simp] theorem State.dropBundle_tree (s : State) : (s.dropBundle).tree = s.tree := rfl
@[simp] theorem State.dropBundle_transit (s : State) : (s.dropBundle).transit = s.transit := rfl
@[simp] theorem State.dropBundle_replies (s : State) : (s.dropBundle).replies = s.replies := rfl
@[simp] theorem State.dropBundle_fabric (s : State) : (s.dropBundle).fabric = s.fabric := rfl
@[simp] theorem State.dropBundle_ports (s : State) : (s.dropBundle).ports = s.ports := rfl
@[simp] theorem State.dropBundle_inbox (s : State) : (s.dropBundle).inbox = s.inbox := rfl
@[simp] theorem State.dropBundle_service (s : State) : (s.dropBundle).service = s.service := rfl

@[simp] theorem State.noteMon_agenda (s : State) (i : Nat) (v : Word) : (s.noteMon i v).agenda = s.agenda := rfl
@[simp] theorem State.noteMon_turns (s : State) (i : Nat) (v : Word) : (s.noteMon i v).turns = s.turns := rfl
@[simp] theorem State.noteMon_focus (s : State) (i : Nat) (v : Word) : (s.noteMon i v).focus = s.focus := rfl
@[simp] theorem State.noteMon_mem (s : State) (i : Nat) (v : Word) : (s.noteMon i v).mem = s.mem := rfl
@[simp] theorem State.noteMon_devno (s : State) (i : Nat) (v : Word) : (s.noteMon i v).devno = s.devno := rfl
@[simp] theorem State.noteMon_features (s : State) (i : Nat) (v : Word) : (s.noteMon i v).features = s.features := rfl
@[simp] theorem State.noteMon_contexts (s : State) (i : Nat) (v : Word) : (s.noteMon i v).contexts = s.contexts := rfl
@[simp] theorem State.noteMon_launches (s : State) (i : Nat) (v : Word) : (s.noteMon i v).launches = s.launches := rfl
@[simp] theorem State.noteMon_teams (s : State) (i : Nat) (v : Word) : (s.noteMon i v).teams = s.teams := rfl
@[simp] theorem State.noteMon_cores (s : State) (i : Nat) (v : Word) : (s.noteMon i v).cores = s.cores := rfl
@[simp] theorem State.noteMon_dies (s : State) (i : Nat) (v : Word) : (s.noteMon i v).dies = s.dies := rfl
@[simp] theorem State.noteMon_errors (s : State) (i : Nat) (v : Word) : (s.noteMon i v).errors = s.errors := rfl
@[simp] theorem State.noteMon_rewritten (s : State) (i : Nat) (v : Word) : (s.noteMon i v).rewritten = s.rewritten := rfl
@[simp] theorem State.noteMon_events (s : State) (i : Nat) (v : Word) : (s.noteMon i v).events = s.events := rfl
@[simp] theorem State.noteMon_tree (s : State) (i : Nat) (v : Word) : (s.noteMon i v).tree = s.tree := rfl
@[simp] theorem State.noteMon_transit (s : State) (i : Nat) (v : Word) : (s.noteMon i v).transit = s.transit := rfl
@[simp] theorem State.noteMon_replies (s : State) (i : Nat) (v : Word) : (s.noteMon i v).replies = s.replies := rfl
@[simp] theorem State.noteMon_fabric (s : State) (i : Nat) (v : Word) : (s.noteMon i v).fabric = s.fabric := rfl
@[simp] theorem State.noteMon_ports (s : State) (i : Nat) (v : Word) : (s.noteMon i v).ports = s.ports := rfl
@[simp] theorem State.noteMon_inbox (s : State) (i : Nat) (v : Word) : (s.noteMon i v).inbox = s.inbox := rfl

@[simp] theorem State.noteLatency_agenda (s : State) (i : Nat) : (s.noteLatency i).agenda = s.agenda := rfl
@[simp] theorem State.noteLatency_turns (s : State) (i : Nat) : (s.noteLatency i).turns = s.turns := rfl
@[simp] theorem State.noteLatency_focus (s : State) (i : Nat) : (s.noteLatency i).focus = s.focus := rfl
@[simp] theorem State.noteLatency_mem (s : State) (i : Nat) : (s.noteLatency i).mem = s.mem := rfl
@[simp] theorem State.noteLatency_devno (s : State) (i : Nat) : (s.noteLatency i).devno = s.devno := rfl
@[simp] theorem State.noteLatency_features (s : State) (i : Nat) : (s.noteLatency i).features = s.features := rfl
@[simp] theorem State.noteLatency_contexts (s : State) (i : Nat) : (s.noteLatency i).contexts = s.contexts := rfl
@[simp] theorem State.noteLatency_launches (s : State) (i : Nat) : (s.noteLatency i).launches = s.launches := rfl
@[simp] theorem State.noteLatency_teams (s : State) (i : Nat) : (s.noteLatency i).teams = s.teams := rfl
@[simp] theorem State.noteLatency_cores (s : State) (i : Nat) : (s.noteLatency i).cores = s.cores := rfl
@[simp] theorem State.noteLatency_dies (s : State) (i : Nat) : (s.noteLatency i).dies = s.dies := rfl
@[simp] theorem State.noteLatency_errors (s : State) (i : Nat) : (s.noteLatency i).errors = s.errors := rfl
@[simp] theorem State.noteLatency_rewritten (s : State) (i : Nat) : (s.noteLatency i).rewritten = s.rewritten := rfl
@[simp] theorem State.noteLatency_events (s : State) (i : Nat) : (s.noteLatency i).events = s.events := rfl
@[simp] theorem State.noteLatency_tree (s : State) (i : Nat) : (s.noteLatency i).tree = s.tree := rfl
@[simp] theorem State.noteLatency_transit (s : State) (i : Nat) : (s.noteLatency i).transit = s.transit := rfl
@[simp] theorem State.noteLatency_replies (s : State) (i : Nat) : (s.noteLatency i).replies = s.replies := rfl
@[simp] theorem State.noteLatency_fabric (s : State) (i : Nat) : (s.noteLatency i).fabric = s.fabric := rfl
@[simp] theorem State.noteLatency_ports (s : State) (i : Nat) : (s.noteLatency i).ports = s.ports := rfl
@[simp] theorem State.noteLatency_inbox (s : State) (i : Nat) : (s.noteLatency i).inbox = s.inbox := rfl

@[simp] theorem State.bumpRing_agenda (s : State) (d o : Nat) : (s.bumpRing d o).agenda = s.agenda := rfl
@[simp] theorem State.bumpRing_turns (s : State) (d o : Nat) : (s.bumpRing d o).turns = s.turns := rfl
@[simp] theorem State.bumpRing_focus (s : State) (d o : Nat) : (s.bumpRing d o).focus = s.focus := rfl
@[simp] theorem State.bumpRing_devno (s : State) (d o : Nat) : (s.bumpRing d o).devno = s.devno := rfl
@[simp] theorem State.bumpRing_features (s : State) (d o : Nat) : (s.bumpRing d o).features = s.features := rfl
@[simp] theorem State.bumpRing_contexts (s : State) (d o : Nat) : (s.bumpRing d o).contexts = s.contexts := rfl
@[simp] theorem State.bumpRing_launches (s : State) (d o : Nat) : (s.bumpRing d o).launches = s.launches := rfl
@[simp] theorem State.bumpRing_teams (s : State) (d o : Nat) : (s.bumpRing d o).teams = s.teams := rfl
@[simp] theorem State.bumpRing_cores (s : State) (d o : Nat) : (s.bumpRing d o).cores = s.cores := rfl
@[simp] theorem State.bumpRing_dies (s : State) (d o : Nat) : (s.bumpRing d o).dies = s.dies := rfl
@[simp] theorem State.bumpRing_errors (s : State) (d o : Nat) : (s.bumpRing d o).errors = s.errors := rfl
@[simp] theorem State.bumpRing_rewritten (s : State) (d o : Nat) : (s.bumpRing d o).rewritten = s.rewritten := rfl
@[simp] theorem State.bumpRing_events (s : State) (d o : Nat) : (s.bumpRing d o).events = s.events := rfl
@[simp] theorem State.bumpRing_tree (s : State) (d o : Nat) : (s.bumpRing d o).tree = s.tree := rfl
@[simp] theorem State.bumpRing_transit (s : State) (d o : Nat) : (s.bumpRing d o).transit = s.transit := rfl
@[simp] theorem State.bumpRing_replies (s : State) (d o : Nat) : (s.bumpRing d o).replies = s.replies := rfl
@[simp] theorem State.bumpRing_fabric (s : State) (d o : Nat) : (s.bumpRing d o).fabric = s.fabric := rfl
@[simp] theorem State.bumpRing_ports (s : State) (d o : Nat) : (s.bumpRing d o).ports = s.ports := rfl
@[simp] theorem State.bumpRing_inbox (s : State) (d o : Nat) : (s.bumpRing d o).inbox = s.inbox := rfl
@[simp] theorem State.bumpRing_service (s : State) (d o : Nat) : (s.bumpRing d o).service = s.service := rfl

@[simp] theorem State.modFabric_agenda (s : State) (f : Fabric → Fabric) : (s.modFabric f).agenda = s.agenda := rfl
@[simp] theorem State.modFabric_turns (s : State) (f : Fabric → Fabric) : (s.modFabric f).turns = s.turns := rfl
@[simp] theorem State.modFabric_focus (s : State) (f : Fabric → Fabric) : (s.modFabric f).focus = s.focus := rfl
@[simp] theorem State.modFabric_mem (s : State) (f : Fabric → Fabric) : (s.modFabric f).mem = s.mem := rfl
@[simp] theorem State.modFabric_devno (s : State) (f : Fabric → Fabric) : (s.modFabric f).devno = s.devno := rfl
@[simp] theorem State.modFabric_features (s : State) (f : Fabric → Fabric) : (s.modFabric f).features = s.features := rfl
@[simp] theorem State.modFabric_contexts (s : State) (f : Fabric → Fabric) : (s.modFabric f).contexts = s.contexts := rfl
@[simp] theorem State.modFabric_launches (s : State) (f : Fabric → Fabric) : (s.modFabric f).launches = s.launches := rfl
@[simp] theorem State.modFabric_teams (s : State) (f : Fabric → Fabric) : (s.modFabric f).teams = s.teams := rfl
@[simp] theorem State.modFabric_cores (s : State) (f : Fabric → Fabric) : (s.modFabric f).cores = s.cores := rfl
@[simp] theorem State.modFabric_dies (s : State) (f : Fabric → Fabric) : (s.modFabric f).dies = s.dies := rfl
@[simp] theorem State.modFabric_errors (s : State) (f : Fabric → Fabric) : (s.modFabric f).errors = s.errors := rfl
@[simp] theorem State.modFabric_rewritten (s : State) (f : Fabric → Fabric) : (s.modFabric f).rewritten = s.rewritten := rfl
@[simp] theorem State.modFabric_events (s : State) (f : Fabric → Fabric) : (s.modFabric f).events = s.events := rfl
@[simp] theorem State.modFabric_tree (s : State) (f : Fabric → Fabric) : (s.modFabric f).tree = s.tree := rfl
@[simp] theorem State.modFabric_transit (s : State) (f : Fabric → Fabric) : (s.modFabric f).transit = s.transit := rfl
@[simp] theorem State.modFabric_replies (s : State) (f : Fabric → Fabric) : (s.modFabric f).replies = s.replies := rfl
@[simp] theorem State.modFabric_ports (s : State) (f : Fabric → Fabric) : (s.modFabric f).ports = s.ports := rfl
@[simp] theorem State.modFabric_inbox (s : State) (f : Fabric → Fabric) : (s.modFabric f).inbox = s.inbox := rfl
@[simp] theorem State.modFabric_service (s : State) (f : Fabric → Fabric) : (s.modFabric f).service = s.service := rfl

@[simp] theorem State.modService_agenda (s : State) (f : Service → Service) : (s.modService f).agenda = s.agenda := rfl
@[simp] theorem State.modService_turns (s : State) (f : Service → Service) : (s.modService f).turns = s.turns := rfl
@[simp] theorem State.modService_focus (s : State) (f : Service → Service) : (s.modService f).focus = s.focus := rfl
@[simp] theorem State.modService_mem (s : State) (f : Service → Service) : (s.modService f).mem = s.mem := rfl
@[simp] theorem State.modService_devno (s : State) (f : Service → Service) : (s.modService f).devno = s.devno := rfl
@[simp] theorem State.modService_features (s : State) (f : Service → Service) : (s.modService f).features = s.features := rfl
@[simp] theorem State.modService_contexts (s : State) (f : Service → Service) : (s.modService f).contexts = s.contexts := rfl
@[simp] theorem State.modService_launches (s : State) (f : Service → Service) : (s.modService f).launches = s.launches := rfl
@[simp] theorem State.modService_teams (s : State) (f : Service → Service) : (s.modService f).teams = s.teams := rfl
@[simp] theorem State.modService_cores (s : State) (f : Service → Service) : (s.modService f).cores = s.cores := rfl
@[simp] theorem State.modService_dies (s : State) (f : Service → Service) : (s.modService f).dies = s.dies := rfl
@[simp] theorem State.modService_errors (s : State) (f : Service → Service) : (s.modService f).errors = s.errors := rfl
@[simp] theorem State.modService_rewritten (s : State) (f : Service → Service) : (s.modService f).rewritten = s.rewritten := rfl
@[simp] theorem State.modService_events (s : State) (f : Service → Service) : (s.modService f).events = s.events := rfl
@[simp] theorem State.modService_tree (s : State) (f : Service → Service) : (s.modService f).tree = s.tree := rfl
@[simp] theorem State.modService_transit (s : State) (f : Service → Service) : (s.modService f).transit = s.transit := rfl
@[simp] theorem State.modService_replies (s : State) (f : Service → Service) : (s.modService f).replies = s.replies := rfl
@[simp] theorem State.modService_fabric (s : State) (f : Service → Service) : (s.modService f).fabric = s.fabric := rfl
@[simp] theorem State.modService_ports (s : State) (f : Service → Service) : (s.modService f).ports = s.ports := rfl
@[simp] theorem State.modService_inbox (s : State) (f : Service → Service) : (s.modService f).inbox = s.inbox := rfl

@[simp] theorem State.modContext_agenda (s : State) (n : Nat) (f : Context → Context) : (s.modContext n f).agenda = s.agenda := rfl
@[simp] theorem State.modContext_turns (s : State) (n : Nat) (f : Context → Context) : (s.modContext n f).turns = s.turns := rfl
@[simp] theorem State.modContext_focus (s : State) (n : Nat) (f : Context → Context) : (s.modContext n f).focus = s.focus := rfl
@[simp] theorem State.modContext_mem (s : State) (n : Nat) (f : Context → Context) : (s.modContext n f).mem = s.mem := rfl
@[simp] theorem State.modContext_devno (s : State) (n : Nat) (f : Context → Context) : (s.modContext n f).devno = s.devno := rfl
@[simp] theorem State.modContext_features (s : State) (n : Nat) (f : Context → Context) : (s.modContext n f).features = s.features := rfl
@[simp] theorem State.modContext_launches (s : State) (n : Nat) (f : Context → Context) : (s.modContext n f).launches = s.launches := rfl
@[simp] theorem State.modContext_teams (s : State) (n : Nat) (f : Context → Context) : (s.modContext n f).teams = s.teams := rfl
@[simp] theorem State.modContext_cores (s : State) (n : Nat) (f : Context → Context) : (s.modContext n f).cores = s.cores := rfl
@[simp] theorem State.modContext_dies (s : State) (n : Nat) (f : Context → Context) : (s.modContext n f).dies = s.dies := rfl
@[simp] theorem State.modContext_errors (s : State) (n : Nat) (f : Context → Context) : (s.modContext n f).errors = s.errors := rfl
@[simp] theorem State.modContext_rewritten (s : State) (n : Nat) (f : Context → Context) : (s.modContext n f).rewritten = s.rewritten := rfl
@[simp] theorem State.modContext_events (s : State) (n : Nat) (f : Context → Context) : (s.modContext n f).events = s.events := rfl
@[simp] theorem State.modContext_tree (s : State) (n : Nat) (f : Context → Context) : (s.modContext n f).tree = s.tree := rfl
@[simp] theorem State.modContext_transit (s : State) (n : Nat) (f : Context → Context) : (s.modContext n f).transit = s.transit := rfl
@[simp] theorem State.modContext_replies (s : State) (n : Nat) (f : Context → Context) : (s.modContext n f).replies = s.replies := rfl
@[simp] theorem State.modContext_fabric (s : State) (n : Nat) (f : Context → Context) : (s.modContext n f).fabric = s.fabric := rfl
@[simp] theorem State.modContext_ports (s : State) (n : Nat) (f : Context → Context) : (s.modContext n f).ports = s.ports := rfl
@[simp] theorem State.modContext_inbox (s : State) (n : Nat) (f : Context → Context) : (s.modContext n f).inbox = s.inbox := rfl
@[simp] theorem State.modContext_service (s : State) (n : Nat) (f : Context → Context) : (s.modContext n f).service = s.service := rfl

@[simp] theorem State.modPort_agenda (s : State) (n : Nat) (f : Port → Port) : (s.modPort n f).agenda = s.agenda := rfl
@[simp] theorem State.modPort_turns (s : State) (n : Nat) (f : Port → Port) : (s.modPort n f).turns = s.turns := rfl
@[simp] theorem State.modPort_focus (s : State) (n : Nat) (f : Port → Port) : (s.modPort n f).focus = s.focus := rfl
@[simp] theorem State.modPort_mem (s : State) (n : Nat) (f : Port → Port) : (s.modPort n f).mem = s.mem := rfl
@[simp] theorem State.modPort_devno (s : State) (n : Nat) (f : Port → Port) : (s.modPort n f).devno = s.devno := rfl
@[simp] theorem State.modPort_features (s : State) (n : Nat) (f : Port → Port) : (s.modPort n f).features = s.features := rfl
@[simp] theorem State.modPort_contexts (s : State) (n : Nat) (f : Port → Port) : (s.modPort n f).contexts = s.contexts := rfl
@[simp] theorem State.modPort_launches (s : State) (n : Nat) (f : Port → Port) : (s.modPort n f).launches = s.launches := rfl
@[simp] theorem State.modPort_teams (s : State) (n : Nat) (f : Port → Port) : (s.modPort n f).teams = s.teams := rfl
@[simp] theorem State.modPort_cores (s : State) (n : Nat) (f : Port → Port) : (s.modPort n f).cores = s.cores := rfl
@[simp] theorem State.modPort_dies (s : State) (n : Nat) (f : Port → Port) : (s.modPort n f).dies = s.dies := rfl
@[simp] theorem State.modPort_errors (s : State) (n : Nat) (f : Port → Port) : (s.modPort n f).errors = s.errors := rfl
@[simp] theorem State.modPort_rewritten (s : State) (n : Nat) (f : Port → Port) : (s.modPort n f).rewritten = s.rewritten := rfl
@[simp] theorem State.modPort_events (s : State) (n : Nat) (f : Port → Port) : (s.modPort n f).events = s.events := rfl
@[simp] theorem State.modPort_tree (s : State) (n : Nat) (f : Port → Port) : (s.modPort n f).tree = s.tree := rfl
@[simp] theorem State.modPort_transit (s : State) (n : Nat) (f : Port → Port) : (s.modPort n f).transit = s.transit := rfl
@[simp] theorem State.modPort_replies (s : State) (n : Nat) (f : Port → Port) : (s.modPort n f).replies = s.replies := rfl
@[simp] theorem State.modPort_fabric (s : State) (n : Nat) (f : Port → Port) : (s.modPort n f).fabric = s.fabric := rfl
@[simp] theorem State.modPort_inbox (s : State) (n : Nat) (f : Port → Port) : (s.modPort n f).inbox = s.inbox := rfl
@[simp] theorem State.modPort_service (s : State) (n : Nat) (f : Port → Port) : (s.modPort n f).service = s.service := rfl

@[simp] theorem State.give_agenda (s : State) (c : Cur) (h : Hdr) (t : Nat) (d : Opnd) (x : Word) : (s.give c h t d x).agenda = s.agenda := rfl
@[simp] theorem State.give_turns (s : State) (c : Cur) (h : Hdr) (t : Nat) (d : Opnd) (x : Word) : (s.give c h t d x).turns = s.turns := rfl
@[simp] theorem State.give_focus (s : State) (c : Cur) (h : Hdr) (t : Nat) (d : Opnd) (x : Word) : (s.give c h t d x).focus = s.focus := rfl
@[simp] theorem State.give_mem (s : State) (c : Cur) (h : Hdr) (t : Nat) (d : Opnd) (x : Word) : (s.give c h t d x).mem = s.mem := rfl
@[simp] theorem State.give_devno (s : State) (c : Cur) (h : Hdr) (t : Nat) (d : Opnd) (x : Word) : (s.give c h t d x).devno = s.devno := rfl
@[simp] theorem State.give_features (s : State) (c : Cur) (h : Hdr) (t : Nat) (d : Opnd) (x : Word) : (s.give c h t d x).features = s.features := rfl
@[simp] theorem State.give_contexts (s : State) (c : Cur) (h : Hdr) (t : Nat) (d : Opnd) (x : Word) : (s.give c h t d x).contexts = s.contexts := rfl
@[simp] theorem State.give_launches (s : State) (c : Cur) (h : Hdr) (t : Nat) (d : Opnd) (x : Word) : (s.give c h t d x).launches = s.launches := rfl
@[simp] theorem State.give_cores (s : State) (c : Cur) (h : Hdr) (t : Nat) (d : Opnd) (x : Word) : (s.give c h t d x).cores = s.cores := rfl
@[simp] theorem State.give_dies (s : State) (c : Cur) (h : Hdr) (t : Nat) (d : Opnd) (x : Word) : (s.give c h t d x).dies = s.dies := rfl
@[simp] theorem State.give_errors (s : State) (c : Cur) (h : Hdr) (t : Nat) (d : Opnd) (x : Word) : (s.give c h t d x).errors = s.errors := rfl
@[simp] theorem State.give_rewritten (s : State) (c : Cur) (h : Hdr) (t : Nat) (d : Opnd) (x : Word) : (s.give c h t d x).rewritten = s.rewritten := rfl
@[simp] theorem State.give_events (s : State) (c : Cur) (h : Hdr) (t : Nat) (d : Opnd) (x : Word) : (s.give c h t d x).events = s.events := rfl
@[simp] theorem State.give_tree (s : State) (c : Cur) (h : Hdr) (t : Nat) (d : Opnd) (x : Word) : (s.give c h t d x).tree = s.tree := rfl
@[simp] theorem State.give_transit (s : State) (c : Cur) (h : Hdr) (t : Nat) (d : Opnd) (x : Word) : (s.give c h t d x).transit = s.transit := rfl
@[simp] theorem State.give_replies (s : State) (c : Cur) (h : Hdr) (t : Nat) (d : Opnd) (x : Word) : (s.give c h t d x).replies = s.replies := rfl
@[simp] theorem State.give_fabric (s : State) (c : Cur) (h : Hdr) (t : Nat) (d : Opnd) (x : Word) : (s.give c h t d x).fabric = s.fabric := rfl
@[simp] theorem State.give_ports (s : State) (c : Cur) (h : Hdr) (t : Nat) (d : Opnd) (x : Word) : (s.give c h t d x).ports = s.ports := rfl
@[simp] theorem State.give_inbox (s : State) (c : Cur) (h : Hdr) (t : Nat) (d : Opnd) (x : Word) : (s.give c h t d x).inbox = s.inbox := rfl
@[simp] theorem State.give_service (s : State) (c : Cur) (h : Hdr) (t : Nat) (d : Opnd) (x : Word) : (s.give c h t d x).service = s.service := rfl

@[simp] theorem State.modCmd_agenda (s : State) (k : TeamKey) (tag : Nat) (f : Cmd → Cmd) : (s.modCmd k tag f).agenda = s.agenda := rfl
@[simp] theorem State.modCmd_turns (s : State) (k : TeamKey) (tag : Nat) (f : Cmd → Cmd) : (s.modCmd k tag f).turns = s.turns := rfl
@[simp] theorem State.modCmd_focus (s : State) (k : TeamKey) (tag : Nat) (f : Cmd → Cmd) : (s.modCmd k tag f).focus = s.focus := rfl
@[simp] theorem State.modCmd_mem (s : State) (k : TeamKey) (tag : Nat) (f : Cmd → Cmd) : (s.modCmd k tag f).mem = s.mem := rfl
@[simp] theorem State.modCmd_devno (s : State) (k : TeamKey) (tag : Nat) (f : Cmd → Cmd) : (s.modCmd k tag f).devno = s.devno := rfl
@[simp] theorem State.modCmd_features (s : State) (k : TeamKey) (tag : Nat) (f : Cmd → Cmd) : (s.modCmd k tag f).features = s.features := rfl
@[simp] theorem State.modCmd_contexts (s : State) (k : TeamKey) (tag : Nat) (f : Cmd → Cmd) : (s.modCmd k tag f).contexts = s.contexts := rfl
@[simp] theorem State.modCmd_launches (s : State) (k : TeamKey) (tag : Nat) (f : Cmd → Cmd) : (s.modCmd k tag f).launches = s.launches := rfl
@[simp] theorem State.modCmd_cores (s : State) (k : TeamKey) (tag : Nat) (f : Cmd → Cmd) : (s.modCmd k tag f).cores = s.cores := rfl
@[simp] theorem State.modCmd_dies (s : State) (k : TeamKey) (tag : Nat) (f : Cmd → Cmd) : (s.modCmd k tag f).dies = s.dies := rfl
@[simp] theorem State.modCmd_errors (s : State) (k : TeamKey) (tag : Nat) (f : Cmd → Cmd) : (s.modCmd k tag f).errors = s.errors := rfl
@[simp] theorem State.modCmd_rewritten (s : State) (k : TeamKey) (tag : Nat) (f : Cmd → Cmd) : (s.modCmd k tag f).rewritten = s.rewritten := rfl
@[simp] theorem State.modCmd_events (s : State) (k : TeamKey) (tag : Nat) (f : Cmd → Cmd) : (s.modCmd k tag f).events = s.events := rfl
@[simp] theorem State.modCmd_tree (s : State) (k : TeamKey) (tag : Nat) (f : Cmd → Cmd) : (s.modCmd k tag f).tree = s.tree := rfl
@[simp] theorem State.modCmd_transit (s : State) (k : TeamKey) (tag : Nat) (f : Cmd → Cmd) : (s.modCmd k tag f).transit = s.transit := rfl
@[simp] theorem State.modCmd_replies (s : State) (k : TeamKey) (tag : Nat) (f : Cmd → Cmd) : (s.modCmd k tag f).replies = s.replies := rfl
@[simp] theorem State.modCmd_fabric (s : State) (k : TeamKey) (tag : Nat) (f : Cmd → Cmd) : (s.modCmd k tag f).fabric = s.fabric := rfl
@[simp] theorem State.modCmd_ports (s : State) (k : TeamKey) (tag : Nat) (f : Cmd → Cmd) : (s.modCmd k tag f).ports = s.ports := rfl
@[simp] theorem State.modCmd_inbox (s : State) (k : TeamKey) (tag : Nat) (f : Cmd → Cmd) : (s.modCmd k tag f).inbox = s.inbox := rfl
@[simp] theorem State.modCmd_service (s : State) (k : TeamKey) (tag : Nat) (f : Cmd → Cmd) : (s.modCmd k tag f).service = s.service := rfl

@[simp] theorem State.tally_agenda (s : State) (L : Launch) (k ev n : Nat) : (s.tally L k ev n).agenda = s.agenda := by
  unfold State.tally; dsimp only; split <;> rfl
@[simp] theorem State.tally_turns (s : State) (L : Launch) (k ev n : Nat) : (s.tally L k ev n).turns = s.turns := by
  unfold State.tally; dsimp only; split <;> rfl
@[simp] theorem State.tally_focus (s : State) (L : Launch) (k ev n : Nat) : (s.tally L k ev n).focus = s.focus := by
  unfold State.tally; dsimp only; split <;> rfl
@[simp] theorem State.tally_mem (s : State) (L : Launch) (k ev n : Nat) : (s.tally L k ev n).mem = s.mem := by
  unfold State.tally; dsimp only; split <;> rfl
@[simp] theorem State.tally_devno (s : State) (L : Launch) (k ev n : Nat) : (s.tally L k ev n).devno = s.devno := by
  unfold State.tally; dsimp only; split <;> rfl
@[simp] theorem State.tally_features (s : State) (L : Launch) (k ev n : Nat) : (s.tally L k ev n).features = s.features := by
  unfold State.tally; dsimp only; split <;> rfl
@[simp] theorem State.tally_contexts (s : State) (L : Launch) (k ev n : Nat) : (s.tally L k ev n).contexts = s.contexts := by
  unfold State.tally; dsimp only; split <;> rfl
@[simp] theorem State.tally_launches (s : State) (L : Launch) (k ev n : Nat) : (s.tally L k ev n).launches = s.launches := by
  unfold State.tally; dsimp only; split <;> rfl
@[simp] theorem State.tally_teams (s : State) (L : Launch) (k ev n : Nat) : (s.tally L k ev n).teams = s.teams := by
  unfold State.tally; dsimp only; split <;> rfl
@[simp] theorem State.tally_cores (s : State) (L : Launch) (k ev n : Nat) : (s.tally L k ev n).cores = s.cores := by
  unfold State.tally; dsimp only; split <;> rfl
@[simp] theorem State.tally_dies (s : State) (L : Launch) (k ev n : Nat) : (s.tally L k ev n).dies = s.dies := by
  unfold State.tally; dsimp only; split <;> rfl
@[simp] theorem State.tally_errors (s : State) (L : Launch) (k ev n : Nat) : (s.tally L k ev n).errors = s.errors := by
  unfold State.tally; dsimp only; split <;> rfl
@[simp] theorem State.tally_rewritten (s : State) (L : Launch) (k ev n : Nat) : (s.tally L k ev n).rewritten = s.rewritten := by
  unfold State.tally; dsimp only; split <;> rfl
@[simp] theorem State.tally_events (s : State) (L : Launch) (k ev n : Nat) : (s.tally L k ev n).events = s.events := by
  unfold State.tally; dsimp only; split <;> rfl
@[simp] theorem State.tally_transit (s : State) (L : Launch) (k ev n : Nat) : (s.tally L k ev n).transit = s.transit := by
  unfold State.tally; dsimp only; split <;> rfl
@[simp] theorem State.tally_replies (s : State) (L : Launch) (k ev n : Nat) : (s.tally L k ev n).replies = s.replies := by
  unfold State.tally; dsimp only; split <;> rfl
@[simp] theorem State.tally_fabric (s : State) (L : Launch) (k ev n : Nat) : (s.tally L k ev n).fabric = s.fabric := by
  unfold State.tally; dsimp only; split <;> rfl
@[simp] theorem State.tally_ports (s : State) (L : Launch) (k ev n : Nat) : (s.tally L k ev n).ports = s.ports := by
  unfold State.tally; dsimp only; split <;> rfl
@[simp] theorem State.tally_inbox (s : State) (L : Launch) (k ev n : Nat) : (s.tally L k ev n).inbox = s.inbox := by
  unfold State.tally; dsimp only; split <;> rfl
@[simp] theorem State.tally_service (s : State) (L : Launch) (k ev n : Nat) : (s.tally L k ev n).service = s.service := by
  unfold State.tally; dsimp only; split <;> rfl

@[simp] theorem State.clearRegErrors_agenda (s : State) (c : Cur) (i : Instr) (h : Hdr) : (s.clearRegErrors c i h).agenda = s.agenda := by
  unfold State.clearRegErrors; dsimp only; split <;> rfl
@[simp] theorem State.clearRegErrors_turns (s : State) (c : Cur) (i : Instr) (h : Hdr) : (s.clearRegErrors c i h).turns = s.turns := by
  unfold State.clearRegErrors; dsimp only; split <;> rfl
@[simp] theorem State.clearRegErrors_focus (s : State) (c : Cur) (i : Instr) (h : Hdr) : (s.clearRegErrors c i h).focus = s.focus := by
  unfold State.clearRegErrors; dsimp only; split <;> rfl
@[simp] theorem State.clearRegErrors_mem (s : State) (c : Cur) (i : Instr) (h : Hdr) : (s.clearRegErrors c i h).mem = s.mem := by
  unfold State.clearRegErrors; dsimp only; split <;> rfl
@[simp] theorem State.clearRegErrors_devno (s : State) (c : Cur) (i : Instr) (h : Hdr) : (s.clearRegErrors c i h).devno = s.devno := by
  unfold State.clearRegErrors; dsimp only; split <;> rfl
@[simp] theorem State.clearRegErrors_features (s : State) (c : Cur) (i : Instr) (h : Hdr) : (s.clearRegErrors c i h).features = s.features := by
  unfold State.clearRegErrors; dsimp only; split <;> rfl
@[simp] theorem State.clearRegErrors_contexts (s : State) (c : Cur) (i : Instr) (h : Hdr) : (s.clearRegErrors c i h).contexts = s.contexts := by
  unfold State.clearRegErrors; dsimp only; split <;> rfl
@[simp] theorem State.clearRegErrors_launches (s : State) (c : Cur) (i : Instr) (h : Hdr) : (s.clearRegErrors c i h).launches = s.launches := by
  unfold State.clearRegErrors; dsimp only; split <;> rfl
@[simp] theorem State.clearRegErrors_teams (s : State) (c : Cur) (i : Instr) (h : Hdr) : (s.clearRegErrors c i h).teams = s.teams := by
  unfold State.clearRegErrors; dsimp only; split <;> rfl
@[simp] theorem State.clearRegErrors_cores (s : State) (c : Cur) (i : Instr) (h : Hdr) : (s.clearRegErrors c i h).cores = s.cores := by
  unfold State.clearRegErrors; dsimp only; split <;> rfl
@[simp] theorem State.clearRegErrors_dies (s : State) (c : Cur) (i : Instr) (h : Hdr) : (s.clearRegErrors c i h).dies = s.dies := by
  unfold State.clearRegErrors; dsimp only; split <;> rfl
@[simp] theorem State.clearRegErrors_rewritten (s : State) (c : Cur) (i : Instr) (h : Hdr) : (s.clearRegErrors c i h).rewritten = s.rewritten := by
  unfold State.clearRegErrors; dsimp only; split <;> rfl
@[simp] theorem State.clearRegErrors_events (s : State) (c : Cur) (i : Instr) (h : Hdr) : (s.clearRegErrors c i h).events = s.events := by
  unfold State.clearRegErrors; dsimp only; split <;> rfl
@[simp] theorem State.clearRegErrors_tree (s : State) (c : Cur) (i : Instr) (h : Hdr) : (s.clearRegErrors c i h).tree = s.tree := by
  unfold State.clearRegErrors; dsimp only; split <;> rfl
@[simp] theorem State.clearRegErrors_transit (s : State) (c : Cur) (i : Instr) (h : Hdr) : (s.clearRegErrors c i h).transit = s.transit := by
  unfold State.clearRegErrors; dsimp only; split <;> rfl
@[simp] theorem State.clearRegErrors_replies (s : State) (c : Cur) (i : Instr) (h : Hdr) : (s.clearRegErrors c i h).replies = s.replies := by
  unfold State.clearRegErrors; dsimp only; split <;> rfl
@[simp] theorem State.clearRegErrors_fabric (s : State) (c : Cur) (i : Instr) (h : Hdr) : (s.clearRegErrors c i h).fabric = s.fabric := by
  unfold State.clearRegErrors; dsimp only; split <;> rfl
@[simp] theorem State.clearRegErrors_ports (s : State) (c : Cur) (i : Instr) (h : Hdr) : (s.clearRegErrors c i h).ports = s.ports := by
  unfold State.clearRegErrors; dsimp only; split <;> rfl
@[simp] theorem State.clearRegErrors_inbox (s : State) (c : Cur) (i : Instr) (h : Hdr) : (s.clearRegErrors c i h).inbox = s.inbox := by
  unfold State.clearRegErrors; dsimp only; split <;> rfl
@[simp] theorem State.clearRegErrors_service (s : State) (c : Cur) (i : Instr) (h : Hdr) : (s.clearRegErrors c i h).service = s.service := by
  unfold State.clearRegErrors; dsimp only; split <;> rfl

@[simp] theorem State.clearLineErrors_agenda (s : State) (tile : Bool) (mode : StMode) (c : Cur) (h : Hdr) (off : Cur → Nat → Nat) (z : Nat) : (s.clearLineErrors tile mode c h off z).agenda = s.agenda := by
  unfold State.clearLineErrors; dsimp only; split <;> rfl
@[simp] theorem State.clearLineErrors_turns (s : State) (tile : Bool) (mode : StMode) (c : Cur) (h : Hdr) (off : Cur → Nat → Nat) (z : Nat) : (s.clearLineErrors tile mode c h off z).turns = s.turns := by
  unfold State.clearLineErrors; dsimp only; split <;> rfl
@[simp] theorem State.clearLineErrors_focus (s : State) (tile : Bool) (mode : StMode) (c : Cur) (h : Hdr) (off : Cur → Nat → Nat) (z : Nat) : (s.clearLineErrors tile mode c h off z).focus = s.focus := by
  unfold State.clearLineErrors; dsimp only; split <;> rfl
@[simp] theorem State.clearLineErrors_mem (s : State) (tile : Bool) (mode : StMode) (c : Cur) (h : Hdr) (off : Cur → Nat → Nat) (z : Nat) : (s.clearLineErrors tile mode c h off z).mem = s.mem := by
  unfold State.clearLineErrors; dsimp only; split <;> rfl
@[simp] theorem State.clearLineErrors_devno (s : State) (tile : Bool) (mode : StMode) (c : Cur) (h : Hdr) (off : Cur → Nat → Nat) (z : Nat) : (s.clearLineErrors tile mode c h off z).devno = s.devno := by
  unfold State.clearLineErrors; dsimp only; split <;> rfl
@[simp] theorem State.clearLineErrors_features (s : State) (tile : Bool) (mode : StMode) (c : Cur) (h : Hdr) (off : Cur → Nat → Nat) (z : Nat) : (s.clearLineErrors tile mode c h off z).features = s.features := by
  unfold State.clearLineErrors; dsimp only; split <;> rfl
@[simp] theorem State.clearLineErrors_contexts (s : State) (tile : Bool) (mode : StMode) (c : Cur) (h : Hdr) (off : Cur → Nat → Nat) (z : Nat) : (s.clearLineErrors tile mode c h off z).contexts = s.contexts := by
  unfold State.clearLineErrors; dsimp only; split <;> rfl
@[simp] theorem State.clearLineErrors_launches (s : State) (tile : Bool) (mode : StMode) (c : Cur) (h : Hdr) (off : Cur → Nat → Nat) (z : Nat) : (s.clearLineErrors tile mode c h off z).launches = s.launches := by
  unfold State.clearLineErrors; dsimp only; split <;> rfl
@[simp] theorem State.clearLineErrors_teams (s : State) (tile : Bool) (mode : StMode) (c : Cur) (h : Hdr) (off : Cur → Nat → Nat) (z : Nat) : (s.clearLineErrors tile mode c h off z).teams = s.teams := by
  unfold State.clearLineErrors; dsimp only; split <;> rfl
@[simp] theorem State.clearLineErrors_cores (s : State) (tile : Bool) (mode : StMode) (c : Cur) (h : Hdr) (off : Cur → Nat → Nat) (z : Nat) : (s.clearLineErrors tile mode c h off z).cores = s.cores := by
  unfold State.clearLineErrors; dsimp only; split <;> rfl
@[simp] theorem State.clearLineErrors_dies (s : State) (tile : Bool) (mode : StMode) (c : Cur) (h : Hdr) (off : Cur → Nat → Nat) (z : Nat) : (s.clearLineErrors tile mode c h off z).dies = s.dies := by
  unfold State.clearLineErrors; dsimp only; split <;> rfl
@[simp] theorem State.clearLineErrors_rewritten (s : State) (tile : Bool) (mode : StMode) (c : Cur) (h : Hdr) (off : Cur → Nat → Nat) (z : Nat) : (s.clearLineErrors tile mode c h off z).rewritten = s.rewritten := by
  unfold State.clearLineErrors; dsimp only; split <;> rfl
@[simp] theorem State.clearLineErrors_events (s : State) (tile : Bool) (mode : StMode) (c : Cur) (h : Hdr) (off : Cur → Nat → Nat) (z : Nat) : (s.clearLineErrors tile mode c h off z).events = s.events := by
  unfold State.clearLineErrors; dsimp only; split <;> rfl
@[simp] theorem State.clearLineErrors_tree (s : State) (tile : Bool) (mode : StMode) (c : Cur) (h : Hdr) (off : Cur → Nat → Nat) (z : Nat) : (s.clearLineErrors tile mode c h off z).tree = s.tree := by
  unfold State.clearLineErrors; dsimp only; split <;> rfl
@[simp] theorem State.clearLineErrors_transit (s : State) (tile : Bool) (mode : StMode) (c : Cur) (h : Hdr) (off : Cur → Nat → Nat) (z : Nat) : (s.clearLineErrors tile mode c h off z).transit = s.transit := by
  unfold State.clearLineErrors; dsimp only; split <;> rfl
@[simp] theorem State.clearLineErrors_replies (s : State) (tile : Bool) (mode : StMode) (c : Cur) (h : Hdr) (off : Cur → Nat → Nat) (z : Nat) : (s.clearLineErrors tile mode c h off z).replies = s.replies := by
  unfold State.clearLineErrors; dsimp only; split <;> rfl
@[simp] theorem State.clearLineErrors_fabric (s : State) (tile : Bool) (mode : StMode) (c : Cur) (h : Hdr) (off : Cur → Nat → Nat) (z : Nat) : (s.clearLineErrors tile mode c h off z).fabric = s.fabric := by
  unfold State.clearLineErrors; dsimp only; split <;> rfl
@[simp] theorem State.clearLineErrors_ports (s : State) (tile : Bool) (mode : StMode) (c : Cur) (h : Hdr) (off : Cur → Nat → Nat) (z : Nat) : (s.clearLineErrors tile mode c h off z).ports = s.ports := by
  unfold State.clearLineErrors; dsimp only; split <;> rfl
@[simp] theorem State.clearLineErrors_inbox (s : State) (tile : Bool) (mode : StMode) (c : Cur) (h : Hdr) (off : Cur → Nat → Nat) (z : Nat) : (s.clearLineErrors tile mode c h off z).inbox = s.inbox := by
  unfold State.clearLineErrors; dsimp only; split <;> rfl
@[simp] theorem State.clearLineErrors_service (s : State) (tile : Bool) (mode : StMode) (c : Cur) (h : Hdr) (off : Cur → Nat → Nat) (z : Nat) : (s.clearLineErrors tile mode c h off z).service = s.service := by
  unfold State.clearLineErrors; dsimp only; split <;> rfl

@[simp] theorem State.setBarrier_agenda (s : State) (lvl : BarLevel) (n : Nat) (k : TeamKey) (b : Barrier) : (s.setBarrier lvl n k b).agenda = s.agenda := by
  unfold State.setBarrier; dsimp only; split <;> rfl
@[simp] theorem State.setBarrier_turns (s : State) (lvl : BarLevel) (n : Nat) (k : TeamKey) (b : Barrier) : (s.setBarrier lvl n k b).turns = s.turns := by
  unfold State.setBarrier; dsimp only; split <;> rfl
@[simp] theorem State.setBarrier_focus (s : State) (lvl : BarLevel) (n : Nat) (k : TeamKey) (b : Barrier) : (s.setBarrier lvl n k b).focus = s.focus := by
  unfold State.setBarrier; dsimp only; split <;> rfl
@[simp] theorem State.setBarrier_mem (s : State) (lvl : BarLevel) (n : Nat) (k : TeamKey) (b : Barrier) : (s.setBarrier lvl n k b).mem = s.mem := by
  unfold State.setBarrier; dsimp only; split <;> rfl
@[simp] theorem State.setBarrier_devno (s : State) (lvl : BarLevel) (n : Nat) (k : TeamKey) (b : Barrier) : (s.setBarrier lvl n k b).devno = s.devno := by
  unfold State.setBarrier; dsimp only; split <;> rfl
@[simp] theorem State.setBarrier_features (s : State) (lvl : BarLevel) (n : Nat) (k : TeamKey) (b : Barrier) : (s.setBarrier lvl n k b).features = s.features := by
  unfold State.setBarrier; dsimp only; split <;> rfl
@[simp] theorem State.setBarrier_contexts (s : State) (lvl : BarLevel) (n : Nat) (k : TeamKey) (b : Barrier) : (s.setBarrier lvl n k b).contexts = s.contexts := by
  unfold State.setBarrier; dsimp only; split <;> rfl
@[simp] theorem State.setBarrier_cores (s : State) (lvl : BarLevel) (n : Nat) (k : TeamKey) (b : Barrier) : (s.setBarrier lvl n k b).cores = s.cores := by
  unfold State.setBarrier; dsimp only; split <;> rfl
@[simp] theorem State.setBarrier_dies (s : State) (lvl : BarLevel) (n : Nat) (k : TeamKey) (b : Barrier) : (s.setBarrier lvl n k b).dies = s.dies := by
  unfold State.setBarrier; dsimp only; split <;> rfl
@[simp] theorem State.setBarrier_errors (s : State) (lvl : BarLevel) (n : Nat) (k : TeamKey) (b : Barrier) : (s.setBarrier lvl n k b).errors = s.errors := by
  unfold State.setBarrier; dsimp only; split <;> rfl
@[simp] theorem State.setBarrier_rewritten (s : State) (lvl : BarLevel) (n : Nat) (k : TeamKey) (b : Barrier) : (s.setBarrier lvl n k b).rewritten = s.rewritten := by
  unfold State.setBarrier; dsimp only; split <;> rfl
@[simp] theorem State.setBarrier_events (s : State) (lvl : BarLevel) (n : Nat) (k : TeamKey) (b : Barrier) : (s.setBarrier lvl n k b).events = s.events := by
  unfold State.setBarrier; dsimp only; split <;> rfl
@[simp] theorem State.setBarrier_tree (s : State) (lvl : BarLevel) (n : Nat) (k : TeamKey) (b : Barrier) : (s.setBarrier lvl n k b).tree = s.tree := by
  unfold State.setBarrier; dsimp only; split <;> rfl
@[simp] theorem State.setBarrier_transit (s : State) (lvl : BarLevel) (n : Nat) (k : TeamKey) (b : Barrier) : (s.setBarrier lvl n k b).transit = s.transit := by
  unfold State.setBarrier; dsimp only; split <;> rfl
@[simp] theorem State.setBarrier_replies (s : State) (lvl : BarLevel) (n : Nat) (k : TeamKey) (b : Barrier) : (s.setBarrier lvl n k b).replies = s.replies := by
  unfold State.setBarrier; dsimp only; split <;> rfl
@[simp] theorem State.setBarrier_fabric (s : State) (lvl : BarLevel) (n : Nat) (k : TeamKey) (b : Barrier) : (s.setBarrier lvl n k b).fabric = s.fabric := by
  unfold State.setBarrier; dsimp only; split <;> rfl
@[simp] theorem State.setBarrier_ports (s : State) (lvl : BarLevel) (n : Nat) (k : TeamKey) (b : Barrier) : (s.setBarrier lvl n k b).ports = s.ports := by
  unfold State.setBarrier; dsimp only; split <;> rfl
@[simp] theorem State.setBarrier_inbox (s : State) (lvl : BarLevel) (n : Nat) (k : TeamKey) (b : Barrier) : (s.setBarrier lvl n k b).inbox = s.inbox := by
  unfold State.setBarrier; dsimp only; split <;> rfl
@[simp] theorem State.setBarrier_service (s : State) (lvl : BarLevel) (n : Nat) (k : TeamKey) (b : Barrier) : (s.setBarrier lvl n k b).service = s.service := by
  unfold State.setBarrier; dsimp only; split <;> rfl

end Sys2Proof.Machine
end

