-- ==== Sys2Proof/Laws/Places.lean ====
section
/-! SUPPORT. Looking up a place of the machine after one was changed: cores, slices, teams, threads and launches. -/

namespace Sys2Proof.Machine

theorem getElem?_mapFrom {α : Type} (f : Nat → α → α) (n : Nat) (l : List α) (t : Nat) :
    (mapFrom f n l)[t]? = (l[t]?).map (f (n + t)) := by
  induction l generalizing n t with
  | nil => simp [mapFrom]
  | cons x xs ih =>
    cases t with
    | zero => simp [mapFrom]
    | succ t => simp only [mapFrom, List.getElem?_cons_succ, ih]; congr 2; omega

@[simp] theorem length_mapFrom {α : Type} (f : Nat → α → α) (n : Nat) (l : List α) :
    (mapFrom f n l).length = l.length := by
  induction l generalizing n with
  | nil => rfl
  | cons x xs ih => simp [mapFrom, ih]

/-! ### Cores and slices -/

theorem State.coreAt_modCore (s : State) (c n : Nat) (f : Core → Core) (hc : c < s.cores.length) :
    (s.modCore c f).coreAt n = if n = c then f (s.coreAt c) else s.coreAt n := by
  unfold State.coreAt State.modCore
  simp only [List.getElem?_modify]
  by_cases hn : n = c
  · subst hn; simp [hc]
  · simp [hn, Ne.symm hn]

theorem State.coreAt_modCore_ne (s : State) (c n : Nat) (f : Core → Core) (hn : n ≠ c) :
    (s.modCore c f).coreAt n = s.coreAt n := by
  unfold State.coreAt State.modCore
  simp only [List.getElem?_modify]
  simp [Ne.symm hn]

/-- A slice with a running bundle is one of the machine's. -/
theorem State.slice_of_bundle {s : State} {c l : Nat} {b : Bundle} (h : (s.sliceAt c l).bundle = some b) :
    c < s.cores.length ∧ l < (s.coreAt c).slices.length := by
  unfold State.sliceAt at h
  by_cases hl : l < (s.coreAt c).slices.length
  · refine ⟨?_, hl⟩
    by_cases hc : c < s.cores.length
    · exact hc
    · exfalso
      have : s.coreAt c = Core.reset := by unfold State.coreAt; simp [List.getElem?_eq_none (Nat.le_of_not_lt hc)]
      rw [this] at h
      have : ((Core.reset.slices)[l]?).getD Slice.reset = Slice.reset := by
        by_cases h4 : l < 4
        · have : ∀ m, m < 4 → (Core.reset.slices[m]?).getD Slice.reset = Slice.reset := by decide
          exact this l h4
        · rw [List.getElem?_eq_none (by simp [Core.reset]; omega)]; rfl
      rw [this] at h; simp [Slice.reset] at h
  · rw [List.getElem?_eq_none (Nat.le_of_not_lt hl)] at h
    simp [Slice.reset] at h

theorem State.sliceAt_modSlice (s : State) (c l n m : Nat) (f : Slice → Slice) (hc : c < s.cores.length)
    (hl : l < (s.coreAt c).slices.length) :
    (s.modSlice c l f).sliceAt n m = if n = c ∧ m = l then f (s.sliceAt c l) else s.sliceAt n m := by
  unfold State.modSlice State.sliceAt
  rw [State.coreAt_modCore s c n _ hc]
  by_cases hn : n = c
  · subst hn
    simp only [if_true, List.getElem?_modify, true_and]
    by_cases hm : m = l
    · subst hm; simp [hl]
    · simp [hm, Ne.symm hm]
  · simp [hn]

/-! ### Teams and threads -/

theorem find?_map_key {α κ : Type} [DecidableEq κ] (key : α → κ) (k k' : κ) (f : α → α) (hf : ∀ x, key (f x) = key x)
    (l : List α) :
    (l.map fun x => if key x = k then f x else x).find? (fun x => key x == k') =
      (l.find? fun x => key x == k').map fun x => if k' = k then f x else x := by
  induction l with
  | nil => simp
  | cons x xs ih =>
    simp only [List.map_cons, List.find?_cons]
    by_cases hk : key x = k
    · rw [if_pos hk, hf]
      by_cases hk' : key x = k'
      · simp [hk', hk' ▸ hk]
      · simp [beq_eq_false_iff_ne.2 hk', ih]
    · rw [if_neg hk]
      by_cases hk' : key x = k'
      · simp [hk', hk' ▸ hk]
      · simp [beq_eq_false_iff_ne.2 hk', ih]

theorem State.team?_modTeam (s : State) (k k' : TeamKey) (f : Team → Team) (hf : ∀ T, (f T).key = T.key) :
    (s.modTeam k f).team? k' = (s.team? k').map fun T => if k' = k then f T else T :=
  find?_map_key Team.key k k' f hf s.teams

theorem State.team?_modTeam_self (s : State) (k : TeamKey) (f : Team → Team) (hf : ∀ T, (f T).key = T.key) :
    (s.modTeam k f).team? k = (s.team? k).map f := by
  rw [State.team?_modTeam s k k f hf]; simp

theorem State.team?_modTeam_ne (s : State) (k k' : TeamKey) (f : Team → Team) (hf : ∀ T, (f T).key = T.key)
    (hk : k' ≠ k) : (s.modTeam k f).team? k' = s.team? k' := by
  rw [State.team?_modTeam s k k' f hf]; simp [hk]

@[simp] theorem Team.onThreads_key (T : Team) (ts : List Nat) (f : Nat → Thread → Thread) :
    (T.onThreads ts f).key = T.key := rfl

@[simp] theorem Team.modThread_key (T : Team) (t : Nat) (f : Thread → Thread) : (T.modThread t f).key = T.key := rfl

theorem Team.onThreads_get (T : Team) (ts : List Nat) (f : Nat → Thread → Thread) (t : Nat) :
    (T.onThreads ts f).threads[t]? = (T.threads[t]?).map fun th => if t ∈ ts then f t th else th := by
  unfold Team.onThreads; rw [getElem?_mapFrom]; simp

@[simp] theorem Team.onThreads_length (T : Team) (ts : List Nat) (f : Nat → Thread → Thread) :
    (T.onThreads ts f).threads.length = T.threads.length := length_mapFrom ..

theorem Team.modThread_get (T : Team) (t u : Nat) (f : Thread → Thread) :
    (T.modThread t f).threads[u]? = (T.threads[u]?).map fun th => if u = t then f th else th := by
  unfold Team.modThread
  simp only [List.getElem?_modify]
  by_cases h : t = u
  · subst h; simp
  · simp [h, Ne.symm h]

@[simp] theorem Team.modThread_length (T : Team) (t : Nat) (f : Thread → Thread) :
    (T.modThread t f).threads.length = T.threads.length := by simp [Team.modThread]

end Sys2Proof.Machine
end

