-- ==== Sys2Proof/Laws/Word.lean ====
section
/-! SUPPORT. What a word does that issues: how results reach the threads, how the bundle moves on, and the whole of what
an instruction does whose results depend on each thread alone. -/

namespace Sys2Proof.Machine

/-! ### The running bundle -/

/-- What `State.cur?` says when a word stands on the focused slice. -/
theorem State.cur?_eq {s : State} {c : Cur} (h : s.cur? = some c) :
    c.core = s.focus.1 ∧ c.sl = s.focus.2 ∧ (s.sliceAt s.focus.1 s.focus.2).bundle = some c.b ∧
      s.team? c.b.team = some c.T ∧ s.launch? c.b.team.launch = some c.L ∧ c.cycle = (s.coreAt s.focus.1).cycle := by
  unfold State.cur? at h
  split at h
  · cases h
  · rename_i b hb
    split at h
    · rename_i T L hT hL
      cases h
      exact ⟨rfl, rfl, hb, hT, hL, rfl⟩
    · cases h

theorem aluWord_issues {s : State} {i : Instr} {h : Hdr} {c : Cur} (out : Env → Out) (w : Issues s i h c) :
    aluWord i out s = .next (((s.clearRegErrors c i h).modTeam c.b.team fun T =>
      T.onThreads c.b.threads fun t th => if th.guard h then th.commit h (out (c.envOf t th)) else th).step1 c) := by
  unfold aluWord
  simp only [w.hdr, w.cur, w.free, w.clean, Bool.false_eq_true, if_false]

/-- Active threads that read no register in error trap as the word alone says. -/
theorem State.firstStop_clean {s : State} {c : Cur} {i : Instr} {h : Hdr} (own : Nat → Option WordStop)
    (hc : Cur.regError s c i h = none) :
    s.firstStop c i h own = (c.active h).findSome? fun t => (own t).map fun x => (t, x) := by
  unfold State.firstStop
  have e : ∀ t ∈ c.active h, s.threadStop c i own t = own t := by
    intro t ht
    unfold State.threadStop
    unfold Cur.regError at hc
    split
    · rfl
    · rename_i hne
      rw [if_neg hne, List.findSome?_eq_none_iff] at hc
      rw [Option.map_eq_none_iff.1 (hc t ht)]
      rfl
  generalize c.active h = l at e
  induction l with
  | nil => rfl
  | cons x xs ih =>
    rw [List.findSome?_cons, List.findSome?_cons, e x (List.mem_cons_self ..),
      ih fun t ht => e t (List.mem_cons_of_mem _ ht)]

/-- A word that issues and traps for no active thread acts. -/
theorem issueWordOr_issues {s : State} {i : Instr} {h : Hdr} {c : Cur} (stop : Hdr → Cur → State → Nat → Option WordStop)
    (run : Hdr → Cur → State → State) (w : Issues s i h c) (hs : ∀ t ∈ c.active h, stop h c s t = none) :
    issueWordOr i stop run s = .next (run h c (s.clearRegErrors c i h)) := by
  have e : s.firstStop c i h (stop h c s) = none := by
    rw [State.firstStop_clean _ w.clean, List.findSome?_eq_none_iff]
    intro t ht
    rw [hs t ht]
    rfl
  unfold issueWordOr
  simp only [w.hdr, w.cur, w.free, e, Bool.false_eq_true, if_false]

/-- A word whose lowest trapping thread is `t` traps for it (R142). -/
theorem issueWordOr_stops {s : State} {i : Instr} {h : Hdr} {c : Cur} {t : Nat} {x : WordStop}
    (stop : Hdr → Cur → State → Nat → Option WordStop) (run : Hdr → Cur → State → State) (hh : i.hdr? = some h)
    (hc : s.cur? = some c) (hf : c.held i h = false) (hs : s.firstStop c i h (stop h c s) = some (t, x)) :
    issueWordOr i stop run s = .next (s.stopWord c t x) := by
  unfold issueWordOr
  simp only [hh, hc, hf, hs, Bool.false_eq_true, if_false]

theorem issueWord_issues {s : State} {i : Instr} {h : Hdr} {c : Cur} (run : Hdr → Cur → State → State)
    (w : Issues s i h c) : issueWord i run s = .next (run h c (s.clearRegErrors c i h)) :=
  issueWordOr_issues _ run w fun _ _ => rfl

theorem Cur.mem_active {c : Cur} {h : Hdr} {t : Nat} :
    t ∈ c.active h ↔ t ∈ c.b.threads ∧ (c.thread t).guard h = true := List.mem_filter

theorem Cur.thread_eq {c : Cur} {t : Nat} {th : Thread} (h : c.T.threads[t]? = some th) : c.thread t = th := by
  unfold Cur.thread; rw [h]; rfl

theorem State.clearRegErrors_errors (s : State) (c : Cur) (i : Instr) (h : Hdr) :
    ∀ e ∈ (s.clearRegErrors c i h).errors, e ∈ s.errors := by
  unfold State.clearRegErrors
  split
  · exact fun _ => id
  · exact fun e he => (List.mem_filter.1 he).1

/-! ### Moving on -/

theorem State.tally_eq (s : State) (L : Launch) (k ev n : Nat) : ∃ r, s.tally L k ev n = { s with tree := r } := by
  unfold State.tally; dsimp only; split
  · exact ⟨_, rfl⟩
  · exact ⟨s.tree, rfl⟩

/-- `State.advance` changes teams, cores and tree counts, and nothing else. -/
theorem State.advance_eq (s : State) (c : Cur) (l : List Nat) (f : Nat → DWord) :
    ∃ ts cs r, s.advance c l f = { s with teams := ts, cores := cs, tree := r } := by
  unfold State.advance
  obtain ⟨r, hr⟩ := s.tally_eq c.L c.core 17 c.b.threads.length
  dsimp only
  rw [hr]
  split
  · exact ⟨_, _, _, rfl⟩
  · exact ⟨_, _, _, rfl⟩

/-- Where a bundle stands after its word, when none of its members left it. -/
theorem State.step1_movedOn (s₀ s : State) (c : Cur) (hc : s₀.cur? = some c) (hcores : s.cores = s₀.cores)
    (hfocus : s.focus = s₀.focus) : MovedOn (s.step1 c) c := by
  obtain ⟨h1, h2, hb, -, -, -⟩ := State.cur?_eq hc
  have hb' : (s.sliceAt c.core c.sl).bundle = some c.b := by
    unfold State.sliceAt State.coreAt; rw [hcores, h1, h2]; exact hb
  obtain ⟨hlc, hls⟩ := State.slice_of_bundle hb'
  unfold MovedOn State.step1 State.advance
  have hstay : (c.b.threads.filter fun t => !([] : List Nat).contains t) = c.b.threads := by simp
  simp only [hstay]
  generalize hs1 : s.tally c.L c.core 17 c.b.threads.length = s1
  have hc1 : s1.cores = s.cores := by rw [← hs1]; simp
  have hf1 : s1.focus = s.focus := by rw [← hs1]; simp
  have hsl1 : ∀ n m, s1.sliceAt n m = s.sliceAt n m := fun n m => by unfold State.sliceAt State.coreAt; rw [hc1]
  have hco1 : ∀ n, s1.coreAt n = s.coreAt n := fun n => by unfold State.coreAt; rw [hc1]
  by_cases hw : c.b.idx + 1 < c.b.words.length ∧ c.b.threads ≠ []
  · rw [if_pos hw, if_pos (by simp [hw.1, hw.2])]
    rw [State.sliceAt_modSlice _ _ _ _ _ _ (by rw [hc1]; exact hlc) (by rw [hco1]; exact hls), if_pos ⟨rfl, rfl⟩, hsl1,
      hb']
    rfl
  · rw [if_neg hw]
    have hn : ¬ ((decide (c.b.idx + 1 < c.b.words.length) && !c.b.threads.isEmpty) = true) := by
      simpa [List.isEmpty_iff] using hw
    rw [if_neg hn]
    generalize hs2 : s1.modTeam c.b.team _ = s2
    have hc2 : s2.cores = s.cores := by rw [← hs2, ← hc1]; rfl
    have hf2 : s2.focus = s.focus := by rw [← hs2, ← hf1]; rfl
    have hfc : s2.focus.1 = c.core ∧ s2.focus.2 = c.sl := by rw [hf2, hfocus, h1, h2]; exact ⟨rfl, rfl⟩
    constructor
    · unfold State.dropBundle
      rw [hfc.1, hfc.2, State.sliceAt_modSlice _ _ _ _ _ _ (by rw [hc2]; exact hlc)
        (by unfold State.coreAt; rw [hc2]; exact hls), if_pos ⟨rfl, rfl⟩]
      have : s2.sliceAt c.core c.sl = s.sliceAt c.core c.sl := by unfold State.sliceAt State.coreAt; rw [hc2]
      rw [this, hb']
    · intro t ht th hth
      have : s2.dropBundle.thread? c.b.team t = s2.thread? c.b.team t := rfl
      rw [this, ← hs2] at hth
      unfold State.thread? at hth
      rw [State.team?_modTeam_self s1 c.b.team _ (fun _ => by rfl)] at hth
      cases hT : s1.team? c.b.team with
      | none => rw [hT] at hth; cases hth
      | some T =>
        rw [hT] at hth
        simp only [Option.map_some, Option.bind_some, Team.onThreads_get] at hth
        cases hx : T.threads[t]? with
        | none => rw [hx] at hth; cases hth
        | some x =>
          rw [hx] at hth
          simp only [Option.map_some, if_pos ht, Option.some.injEq] at hth
          subst hth
          exact ⟨rfl, rfl⟩

/-- `State.step1` changes the issue points of the bundle's members, the slice and the tree counts, and nothing else. -/
theorem State.step1_rest (s : State) (c : Cur) :
    { s.step1 c with teams := s.teams, cores := s.cores, tree := s.tree } = s := by
  obtain ⟨ts, cs, r, h⟩ := s.advance_eq c [] fun _ => c.nextClause
  unfold State.step1
  rw [h]

theorem State.step1_coreAt_ne (s : State) (c : Cur) (hf : s.focus.1 = c.core) (n : Nat) (hn : n ≠ c.core) :
    (s.step1 c).coreAt n = s.coreAt n := by
  unfold State.step1 State.advance
  simp only
  split
  · unfold State.modSlice
    rw [State.coreAt_modCore_ne _ _ _ _ hn]; unfold State.coreAt; simp
  · unfold State.dropBundle State.modSlice
    rw [State.modTeam_focus, State.tally_focus, hf, State.coreAt_modCore_ne _ _ _ _ hn]; unfold State.coreAt; simp

theorem State.step1_slice (s : State) (c : Cur) (hf : s.focus = (c.core, c.sl)) (l : Nat) (hl : l ≠ c.sl) :
    (s.step1 c).sliceAt c.core l = s.sliceAt c.core l := by
  have key : ∀ (x : State) (f : Slice → Slice), x.cores = s.cores →
      (x.modSlice c.core c.sl f).sliceAt c.core l = s.sliceAt c.core l := by
    intro x f hx
    unfold State.modSlice State.sliceAt State.modCore State.coreAt
    simp only [List.getElem?_modify, hx]
    cases s.cores[c.core]? <;> simp [Ne.symm hl]
  unfold State.step1 State.advance
  simp only
  split
  · exact key _ _ (by simp)
  · unfold State.dropBundle
    rw [State.modTeam_focus, State.tally_focus, hf]
    exact key _ _ (by simp)

theorem State.step1_core (s : State) (c : Cur) (hf : s.focus = (c.core, c.sl)) :
    { (s.step1 c).coreAt c.core with slices := (s.coreAt c.core).slices } = s.coreAt c.core := by
  have key : ∀ (x : State) (f : Slice → Slice), x.cores = s.cores →
      { (x.modSlice c.core c.sl f).coreAt c.core with slices := (s.coreAt c.core).slices } = s.coreAt c.core := by
    intro x f hx
    unfold State.modSlice State.modCore State.coreAt
    simp only [List.getElem?_modify, hx]
    cases s.cores[c.core]? <;> simp
  unfold State.step1 State.advance
  simp only
  split
  · exact key _ _ (by simp)
  · unfold State.dropBundle
    rw [State.modTeam_focus, State.tally_focus, hf]
    exact key _ _ (by simp)

theorem State.step1_team?_ne (s : State) (c : Cur) (k : TeamKey) (hk : k ≠ c.b.team) :
    (s.step1 c).team? k = s.team? k := by
  unfold State.step1 State.advance
  simp only
  split
  · unfold State.team?; simp
  · have : ∀ x : State, x.dropBundle.team? k = x.team? k := fun _ => rfl
    rw [this, State.team?_modTeam_ne _ _ _ _ (fun _ => by rfl) hk]
    unfold State.team?; simp

/-- The bundle's team after `State.step1`: its members may stand elsewhere. -/
theorem State.step1_team (s : State) (c : Cur) (T : Team) (hT : s.team? c.b.team = some T) :
    ∃ T', (s.step1 c).team? c.b.team = some T' ∧ { T' with threads := T.threads } = T ∧
      T'.threads.length = T.threads.length ∧
      ∀ t th, T.threads[t]? = some th → ∃ th', T'.threads[t]? = some th' ∧ th.Kept th' ∧
        (t ∉ c.b.threads → th' = th) := by
  unfold State.step1 State.advance
  simp only
  split
  · refine ⟨T, ?_, rfl, rfl, fun t th h => ⟨th, h, rfl, fun _ => rfl⟩⟩
    have : ∀ (x : State) f, (x.modSlice c.core c.sl f).team? c.b.team = x.team? c.b.team := fun _ _ => rfl
    rw [this]; unfold State.team? at hT ⊢; simpa using hT
  · have hd : ∀ x : State, x.dropBundle.team? c.b.team = x.team? c.b.team := fun _ => rfl
    rw [hd, State.team?_modTeam_self _ _ _ (fun _ => by rfl)]
    have hT' : (s.tally c.L c.core 17 c.b.threads.length).team? c.b.team = some T := by
      unfold State.team? at hT ⊢; simpa using hT
    rw [hT']
    refine ⟨_, rfl, rfl, by simp, ?_⟩
    intro t th h
    rw [Team.onThreads_get, h]
    refine ⟨_, rfl, ?_, ?_⟩
    · unfold Thread.Kept; split <;> rfl
    · intro ht
      exact if_neg (by simpa using ht)

/-! ### Results -/

theorem State.team?_mem {s : State} {k : TeamKey} {T : Team} (h : s.team? k = some T) : T ∈ s.teams :=
  List.mem_of_find?_eq_some h

theorem State.Canonical.regs {s : State} (hw : s.Canonical) {k : TeamKey} {T : Team} (h : s.team? k = some T) {t : Nat}
    {th : Thread} (ht : T.threads[t]? = some th) : swf (0 : Word) th.regs :=
  ((hw.2.2 T (State.team?_mem h)).2.2) th (List.mem_of_getElem? ht)

/-- A thread that results are committed to. -/
theorem Thread.got_commit (h : Hdr) (o : Out) (th : Thread) (hw : swf (0 : Word) th.regs) :
    th.Got h o (th.commit h o) := by
  unfold Thread.Got Thread.commit Thread.deliver Thread.results
  by_cases hc : h.ctr = 0
  · simp only [hc, if_true]
    refine ⟨⟨fun n => ?_, fun j hj => ?_, ?_⟩, ?_, ?_, ?_⟩ <;> cases o.sr <;> simp only [if_true, Bool.false_eq_true, if_false]
    · exact sget_writeRegs _ _ _ hw
    · exact sget_writeRegs _ _ _ hw
    · exact getLsbD_writePreds _ _ _ hj
    · exact getLsbD_writePreds _ _ _ hj
    · rfl
    · rfl
  · simp only [hc, if_false]
    cases o.sr <;> simp

theorem Thread.Got.kept {h : Hdr} {o : Out} {th th' th'' : Thread} (g : th.Got h o th') (k : th'.Kept th'') :
    th.Got h o th'' := by
  unfold Thread.Kept at k
  rw [← k] at g
  exact g

/-- An instruction whose meaning is `aluWord` completes wherever it issues, and does what `PerThread` says. -/
theorem perThread_aluWord (i : Instr) (out : Env → Out) (hi : ∀ s, exec i s = aluWord i out s) : PerThread i out := by
  intro s h c w hw
  obtain ⟨h1, h2, -, hT, -, -⟩ := State.cur?_eq w.cur
  refine ⟨_, by rw [hi, aluWord_issues out w], ?_, ?_, ?_⟩
  · generalize hs1 : s.clearRegErrors c i h = s1
    have e : ∀ f : Team → Team, (s1.modTeam c.b.team f).focus = (c.core, c.sl) := by
      intro f; rw [State.modTeam_focus, ← hs1, State.clearRegErrors_focus, h1, h2]
    constructor
    · have := State.step1_rest (s1.modTeam c.b.team fun T => T.onThreads c.b.threads fun t th =>
        if th.guard h then th.commit h (out (c.envOf t th)) else th) c
      have hr : { s1 with errors := s.errors } = s := by
        rw [← hs1]; unfold State.clearRegErrors; split <;> rfl
      have key : ∀ x y : State, { x with teams := y.teams, cores := y.cores, tree := y.tree } = y →
          { y with teams := s.teams, cores := s.cores, tree := s.tree, errors := s.errors } = s →
          { x with teams := s.teams, cores := s.cores, tree := s.tree, errors := s.errors } = s := by
        intro x y hx hy; rw [← hx] at hy; exact hy
      refine key _ _ this ?_
      have : ∀ f, { s1.modTeam c.b.team f with teams := s.teams, cores := s.cores, tree := s.tree, errors := s.errors } =
        { s1 with teams := s.teams, cores := s.cores, tree := s.tree, errors := s.errors } := fun _ => rfl
      rw [this]
      have hs : s1.teams = s.teams ∧ s1.cores = s.cores ∧ s1.tree = s.tree := by rw [← hs1]; simp
      rw [← hs.1, ← hs.2.1, ← hs.2.2]; exact hr
    · intro a
      have := congrArg State.mem (State.step1_rest (s1.modTeam c.b.team fun T => T.onThreads c.b.threads fun t th =>
        if th.guard h then th.commit h (out (c.envOf t th)) else th) c)
      rw [show ((s1.modTeam c.b.team fun T => T.onThreads c.b.threads fun t th =>
        if th.guard h then th.commit h (out (c.envOf t th)) else th).step1 c).mem = _ from this]
      rw [State.modTeam_mem, ← hs1, State.clearRegErrors_mem]
    · intro k hk
      rw [State.step1_team?_ne _ _ _ hk, State.team?_modTeam_ne _ _ _ _ (fun _ => by rfl) hk]
      unfold State.team?; rw [← hs1, State.clearRegErrors_teams]
    · intro n hn
      rw [State.step1_coreAt_ne _ _ (by rw [e]) _ hn]
      unfold State.coreAt; rw [State.modTeam_cores, ← hs1, State.clearRegErrors_cores]
    · intro l hl
      rw [State.step1_slice _ _ (e _) _ hl]
      unfold State.sliceAt State.coreAt; rw [State.modTeam_cores, ← hs1, State.clearRegErrors_cores]
    · have := State.step1_core (s1.modTeam c.b.team fun T => T.onThreads c.b.threads fun t th =>
        if th.guard h then th.commit h (out (c.envOf t th)) else th) c (e _)
      have hc : ∀ f, (s1.modTeam c.b.team f).coreAt c.core = s.coreAt c.core := by
        intro f; unfold State.coreAt; rw [State.modTeam_cores, ← hs1, State.clearRegErrors_cores]
      rw [hc] at this; exact this
    · intro x hx
      have := congrArg State.errors (State.step1_rest (s1.modTeam c.b.team fun T => T.onThreads c.b.threads fun t th =>
        if th.guard h then th.commit h (out (c.envOf t th)) else th) c)
      rw [show ((s1.modTeam c.b.team fun T => T.onThreads c.b.threads fun t th =>
        if th.guard h then th.commit h (out (c.envOf t th)) else th).step1 c).errors = _ from this,
        State.modTeam_errors, ← hs1] at hx
      exact State.clearRegErrors_errors s c i h x hx
  · exact State.step1_movedOn s _ c w.cur (by simp) (by simp)
  · have hT1 : ((s.clearRegErrors c i h).modTeam c.b.team fun T => T.onThreads c.b.threads fun t th =>
        if th.guard h then th.commit h (out (c.envOf t th)) else th).team? c.b.team =
        some (c.T.onThreads c.b.threads fun t th => if th.guard h then th.commit h (out (c.envOf t th)) else th) := by
      rw [State.team?_modTeam_self _ _ _ (fun _ => by rfl)]
      unfold State.team? at hT ⊢; rw [State.clearRegErrors_teams, hT]; rfl
    obtain ⟨T', h1, h2, h3, h4⟩ := State.step1_team _ c _ hT1
    refine ⟨?_, T', h1, ?_, by simpa using h3⟩
    · intro t th hth
      have hx : (c.T.onThreads c.b.threads fun t th => if th.guard h then th.commit h (out (c.envOf t th)) else th).threads[t]? =
          some (if t ∈ c.b.threads then (if th.guard h then th.commit h (out (c.envOf t th)) else th) else th) := by
        rw [Team.onThreads_get, hth]; rfl
      obtain ⟨th', g1, g2, g3⟩ := h4 t _ hx
      refine ⟨th', by unfold State.thread?; rw [h1]; exact g1, ?_⟩
      by_cases ht : t ∈ c.b.threads
      · by_cases hg : th.guard h = true
        · rw [if_pos (Cur.mem_active.2 ⟨ht, by rw [Cur.thread_eq hth]; exact hg⟩)]
          rw [if_pos ht, if_pos hg] at g2
          exact (Thread.got_commit h _ th (hw.regs hT hth)).kept g2
        · rw [if_neg (fun hm => hg (by rw [← Cur.thread_eq hth]; exact (Cur.mem_active.1 hm).2)), if_pos ht]
          rw [if_pos ht, if_neg hg] at g2
          exact g2
      · rw [if_neg (fun hm => ht (Cur.mem_active.1 hm).1), if_neg ht]
        rw [if_neg ht] at g3
        exact g3 ht
    · have := congrArg (fun X : Team => { X with threads := c.T.threads }) h2
      exact this

end Sys2Proof.Machine
end

