-- ==== Sys2Proof/Laws/TeamWord.lean ====
section
/-! SUPPORT. What a word does whose active threads act on their team: the team after it, when no thread parks. -/

namespace Sys2Proof.Machine

theorem State.cur?_clearRegErrors (s : State) (c : Cur) (i : Instr) (h : Hdr) :
    (s.clearRegErrors c i h).cur? = s.cur? := by
  unfold State.clearRegErrors; split <;> rfl

theorem State.team?_clearRegErrors (s : State) (c : Cur) (i : Instr) (h : Hdr) (k : TeamKey) :
    (s.clearRegErrors c i h).team? k = s.team? k := by unfold State.team?; simp

theorem State.othersWaiting_clearRegErrors (s : State) (c : Cur) (i : Instr) (h : Hdr) (n : Nat) (k : TeamKey) :
    (s.clearRegErrors c i h).othersWaiting n k = s.othersWaiting n k := by unfold State.othersWaiting; simp

/-- What an access word does that issues and meets no error. -/
theorem accessWord_issues {s : State} {i : Instr} {h : Hdr} {c : Cur}
    (bad : Hdr → Cur → State → Nat → Option WordStop) (f : Hdr → Cur → Nat → Nat → Team → Team)
    (w : Issues s i h c) (hb : ∀ t ∈ c.active h, bad h c s t = none) :
    accessWord i bad f s = .next (
      let s' := (s.clearRegErrors c i h).modTeam c.b.team fun T =>
        (c.active h).foldl (fun T t => f h c (s.othersWaiting c.core c.b.team) t T) T
      s'.advance c (c.parked s') fun _ => c.nextClause) := by
  unfold accessWord
  rw [issueWordOr_issues _ _ w hb]
  simp only [State.othersWaiting_clearRegErrors]

/-- The team of the bundle is `T1` once all active threads have acted; no member waits then. The word completes, and the
team is `T1` but for issue points. -/
theorem acted_spec {s : State} {i : Instr} {h : Hdr} {c : Cur} (w : Issues s i h c) (F : Team → Team)
    (hF : ∀ T, (F T).key = T.key)
    (ha : ∀ t ∈ c.b.threads, ∀ th, (F c.T).threads[t]? = some th → th.wait = none) :
    ∃ s' T', (let x := (s.clearRegErrors c i h).modTeam c.b.team F
        x.advance c (c.parked x) fun _ => c.nextClause) = s' ∧
      OutsideKept s s' c ∧ MovedOn s' c ∧ s'.team? c.b.team = some T' ∧ { T' with threads := (F c.T).threads } = F c.T ∧
      T'.threads.length = (F c.T).threads.length ∧
      ∀ (t : Nat) (th : Thread), (F c.T).threads[t]? = some th → ∃ th', T'.threads[t]? = some th' ∧ th.Kept th' := by
  obtain ⟨h1, h2, -, hT, -, -⟩ := State.cur?_eq w.cur
  generalize hs1 : s.clearRegErrors c i h = s1
  have hT1 : (s1.modTeam c.b.team F).team? c.b.team = some (F c.T) := by
    rw [State.team?_modTeam_self _ _ _ hF, ← hs1, State.team?_clearRegErrors, hT]; rfl
  have hp : c.parked (s1.modTeam c.b.team F) = [] := by
    unfold Cur.parked
    rw [List.filter_eq_nil_iff]
    intro t ht
    unfold State.thread?
    rw [hT1]
    simp only [Option.bind_some]
    cases hx : (F c.T).threads[t]? with
    | none => simp
    | some th => simp [ha t ht th hx]
  have hf : (s1.modTeam c.b.team F).focus = (c.core, c.sl) := by
    rw [State.modTeam_focus, ← hs1, State.clearRegErrors_focus, h1, h2]
  have hcores : (s1.modTeam c.b.team F).cores = s.cores := by
    rw [State.modTeam_cores, ← hs1, State.clearRegErrors_cores]
  obtain ⟨T', g1, g2, g3, g4⟩ := State.step1_team _ c _ hT1
  refine ⟨(s1.modTeam c.b.team F).step1 c, T', by simp only [hp]; rfl, ?_, ?_, g1, g2, g3, ?_⟩
  · constructor
    · obtain ⟨ts, cs, r, e⟩ := (s1.modTeam c.b.team F).advance_eq c [] fun _ => c.nextClause
      unfold State.step1
      rw [e, ← hs1]
      unfold State.clearRegErrors State.modTeam
      split <;> rfl
    · intro a
      obtain ⟨ts, cs, r, e⟩ := (s1.modTeam c.b.team F).advance_eq c [] fun _ => c.nextClause
      unfold State.step1
      rw [e, ← hs1]
      simp
    · intro k hk
      rw [State.step1_team?_ne _ _ _ hk, State.team?_modTeam_ne _ _ _ _ hF hk, ← hs1, State.team?_clearRegErrors]
    · intro n hn
      rw [State.step1_coreAt_ne _ _ (by rw [hf]) _ hn]
      unfold State.coreAt; rw [hcores]
    · intro l hl
      rw [State.step1_slice _ _ hf _ hl]
      unfold State.sliceAt State.coreAt; rw [hcores]
    · have := State.step1_core _ c hf
      have e : (s1.modTeam c.b.team F).coreAt c.core = s.coreAt c.core := by unfold State.coreAt; rw [hcores]
      rw [e] at this; exact this
    · intro x hx
      obtain ⟨ts, cs, r, e⟩ := (s1.modTeam c.b.team F).advance_eq c [] fun _ => c.nextClause
      unfold State.step1 at hx
      rw [e, ← hs1] at hx
      exact State.clearRegErrors_errors s c i h x hx
  · exact State.step1_movedOn s _ c w.cur hcores (by rw [hf, h1, h2])
  · intro t th hth
    obtain ⟨th', e1, e2, -⟩ := g4 t th hth
    exact ⟨th', e1, e2⟩

theorem Thread.Got.wait {h : Hdr} {o : Out} {th th' : Thread} (g : th.Got h o th') : th'.wait = th.wait := by
  have := g.2.2.2
  have := congrArg Thread.wait this
  exact this

/-- Words whose active threads act by `f`, a function of the team that keeps its key. -/
theorem teamWord_of {i : Instr} {bad : Hdr → Cur → State → Nat → Option WordStop}
    {f : Hdr → Cur → Nat → Nat → Team → Team} {pre : State → Hdr → Cur → Prop} {post : State → Hdr → Cur → Team → Prop}
    (hi : ∀ s, exec i s = accessWord i bad f s) (hf : ∀ h c o t T, (f h c o t T).key = T.key)
    (hb : ∀ s h c, Issues s i h c → pre s h c → ∀ t ∈ c.active h, bad h c s t = none)
    (hp : ∀ s h c o, Issues s i h c → s.Canonical → c.b.threads.Pairwise (· < ·) → c.Awake → pre s h c →
      let T1 := (c.active h).foldl (fun T t => f h c o t T) c.T
      T1.threads.length = c.T.threads.length ∧
      (∀ t th, c.T.threads[t]? = some th → t ∉ c.active h → ∃ th', T1.threads[t]? = some th' ∧ th.Rested th') ∧
      (∀ t ∈ c.b.threads, ∀ th, T1.threads[t]? = some th → th.wait = none) ∧
      ∀ T', { T' with threads := T1.threads } = T1 → T'.threads.length = T1.threads.length →
        (∀ (t : Nat) (th : Thread), T1.threads[t]? = some th → ∃ th', T'.threads[t]? = some th' ∧ th.Kept th') → post s h c T') :
    TeamWord i pre post := by
  intro s h c w hw hs haw hpre
  have hfk : ∀ (l : List Nat) T, (l.foldl (fun T t => f h c (s.othersWaiting c.core c.b.team) t T) T).key = T.key := by
    intro l
    induction l with
    | nil => intro T; rfl
    | cons x xs ih => intro T; rw [List.foldl_cons, ih, hf]
  obtain ⟨a1, a2, a3, a4⟩ := hp s h c (s.othersWaiting c.core c.b.team) w hw hs haw hpre
  obtain ⟨s', T', e, g1, g2, g3, g4, g5, g6⟩ := acted_spec w
    (fun T => (c.active h).foldl (fun T t => f h c (s.othersWaiting c.core c.b.team) t T) T) (hfk _) a3
  refine ⟨s', T', ?_, g1, g2, g3, g5.trans a1, ?_, a4 T' g4 g5 g6⟩
  · rw [hi, accessWord_issues bad f w (hb s h c w hpre)]
    exact congrArg _ e
  · intro t th hth hna
    obtain ⟨th1, b1, b2⟩ := a2 t th hth hna
    obtain ⟨th', c1, c2⟩ := g6 t th1 b1
    refine ⟨th', c1, ?_⟩
    unfold Thread.Kept at c2
    unfold Thread.Rested at b2 ⊢
    rw [← c2] at b2
    exact b2

/-! ### Active threads that act on themselves alone -/

/-- Changes of single threads, one after another. -/
theorem foldl_modThread (g : Nat → Thread → Thread) (l : List Nat) (hl : l.Nodup) (T : Team) :
    { l.foldl (fun T t => T.modThread t (g t)) T with threads := T.threads } = T ∧
    (l.foldl (fun T t => T.modThread t (g t)) T).threads.length = T.threads.length ∧
    ∀ u : Nat, (l.foldl (fun T t => T.modThread t (g t)) T).threads[u]? =
      (T.threads[u]?).map fun th => if u ∈ l then g u th else th := by
  induction l generalizing T with
  | nil => exact ⟨rfl, rfl, fun u => by simp⟩
  | cons x xs ih =>
    obtain ⟨hx, hxs⟩ := List.nodup_cons.1 hl
    obtain ⟨a, b, d⟩ := ih hxs (T.modThread x (g x))
    refine ⟨?_, ?_, ?_⟩
    · have := congrArg (fun X : Team => { X with threads := T.threads }) a
      exact this
    · rw [List.foldl_cons, b]; simp
    · intro u
      rw [List.foldl_cons, d, Team.modThread_get, Option.map_map]
      congr 1
      funext th
      simp only [Function.comp, List.mem_cons]
      by_cases hu : u = x
      · subst hu; simp [hx]
      · simp [hu]

/-- A fold may be replaced by another that agrees with it on every team reached. -/
theorem foldl_congr_of (P : Team → Prop) (f g : Team → Nat → Team) (l : List Nat) (T : Team) (hT : P T)
    (hfg : ∀ T t, t ∈ l → P T → f T t = g T t) (hP : ∀ T t, t ∈ l → P T → P (g T t)) :
    l.foldl f T = l.foldl g T := by
  induction l generalizing T with
  | nil => rfl
  | cons x xs ih =>
    rw [List.foldl_cons, List.foldl_cons, hfg T x (List.mem_cons_self ..) hT]
    exact ih _ (hP T x (List.mem_cons_self ..) hT) (fun T t ht => hfg T t (List.mem_cons_of_mem _ ht))
      fun T t ht => hP T t (List.mem_cons_of_mem _ ht)

theorem Cur.active_nodup {c : Cur} (h : Hdr) (hs : c.b.threads.Pairwise (· < ·)) : (c.active h).Nodup :=
  (hs.imp fun hab => Nat.ne_of_lt hab).filter _

theorem Thread.commit_wait (h : Hdr) (o : Out) (th : Thread) : (th.commit h o).wait = th.wait := by
  unfold Thread.commit Thread.deliver; split <;> split <;> rfl

/-- Active threads whose lines are clean meet no error. -/
theorem lineError_none {tile : Bool} {off : Cur → Nat → Nat} {z : Nat} {s : State} {h : Hdr} {c : Cur}
    (hp : ∀ t ∈ c.active h, LineClean s c tile (off c t / 128)) :
    ∀ t ∈ c.active h, lineError tile off z h c s t = none := by
  intro t ht
  unfold lineError
  split
  · rfl
  · dsimp only
    rw [if_neg]
    intro hx
    simp only [Bool.and_eq_true, List.contains_iff_mem] at hx
    exact hp t ht hx.2

/-- Words each of whose active threads changes itself alone, by `g`, whatever the threads before it did. -/
theorem teamWord_self {i : Instr} {bad : Hdr → Cur → State → Nat → Option WordStop}
    {f : Hdr → Cur → Nat → Nat → Team → Team} {pre : State → Hdr → Cur → Prop} {post : State → Hdr → Cur → Team → Prop}
    (g : Hdr → Cur → Nat → Thread → Thread)
    (hi : ∀ s, exec i s = accessWord i bad f s) (hf : ∀ h c o t T, (f h c o t T).key = T.key)
    (hb : ∀ s h c, Issues s i h c → pre s h c → ∀ t ∈ c.active h, bad h c s t = none)
    (hfg : ∀ s h c o T t, pre s h c → t ∈ c.active h → { T with threads := c.T.threads } = c.T →
      f h c o t T = T.modThread t (g h c t))
    (hw : ∀ h c t th, (g h c t th).wait = th.wait)
    (hp : ∀ s h c T', Issues s i h c → s.Canonical → pre s h c → { T' with threads := c.T.threads } = c.T →
      (∀ t th, c.T.threads[t]? = some th → t ∈ c.active h →
        ∃ th', T'.threads[t]? = some th' ∧ (g h c t th).Kept th') → post s h c T') : TeamWord i pre post := by
  refine teamWord_of hi hf hb ?_
  intro s h c o w hcan hs haw hpre
  have hfold : (c.active h).foldl (fun T t => f h c o t T) c.T =
      (c.active h).foldl (fun T t => T.modThread t (g h c t)) c.T :=
    foldl_congr_of (fun T => { T with threads := c.T.threads } = c.T) _ _ _ _ rfl
      (fun T t ht hT => hfg s h c o T t hpre ht hT) (fun T t _ hT => by
        have := congrArg (fun X : Team => { X with threads := c.T.threads }) hT
        exact this)
  obtain ⟨a, b, d⟩ := foldl_modThread (g h c) (c.active h) (Cur.active_nodup h hs) c.T
  simp only [hfold]
  refine ⟨b, ?_, ?_, ?_⟩
  · intro t th hth hna
    refine ⟨th, ?_, rfl⟩
    rw [d, hth]; simp [hna]
  · intro t ht th hth
    rw [d] at hth
    cases hx : c.T.threads[t]? with
    | none => rw [hx] at hth; cases hth
    | some x =>
      rw [hx] at hth
      have hxw : x.wait = none := by rw [← Cur.thread_eq hx]; exact (haw t ht).1
      simp only [Option.map_some, Option.some.injEq] at hth
      rw [← hth]
      split
      · rw [hw, hxw]
      · exact hxw
  · intro T' e1 _ e3
    refine hp s h c T' w hcan hpre ?_ ?_
    · have := congrArg (fun X : Team => { X with threads := c.T.threads }) e1
      exact this.trans a
    · intro t th hth hact
      exact e3 t _ (by rw [d, hth]; simp [hact])

end Sys2Proof.Machine
end

