-- ==== Sys2Proof/Tests/Slice0.lean ====
section
/-! SUPPORT. Small tests: ill-formed terms are refused, words written out from the manual decode as it says, its
worked examples come out, and every statement's hypotheses are met by some state. -/

namespace Sys2Proof.Tests

-- theorems are checked one after another
set_option Elab.async false

open Sys2Proof Sys2Proof.Machine

/-- A word from its fields (Table 04.3), always executed, without retain, lookahead and counter. -/
def word (op : BitVec 9) (d a b c : BitVec 10) (m : BitVec 2) : DWord :=
  op ++ (0#1) ++ (7#3) ++ d ++ a ++ b ++ c ++ (0#2) ++ (0#4) ++ (0#3) ++ m

/-- The header of such a word. -/
def h0 : Hdr := ⟨7, false, 0, 0, 0⟩

/-- The word decodes to the instruction. -/
def reads (w : DWord) (i : Instr) : Bool := (decodeWord w).toOption == some i

/-! ### Ill-formed terms -/

theorem test_guard_never : Instr.wf (.not { h0 with pneg := true } false (.v 1) (.v 2)) = false := by decide
theorem test_transfer_counter : Instr.wf (.bra { h0 with ctr := 1 } 0) = false := by decide
theorem test_nop_counter : Instr.wf (.nop { h0 with ctr := 1 }) = false := by decide
theorem test_nop_lookahead : Instr.wf (.yield { h0 with la := 1 }) = false := by decide
theorem test_iabs_unsigned : Instr.wf (.iabs h0 .n32 false (.v 1) (.v 2)) = false := by decide
theorem test_sel_pt : Instr.wf (.sel h0 7 (.v 1) (.v 2) (.v 3)) = false := by decide
theorem test_fadd_slot_mode : Instr.wf (.fadd h0 .rslot (.v 1) (.v 2) (.v 3)) = false := by decide
theorem test_ffma_sr : Instr.wf (.ffma h0 .sr (.v 1) (.v 2) (.v 3) (.v 4)) = false := by decide
theorem test_hadd2_slot_mode : Instr.wf (.hadd2 h0 false .rslot (.v 1) (.v 2) (.v 3)) = false := by decide
theorem test_gred_sr : Instr.wf (.gred h0 (.fadd .sr) (.v 1) (.v 2)) = false := by decide
theorem test_atoms_byte : Instr.wf (.atoms h0 (.int .add .s8) (.v 1) (.v 2) (.v 3)) = false := by decide
theorem test_barrier_number : Instr.wf (.bar h0 .clus 4) = false := by decide
theorem test_one_stream : Instr.wf (.sisect h0 (.v 8) 1 1) = false := by decide

/-! ### Decoding -/

/-- The manual's worked words (R91, R188, R211, R323 and the chapters' examples). -/
theorem test_decode_examples :
    reads 0x00B8080080401000 (.iadd h0 .s32 false (.v 4) (.v 1) (.v 2)) = true ∧
    reads 0x1438040401203002 (.iset h0 .n32 .lt 2 (.v 8) (.v 9)) = true ∧
    reads 0xD01001FFFFFFE800 (.bra { h0 with psel := 2 } 0x3FFFFFFD) = true ∧
    reads 0x29B80A0080400020 (.fdiv { h0 with la := 1 } .rne (.v 5) (.v 1) (.v 2)) = true ∧
    reads 0x15B8020000200803 (.movi h0 0xC0000401 (.v 1)) = true ∧
    reads 0xA0B8240601C08000 (.vgath h0 (.v 18) (.v 12) (.v 14) (.v 16)) = true ∧
    reads 0xA1B82C0902006000 (.vscatr h0 (.v 22) (.v 18) (.v 16) (.v 12)) = true ∧
    reads 0xA2B8521600018000 (.ocalln h0 false false (.v 41) (.v 44) (.v 48)) = true ∧
    reads 0xA2BC000A00012000 (.ocalln h0 false false (.k1 0) (.v 20) (.v 36)) = true ∧
    reads 0xA8B83C0E00000001 (.cwaitt h0 true (.v 30) (.v 28)) = true ∧
    reads 0xA238380403A03000 (.ocall h0 false false (.v 28) (.v 8) (.v 29) (.v 6)) := by decide

/-- Words put together from the fields that R144-R155 give. -/
theorem test_decode_integer :
    reads (word 0x001 4 1 2 2 0) (.iadd h0 .s32 false (.v 4) (.v 1) (.v 2)) = true ∧
    reads (word 0x004 4 2 6 3 1) (.imul h0 .s64 true (.v 4) (.v 2) (.v 6)) = true ∧
    reads (word 0x006 3 4 5 6 0) (.imad h0 false (.v 3) (.v 4) (.v 5) (.v 6)) = true ∧
    reads (word 0x010 4 6 1 0 1) (.shl h0 true (.v 4) (.v 6) (.v 1)) = true ∧
    reads (word 0x01D 7 5 6 0x96 0) (.lop3 h0 false 0x96 (.v 7) (.v 5) (.v 6)) = true ∧
    reads (word 0x022 1 513 0 0 0) (.ctz h0 (.v 1) (.k1 1)) = true ∧
    reads (word 0x029 1 2 3 0 3) (.sel h0 3 (.v 1) (.v 2) (.v 3)) = true ∧
    reads (word 0x029 1 2 3 0x200 2) (.sel h0 6 (.v 1) (.v 2) (.v 3)) := by decide

/-- Words of R156-R171. -/
theorem test_decode_float :
    reads (word 0x041 1 2 3 0x18 0) (.fsub h0 .rup (.v 1) (.v 2) (.v 3)) = true ∧
    reads (word 0x043 1 2 3 4 2) (.ffma h0 .rdn (.v 1) (.v 2) (.v 3) (.v 4)) = true ∧
    reads (word 0x048 1 2 0 0x08 1) (.frnd h0 .rz true (.v 1) (.v 2)) = true ∧
    reads (word 0x060 1 2 3 0x20 1) (.hadd2 h0 true .sr (.v 1) (.v 2) (.v 3)) = true ∧
    reads (word 0x080 2 4 6 0x10 0) (.dadd h0 .rdn (.v 2) (.v 4) (.v 6)) = true ∧
    reads (word 0x0A1 1 4 3 0xE8 0) (.qnt h0 3 .rslot (.v 1) (.v 4) (.v 3)) := by decide

/-- Words of R192-R210. -/
theorem test_decode_local :
    reads (word 0x0C0 2 1 0 0 0) (.gvote h0 (.all 2) 1) = true ∧
    reads (word 0x0C1 2 4 1 0x200 3) (.gshfl h0 .xor true (.v 2) (.v 4) (.v 1)) = true ∧
    reads (word 0x0C5 2 1 3 0 0) (.gmatch h0 false 3 (.v 2) (.v 1)) = true ∧
    reads (word 0x0E1 9 2 0x3FD 5 0) (.sts h0 (.ty .n16) .plain 0x3FD (.v 9) (.v 2)) = true ∧
    reads (word 0x0E3 1 2 3 4 0) (.cass h0 false (.v 1) (.v 2) (.v 3) (.v 4)) = true ∧
    reads (word 0x0E8 4 2 1 0x200 0) (.ldt h0 .b128 1 (.v 4) (.v 2)) = true ∧
    reads (word 0x0F1 0 2 1 0 1) (.markf h0 true 1 (.v 2)) = true ∧
    reads (word 0x100 0 0 1 0 2) (.bar h0 .grid 1) = true ∧
    reads (word 0x110 0 0 3 0 0) (.mcarm h0 3) = true ∧
    reads (word 0x125 8 1 2 0 0) (.sisect h0 (.v 8) 1 2) := by decide

/-- Words of R172-R186 and R299-R321. -/
theorem test_decode_control_engine :
    reads (word 0x140 4 2 0 0 0) (.cpost h0 (.v 4) (.v 2)) = true ∧
    reads (word 0x150 9 2 2 0 0) (.cfence h0 .rel .pkg 2 (.v 9)) = true ∧
    reads (word 0x153 9 2 0 0 0) (.ccancel h0 (.v 9) (.v 2)) = true ∧
    reads (word 0x180 5 2 0 0 1) (.mpost h0 .f2x2 (.v 5) (.v 2)) = true ∧
    reads (word 0x1A4 0 0 0 0 0) (.ret h0) = true ∧
    reads (word 0x1C0 5 0 7 0 0) (.mfsr h0 7 (.v 5)) = true ∧
    reads (word 0x1C2 1 2 3 4 0) (.rngx h0 (.v 1) (.v 2) (.v 3) (.v 4)) := by decide

/-- An unassigned opcode, a guard that is never true, a reserved modifier bit, a rounding code in no slot's reach and a
counted NOP are refused (R73, R74, R79, R80, R84). -/
theorem test_decode_refused :
    (decodeWord (word 0x000 0 0 0 0 0)).toOption = none ∧
    (decodeWord (word 0x00C 1 2 3 2 0)).toOption = none ∧
    (decodeWord (word 0x1AC 0 0 0 0 0)).toOption = none ∧
    (decodeWord (word 0x001 1 2 3 2 0 ||| 1 <<< 54)).toOption = none ∧
    (decodeWord (word 0x001 1 2 3 0x00A 0)).toOption = none ∧
    (decodeWord (word 0x040 1 2 3 0x28 0)).toOption = none ∧
    (decodeWord (word 0x1A8 0 0 0 0 0 ||| 4)).toOption = none := by
  decide

/-! ### States for witnesses and single steps -/

/-- Core 0 runs the one word of `i` on slice 0 for the threads `ts`, after `f` has set the team up. -/
def probe (i : Instr) (ts : List Nat) (f : Team → Team) : State :=
  let s := State.withFetchWord State.reset 64 ((encode i).getD 0).toNat
  State.modSlice { s with teams := s.teams.map f, focus := (0, 0) } 0 0
    fun x => { x with bundle := x.bundle.map fun b => { b with threads := ts, all := ts } }

/-- Every thread holds these registers. -/
def withRegs (l : List (Nat × Word)) (T : Team) : Team :=
  { T with threads := T.threads.map fun th => { th with regs := l } }

/-- Thread 1 holds these registers, thread 0 none. -/
def withRegs1 (l : List (Nat × Word)) (T : Team) : Team :=
  { T with threads := T.threads.modify 1 fun th => { th with regs := l } }

/-- The word issues in the state, no error is noted, its members ascend and are awake, and `pre` holds. -/
def Meets (s : State) (i : Instr) (pre : Hdr → Cur → Bool) : Bool :=
  match i.hdr?, s.cur? with
  | some h, some c =>
    !c.held i h && (Cur.regError s c i h).isNone && decide s.Canonical && decide (c.b.threads.Pairwise (· < ·)) &&
      c.b.threads.all (fun t => (c.thread t).wait.isNone && !(c.thread t).woken) && s.errors.isEmpty && pre h c
  | _, _ => false

/-- What `Meets` says. -/
theorem Meets.witness {s : State} {i : Instr} {pre : Hdr → Cur → Bool} (m : Meets s i pre = true) :
    ∃ h c, Issues s i h c ∧ s.Canonical ∧ c.b.threads.Pairwise (· < ·) ∧ c.Awake ∧ s.errors = [] ∧ pre h c = true := by
  unfold Meets at m
  split at m
  · rename_i h c eh ec
    simp only [Bool.and_eq_true, Bool.not_eq_true', Option.isNone_iff_eq_none, decide_eq_true_eq,
      List.all_eq_true, List.isEmpty_iff] at m
    obtain ⟨⟨⟨⟨⟨⟨m1, m2⟩, m3⟩, m4⟩, m5⟩, m6⟩, m7⟩ := m
    exact ⟨h, c, ⟨eh, ec, m1, m2⟩, m3, m4, m5, m6, m7⟩
  · cases m

/-- The word issues in a fresh team for threads 0 and 1. -/
def issues (i : Instr) : Bool := Meets (probe i [0, 1] id) i fun _ _ => true

/-! ### Hypotheses met: words of one thread -/

theorem witness_IntegerArithmetic :
    [.iadd h0 .s32 true (.v 4) (.v 1) (.v 2), .isub h0 .n64 false (.v 4) (.v 2) (.v 6), .imul h0 .s8 true (.v 1) (.v 2) (.v 3),
      .imulh h0 .s32 (.v 1) (.v 2) (.v 3), .imin h0 .s16 (.v 1) (.v 2) (.v 3), .imax h0 .n8 (.v 1) (.v 2) (.v 3),
      .iabs h0 .s64 true (.v 2) (.v 4), .ineg h0 .n32 false (.v 1) (.v 2), .iaddc h0 7 (.v 1) (.v 2) (.v 3),
      .imad h0 false (.v 1) (.v 2) (.v 3) (.v 4), .imad h0 true (.v 2) (.v 4) (.v 6) (.v 510),
      .imadw h0 true (.v 2) (.v 1) (.v 3) (.v 4)].all issues = true := by decide

theorem witness_ShiftsLogicBits :
    [.shl h0 false (.v 1) (.v 2) (.v 3), .shl h0 true (.v 2) (.v 4) (.v 3), .shr h0 false (.v 1) (.v 2) (.v 3),
      .shr h0 true (.v 2) (.v 4) (.v 3), .sar h0 false (.v 1) (.v 2) (.v 3), .sar h0 true (.v 2) (.v 4) (.v 3),
      .rotl h0 (.v 1) (.v 2) (.v 3), .and h0 false (.v 1) (.v 2) (.v 3), .and h0 true (.v 2) (.v 4) (.v 6),
      .or h0 false (.v 1) (.v 2) (.v 3), .or h0 true (.v 2) (.v 4) (.v 6), .xor h0 false (.v 1) (.v 2) (.v 3),
      .xor h0 true (.v 2) (.v 4) (.v 6), .andn h0 false (.v 1) (.v 2) (.v 3), .andn h0 true (.v 2) (.v 4) (.v 6),
      .not h0 false (.v 1) (.v 2), .not h0 true (.v 2) (.v 4), .lop3 h0 false 0x96 (.v 1) (.v 2) (.v 3),
      .lop3 h0 true 0xFF (.v 2) (.v 4) (.v 6), .popc h0 (.v 1) (.v 2), .clz h0 (.v 1) (.v 2), .ctz h0 (.v 1) (.v 2),
      .brev h0 (.v 1) (.v 2), .bfx h0 false (.v 1) (.v 2) (.v 3), .bfi h0 (.v 1) (.v 2) (.v 3) (.v 4),
      .bperm h0 (.v 1) (.v 2) (.v 3) (.v 4), .rngx h0 (.v 1) (.v 2) (.v 3) (.v 4)].all issues = true := by decide

theorem witness_CompareSelectMove :
    [.iset h0 .n64 .ge 7 (.v 2) (.v 4), .sel h0 6 (.v 1) (.v 2) (.v 3), .mov h0 false (.v 1) (.k1 1),
      .mov h0 true (.v 2) (.k1 20), .movi h0 0xFFFFFFFF (.v 511), .pset h0 .xnor 6 7 0, .pmov h0 (.get (.v 1)),
      .pmov h0 (.set (.v 1))].all issues = true := by decide

theorem witness_Fp32Arithmetic :
    [.fadd h0 .sr (.v 1) (.v 2) (.v 3), .fsub h0 .rz (.v 1) (.v 2) (.v 3), .fmul h0 .rne (.v 1) (.v 2) (.v 3),
      .ffma h0 .rup (.v 1) (.v 2) (.v 3) (.v 4), .fmin h0 (.v 1) (.v 2) (.v 3), .fmax h0 (.v 1) (.v 2) (.v 3),
      .fset h0 .nan 6 (.v 2) (.v 3), .fclass h0 .f32 (.v 1) (.v 2), .fclass h0 .f16 (.v 1) (.v 2),
      .fclass h0 .bf16 (.v 1) (.v 2), .frnd h0 .rdn true (.v 1) (.v 2), .fsqrt h0 .sr (.v 1) (.v 2),
      .frcp h0 .rne (.v 1) (.v 2), .frsq h0 .rne (.v 1) (.v 2), .fdiv h0 .rne (.v 1) (.v 2) (.v 3), .fex2 h0 (.v 1) (.v 2),
      .flg2 h0 (.v 1) (.v 2), .fsin h0 (.v 1) (.v 2), .fcos h0 (.v 1) (.v 2), .ftanh h0 (.v 1) (.v 2)].all issues = true := by
  decide

theorem witness_HalvesAndDouble :
    [.hadd2 h0 true .sr (.v 1) (.v 2) (.v 3), .hmul2 h0 false .rne (.v 1) (.v 2) (.v 3),
      .hfma2 h0 true true (.v 1) (.v 2) (.v 3) (.v 4), .dadd h0 .sr (.v 2) (.v 4) (.v 6), .dmul h0 .rne (.v 2) (.v 4) (.v 6),
      .dfma h0 .rup (.v 2) (.v 4) (.v 6) (.v 8), .dmin h0 (.v 2) (.v 4) (.v 6), .dmax h0 (.v 2) (.v 4) (.v 6),
      .dset h0 .num 7 (.v 2) (.v 4), .drcp h0 .rdn (.v 2) (.v 4)].all issues = true := by decide

theorem witness_Conversions :
    [.cvt h0 7 .fp32 .rslot (.v 2) (.v 4), .qnt h0 0 .rslot (.v 1) (.v 4) (.v 3), .dqnt h0 1 .rne (.v 4) (.v 1) (.v 3),
      .pack h0 2 .s32 .sr (.v 2) (.v 4), .unpk h0 3 true (.v 4) (.v 8)].all issues = true := by decide

/-! ### Hypotheses met: words that act on their team -/

/-- Lines 30 and 31 of both stores are empty, line 30 claimed. -/
def emptied (T : Team) : Team := { T with scratch := ⟨[], [30, 31], [(30, 5)]⟩, tile := ⟨[], [30, 31], [(30, 5)]⟩ }

/-- The active threads' accesses of `n` bytes at v2 end at the last byte of the space and lie on line `l`. -/
def lastBytes (tile : Bool) (off : BitVec 10) (n l : Nat) (h : Hdr) (c : Cur) : Bool :=
  (c.active h).all fun t => effOffset ((c.env t).r32 (.v 2)) off n + n == c.L.rcd.visible tile &&
    effOffset ((c.env t).r32 (.v 2)) off n / 128 == l

/-- Its last 4 bytes of either store, on a full line. -/
theorem witness_Loads :
    Meets (probe (.lds h0 (.ty .n32) 3 (.v 4) (.v 2)) [0, 1] (withRegs [(2, 4080)])) (.lds h0 (.ty .n32) 3 (.v 4) (.v 2))
      (fun h c => lastBytes false 3 4 31 h c && c.T.scratch.full 31) = true ∧
    Meets (probe (.ldt h0 .b128 0x3FF (.v 4) (.v 2)) [0, 1] (withRegs [(2, 4096)])) (.ldt h0 .b128 0x3FF (.v 4) (.v 2))
      (fun h c => lastBytes true 0x3FF 16 31 h c && c.T.tile.full 31) = true := by decide

/-- A plain store on a full line, and the others on an empty one. -/
theorem witness_Stores :
    Meets (probe (.sts h0 (.ty .s8) .plain 0 (.v 4) (.v 2)) [0, 1] (withRegs [(2, 4095)])) (.sts h0 (.ty .s8) .plain 0 (.v 4) (.v 2))
      (fun h c => lastBytes false 0 1 31 h c && c.T.scratch.full 31) = true ∧
    Meets (probe (.stt h0 (.ty .n64) .ewr 0 (.v 4) (.v 2)) [0, 1] (emptied ∘ withRegs [(2, 4088)]))
      (.stt h0 (.ty .n64) .ewr 0 (.v 4) (.v 2))
      (fun h c => lastBytes true 0 8 31 h c && !c.T.tile.claimed 31 && !c.T.tile.full 31) = true ∧
    Meets (probe (.sts h0 .b128 .fill 0 (.v 4) (.v 2)) [0, 1] (emptied ∘ withRegs [(2, 4080)]))
      (.sts h0 .b128 .fill 0 (.v 4) (.v 2))
      (fun h c => lastBytes false 0 16 31 h c && !c.T.scratch.claimed 31) = true := by decide

/-- Two threads on neighbouring words, the second the last of scratch. -/
def twoWords (z : Nat) (h : Hdr) (c : Cur) : Bool :=
  c.active h == [0, 1] && effOffset ((c.env 0).r32 (.v 2)) 0 z == 0 &&
    effOffset ((c.env 1).r32 (.v 2)) 0 z + z == c.L.rcd.visible false && c.T.scratch.full 0 && c.T.scratch.full 31

theorem witness_Atomics :
    Meets (probe (.atoms h0 (.int .add .s32) (.v 4) (.v 2) (.v 6)) [0, 1] (withRegs1 [(2, 4092)]))
      (.atoms h0 (.int .add .s32) (.v 4) (.v 2) (.v 6)) (twoWords 4) = true ∧
    Meets (probe (.atoms h0 (.int .swap .n64) (.v 4) (.v 2) (.v 6)) [0, 1] (withRegs1 [(2, 4088)]))
      (.atoms h0 (.int .swap .n64) (.v 4) (.v 2) (.v 6)) (twoWords 8) = true ∧
    Meets (probe (.atoms h0 (.fadd .rz) (.v 4) (.v 2) (.v 6)) [0, 1] (withRegs1 [(2, 4092)]))
      (.atoms h0 (.fadd .rz) (.v 4) (.v 2) (.v 6)) (twoWords 4) = true ∧
    Meets (probe (.cass h0 true (.v 4) (.v 2) (.v 6) (.v 8)) [0, 1] (withRegs1 [(2, 4088)]))
      (.cass h0 true (.v 4) (.v 2) (.v 6) (.v 8)) (twoWords 8) = true ∧
    [Instr.atoms h0 (.int .max .n32) (.v 4) (.v 2) (.v 6), .cass h0 false (.v 4) (.v 2) (.v 6) (.v 8)].all (fun i =>
      Meets (probe i [0, 1] (withRegs [(2, 4092)])) i (lastBytes false 0 4 31)) = true := by decide

/-- The last line of a store, full or empty. -/
theorem witness_FullEmpty :
    Meets (probe (.waitf h0 false false 0 (.v 2)) [0, 1] (withRegs [(2, 3968)])) (.waitf h0 false false 0 (.v 2))
      (fun h c => lastBytes false 0 128 31 h c && c.T.scratch.full 31) = true ∧
    Meets (probe (.waitf h0 true true 0 (.v 2)) [0, 1] (emptied ∘ withRegs [(2, 3968)])) (.waitf h0 true true 0 (.v 2))
      (fun h c => lastBytes true 0 128 31 h c && c.T.tile.free 31) = true ∧
    Meets (probe (.markf h0 true 0 (.v 2)) [0, 1] (emptied ∘ withRegs [(2, 3968)])) (.markf h0 true 0 (.v 2))
      (lastBytes true 0 128 31) = true ∧
    Meets (probe (.marke h0 false 0 (.v 2)) [0, 1] (withRegs [(2, 3968)])) (.marke h0 false 0 (.v 2))
      (lastBytes false 0 128 31) = true ∧
    Meets (probe (.probef h0 false 2 0 (.v 2)) [0, 1] (withRegs [(2, 3968)])) (.probef h0 false 2 0 (.v 2))
      (lastBytes false 0 128 31) = true := by decide

/-- The first word that lies out of the space, with and without an earlier record. -/
theorem witness_OutOfRange :
    [(false, false), (false, true), (true, false), (true, true)].all (fun p =>
      let i : Instr := match p with
        | (false, false) => .lds h0 (.ty .n32) 0 (.v 4) (.v 2)
        | (true, false) => .ldt h0 (.ty .n32) 0 (.v 4) (.v 2)
        | (false, true) => .sts h0 (.ty .n32) .ewr 0 (.v 4) (.v 2)
        | (true, true) => .stt h0 (.ty .n32) .plain 0 (.v 4) (.v 2)
      [0, 0x80000000].all fun x =>
        Meets (probe i [0, 1] (fun T => { withRegs [(2, 4096)] T with scrinfo := x, tileinfo := x })) i fun h c =>
          c.active h == [0, 1] && effOffset ((c.env 0).r32 (.v 2)) 0 4 == c.L.rcd.visible p.1) = true ∧
    [Instr.atoms h0 (.int .add .s32) (.v 4) (.v 2) (.v 6), .cass h0 false (.v 4) (.v 2) (.v 6) (.v 8),
      .waitf h0 false true 0 (.v 2), .waitf h0 true false 0 (.v 2), .markf h0 false 0 (.v 2), .marke h0 true 0 (.v 2),
      .probef h0 true 2 0 (.v 2)].all (fun i =>
        Meets (probe i [0, 1] (withRegs [(2, 4096)])) i fun h c =>
          c.active h == [0, 1] && effOffset ((c.env 0).r32 (.v 2)) 0 4 == 4096 && c.L.rcd.visible false == 4096 &&
            c.L.rcd.visible true == 4096) = true ∧
    [ScrdSel.coord, .val].all (fun sel =>
      let i : Instr := .scrd h0 sel (.v 4) 2
      Meets (probe i [0, 1] fun T => { T with threads := T.threads.map fun th =>
          { th with streams := List.replicate 8 ⟨true, 4096, 4096, 1, 0⟩ } }) i fun h c =>
        c.active h == [0, 1] && (c.active h).all fun t => scrdReads sel 2 c t == [4096]) = true := by decide

/-- A put into the last room of a queue, a get of its last token and a peek. -/
theorem witness_RoleQueues :
    Meets (probe (.qput h0 3 (.v 1)) [0] id) (.qput h0 3 (.v 1)) (fun h c =>
      decide (3 < c.T.queues.length) && (c.T.queue 3).length + (c.active h).length == c.L.rcd.depth 3) = true ∧
    Meets (probe (.qget h0 0 (.v 1)) [1] fun T => { T with queues := [[7], [], [], []] }) (.qget h0 0 (.v 1))
      (fun h c => (c.active h).length == (c.T.queue 0).length) = true ∧
    Meets (probe (.qpeek h0 0 (.v 1)) [0, 1] fun T => { T with queues := [[7], [], [], []] }) (.qpeek h0 0 (.v 1))
      (fun _ c => c.T.queue 0 != []) = true ∧
    Meets (probe (.qpeek h0 0 (.v 1)) [0, 1] id) (.qpeek h0 0 (.v 1)) (fun _ c => c.T.queue 0 == []) = true := by decide

/-- Of two threads that put one finds room, and of two that get one finds a token. -/
theorem witness_RoleQueues_wait :
    Meets (probe (.qput h0 3 (.v 1)) [0, 1] id) (.qput h0 3 (.v 1)) (fun h c =>
      c.active h == [0, 1] && decide (3 < c.T.queues.length) && c.L.rcd.depth 3 - (c.T.queue 3).length == 1) = true ∧
    Meets (probe (.qget h0 0 (.v 1)) [0, 1] fun T => { T with queues := [[7], [], [], []] }) (.qget h0 0 (.v 1))
      (fun h c => c.active h == [0, 1] && (c.T.queue 0).length == 1) = true := by decide

theorem witness_SystemRegisters :
    ([Instr.mcarm h0 3, .pmark h0 (.v 1)] ++ [0, 1, 2, 4].map (fun n => Instr.mtsr h0 n (.v 1)) ++
      [0, 1, 2, 3, 4, 5, 6, 7].map fun n => Instr.mfsr h0 n (.v 1)).all issues = true := by decide

/-- A stream of one coordinate at scratch 4092, with its value beside it. -/
def oneCoord (pos : Word) (T : Team) : Team :=
  { T with threads := T.threads.map fun th => { th with streams := List.replicate 8 ⟨true, 4092, 4092, 1, pos⟩ } }

theorem witness_Streams :
    [.sopen h0 0 (.v 4), .sadv h0 7 (.v 1), .stend h0 2 1, .sclose h0 3].all issues = true ∧
    [0, 1].all (fun pos => [.coord, .val, .pos, .len].all fun sel =>
      Meets (probe (.scrd h0 sel (.v 4) 2) [0, 1] (oneCoord pos)) (.scrd h0 sel (.v 4) 2) fun h c =>
        (c.active h).all fun t => (scrdReads sel 2 c t).all fun o => o + 4 == c.L.rcd.scratch && c.T.scratch.full (o / 128)) =
      true := by decide

theorem witness_StreamMerges :
    Meets (probe (.sisect h0 (.v 8) 1 2) [0, 1] (oneCoord 0)) (.sisect h0 (.v 8) 1 2) (fun h c => (c.active h).all fun t =>
      mergeReads 1 2 c t == [4092, 4092] && c.T.scratch.full 31) = true ∧
    Meets (probe (.sunion h0 (.v 8) 1 2) [0, 1] (oneCoord 1)) (.sunion h0 (.v 8) 1 2) (fun h c => (c.active h).all fun t =>
      mergeReads 1 2 c t == []) = true := by decide

/-! ### Hypotheses met: waits, barriers, collectives and control -/

/-- Sixteen further teams on core 0, each with 16 threads that wait on as many lines but the last with `n`. -/
def crowd (n : Nat) (s : State) : State :=
  { s with teams := s.teams ++ (List.range 16).flatMap fun k => s.teams.map fun T => { T with
      key := ⟨1, k + 1⟩
      threads := (List.range (if k = 15 then n else 16)).map fun l => { Thread.start 0 with wait := some (.line false l) } } }

/-- Both active threads are held by line l, and the wait table has just enough room for them, and none. -/
def parks (i : Instr) (f : Team → Team) (tile : Bool) (line : Cur → Nat → Option Nat) (l : Nat) : Bool :=
  let s := probe i [0, 1] f
  let held (h : Hdr) (c : Cur) : Bool := (c.active h).length == 2 && (c.active h).all fun t => line c t == some l
  Meets (crowd 14 s) i (fun h c => held h c &&
    (crowd 14 s).othersWaiting c.core c.b.team + c.T.waitLines.length + (c.active h).length == 256) &&
  Meets (crowd 16 s) i (fun h c => held h c && decide ((tile, l) ∉ c.T.waitLines) &&
    (crowd 16 s).othersWaiting c.core c.b.team + c.T.waitLines.length == 256)

/-- The line that bars the access of z bytes at v2. -/
def barredLine (tile : Bool) (z : Nat) (bar : Store → Nat → Bool) (c : Cur) (t : Nat) : Option Nat :=
  let o := effOffset ((c.env t).r32 (.v 2)) 0 z
  if o + z ≤ c.L.rcd.visible tile ∧ bar (c.T.store tile) (o / 128) = true then some (o / 128) else none

/-- The lowest line of the words that is not full. -/
def lowestLine (os : Cur → Nat → List Nat) (c : Cur) (t : Nat) : Option Nat :=
  (((os c t).filter fun o => decide (o + 4 ≤ c.L.rcd.scratch) && !c.T.scratch.full (o / 128)).map (· / 128)).min?

/-- Two threads at the last words of a store, whose line is empty; at a claimed line; at a full one; and with a stream whose
only word is there. -/
theorem witness_Parking :
    let notFull (x : Store) (l : Nat) : Bool := !x.full l
    let at' (n : Word) : Team → Team := emptied ∘ withRegs [(2, n)]
    [false, true].all (fun tile =>
      parks (if tile then .ldt h0 (.ty .n32) 0 (.v 4) (.v 2) else .lds h0 (.ty .n32) 0 (.v 4) (.v 2)) (at' 4092) tile
        (barredLine tile 4 notFull) 31 &&
      parks (if tile then .stt h0 .b128 .plain 0 (.v 4) (.v 2) else .sts h0 .b128 .plain 0 (.v 4) (.v 2)) (at' 4080) tile
        (barredLine tile 16 notFull) 31 &&
      [StMode.ewr, .fill].all fun m =>
        parks (if tile then .stt h0 (.ty .n64) m 0 (.v 4) (.v 2) else .sts h0 (.ty .n64) m 0 (.v 4) (.v 2)) (at' 3840) tile
          (barredLine tile 8 Store.claimed) 30) = true ∧
    (parks (.atoms h0 (.int .add .s32) (.v 4) (.v 2) (.v 6)) (at' 4092) false (barredLine false 4 notFull) 31 &&
      parks (.atoms h0 (.int .swap .n64) (.v 4) (.v 2) (.v 6)) (at' 4088) false (barredLine false 8 notFull) 31 &&
      parks (.cass h0 true (.v 4) (.v 2) (.v 6) (.v 8)) (at' 4088) false (barredLine false 8 notFull) 31 &&
      parks (.cass h0 false (.v 4) (.v 2) (.v 6) (.v 8)) (at' 3840) false (barredLine false 4 notFull) 30) = true ∧
    (parks (.waitf h0 true false 0 (.v 2)) (at' 3968) true (barredLine true 128 notFull) 31 &&
      parks (.waitf h0 false true 0 (.v 2)) emptied false (barredLine false 128 fun x l => !x.free l) 0 &&
      parks (.waitf h0 false true 0 (.v 2)) (at' 3840) false (barredLine false 128 fun x l => !x.free l) 30) = true ∧
    [ScrdSel.coord, .val].all (fun sel =>
      parks (.scrd h0 sel (.v 4) 2) (emptied ∘ oneCoord 0) false (lowestLine (scrdReads sel 2)) 31) = true ∧
    (parks (.sisect h0 (.v 8) 1 2) (emptied ∘ oneCoord 0) false (lowestLine (mergeReads 1 2)) 31 &&
      parks (.sunion h0 (.v 8) 1 2) (emptied ∘ oneCoord 0) false (lowestLine (mergeReads 1 2)) 31) = true := by decide +kernel

/-- Two of 32 threads arrive first, and the last two arrive. -/
theorem witness_BarrierArrivals :
    [(BarLevel.team, 15), (.clus, 3), (.grid, 1)].all (fun p => [.bar h0 p.1 p.2, .bara h0 p.1 p.2 (.v 4)].all fun i =>
      let s := probe i [0, 1] id
      Meets s i fun h c => decide s.BarsWhole && decide (p.2.toNat < p.1.count) && (c.barOffender h p.1 p.2.toNat).isNone &&
        (s.barrier p.1 p.2.toNat c.b.team).arrived == [] &&
        (s.members c.L p.1 p.2.toNat c.b.team).any fun m => m.1 == c.b.team.n && !(c.active h).contains m.2) = true := by
  decide +kernel

/-- Threads 0 and 1 have arrived in the open phase of every barrier. -/
def arrivedTwice (s : State) : State :=
  let b : Barrier := ⟨5, [(0, 0), (0, 1)]⟩
  { s with
    teams := s.teams.map fun T => { T with bars := List.replicate 16 b }
    launches := s.launches.map fun L => { L with clusterBars := [(0, List.replicate 4 b)], gridBars := [b, b] } }

theorem witness_BarrierArrivals_again :
    [(BarLevel.team, 15), (.clus, 3), (.grid, 1)].all (fun p => [.bar h0 p.1 p.2, .bara h0 p.1 p.2 (.v 4)].all fun i =>
      let s := arrivedTwice (probe i [0, 1] id)
      Meets s i fun h c => decide s.BarsWhole && decide (p.2.toNat < p.1.count) && (c.barOffender h p.1 p.2.toNat).isNone &&
        (c.active h).all (fun t => (s.barrier p.1 p.2.toNat c.b.team).arrived.contains (0, t)) && c.active h == [0, 1] &&
        (s.members c.L p.1 p.2.toNat c.b.team).contains (0, 2)) = true := by
  decide +kernel

theorem witness_BarrierCompletions :
    [(BarLevel.team, 0), (.clus, 0), (.grid, 0)].all (fun p => [.bar h0 p.1 p.2, .bara h0 p.1 p.2 (.v 4)].all fun i =>
      let s := probe i (List.range 32) id
      Meets s i fun h c => decide s.BarsWhole && decide (p.2.toNat < p.1.count) && (c.barOffender h p.1 p.2.toNat).isNone &&
        (s.barrier p.1 p.2.toNat c.b.team).arrived == [] && c.b.threads.all c.T.live.contains &&
        (s.members c.L p.1 p.2.toNat c.b.team).all (fun m => m.1 == c.b.team.n && (c.active h).contains m.2) &&
        s.teams.all fun T => !T.asleep && T.threads.all fun th => !th.rearrives p.1 p.2.toNat) = true := by decide +kernel

/-- Phase 1 is open and the threads name phase 0, which has completed, and phase 1, which has not. -/
theorem witness_BarrierQueries :
    let open1 (T : Team) : Team := { T with bars := T.bars.set 2 ⟨1, []⟩ }
    Meets (probe (.barw h0 .team 2 (.v 1)) [0, 1] open1) (.barw h0 .team 2 (.v 1)) (fun h c =>
      (c.barOffender h .team 2).isNone && (c.active h).all fun t => (c.env t).r32 (.v 1) == 0) = true ∧
    (probe (.barw h0 .team 2 (.v 1)) [0, 1] open1).barrier .team 2 probeKey = ⟨1, []⟩ ∧
    Meets (probe (.barw h0 .team 2 (.v 1)) [0, 1] (open1 ∘ withRegs [(1, 1)])) (.barw h0 .team 2 (.v 1)) (fun h c =>
      (c.barOffender h .team 2).isNone && (c.active h).all fun t => (c.env t).r32 (.v 1) == 1) = true ∧
    Meets (probe (.barq h0 .team 2 0 (.v 1)) [0, 1] (open1 ∘ withRegs [(1, 1)])) (.barq h0 .team 2 0 (.v 1))
      (fun h c => (c.barOffender h .team 2).isNone) = true := by decide

/-- The bundle is group 0 whole. -/
def wholeGroup (c : Cur) : Bool :=
  c.b.threads == (c.L.rcd.groupThreads 0).filter c.T.live.contains && c.b.threads != [] && c.T.core == c.core &&
    c.b.threads.all fun t => (c.thread t).trapped.isNone

theorem wholeGroup_is {c : Cur} (h : wholeGroup c = true) : WholeGroup c 0 := by
  simp only [wholeGroup, Bool.and_eq_true, beq_iff_eq, bne_iff_ne, List.all_eq_true,
    Option.isNone_iff_eq_none] at h
  obtain ⟨⟨⟨h1, h2⟩, h3⟩, h4⟩ := h
  exact ⟨h1, h2, h3, h4⟩

theorem witness_Collectives :
    [.gvote h0 (.all 2) 7, .gvote h0 (.any 2) 0, .gvote h0 (.uni 7) 0, .gvote h0 (.ballot (.v 1)) 7,
      .gshfl h0 .idx false (.v 1) (.v 2) (.v 3), .gshfl h0 .up true (.v 2) (.v 4) (.v 3), .gred h0 (.int .min .s64) (.v 2) (.v 4),
      .gred h0 (.fadd .rup) (.v 1) (.v 2), .gscan h0 .fmax true (.v 1) (.v 2), .gscan h0 (.int .add .n8) false (.v 1) (.v 2),
      .gelect h0 7 (.v 1), .gmatch h0 true 0 (.v 1) (.v 2)].all (fun i =>
        i.isWord && i.wf && Meets (probe i (List.range 32) id) i fun _ c => wholeGroup c) = true := by decide +kernel

/-- All of group 0 but thread 0, which has not arrived, or waits at another word. -/
theorem witness_Collectives_parted :
    [.gvote h0 (.any 2) 0, .gshfl h0 .down true (.v 2) (.v 4) (.v 3), .gred h0 (.int .add .n32) (.v 1) (.v 2),
      .gscan h0 .fmin false (.v 1) (.v 2), .gelect h0 7 (.v 1), .gmatch h0 false 1 (.v 1) (.v 2)].all (fun i =>
        i.isWord && i.wf && decide (i.opcode.any fun o => [0x0C0, 0x0C1, 0x0C2, 0x0C3, 0x0C4, 0x0C5].contains o) &&
        [none, some (Wait.collective 8 3 0x1234 false)].all fun w =>
          Meets (probe i ((List.range 31).map (· + 1)) fun T =>
              { T with threads := T.threads.modify 0 fun th => { th with wait := w } }) i fun _ c =>
            c.b.threads != [] && c.b.threads.all (fun t => c.L.rcd.groupOf t == 0 && c.T.live.contains t) &&
              ((c.L.rcd.groupThreads 0).filter fun t => c.T.live.contains t && !c.b.threads.contains t) == [0] &&
              (c.thread 0).atCollective.isSome == w.isSome && ((8 : DWord), 3) != (c.b.addr, c.b.idx)) = true := by
  decide +kernel

/-- Threads 20 to 31 of group 0 arrive last at the word, where threads 0 to 19 wait, the even ones of them active. -/
theorem witness_Collectives_last :
    [.gvote h0 (.all 2) 7, .gvote h0 (.any 2) 0, .gvote h0 (.uni 7) 0, .gvote h0 (.ballot (.v 1)) 7,
      .gshfl h0 .xor true (.v 2) (.v 4) (.v 3), .gred h0 (.fadd .rup) (.v 1) (.v 2),
      .gscan h0 (.int .add .n8) false (.v 1) (.v 2), .gelect h0 7 (.v 1), .gmatch h0 true 0 (.v 1) (.v 2)].all (fun i =>
        i.isWord && i.wf && Meets (probe i ((List.range 12).map (· + 20)) fun T =>
            { T with threads := mapFrom (fun t th => if t < 20 then
              { th with wait := some (.collective 0 0 ((encode i).getD 0) (t % 2 == 0)) } else th) 0 T.threads }) i
          fun h c =>
            let live := (c.L.rcd.groupThreads 0).filter c.T.live.contains
            c.T.core == c.core && c.b.threads != [] && (c.b.addr, c.b.idx) == ((0 : DWord), 0) &&
              c.b.threads.all (fun t => live.contains t && c.L.rcd.groupOf t == 0 && (c.thread t).guard h) &&
              live == List.range 32 && (live.filter fun t => !c.b.threads.contains t).all fun t =>
                (c.thread t).wait == some (.collective 0 0 ((encode i).getD 0) (t % 2 == 0)) &&
                  !(c.thread t).woken) = true := by
  decide +kernel

/-- A context 1 whose only page is the first GiB, at DPA 0x40000000, with all rights. -/
def mapped (s : State) : State :=
  { s with
    mem := ((Memory.writeNat [] 0x2000 8 0x4000003F).writeNat 0x100000 8 0x2001).writeNat 0x40000008 8 0x30
    contexts := [⟨1, 0x100000, [], [], [], 0, none⟩]
    launches := s.launches.map fun L => { L with ctx := 1 } }

/-- Every thread stands at depth `n`. -/
def atDepth (n : Nat) (T : Team) : Team := { T with threads := T.threads.map fun th => { th with depth := n } }

/-- The word ends its clause and the active threads have room on their stacks. -/
def roomAtEnd (h : Hdr) (c : Cur) : Bool :=
  c.b.idx + 1 == c.b.words.length && (c.active h).all fun t => decide ((c.thread t).depth < c.L.rcd.stack / 8)

theorem witness_Transfers :
    Meets (probe (.bra { h0 with psel := 2, pneg := true } 0x3FFFFFFD) [0, 1] id)
      (.bra { h0 with psel := 2, pneg := true } 0x3FFFFFFD) roomAtEnd = true ∧
    (let s := mapped (probe (.brx h0 1 (.v 1)) [0, 1] id)
     Meets s (.brx h0 1 (.v 1)) (fun h c => roomAtEnd h c && targetOk 0x30 && (c.active h).all fun t =>
       s.fetchBytes c.L.ctx c.T.die 8 (c.b.addr + 8 + 8 * ((c.env t).r32 (.v 1)).setWidth 64).toNat == .ok (leBytes 8 0x30)) =
       true) ∧
    Meets (probe (.call h0 2) [0, 1] (atDepth 7)) (.call h0 2) roomAtEnd = true ∧
    Meets (probe (.callx h0 (.v 4)) [0, 1] (atDepth 7 ∘ withRegs [(4, 0xFFFFFFF8), (5, 0xFFFFFF)])) (.callx h0 (.v 4))
      (fun h c => roomAtEnd h c && (c.active h).all fun t => targetOk ((c.env t).r64 (.v 4))) = true ∧
    Meets (probe (.ret h0) [0, 1] (atDepth 1)) (.ret h0) roomAtEnd = true ∧
    Meets (probe (.ret h0) [0, 1] (atDepth 0)) (.ret h0) (fun h c => (c.active h).head? == some 0) = true := by decide +kernel

/-- A full stack, a target that is no clause, a region that names v512, and a barrier whose members are role 1's. -/
theorem witness_WordTraps :
    Meets (probe (.call h0 2) [0, 1] (atDepth 8)) (.call h0 2) (fun h c =>
      (c.active h).head? == some 0 && (c.thread 0).depth == c.L.rcd.stack / 8) = true ∧
    Meets (probe (.callx h0 (.v 4)) [0, 1] (atDepth 8)) (.callx h0 (.v 4)) (fun h c =>
      (c.active h).all fun t => targetOk ((c.env t).r64 (.v 4)) && (c.thread t).depth == c.L.rcd.stack / 8) = true ∧
    Meets (probe (.callx h0 (.v 4)) [0, 1] (atDepth 8 ∘ withRegs1 [(4, 4)])) (.callx h0 (.v 4)) (fun h c =>
      c.active h == [0, 1] && targetOk ((c.env 0).r64 (.v 4)) && !targetOk ((c.env 1).r64 (.v 4)) &&
        (c.thread 0).depth == c.L.rcd.stack / 8) = true ∧
    Meets (probe (.ret h0) [0, 1] id) (.ret h0) (fun h c => c.active h == [0, 1] && (c.thread 0).depth == 0) = true ∧
    Meets (probe (.callx h0 (.v 4)) [0, 1] (withRegs1 [(4, 4)])) (.callx h0 (.v 4)) (fun h c =>
      roomAtEnd h c && c.active h == [0, 1] && targetOk ((c.env 0).r64 (.v 4)) && !targetOk ((c.env 1).r64 (.v 4))) = true ∧
    Meets (probe (.idembeg h0 0 (.v 1)) [0] (withRegs [(1, 0x01FF0002)])) (.idembeg h0 0 (.v 1)) (fun h c =>
      !idemHeld h (.v 1) c && ((c.env 0).r32 (.v 1)).getLsbD 1 && c.L.rcd.budgetOf 0 == 512 &&
        ((c.env 0).r32 (.v 1)).toNat / 65536 % 512 + 1 == 512) = true ∧
    [.bar h0 .team 0, .bara h0 .team 0 (.v 1), .barw h0 .team 0 (.v 1), .barq h0 .team 0 1 (.v 1)].all (fun i =>
      let s := probe i [0, 1] id
      Meets { s with launches := s.launches.map fun L => { L with rcd := { L.rcd with bars := 2 } } } i fun h c =>
        (c.active h).head? == some 0 && !c.L.rcd.isMember .team 0 (c.L.rcd.roleOf (0 / c.L.rcd.width))) = true ∧
    [.bar h0 .grid 1, .bara h0 .grid 1 (.v 1), .barw h0 .grid 1 (.v 1), .barq h0 .grid 1 1 (.v 1)].all (fun i =>
      let s := probe i [0, 1] id
      Meets { s with launches := s.launches.map fun L => { L with rcd := { L.rcd with coResident := false } } } i fun h c =>
        (c.active h).head? == some 0 && !c.L.rcd.coResident) = true := by decide

/-- A table word that is no clause's address, one that cannot be fetched; a register, that of a lane which a shuffle reads
and a line that hold an error. -/
theorem witness_WordTraps_reads :
    (let i : Instr := .brx h0 1 (.v 1)
     let s := mapped (probe i [0, 1] (withRegs [(1, 1)]))
     [(({ s with mem := s.mem.writeNat 0x40000010 8 4 } : State), FetchBytes.ok (leBytes 8 4)),
       (probe i [0, 1] (withRegs [(1, 1)]), .fault 0x10)].all fun p =>
         Meets p.1 i fun h c => (c.active h).all fun t =>
           p.1.fetchBytes c.L.ctx c.T.die 8 (c.b.addr + 8 + 8 * ((c.env t).r32 (.v 1)).setWidth 64).toNat == p.2) = true ∧
    targetOk 4 = false ∧
    (let i : Instr := .iadd h0 .n32 false (.v 4) (.v 1) (.v 2)
     let s : State := { probe i [0, 1] id with errors := [.reg probeKey 1 2] }
     (s.cur?.any fun c => !c.held i h0 && c.active h0 == [0, 1] && (i.shape c.L.rcd.width c.L.rcd.slots).regsRead.contains 2 &&
       !(i.shape c.L.rcd.width c.L.rcd.slots).regsRead.any fun r => s.errors.contains (.reg probeKey 0 r)) = true) ∧
    (let i : Instr := .gshfl h0 .idx false (.v 1) (.v 2) (.v 3)
     let s : State := { probe i (List.range 32) (withRegs [(3, 5)]) with errors := [.reg probeKey 5 2] }
     (s.cur?.any fun c => i.isWord && i.wf && !c.held i h0 && wholeGroup c && (c.active h0).head? == some 0 &&
       c.b.threads.all (fun t => (c.thread t).wait.isNone && !(c.thread t).woken) &&
       (groupReads i c 0 0).contains (5, 2)) = true) ∧
    [false, true].all (fun tile =>
      let i : Instr := if tile then .ldt h0 .b128 0 (.v 4) (.v 2) else .lds h0 .b128 0 (.v 4) (.v 2)
      let e : ErrLoc := if tile then .tile probeKey 31 else .scratch probeKey 31
      let s : State := { probe i [0, 1] (withRegs [(2, 4080)]) with errors := [e] }
      s.cur?.any fun c => !c.held i h0 && (Cur.regError s c i h0).isNone && lastBytes tile 0 16 31 h0 c &&
        (c.T.store tile).full 31) = true := by decide

/-- Thread 0 names a register beyond its budget and thread 1 reads a mask register in error, and the other way round; a
thread's stack entry, its named register and the coordinate that its stream is to read hold an error. -/
theorem witness_WordTraps_mixed :
    (let i : Instr := .idembeg h0 0 (.v 1)
     [(0, 1), (1, 0)].all fun p =>
       let s : State := { probe i [0, 1] (withRegs [(1, 0x01FF0002)]) with errors := [.reg probeKey p.2 1] }
       s.cur?.any fun c => !c.held i h0 && c.active h0 == [0, 1] && !idemHeld h0 (.v 1) c && idemBad (.v 1) c p.1 &&
         (s.regErrorOf c i p.1).isNone && s.regErrorOf c i p.2 == some 1) = true ∧
    [(Instr.idembeg h0 0 (.v 1), ErrLoc.reg probeKey 0 7), (.idembeg h0 0 (.v 1), .scratch probeKey 32), (.ret h0, .scratch probeKey 32)].all
      (fun p =>
        let s : State := { probe p.1 [0, 1] (atDepth 1 ∘ withRegs [(1, 0x00050004)]) with errors := [p.2] }
        s.cur?.any fun c => !c.held p.1 h0 && (Cur.regError s c p.1 h0).isNone && !idemHeld h0 (.v 1) c &&
          !idemBad (.v 1) c 0 && (c.thread 0).depth == 1 && (idemRegs ((c.env 0).r32 (.v 1))) == [7] &&
          c.L.rcd.stackBase 0 / 128 == 32) = true ∧
    [Instr.scrd h0 .coord (.v 8) 0, .sisect h0 (.v 8) 0 1, .sunion h0 (.v 8) 0 1].all (fun i =>
      let s : State := { probe i [0, 1] (oneCoord 0) with errors := [.scratch probeKey 31] }
      s.cur?.any fun c => !c.held i h0 && scrdReads .coord 0 c 0 == [4092] && mergeReads 0 1 c 0 == [4092, 4092] &&
        c.T.scratch.full 31 && decide (4096 ≤ c.L.rcd.visible false)) = true := by decide

theorem witness_SoftwareTraps :
    [.trap h0 0x3FF, .bkpt h0 0, .trap { h0 with psel := 0 } 1].all issues = true ∧
    Meets (probe (.trap { h0 with psel := 0 } 1) [0, 1] id) (.trap { h0 with psel := 0 } 1) (fun h c => c.active h == []) = true := by
  decide

/-- A team with a record waiting, and one with an empty ring. -/
theorem witness_TakingATrap :
    let s := probe (.trap h0 0) [0, 1] id
    let s' := { s with dies := s.dies.modify 0 fun d => { d with deferred := [⟨2, 1, false, 0, 1, 0, 0, 0, 0, 0, 0, 0, none⟩] } }
    [s, s'].all (fun s => match s.team? probeKey, s.launch? probeKey.launch with
      | some T, some _ => decide (T.die < s.dies.length) && decide s.mem.wf && !s.ringFull T.die
      | _, _ => false) = true := by decide

/-- Two of 32 threads exit, and all of them do. -/
theorem witness_Exits :
    let s (ts : List Nat) : State := probe (.exit h0) ts id
    Meets (s [0, 1]) (.exit h0) (fun h c => c.b.idx + 1 == c.b.words.length && !c.L.ended &&
      c.T.live.any (fun t => !(c.active h).contains t) &&
      (s [0, 1]).teams.all fun T => T.threads.all fun th => th.wait.isNone) = true ∧
    Meets (s (List.range 32)) (.exit h0) (fun h c => c.b.idx + 1 == c.b.words.length && !c.L.ended && !c.T.halted &&
      c.active h != [] && c.T.live.all (c.active h).contains && c.T.cmds == []) = true := by decide +kernel

theorem witness_NopAndYield : [.nop h0, .yield h0, .yield { h0 with psel := 0 }].all issues = true := by decide

theorem witness_Regions :
    Meets (probe (.idembeg h0 5 (.v 1)) [0, 1] (withRegs [(1, 0x01F0FFFF)])) (.idembeg h0 5 (.v 1)) (fun h c =>
      !idemHeld h (.v 1) c && (c.active h).all fun t => !idemBad (.v 1) c t) = true ∧ issues (.idemend h0) = true := by decide

/-! ### Hypotheses met: posts, fences and tags -/

/-- A launch with more scratch and tile store, whose slot 0 is BF16. -/
def roomy (s : State) : State :=
  { s with launches := s.launches.map fun L =>
      { L with rcd := { L.rcd with scratch := 65536, tile := 131072, slots := 2 :: List.replicate 7 0 } } }

/-- A team whose scratch begins with these numbers of 4 bytes, by offset. -/
def withWords (l : List (Nat × Nat)) (T : Team) : Team :=
  { T with scratch := { T.scratch with bytes := l.foldl (fun m x => m.writeNat x.1 4 x.2) [] } }

/-- A command on a tag, WAITING, that zeroes a line of tile store. -/
def aCmd (tag : Nat) : Cmd := { (default : Cmd) with tag := tag, seq := tag, st := .waiting, body := .zero 128 128 }

/-- The parts of descriptors that are not zero: a copy of 4 bytes, a zeroing of one line, a conversion and matrix
operations of one step. -/
def copyWords : List (Nat × Nat) := [(0, 0x01), (16, 0x02000001), (24, 128), (32, 256), (40, 1)]
def zeroWords : List (Nat × Nat) := [(0, 0x11), (20, 128)]
def convWords : List (Nat × Nat) := [(0, 0x12), (20, 0x00200040), (28, 4096)]
def matWords : List (Nat × Nat) := [(0, 0x10), (16, 1), (20, 4096), (24, 8192)]
def indWords : List (Nat × Nat) := matWords ++ [(48, 16384), (52, 32768), (56, 49152)]

/-- Each form posts on tag 0; a copy posts on the lowest that is FREE, beside a failed command that it does not name. -/
theorem witness_Posts :
    let fits (i : Instr) (ws : List (Nat × Nat)) (parse : (Nat → Bool) → LaunchRec → Nat → List Byte → Parsed)
        (held : List Cmd) : Bool :=
      let s := roomy (probe i [1] fun T => { withWords ws T with cmds := held })
      Meets s i fun h c =>
        let o := effOffset ((c.env 1).r32 (.v 2)) 0 128
        let p := parse s.feature c.L.rcd 1 (c.T.scratch.bytes.read o 128)
        c.active h == [1] && decide (o + 128 ≤ c.L.rcd.scratch) && c.T.scratch.full (o / 128) && p.1 == [] &&
          c.T.freeTag == some held.length &&
          c.T.cmds.all fun x => x.st != .failed || !p.2.preds.contains x.tag && p.2.rel.isNone
    fits (.cpost h0 (.v 4) (.v 2)) copyWords parseCopy [] = true ∧ fits (.mzero h0 (.v 4) (.v 2)) zeroWords parseZero [] = true ∧
    fits (.mcvt h0 (.v 4) (.v 2)) convWords parseConv [] = true ∧
    fits (.mpost h0 .f1x4 (.v 4) (.v 2)) matWords (parseMat .f1x4) [] = true ∧
    fits (.mpost h0 .f2x2 (.v 4) (.v 2)) matWords (parseMat .f2x2) [] = true ∧
    fits (.mpost h0 .f4x1 (.v 4) (.v 2)) matWords (parseMat .f4x1) [] = true ∧
    fits (.mpost h0 .ind (.v 4) (.v 2)) indWords (parseMat .ind) [] = true ∧
    fits (.cpost h0 (.v 4) (.v 2)) copyWords parseCopy
      [{ aCmd 0 with st := .failed, colour := 7 }, aCmd 1] = true := by decide +kernel

/-- Each form names tag 0, whose command has failed. -/
theorem witness_Posts_failed :
    let fails (i : Instr) (ws : List (Nat × Nat)) (parse : (Nat → Bool) → LaunchRec → Nat → List Byte → Parsed) : Bool :=
      let s := roomy (probe i [1] fun T => { withWords (ws ++ [(4, 0x8000)]) T with cmds := [{ aCmd 0 with st := .failed }] })
      Meets s i fun h c =>
        let o := effOffset ((c.env 1).r32 (.v 2)) 0 128
        let p := parse s.feature c.L.rcd 1 (c.T.scratch.bytes.read o 128)
        c.active h == [1] && decide (o + 128 ≤ c.L.rcd.scratch) && c.T.scratch.full (o / 128) && p.1 == [] &&
          c.T.freeTag == some 1 && p.2.preds.contains 0 && c.T.scratch.claims == [] && c.T.tile.claims == [] &&
          c.T.cmds.all (fun x => x.waits == []) && c.T.fences == [] && (s.coreAt c.T.core).mat.isNone &&
          (newCommand c.T p.2 1).mcast?.isNone && c.T.live != [] && !c.L.ended
    fails (.cpost h0 (.v 4) (.v 2)) copyWords parseCopy = true ∧ fails (.mzero h0 (.v 4) (.v 2)) zeroWords parseZero = true ∧
    fails (.mcvt h0 (.v 4) (.v 2)) convWords parseConv = true ∧
    fails (.mpost h0 .f1x4 (.v 4) (.v 2)) matWords (parseMat .f1x4) = true ∧
    fails (.mpost h0 .f2x2 (.v 4) (.v 2)) matWords (parseMat .f2x2) = true ∧
    fails (.mpost h0 .f4x1 (.v 4) (.v 2)) matWords (parseMat .f4x1) = true ∧
    fails (.mpost h0 .ind (.v 4) (.v 2)) indWords (parseMat .ind) = true := by decide +kernel

/-- A descriptor past the end of scratch, one with a bad operation, and a post with all tags held. -/
theorem witness_RefusedPosts :
    Meets (probe (.cpost h0 (.v 4) (.v 2)) [1] (withRegs [(2, 4096)])) (.cpost h0 (.v 4) (.v 2)) (fun h c =>
      c.active h == [1] && decide (c.L.rcd.scratch < effOffset ((c.env 1).r32 (.v 2)) 0 128 + 128)) = true ∧
    (let s := probe (.mzero h0 (.v 4) (.v 2)) [1] (withWords copyWords)
     Meets s (.mzero h0 (.v 4) (.v 2)) (fun h c =>
       let r := parseZero s.feature c.L.rcd 1 (c.T.scratch.bytes.read 0 128)
       c.active h == [1] && c.T.scratch.full 0 && firstChk r.1 == some (1, 0) &&
         r.1.all fun z => decide (1 < z.1) || z.1 == 1 && decide (0 ≤ z.2)) = true) ∧
    (let s := roomy (probe (.mzero h0 (.v 4) (.v 2)) [1] fun T =>
       { withWords zeroWords T with cmds := (List.range 256).map aCmd })
     Meets s (.mzero h0 (.v 4) (.v 2)) (fun h c => c.active h == [1] && c.T.cmds.map (·.tag) == List.range 256 &&
       (parseZero s.feature c.L.rcd 1 (c.T.scratch.bytes.read 0 128)).1 == []) = true) := by decide +kernel

/-- A team with a command on every tag has none FREE. -/
theorem allHeld {T : Team} (h : T.cmds.map (·.tag) = List.range 256) (u : Nat) (hu : u < 256) : T.cmd? u ≠ none := by
  have : u ∈ T.cmds.map (·.tag) := h ▸ List.mem_range.mpr hu
  obtain ⟨c, hc, hct⟩ := List.mem_map.mp this
  intro hn
  have := List.find?_eq_none.mp hn c hc
  simp [hct] at this

/-- Every lane form with a control word of its size or method. -/
theorem witness_LanePosts :
    let fits (i : Instr) (form : LaneForm) (x : LaneOps) (w : Word) : Bool :=
      let s := probe i [0, 1] (withRegs [(16, w)])
      Meets s i fun h c => c.active h == [0, 1] && (c.active h).all (fun u => c.L.rcd.groupOf u == 0) &&
        (parseLanes form x c c.T.scratch.bytes s.feature 0 (c.active h)).1 == [] && c.T.cmds == []
    fits (.vgath h0 (.v 4) (.v 12) (.v 14) (.v 16)) .gath ⟨.v 12, .v 14, .v 16, false, false⟩ 0x02000000 = true ∧
    fits (.vscat h0 (.v 4) (.v 12) (.v 14) (.v 16)) .scat ⟨.v 12, .v 14, .v 16, false, false⟩ 0x00800000 = true ∧
    fits (.vscatr h0 (.v 4) (.v 12) (.v 14) (.v 16)) .scatr ⟨.v 12, .v 14, .v 16, false, false⟩ 0x08000000 = true ∧
    [false, true].all (fun comb => [false, true].all fun a2 =>
      fits (.ocall h0 comb a2 (.v 4) (.v 12) (.v 14) (.v 16)) .call ⟨.v 12, .v 14, .v 16, a2, comb⟩ 0x01000000 &&
      fits (.ocalln h0 comb a2 (.v 4) (.v 12) (.v 16)) .calln ⟨.v 12, .k1 0, .v 16, a2, comb⟩ 0x01000000) = true := by
  decide +kernel

/-- A lane form whose predecessor has failed; one whose control word has a reserved bit; and one that finds no tag. -/
theorem witness_LanePosts_refused :
    let meets (i : Instr) (form : LaneForm) (x : LaneOps) (w : Word) : Bool :=
      let s (n : Nat) (y : Word) := probe i [0, 1] fun T =>
        { withRegs [(16, y)] T with cmds := (List.range n).map fun t => { aCmd t with st := .failed } }
      let p (s : State) (c : Cur) := parseLanes form x c c.T.scratch.bytes s.feature 0 [0, 1]
      Meets (s 1 (w ||| 0x200000)) i (fun h c => c.active h == [0, 1] && c.T.freeTag == some 1 &&
        (p (s 1 (w ||| 0x200000)) c).1 == [] && (p (s 1 (w ||| 0x200000)) c).2.preds.contains 0 && c.T.scratch.claims == [] &&
        c.T.tile.claims == [] && c.T.cmds.all (fun x => x.waits == []) && c.T.fences == [] &&
        (s 1 0).cores.all (fun k => k.mat.isNone) &&
        (newCommand c.T (p (s 1 (w ||| 0x200000)) c).2 1).mcast?.isNone && c.T.live != [] && !c.L.ended) &&
      Meets (s 0 (w ||| 8)) i (fun h c => c.active h == [0, 1] && (p (s 0 (w ||| 8)) c).1 != []) &&
      Meets (s 256 w) i (fun h c => c.active h == [0, 1] && (p (s 256 w) c).1 == [] && c.T.cmds.map (·.tag) == List.range 256)
    meets (.vgath h0 (.v 4) (.v 12) (.v 14) (.v 16)) .gath ⟨.v 12, .v 14, .v 16, false, false⟩ 0x02000000 = true ∧
    meets (.vscat h0 (.v 4) (.v 12) (.v 14) (.v 16)) .scat ⟨.v 12, .v 14, .v 16, false, false⟩ 0x00800000 = true ∧
    meets (.vscatr h0 (.v 4) (.v 12) (.v 14) (.v 16)) .scatr ⟨.v 12, .v 14, .v 16, false, false⟩ 0x08000000 = true ∧
    [false, true].all (fun comb => [false, true].all fun a2 =>
      meets (.ocall h0 comb a2 (.v 4) (.v 12) (.v 14) (.v 16)) .call ⟨.v 12, .v 14, .v 16, a2, comb⟩ 0x01000000 &&
      meets (.ocalln h0 comb a2 (.v 4) (.v 12) (.v 16)) .calln ⟨.v 12, .k1 0, .v 16, a2, comb⟩ 0x01000000) = true := by
  decide +kernel

theorem witness_Fences :
    [FenceKind.rel, .acq, .full].all (fun k => [Scope.team, .die, .pkg, .fab].all fun sc =>
      Meets (probe (.cfence h0 k sc 0xFF (.v 9)) [1] id) (.cfence h0 k sc 0xFF (.v 9)) fun h c => c.active h == [1]) = true := by
  decide

/-- What `MustEnd` asks, as a check. -/
def mustEnd (s : State) (c : Cmd) : Bool :=
  c.lanes.any c.sent || c.resWait ||
    s.cores.any fun q => q.mat.any fun m => m.team == probeKey && m.tag == c.tag && m.subs.any SubRun.midBlock

theorem mustEnd_is {s : State} {c : Cmd} : mustEnd s c = true ↔ MustEnd s probeKey c := by
  have lane (l : Lane) : c.sent l = true ↔ c.calling l := by
    unfold Cmd.sent Cmd.calling
    cases c.body <;> cases l.st <;> simp [LaneForm.isCall]
    rename_i d _ _ _
    cases d.form <;> simp
  simp [mustEnd, MustEnd, SubRun.midBlock, lane, or_assoc, and_assoc, Option.any_eq_true]

/-- Running commands: a gather with a lane performed, one issued and one held, a region that the engine zeroes, a matrix
operation before its first row, beside a fence that covers them; object calls and scatter-reductions at a caldera, a residual
write and a block in part; one that is to end, one that has ended and none. -/
theorem witness_TagWords_running :
    (let i : Instr := .ccancel h0 (.v 4) (.v 1)
     let lanes (form : LaneForm) : Cmd := { aCmd 0 with
       st := .running, body := .lanes ⟨form, 4, 2, false, false⟩
       lanes := [⟨0, 0, 0, 0, 0, 0, [], .done⟩, ⟨1, 1, 128, 4, 0, 0, [], .issued 0 0 1⟩, ⟨2, 2, 256, 8, 0, 0, [], .held 1⟩] }
     let s (x : Cmd) (m : Option MatRun) := (probe i [0] fun T => { T with
       cmds := [x], fences := [⟨1, 2, .full, .die, 1, [0], 0, none, 0, .v 1, 0⟩] }).modCore 0 fun k => { k with mat := m }
     let may (ends : Bool) (x : Cmd) (m : Option MatRun) :=
       Meets (s x m) i fun h c => c.active h == [0] && !((c.env 0).r32 (.v 1)).getLsbD 31 && c.T.cmd? 0 == some x &&
         x.st == .running && x.ending.isNone && x.mcast?.isNone && mustEnd (s x m) x == ends && x.acq.isNone &&
         c.T.cmds.all (fun y => !y.waits.contains 0) && !c.L.ended && c.T.live != []
     let sub (n : Nat) : SubRun := ⟨2, [], [], [], n⟩
     may false (lanes .gath) none && may false { aCmd 0 with st := .running } (some ⟨probeKey, 0, []⟩) &&
       may false { aCmd 0 with st := .running } (some ⟨probeKey, 0, [sub 0, sub 64, sub 0, sub 0]⟩) &&
       may true (lanes .call) none && may true (lanes .calln) none && may true (lanes .scatr) none &&
       may true { aCmd 0 with st := .running, resWait := true } none &&
       may true { aCmd 0 with st := .running } (some ⟨probeKey, 0, [sub 0, sub 1, sub 0, sub 0]⟩) &&
       [[], [{ lanes .call with ending := some (2, 0) }], [{ aCmd 0 with st := .done }], [{ aCmd 0 with st := .failed }]].all fun cs =>
         Meets (probe i [0] fun T => { T with cmds := cs }) i fun h c => c.active h == [0] &&
           !((c.env 0).r32 (.v 1)).getLsbD 31 && c.T.cmds.all fun x => x.st == .done || x.st == .failed || x.ending.isSome) =
       true := by decide +kernel

/-- An error word; a tag without a command, one that has ended, one that runs and one that waits alone. -/
theorem witness_TagWords :
    [.cwaitt h0 true (.v 4) (.v 1), .cstat h0 false (.v 4) (.v 1), .ccancel h0 (.v 4) (.v 1)].all (fun i =>
      Meets (probe i [0] (withRegs [(1, 0x80000001)])) i fun h c =>
        c.active h == [0] && ((c.env 0).r32 (.v 1)).getLsbD 31) = true ∧
    [[], [{ aCmd 255 with st := .done }], [{ aCmd 255 with st := .failed }]].all (fun cs =>
      [.cwaitt h0 true (.v 4) (.v 1), .cstat h0 true (.v 4) (.v 1)].all fun i =>
      Meets (probe i [0] fun T => { withRegs [(1, 255)] T with cmds := cs }) i fun h c =>
        c.active h == [0] && !((c.env 0).r32 (.v 1)).getLsbD 31 &&
          c.T.cmds.all fun x => x.tag != 255 || x.st == .done || x.st == .failed) = true ∧
    Meets (probe (.cwaitt h0 false (.v 4) (.v 1)) [0] fun T => { T with cmds := [{ aCmd 0 with st := .running }] })
      (.cwaitt h0 false (.v 4) (.v 1)) (fun h c => c.active h == [0] && !((c.env 0).r32 (.v 1)).getLsbD 31 &&
        (c.T.cmd? 0).any fun x => x.st == .running) = true ∧
    (let s := probe (.ccancel h0 (.v 4) (.v 1)) [0] fun T => { T with cmds := [aCmd 0] }
     Meets s (.ccancel h0 (.v 4) (.v 1)) (fun h c => c.active h == [0] && !((c.env 0).r32 (.v 1)).getLsbD 31 &&
        ((c.T.cmd? 0).any fun x => x.st == .waiting && x.ending.isNone && x.mcast?.isNone && x.lanes == []) &&
        c.T.cmds.all (fun y => !y.waits.contains 0) && (s.coreAt c.T.core).mat.isNone && !c.L.ended && c.T.live != []) = true) ∧
    (let y := { aCmd 1 with waits := [0] }
     let s := probe (.ccancel h0 (.v 4) (.v 1)) [0] fun T => { T with cmds := [aCmd 0, y] }
     Meets s (.ccancel h0 (.v 4) (.v 1)) (fun h c => c.active h == [0] && !((c.env 0).r32 (.v 1)).getLsbD 31 &&
        c.T.cmds.map (fun z => (z.tag, z.waits, z.st, z.ending, z.lanes)) ==
          [(0, [], .waiting, none, []), (1, [0], .waiting, none, [])] &&
        c.T.cmds.all (fun z => z.mcast?.isNone) && (s.coreAt c.T.core).mat.isNone && !c.L.ended && c.T.live != []) = true) := by
  decide

/-! ### Hypotheses met: commands and engines -/

/-- Core 0 with one team, mapped memory and no bundle that matters; its core's micro-TLB holds the page. -/
def idle (f : Team → Team) : State :=
  let s := mapped (probe (.nop h0) [0, 1] f)
  { s with cores := s.cores.modify 0 fun k => { k with utlb := [⟨1, 0, 2 ^ 30, 0x4000003F⟩] } }

/-- Its launch, with a cluster of two teams, both on the device. -/
def pair (f : Team → Team) (s : State) : State :=
  { s with
    launches := s.launches.map fun L => { L with rcd := { L.rcd with x := 2, cluster := 2 }, nextTeam := 2 }
    teams := s.teams ++ s.teams.map fun T => f { T with key := ⟨1, 1⟩, place := some ⟨1, 0, [0]⟩, cmds := [] } }

/-- The team's commands. -/
def withCmds (cs : List Cmd) (T : Team) : Team := { T with cmds := cs }

/-- What `Lone` asks, as a check. -/
def lone (s : State) (tag : Nat) : Bool :=
  match s.team? probeKey, s.launch? probeKey.launch with
  | some T, some L =>
    match T.cmd? tag with
    | some c => T.cmds.all (fun x => x.tag != tag || x == c) && T.cmds.all (fun x => !x.waits.contains tag) &&
        c.acq.isNone && c.mcast?.isNone && T.live != [] && !L.ended
    | none => false
  | _, _ => false

theorem lone_is {s : State} {tag : Nat} (h : lone s tag = true) : ∃ T L c, Lone s probeKey tag T L c := by
  unfold lone at h
  split at h
  · rename_i T L eT eL
    split at h
    · rename_i c ec
      simp only [Bool.and_eq_true, List.all_eq_true, Bool.or_eq_true, bne_iff_ne, beq_iff_eq, Bool.not_eq_true',
        List.contains_eq_mem, decide_eq_false_iff_not, Option.isNone_iff_eq_none] at h
      obtain ⟨⟨⟨⟨⟨h1, h2⟩, h3⟩, h4⟩, h5⟩, h6⟩ := h
      exact ⟨T, L, c, eT, eL, ec, fun x hx e => (h1 x hx).resolve_left (fun n => n e), h2, h3, h4, h5, h6⟩
    · cases h
  · cases h

/-- A command that runs with a body, and one with lanes. -/
def runsBody (b : Body) : Cmd := { aCmd 3 with st := .running, body := b }

def laneCmd (form : LaneForm) (sts : List LaneSt) : Cmd :=
  { aCmd 3 with
    st := .running, body := .lanes ⟨form, 4, 2, false, false⟩
    lanes := sts.zipIdx.map fun x => ⟨x.2, x.2, 128 * x.2, 4 * x.2, 0, 0, [], x.1⟩ }

def zeroCopy : CopyDesc := ⟨1, 0, 0, false, 0, 0, 4, 0, 0, 128, 256, [2], [4], [4], 0, 0, 0, 0⟩

def oneMat : MatDesc := ⟨.f2x2, 1, 10, 10, 0, 0, 0, 0, 0, 0, [0]⟩

/-- The facts that COMMAND_START rests on. -/
def mayStart (s : State) (tag : Nat) : Bool :=
  match s.team? probeKey with
  | some T => match T.cmd? tag with
    | some c => c.st == .waiting && c.waits == [] && T.fences.all (fun f => !decide (f.seq < c.seq) || f.mask &&& colourBit c.colour == 0) &&
        T.place.isSome && !T.stopping && c.rel.isNone && decide (T.core < s.cores.length)
    | none => false
  | none => false

/-- A waiting packet of number 0. -/
def outPkt : OutPkt := ⟨0, true, .back 1, ⟨2, false, false, 0, 7, 0, 0, 0, 0x40000000, 1, 0, .write [] []⟩⟩

/-- A command of each body starts, one beside a fence of other colours; one waits for acknowledgements; a multicast's
receivers are armed; and fences end, with no requests and after request 0. -/
theorem witness_Starting :
    [aCmd 3, { laneCmd .gath [.idle, .idle] with st := .waiting }, { aCmd 3 with body := .mat oneMat },
      { aCmd 3 with body := .copy zeroCopy }].all (fun c => mayStart (idle fun T => { withCmds [c] T with
        fences := [⟨0, 2, .full, .die, 2, [], 0, none, 0, .v 1, 0⟩] }) 3) = true ∧
    ((idle id).coreAt 0).mat = none ∧
    (let s := idle (withCmds [{ aCmd 3 with rel := some ⟨.fab, 1⟩, relUpTo := some 1 }])
     let s := { s with fabric := { s.fabric with out := [outPkt] } }
     ((s.cmd? probeKey 3).any fun c => c.rel.isSome && c.relUpTo == some 1) && s.fabric.out.any (fun o => decide (o.id < 1)) = true) ∧
    (let c : Cmd := { aCmd 3 with body := .copy { zeroCopy with op := 2, ranks := 3, bufid := 3 } }
     let s := pair id (idle fun T => { withCmds [c] T with mcast := 8 })
     mayStart s 3 && c.mcast?.isSome && (s.launch? 1).any (fun L => (receivers L probeKey 3).all fun k =>
       (s.team? k).any fun R => R.mcast.getLsbD 3 && !R.halted && R.place.isSome) = true) ∧
    [(⟨0, 0, .full, .team, 1, [], 0, none, 0, .v 1, 0⟩ : Fence), ⟨0, 0, .acq, .pkg, 1, [], 0, none, 0, .v 1, 0⟩,
      ⟨0, 0, .rel, .fab, 1, [], 2, some 0, 0, .v 1, 3⟩].all (fun f =>
        let s := idle fun T => { T with fences := [f] }
        let s := { s with fabric := { s.fabric with out := [outPkt] } }
        decide s.Canonical && f.covers == [] && decide (f.under ≤ s.fabric.gen) && s.fabric.phase == .normal && (s.team? probeKey).any fun T =>
          T.place.isSome && T.fences.find? (fun g => g.thread == 0) == some f && match f.relUpTo with
            | none => f.scope == .team || f.kind == .acq && f.scope != .fab
            | some n => s.fabric.out.all fun o => decide (n ≤ o.id)) = true := by decide +kernel

/-- The last element of a copy but one, the last line of a region and the one before it, the last row of a conversion and
the first, a step and a block of a matrix operation. -/
theorem witness_Engines :
    (let s := idle (withCmds [{ runsBody (.copy zeroCopy) with n := 0, lasts := [(2, 1)] }])
     lone s 3 && decide s.Canonical && s.errors == [] && (s.cmd? probeKey 3).any fun c => c.st == .running && c.parks == [] &&
       !c.resWait && c.ending.isNone && decide (c.n + 1 < zeroCopy.count)) = true ∧
    (let s := idle (withCmds [{ runsBody (.copy zeroCopy) with n := 1, lasts := [(2, 1)] }])
     lone s 3 && decide s.Canonical && (s.cmd? probeKey 3).any fun c => c.n + 1 == zeroCopy.count) = true ∧
    [0, 1].all (fun n =>
      let s := idle (withCmds [{ runsBody (.zero 3840 256) with n := n }])
      lone s 3 && decide s.Canonical && (s.cmd? probeKey 3).any fun c =>
        c.st == .running && (linesOfRange 3840 256)[c.n]? == some (30 + n)) = true ∧
    [0, 63].all (fun n =>
      let d : ConvDesc := ⟨0, 64, 32, true, 32, 10, 0, 0, 0⟩
      let s := idle (withCmds [{ runsBody (.conv d) with n := n }])
      lone s 3 && decide s.Canonical && s.errors == [] && (s.cmd? probeKey 3).any fun c =>
        c.st == .running && decide (c.n < d.rows)) = true ∧
    (let r (n : Nat) : SubRun := ⟨n, List.replicate 4096 0, [], [], 0⟩
     let s := idle (withCmds [runsBody (.mat oneMat)])
     let at' (n : Nat) := s.modCore 0 fun k => { k with mat := some ⟨probeKey, 3, [r n, r 0, r 0, r 0]⟩ }
     [0, 1].all (fun n => lone (at' n) 3 && decide (at' n).Canonical && ((at' n).matCmd 0).any fun m =>
       (m.1.subs[0]?).any (fun x => x.step == n && decide (x.rows < 64) && x.acc.length == 4096) && m.2.2.2.2.steps == 1 &&
         m.2.2.2.1.st == .running && slotRun m.2.2.2.2.aslot == 0 && decide (10 ≤ slotCode m.2.2.2.2.aslot)) = true) := by
  decide +kernel

/-- A release of scope PKG of a die that holds a dirty and a clean sector of one line, and a dirty one of another colour; and
the room that a command's lanes need. -/
theorem witness_Starting_releases :
    (let sector (dirty : Bool) : Sector := ⟨List.replicate 32 7, dirty, none, []⟩
     let s := idle fun T => { T with fences := [⟨0, 0, .rel, .pkg, 1, [], 0, none, 0, .v 1, 0⟩] }
     let s := s.modDie 0 fun d => { d with l2 := [⟨⟨none, 2 ^ 30⟩, 1, [(0, sector true), (3, sector false)]⟩,
       ⟨⟨none, 2 ^ 30 + 1⟩, 2, [(1, sector true)]⟩] }
     decide s.Canonical && (s.team? probeKey).any (fun T => T.place.isSome && (s.coreAt T.core).wq == [] && T.die == 0) &&
       decide (0 < s.dies.length) && s.errors == [] && decide (((s.dieAt 0).l2.map (·.key)).Nodup) && (s.dieAt 0).l2.all (fun l =>
         l.key.dev.isNone && decide (l.sectors.map (·.1)).Nodup && l.sectors.all fun x => decide (x.1 < 4) && x.2.bytes.length == 32)) =
       true ∧
    (let c := { laneCmd .gath [.idle, .idle] with st := .waiting }
     let s := idle (withCmds [c])
     decide ((s.heldLanes 0).length + (c.lanes.filter fun y => y.st == .idle).length ≤ 1024)) = true := by decide +kernel

/-- A die with a copy of a line of another die's memory, dirty, and one of a peer's line, clean or dirty. -/
def releasing (f : Fence) (dirty : Bool) (q : List QueuedWrite) : State :=
  let sector (dirty : Bool) : Sector := ⟨List.replicate 32 7, dirty, none, []⟩
  let s := idle fun T => { T with fences := [f] }
  (s.modDie 0 fun d => { d with l2 := [⟨⟨none, 2 ^ 30⟩, 1, [(0, sector true)]⟩, ⟨⟨some 3, 9⟩, 1, [(1, sector dirty)]⟩] }).modCore 0
    fun k => { k with wq := q }

/-- A queue with a write at home, one into each copy and one over it; and releases of scope PKG and FAB, REL and FULL, with a
request not acknowledged and with none, that have a sector for a peer and that have none. -/
theorem witness_Starting_drains :
    (let w (k : LineKey) (o n : Nat) : QueuedWrite := ⟨k, o, List.replicate n 9, 1, false, default⟩
     let q := [w ⟨none, 5⟩ 64 32, w ⟨none, 2 ^ 30⟩ 8 4, w ⟨some 3, 9⟩ 32 32, w ⟨none, 2 ^ 30⟩ 9 1]
     [(FenceKind.rel, Scope.die), (.full, .die), (.rel, .pkg), (.rel, .fab)].all fun x =>
       let s := releasing ⟨0, 0, x.1, x.2, 1, [], 0, none, 0, .v 1, 0⟩ false q
       let D := s.dieAt 0
       decide s.Canonical && s.errors == [] && (s.team? probeKey).any (fun T => T.place.isSome && T.core == 0) &&
         decide (0 < s.cores.length) && decide (0 < s.dies.length) && decide ((D.l2.map (·.key)).Nodup) &&
         (D.l2.all fun l => !isHome 0 l.key && decide (l.sectors.map (·.1)).Nodup &&
           l.sectors.all fun x => decide (x.1 < 4) && x.2.bytes.length == 32) &&
         (s.coreAt 0).wq.all fun w => decide (w.off < 128) && decide (w.off % 32 + w.bytes.length ≤ 32) &&
           (isHome 0 w.key || (D.sector? w.key (w.off / 32)).isSome)) = true ∧
    (let tries := [FenceKind.rel, .full].flatMap fun kind => [Scope.pkg, .fab].flatMap fun scope =>
       [false, true].flatMap fun dirty => [false, true].map fun busy =>
         let s := releasing ⟨0, 0, kind, scope, 1, [], 0, none, 0, .v 1, 0⟩ dirty []
         if busy then { s with fabric := { s.fabric with out := [outPkt], nextId := 1 } } else s
     tries.all fun s =>
       let D := s.dieAt 0
       decide s.Canonical && s.errors == [] && (s.team? probeKey).any (fun T => T.place.isSome && T.core == 0) &&
         (s.coreAt 0).wq == [] && decide (0 < s.dies.length) && (s.fabric.out.all fun o => decide (o.id < s.fabric.nextId)) &&
         s.fabric.phase == .normal && decide ((D.l2.map (·.key)).Nodup) &&
         D.l2.all fun l => decide (l.sectors.map (·.1)).Nodup && l.sectors.all fun x =>
           decide (x.1 < 4) && x.2.bytes.length == 32) = true := by decide +kernel

/-- What `ElementReady` asks, as a check; the element's bytes. -/
def elementReady (s : State) (d : CopyDesc) : Bool :=
  match s.team? probeKey, s.cmd? probeKey 3 with
  | some T, some c => c.st == .running && c.body == .copy d && d.resid == 0 && c.parks == [] && !c.resWait && c.ending.isNone &&
      decide (c.n < d.count) && T.place.isSome && !T.stopping && decide (T.core < s.cores.length) && s.errors == [] &&
      (!d.cvt || slotRun d.sslot == 0 && slotRun d.dslot == 0 && !slotZp d.dslot && fmtBits (slotCode d.sslot) != 4 &&
        fmtBits (slotCode d.dslot) != 4) &&
      (d.skind != 2 || (match s.resolve T.core 1 ⟨d.src.elem d.ext c.n, .read, 0⟩ with
        | .ok w => isHome T.die w.key
        | _ => false) && (s.coreAt T.core).wq == [])
  | _, _ => false

theorem elementReady_is {s : State} {d : CopyDesc} (h : elementReady s d = true) :
    ∃ T c bs, s.team? probeKey = some T ∧ s.cmd? probeKey 3 = some c ∧ ∀ L : Launch, L.ctx = 1 → ElementReady s T L c d bs := by
  unfold elementReady at h
  split at h
  · rename_i T c eT ec
    simp only [Bool.and_eq_true, beq_iff_eq, Bool.not_eq_true', decide_eq_true_eq, Option.isNone_iff_eq_none,
      Bool.or_eq_true, bne_iff_ne] at h
    obtain ⟨⟨⟨⟨⟨⟨⟨⟨⟨⟨⟨⟨h1, h2⟩, h3⟩, h4⟩, h5⟩, h6⟩, h7⟩, h8⟩, h9⟩, h10⟩, h11⟩, h12⟩, h13⟩ := h
    have plain : d.cvt = true → slotRun d.sslot = 0 ∧ slotRun d.dslot = 0 ∧ slotZp d.dslot = false ∧
        fmtBits (slotCode d.sslot) ≠ 4 ∧ fmtBits (slotCode d.dslot) ≠ 4 := fun e => by
      rcases h12 with h | h
      · rw [e] at h; cases h
      · exact ⟨h.1.1.1.1, h.1.1.1.2, h.1.1.2, h.1.2, h.2⟩
    by_cases e : d.skind = 2
    · rcases h13 with h | ⟨h, q⟩
      · exact absurd e h
      · split at h
        · rename_i w ew
          refine ⟨T, c, s.mem.read w.dpa d.src.bytes, eT, ec, fun L eL =>
            ⟨h1, h2, ⟨h3, h4, h5, h6, h7⟩, ⟨h8, h9, h10⟩, h11, plain, ?_⟩⟩
          rw [if_pos e]
          exact ⟨w, eL ▸ ew, h, q, rfl⟩
        · cases h
    · refine ⟨T, c, (T.store (d.skind == 1)).bytes.read (d.src.elem d.ext c.n).toNat d.src.bytes, eT, ec, fun L _ =>
        ⟨h1, h2, ⟨h3, h4, h5, h6, h7⟩, ⟨h8, h9, h10⟩, h11, plain, ?_⟩⟩
      rw [if_neg e]
  · cases h

/-- The page of `mapped` striped over device 9, and the same state otherwise. -/
def atPeer (s : State) : State :=
  { s with
    cores := s.cores.modify 0 fun k => { k with utlb := [⟨1, 0, 2 ^ 30, 0x000100004000003F⟩] }
    mem := ((Memory.writeNat [] 0x2000 8 0x000100004000003F).writeNat 0x100000 8 0x2001).writeNat 0x40000008 8 0x30
    contexts := s.contexts.map fun x => { x with peers := [(0, [9])] } }

/-- Copies from and to each store, from and to device memory, to a sector that the die holds of a peer's, and one from FP32
to BF16, by their next element and their last. -/
theorem witness_Engines_copies :
    [{ zeroCopy with skind := 1 }, { zeroCopy with dkind := 1 }, { zeroCopy with skind := 2 },
      { zeroCopy with cvt := true, dslot := 2 }].all (fun d => [0, 1].all fun n =>
        let s := idle (withCmds [{ runsBody (.copy d) with n := n, lasts := [(2, 1)] }])
        lone s 3 && decide s.Canonical && elementReady s d && d.op == 1) = true ∧
    (let d := { zeroCopy with dkind := 2, dbase := 4096 }
     let s := idle (withCmds [runsBody (.copy d)])
     let p := (atPeer s).modDie 0 fun D => D.put ⟨some 9, 0x800020⟩ 0 ⟨List.replicate 32 0, false, none, []⟩ 1
     let at' (s : State) := s.resolve 0 1 ⟨d.dst.elem d.ext 0, .write, 1⟩
     [s, p].all (fun s => lone s 3 && decide s.Canonical && elementReady s d) &&
       (match at' s with | .ok w => w.dev.isNone | _ => false) &&
       (match at' p with | .ok w => w.dev == some 9 && ((p.dieAt 0).sector? w.key (w.off / 32)).isSome | _ => false)) = true := by
  decide +kernel

/-- A multicast that is not at its last element; and a contribution's last element and the one before it. -/
theorem witness_Engines_shared :
    (let d := { zeroCopy with op := 2, ranks := 3, bufid := 3 }
     let s := pair id (idle (withCmds [runsBody (.copy d)]))
     decide s.Canonical && elementReady s d && decide (1 < d.count) && (s.team? probeKey).any fun T => T.cmds.length == 1) = true ∧
    (let d := { zeroCopy with op := 3, dkind := 2, dbase := 4096, ctag := 5, expect := 2, cmeth := 2 }
     [0, 1].all fun n =>
       let s := idle (withCmds [{ runsBody (.copy d) with n := n }])
       lone s 3 && decide s.Canonical && elementReady s d &&
         match s.resolve 0 1 ⟨d.dst.elem d.ext n, .write, 1⟩ with | .ok _ => true | _ => false) = true := by decide +kernel

/-- A copy to device memory whose page no TLB holds: it is mapped at 0 and not at 2^30. -/
theorem witness_Walks :
    [(0, true), (2 ^ 30, false)].all (fun p =>
      let d : CopyDesc := { zeroCopy with dkind := 2, dbase := p.1 }
      let s := mapped (probe (.nop h0) [0] (withCmds [runsBody (.copy d)]))
      decide s.mem.wf && !s.ringFull 0 && decide (s.cores.length = 192) &&
        s.firstBlocked 0 1 (unitAccesses d 0) == some (⟨p.1, .write, 1⟩, .miss) && (s.dieAt 0).tlb == [] &&
        (s.dieAt 0).deferred == [] && (s.context? 1).any fun x => match walk s x p.1 with
          | .leaf base size e => p.2 && checkPlace (leafPlace x s.devno base e p.1) .write base size != .fault 1 0 0 none &&
              (match checkPlace (leafPlace x s.devno base e p.1) .write base size with | .ok _ => true | .fault .. => false)
          | .fault cause base size => !p.2 && cause == 1 && base == p.1 && size == 2 ^ 30) = true := by decide +kernel

/-- Deferred records of a command and of one that has ended, beside a free slot; a parked copy and a parked lane that are answered; and an answer to nothing. -/
theorem witness_Faults :
    [0, 1].all (fun seq =>
      let p : Park := ⟨0, none, 0, 0, 2 ^ 30, [], none⟩
      let s := idle (withCmds [{ runsBody (.copy zeroCopy) with parks := [p] }])
      let s := s.modDie 0 fun d => { d with deferred := [⟨1, 1, true, 1, 1, 0, 0, 0, 0, 0, 3, 0, some ((aCmd 3).seq + seq)⟩] }
      !s.ringFull 0 && decide (0 < s.dies.length) && decide s.mem.wf && (s.cmd? ⟨1, 0⟩ 3).any fun c => c.seq == (aCmd 3).seq) = true ∧
    (let r : FaultRec := ⟨2, 6, false, 1, 1, 0, 0, 0, 0, 0, 0, 0, some 1⟩
     let s := (idle fun T => { T with records := [({ r with link := some 0 }, some 5), (r, none)] }).modDie 0 fun d =>
       { d with deferred := [r] }
     !s.ringFull 0 && decide (0 < s.dies.length) && decide s.mem.wf && (s.team? ⟨1, 0⟩).any fun T =>
       T.records.map (·.2) == [some 5, none]) = true ∧
    (let p : Park := ⟨0, some 9, 64, 0, 2 ^ 30, [], none⟩
     let s := idle (withCmds [{ runsBody (.copy zeroCopy) with parks := [p] }])
     s.parkedOn 0 9 == some (probeKey, 3, p) && lone s 3 && (s.team? probeKey).any fun T => T.place.isSome && T.core == 0 &&
       (T.cmd? 3).any fun c => c.lanes == [] && !c.resWait && c.st == .running) = true ∧
    (let p : Park := ⟨0, some 9, 128, 0, 2 ^ 30, [1], none⟩
     let s := idle (withCmds [{ laneCmd .gath [.done, .parked] with parks := [p] }])
     s.parkedOn 0 9 == some (probeKey, 3, p)) = true ∧
    (idle id).parkedOn 7 0xFFFFFFFF = none ∧
    [(0x0100000009 : DWord), 0x050200000009].map (fun w => (w.toNat / 2 ^ 32 % 256, w.toNat / 2 ^ 48, w.setWidth 32)) =
      [(1, 0, (9 : Word)), (2, 0, 9)] := by decide +kernel

/-- The oldest held lane of a gather, a scatter and a call, and one that a lower lane of its line keeps; lanes about to be performed; and a reply that lands. -/
theorem witness_Lanes :
    [LaneForm.gath, .scat, .call, .calln].all (fun f =>
      let c := laneCmd f [.held 0, .held 5]
      let s := idle (withCmds [c])
      s.oldestHeld 0 1 == [⟨0, probeKey, 3, 0⟩] && (s.lane? probeKey 3 0).any (fun l => l.st == .held 0 &&
        (match s.resolve 0 1 (laneAcc f l) with | .ok w => w.dev.isNone && decide (s.entriesRoom w.key 1) | _ => false) &&
        decide s.NoneToAdmit && !s.staysHeld 1 probeKey c ⟨f, 4, 2, false, false⟩ l [] && decide (0 < s.cores.length) &&
        !s.peerCallHeld 1 c l && (s.team? probeKey).any fun T => !s.callHeld T 1 c l)) = true ∧
    [LaneForm.gath, .scat].all (fun f =>
      let c := { laneCmd f [.held 5, .held 0] with lanes := (laneCmd f [.held 5, .held 0]).lanes.map fun x => { x with va := 0 } }
      let s := idle (withCmds [c])
      s.oldestHeld 0 1 == [⟨0, probeKey, 3, 1⟩] && decide s.NoneToAdmit && (s.lane? probeKey 3 1).any fun l =>
        (match s.resolve 0 1 (laneAcc f l) with | .ok _ => true | _ => false) &&
        s.staysHeld 1 probeKey c ⟨f, 4, 2, false, false⟩ l []) = true ∧
    [LaneForm.gath, .scat].all (fun f =>
      let c := laneCmd f [.issued 1 1 1, .held 5]
      let s := idle (withCmds [c])
      decide s.Canonical && (s.coreAt 0).wq == [] && c.lanes.any (fun y => y.h != 0 && y.st != .done && y.st != .dropped) &&
        (s.lane? probeKey 3 0).any (fun l => (match s.resolve 0 1 (laneAcc f l) with
          | .ok w => isHome 0 w.key
          | _ => false) && !s.laneHeld 1 4 c l && !s.lineHeld 1 c l && !s.peerLaneHeld 1 0 c l && (s.team? probeKey).any fun T =>
            !s.mergeHeld T 1 c l)) = true ∧
    (let c := laneCmd .call [.issued 1 1 1, .held 5]
     let r : CallReply := ⟨7, 0, 2, 0x10, [], 0⟩
     let s : State := { idle (withCmds [c]) with replies := [⟨probeKey, 3, [(0, 0)], r⟩] }
     decide s.Canonical && s.replies[0]? == some ⟨probeKey, 3, [(0, 0)], r⟩ && r.method != 22 &&
       (s.lane? probeKey 3 0).isSome) = true := by decide +kernel

/-- A scatter's lane whose line lies on device 9, with its sector held by the die and not. -/
theorem witness_ScatterToPeer :
    (let c := laneCmd .scat [.issued 1 1 1, .held 5]
     let s := atPeer (idle (withCmds [c]))
     decide s.Canonical && (s.lane? probeKey 3 0).any (fun l => (match s.resolve 0 1 (laneAcc .scat l) with
       | .ok w => w.dev == some 9 && ((s.dieAt 0).sector? w.key (w.off / 32)).isNone &&
         (((s.modDie 0 fun d => d.put w.key 0 ⟨[], false, none, []⟩ 1).dieAt 0).sector? w.key (w.off / 32)).isSome
       | _ => false) && !s.laneHeld 1 4 c l && !s.lineHeld 1 c l && !s.peerLaneHeld 1 0 c l && (s.team? probeKey).any fun T =>
         !s.mergeHeld T 1 c l)) = true := by decide +kernel

/-- Held lanes of an OCALL.comb at one element, whose method joins and whose method packs; and a reply for two lanes. -/
theorem witness_Lanes_combined :
    [2, 4].all (fun m =>
      let c := { laneCmd .call [.held 0, .held 5, .held 7, .done] with body := .lanes ⟨.call, 4, m, false, true⟩ }
      let c := { c with lanes := c.lanes.map fun x => { x with va := 128 } }
      let s := idle (withCmds [c])
      decide s.NoneToAdmit && s.oldestHeld 0 1 == [⟨0, probeKey, 3, 0⟩] && (joins m || m == 4) && decide (c.lanes.map (·.h)).Nodup &&
        (s.lane? probeKey 3 0).any fun l => (match s.resolve 0 1 (laneAcc .call l) with
          | .ok w => w.dev.isNone && decide (s.entriesRoom w.key 64)
          | _ => false) && !s.peerCallHeld 1 c l && ((s.team? probeKey).any fun T => !s.callHeld T 1 c l) &&
          (c.lanes.filter fun y => y.isHeld && y.va % 128 == l.va % 128 && s.objectOf 1 y == s.objectOf 1 l).length == 3) = true ∧
    (let c := laneCmd .call [.issued 0 0 1, .issued 5 0 1, .held 7]
     let c := { c with lanes := c.lanes.map fun x => { x with loc := 16 * x.h } }
     let r : CallReply := ⟨7, 0, 2, 0, [], 0⟩
     let s : State := { idle (withCmds [c]) with replies := [⟨probeKey, 3, [(0, 3), (1, 4)], r⟩] }
     decide s.Canonical && s.replies[0]? == some ⟨probeKey, 3, [(0, 3), (1, 4)], r⟩ && joins r.method &&
       [0, 1].all (fun h => (s.lane? probeKey 3 h).isSome) && decide (c.lanes.map (·.h)).Nodup &&
       c.lanes.all (fun x => c.lanes.all fun y => x.h == y.h || decide (x.loc + 16 ≤ y.loc) || decide (y.loc + 16 ≤ x.loc)) &&
       c.lanes.any fun y => !(y.h == 0 || y.h == 1) && y.st != .done && y.st != .dropped) = true := by decide +kernel


/-- A copied element for a peer's sector that the die does not hold is not written and does not count yet (R221). -/
theorem test_write_waits_for_peer :
    (let s := atPeer (idle (withCmds [runsBody (.copy { zeroCopy with dkind := 2, dbase := 0 })]))
     match exec (.copyElement probeKey 3) s with
     | .next s' => (s'.cmd? probeKey 3).any (fun c => c.n == 0) && (s'.coreAt 0).wq == []
     | _ => false) = true := by decide +kernel

/-- A request of one built-in call from core 0 to its own die's memory. -/
def aRequest : Request := ⟨some probeKey, 3, 0, none, 1, 0, ⟨none, 0x800000⟩, [⟨124, 4, 2, 1, 0, []⟩], [[(0, 1)]], false⟩

/-- A request enters an empty buffer, and waits behind one of its source and object; and a wave of one request. -/
theorem witness_Calderas :
    (let s : State := { idle id with transit := [aRequest] }
     s.transit[0]? == some aRequest && s.dies.length == 8 &&
       decide ((((s.waiting aRequest.die aRequest.slice).map fun q => q.entries.length).sum + aRequest.entries.length) ≤ 512)) =
       true ∧
    (let s : State := { idle id with transit := [aRequest, aRequest] }
     s.transit[1]? == some aRequest && aRequest.source == aRequest.source && aRequest.die == aRequest.die) = true ∧
    (let s := (idle id).modDie aRequest.die fun d => { d with buffer := [aRequest] }
     s.waiting aRequest.die aRequest.slice == [aRequest] && decide (aRequest.die < s.dies.length) && (s.coreAt 0).wq == [] &&
       (s.dieAt (dieOf 0)).l2 == [] && s.errors == [] && s.service.remaps == [] && decide s.mem.wf) = true := by decide +kernel

/-- What a wave of one request finds, as a check. -/
def oneWave (s : State) (r : Request) : Bool :=
  s.waiting r.die r.slice == [r] && decide (r.entries.length ≤ 64) && r.peer.isNone && r.team == some probeKey && !r.noReply &&
    (s.coreAt r.core).wq == [] && s.dies.all (fun d => d.l2 == []) && s.errors == [] && s.service.remaps == [] &&
    s.fabric.recvs.all (fun p => p.todo == []) && decide s.mem.wf && decide (r.die < s.dies.length)

/-- Queues that are empty, full and neither, with a ring in the page of `mapped`; and calls of a user method that has no
code, one that ends and one that faults. -/
theorem witness_Calderas_queues_and_methods :
    [(21, 2), (21, 1), (22, 0), (22, 1)].all (fun p =>
      let r := { aRequest with entries := [⟨0, 4, p.1, 1, 0, List.replicate 32 5⟩] }
      let s := (idle id).modDie r.die fun d => { d with buffer := [r] }
      let s : State := { s with mem := ((s.mem.writeNat 0x40000000 8 4096).writeNat 0x40000008 4 2).writeNat 0x40000018 8 p.2 }
      oneWave s r && r.key.line * 128 == 0x40000000 && s.mem.readNat 0x40000000 8 == 4096 && s.mem.readNat 0x40000008 4 == 2 &&
        s.mem.readNat 0x4000000C 4 == 0 && s.mem.readNat 0x40000010 8 == 0 && s.mem.readNat 0x40000018 8 == p.2 &&
        s.ringPlace 1 (4096 + 32 * (p.2 % 2)) .write == some (0x40001000 + 32 * (p.2 % 2)) &&
        s.ringPlace 1 4096 .read == some 0x40001000) = true ∧
    (let r := { aRequest with entries := [⟨0, 4, 32, 1, 0, []⟩, ⟨0, 4, 32, 2, 0, []⟩] }
     let obj := List.replicate 128 (0 : Byte)
     let with' (l : List (Nat × List DWord)) : State :=
       let s := (idle id).modDie r.die fun d => { d with buffer := [r] }
       { s with contexts := s.contexts.map fun x => { x with code := l }, mem := s.mem.writeNat 0x40000008 8 0 }
     let runs (code : List DWord) : Bool := (runMethod 0 code obj r.entries).toOption.isSome
     [[], [(0, [0, word 0x1A5 0 0 0 0 0])], [(0, [0])]].all (fun l => oneWave (with' l) r && (with' l).features == 0 &&
       (with' l).methodCode 1 32 == aget? l 0 && (with' l).mem.read (r.key.line * 128) 128 == obj) &&
       runs [0, word 0x1A5 0 0 0 0 0] && !runs [0]) = true := by decide +kernel

/-- No change of mappings waits and no launch closes. -/
def calm (s : State) : Bool := s.service.remaps == [] && s.launches.all fun L => L.closing.isNone

/-- Queued writes to a home of the core's die and to a sector that it holds of another die; copies that are clean and dirty. -/
theorem witness_CacheSteps :
    (let w (l : Nat) : QueuedWrite := ⟨⟨none, l⟩, 60, [1, 2, 3, 4], 1, false, ⟨none, probeKey, 0, 1⟩⟩
     let copy (dirty : Bool) : L2Line := ⟨⟨none, 2 ^ 30⟩, 1, [(1, ⟨List.replicate 32 0, dirty, none, []⟩)]⟩
     let s (l : Nat) : State := ((idle id).modDie 0 fun d => { d with l2 := [copy (l == 0)] }).modCore 0 fun k => { k with wq := [w l] }
     isHome 0 (w 0x800000).key && !isHome 0 (w (2 ^ 30)).key && [0, 0x800000, 2 ^ 30].all (fun l =>
       decide (s l).mem.wf && (s l).errors == [] && calm (s l) && decide (dieOf 0 < (s l).dies.length) &&
         ((s l).dieAt 0).sector? ⟨none, 2 ^ 30⟩ 1 == some ⟨List.replicate 32 0, l == 0, none, []⟩ &&
         decide (((s l).dieAt 0).l2.map (·.key)).Nodup &&
         ((s l).dieAt 0).l2.all fun x => decide (x.sectors.map (·.1)).Nodup)) = true := by decide +kernel

/-- A sector that the die does not hold, of its package and of a peer's, for a write of a whole sector and of part of one; a
dirty copy of a peer's sector; an L2 with room and one without. -/
theorem witness_CacheSteps_misses :
    (let w (dev : Option Nat) (n : Nat) : QueuedWrite := ⟨⟨dev, 2 ^ 30⟩, 64, List.replicate n 1, 1, false, ⟨none, probeKey, 0, 1⟩⟩
     [none, some 9].all fun dev => [4, 32].all fun n =>
       let s := (idle id).modCore 0 fun k => { k with wq := [w dev n] }
       !isHome 0 (w dev n).key && ((s.dieAt 0).sector? (w dev n).key 2).isNone && (s.dieAt 0).room (w dev n).key && s.errors == [] && calm s &&
         decide s.mem.wf && (s.coreAt 0).wq == [w dev n] && decide (0 < s.cores.length) && decide (dieOf 0 < s.dies.length)) =
       true ∧
    (let s := (idle id).modDie 7 fun d => d.put ⟨some 9, 5⟩ 3 ⟨List.replicate 32 8, true, none, []⟩ 1
     ((s.dieAt 7).sector? ⟨some 9, 5⟩ 3).any (fun x => x.dirty && x.bytes.length == 32) && s.errors == [] && calm s && decide s.mem.wf &&
       decide (7 < s.dies.length)) = true ∧
    (let s := (idle id).modDie 7 fun d => { d with l2 := [⟨⟨some 9, 5⟩, 1, [(3, ⟨List.replicate 32 8, false, none, []⟩)]⟩] }
     ((s.dieAt 7).sector? ⟨some 9, 5⟩ 3).any (fun x => !x.dirty) && calm s && decide ((s.dieAt 7).l2.map (·.key)).Nodup &&
       (s.dieAt 7).l2.all fun l => l.sectors != [] && decide (l.sectors.map (·.1)).Nodup) = true := by decide +kernel

theorem witness_CacheSteps_full :
    let D : Die := { Die.reset with l2 := List.replicate Config.l2Lines ⟨⟨none, 0⟩, 1, []⟩ }
    D.room ⟨none, 2 ^ 30⟩ = false ∧ D.sector? ⟨none, 2 ^ 30⟩ 2 = none := by
  have any (n : Nat) : (List.replicate n (⟨⟨none, 0⟩, 1, []⟩ : L2Line)).any (fun l => l.key == ⟨none, 2 ^ 30⟩) = false := by
    simp
  have find (n : Nat) : (List.replicate n (⟨⟨none, 0⟩, 1, []⟩ : L2Line)).find? (fun l => l.key == ⟨none, 2 ^ 30⟩) = none := by
    simp
  refine ⟨?_, ?_⟩
  · show (_ || decide ((List.replicate Config.l2Lines _).length < Config.l2Lines)) = false
    rw [any, List.length_replicate, decide_eq_false (Nat.lt_irrefl _)]
    rfl
  · show (((List.replicate Config.l2Lines _).find? _).bind _) = none
    rw [find]
    rfl

/-! ### Hypotheses met: slices and placement -/

/-- A clause of one NOP, fetched at address 0 by slice 0, which is free; thread 1 stands elsewhere, the others have
exited. -/
def fetched (r : FetchResult) (f : Team → Team) : State :=
  let s := idle fun T => f { T with threads := T.threads.mapIdx fun i th =>
    if i = 0 then th else if i = 1 then { th with pc := 0x100 } else { th with exited := true } }
  s.modSlice 0 0 fun x => { x with bundle := none, fetched := [⟨probeKey, 0, r⟩] }

theorem witness_Bundles :
    (let nop : DWord := word 0x1A8 0 0 0 0 0
     let s := fetched (.ok 0 [nop]) id
     (s.readyThreads 0 0).map (fun y => (y.t, y.pc)) == [(0, 0)] && (s.sliceAt 0 0).bundle.isNone && decide (0 < s.cores.length) &&
       decide (0 < (s.coreAt 0).slices.length) && ((s.launch? 1).any fun L =>
         (checkClause s.features L.rcd [0] 0 0 [nop]).isNone)) = true ∧
    [FetchResult.fault 4, .ok 0x10000 [0], .ok 0 [0]].all (fun r =>
      let s := fetched r id
      (s.readyThreads 0 0).map (fun y => (y.t, y.pc)) == [(0, 0)] && (s.sliceAt 0 0).fetchedAt probeKey 0 == some r) = true ∧
    headerOk 0x10000 = false ∧ headerOk 0 = true ∧ (decodeWord 0).toOption = none := by decide +kernel

/-- With previous bundles that may go on, and that may not. -/
theorem witness_Bundles_again :
    [(false, 511), (true, 0), (false, 512)].all (fun p =>
      let s := (fetched (.ok 0 [word 0x1A8 0 0 0 0 0]) fun T =>
        { T with threads := T.threads.map fun th => { th with age := p.2 } }).modSlice 0 0
          fun x => { x with prev := some (probeKey, [0], p.1) }
      (s.readyThreads 0 0).map (fun y => (y.t, y.age)) == [(0, p.2)]) = true := by decide +kernel

/-- Of two candidates on one home lane the older is taken (R51). -/
theorem test_older_on_a_lane :
    (let s := fetched (.ok 0 [word 0x1A8 0 0 0 0 0]) fun T => { T with place := some ⟨0, 0, [0, 0]⟩, threads := T.threads ++ T.threads }
     let s : State := { s with
       launches := s.launches.map fun L => { L with rcd := { L.rcd with groups0 := 2 } }
       teams := s.teams.map fun T => { T with threads := T.threads.mapIdx fun i th =>
         if i = 0 then { th with age := 2 } else if i = 32 then { th with exited := false, pc := 0, age := 3 }
         else { th with exited := true } } }
     (s.readyThreads 0 0).map (fun y => (y.t, y.lane)) == [(0, 0), (32, 0)] && match exec (.pickBundle 0 0) s with
       | .next s' => (s'.sliceAt 0 0).bundle.any fun b => b.threads == [32]
       | _ => false) = true := by decide +kernel

/-- A clause of one word at DPA 0x40000000 and one that leaves its page. -/
theorem witness_Fetches :
    (let s := idle id
     (s.team? probeKey).any (fun T => T.core == 0 && T.place.isSome && (s.launch? 1).any fun L =>
       (T.onSlice L.rcd 0).any (fun t => (T.threads[t]?).any fun th => !th.exited && th.pc == 0) &&
         (List.range 16).all (fun i => s.fetchByte L.ctx T.die i == .ok (if i = 8 then 0x30 else 0)) &&
         decide (T.die < s.dies.length) && decide ((s.dieAt T.die).tlb.length + 4 ≤ 16384) &&
         decide (0 < (s.coreAt 0).slices.length) && (s.context? L.ctx).any fun x => match s.dieEntry T.die x 0 with
           | .leaf .. => true
           | .fault .. => false)) = true ∧
    (let s := idle fun T => { T with threads := T.threads.map fun th => { th with pc := 0x3FFFFFF8 } }
     (List.range 8).all (fun i => s.fetchByte 1 0 (0x3FFFFFF8 + i) == .ok 0) && s.fetchByte 1 0 0x40000000 == .fault) = true := by
  decide +kernel

/-- A counted result behind one of another counter; a thread whose retry is due; teams on a core; and a sampled slice. -/
theorem witness_ClockedSteps :
    (let s := idle fun T => { T with threads := T.threads.modify 0 fun th =>
        { th with pending := [⟨2, [(1, 1)], [], []⟩, ⟨7, [(4, 5)], [(0, true)], []⟩] } }
     decide s.Canonical && (s.thread? probeKey 0).any fun th => (th.pending[1]?).any fun p => p.ctr == BitVec.ofNat 3 7) = true ∧
    (let s := idle fun T => { T with threads := T.threads.modify 0 fun th => { th with wait := some (.retry 0) } }
     (s.thread? probeKey 0).any fun th => th.wait == some (.retry 0)) = true ∧
    (let s := idle id
     decide (0 < s.cores.length) && decide (s.teams.map (·.key)).Nodup && (s.samplePeriod 0 0).isNone) = true ∧
    (let s := idle id
     let s : State := { s with launches := s.launches.map fun L => { L with rcd := { L.rcd with profile := 8 } } }
     (s.samplePeriod 0 0).any (fun p => (s.coreAt 0).cycle.toNat % p == 0) &&
       (nextGroup (s.sliceAt 0 0).sampled (s.eligible 0 0)).isSome) = true := by decide +kernel

/-- A sampled launch whose context has a ring of 64 records at 4096, whose control line holds these counts. -/
def sampling (written read : Nat) : State :=
  let s := idle id
  { s with
    launches := s.launches.map fun L => { L with rcd := { L.rcd with profile := 8 } }
    contexts := s.contexts.map fun x => { x with ring := some (4096, 6) }
    mem := (s.mem.writeNat 0x40001000 8 written).writeNat 0x40001008 8 read }

/-- A ring with a free record and a full one, of which the record's place and the control line's are this device's; a
slice without an eligible group; and a cycle that has been sampled. -/
theorem witness_ClockedSteps_samples :
    [(100, 37, false), (100, 36, true)].all (fun p =>
      let s := sampling p.1 p.2.1
      let home (s : State) (va : Nat) := (s.homePlace 1 va .write).filter fun w => w.dev.isNone
      (s.samplePeriod 0 0).any (fun n => (s.coreAt 0).cycle.toNat % n == 0) && (s.sliceAt 0 0).sampledIn.isNone &&
        s.ringOf 1 == some (4096, 6) && s.service.sampleStop == [] && s.service.samples == [] && s.fabric.out == [] &&
        decide s.mem.wf && (nextGroup (s.sliceAt 0 0).sampled (s.eligible 0 0)).any fun y =>
          y.2.1.ctx == 1 && (home s 4096).any (fun w => s.mem.readNat w.dpa 8 == p.1 && s.mem.readNat (w.dpa + 8) 8 == p.2.1 &&
            (((p.1 + 2 ^ 64 - p.2.1) % 2 ^ 64 == 2 ^ 6) == p.2.2)) && (home s (4096 + 16)).isSome &&
          (home s (4096 + 128 + 32 * (p.1 % 64))).any fun u =>
            let record := s.sampleBytes 0 0 y.2.1 y.2.2.1 y.2.2.2
            record.length == 32 && (home { s with mem := s.mem.write u.dpa record } 4096).isSome) = true ∧
    (idle id).eligible 0 0 = [] ∧
    (let s := (sampling 0 0).modSlice 0 0 fun x => { x with sampledIn := some 0 }
     (s.sliceAt 0 0).sampledIn == some (s.coreAt 0).cycle && (nextGroup (s.sliceAt 0 0).sampled (s.eligible 0 0)).isSome) =
       true := by decide +kernel

/-- A launch whose only team is not placed yet. -/
def unplaced : State :=
  let s := idle id
  { s with teams := [], launches := s.launches.map fun L => { L with nextTeam := 0 } }

/-- A launch at the head; a team to stop for it; a stopped team that may leave; and a saved one that comes back. -/
theorem witness_Placement :
    (unplaced.headLaunch.any fun L => (unplaced.launch? L.num).isSome && unplaced.saved L == [] &&
      (placeClusters L.rcd (if L.rcd.coResident then L.rcd.teams / L.rcd.cluster else 1) unplaced.residents).any fun ps => ps != []) =
      true ∧
    (let s := idle fun T => { T with stopping := true, relUpTo := some 0 }
     let s := s.modSlice 0 0 fun x => { x with bundle := none }
     (s.team? probeKey).any fun T => (s.launch? 1).any fun L => s.unitOf L probeKey == [T] && !s.hasBundle probeKey &&
       T.cmds == [] && T.relUpTo == some 0 && s.fabric.out == [] && s.fabric.phase == .normal && !T.discards L && !T.reduced && decide s.mem.wf &&
       s.cores.all (fun c => c.mat.isNone) && T.threads.all (fun th => th.pending == []) && s.freeImages 1 != []) = true ∧
    [false, true].all (fun reduced =>
      let s := idle fun T => { T with place := none, reduced := reduced }
      (s.team? probeKey).any fun T => (s.launch? 1).any fun L => T.cmds == [] && s.headLaunch == some L &&
        (s.saved L).filter (fun U => sameUnit L probeKey U.key) == [T] &&
        (placeSaved s.residents L.rcd [[probeKey]]).any fun l => l.length == 1) = true := by decide +kernel

/-- A launch of greater priority that finds no place, here because it needs more scratch than a core has, beside a team
that runs. -/
theorem witness_Preempt :
    (let s := idle id
     let big : LaunchRec := { probeRec with scratch := 2 ^ 24, priority := 3 }
     let s : State := { s with launches := s.launches ++ [⟨2, 1, big, [], [Barrier.start, Barrier.start], 0, 0, 1, 0, [], false, false, none⟩] }
     s.mayPreempt probeKey && (s.team? probeKey).any fun T => (s.launch? 1).any fun L => !T.stopping && T.place.isSome &&
       (s.unitOf L probeKey).any fun U => s.hasBundle U.key) = true := by decide +kernel

/-! ### Hypotheses met: the fabric -/

/-- A packet from device 7 to this device, of number 1, for a place in its memory. -/
def aPacket (kind : Nat) (body : PacketBody) : Packet := ⟨kind, false, false, 7, 0, 0, 1, 0, 0x40000000, 1, 3, body⟩

/-- Requests that are turned away: of no kind, for another device, on a dead plane, beyond the window and accepted. -/
theorem witness_FabricTraffic_ignored :
    packetAsks (aPacket 0 .ack) = false ∧ packetAsks (aPacket 5 .ack) = false ∧ (aPacket 1 (.read 32)).target = (idle id).devno ∧
    (let s := (idle id).modFabric fun f => { f with dead := 8 }
     s.fabric.dead.getLsbD (aPacket 1 (.read 32)).plane = true) ∧
    (let s := (idle id).modFabric fun f => { f with recvs := [⟨7, 3, 0, 1, [], []⟩] }
     [1, 256, 257].map (fun n : BitVec 32 => ((n - (s.fabric.recv 7 3).mark - 1).toNat,
       (s.fabric.recv 7 3).window.getLsbD (n - (s.fabric.recv 7 3).mark - 1).toNat)) =
       [(0, true), (255, false), (256, false)]) ∧
    (idle id).fabric.answered (aPacket 8 .ack) = none := by decide +kernel

/-- The next request of a path, of each kind. -/
theorem witness_FabricTraffic_requests :
    (let s := (idle id).modFabric fun f => { f with recvs := [⟨7, 3, 0, 0, [], []⟩] }
     [aPacket 1 (.read 32), aPacket 2 (.write [(0, 5), (31, 6)] []), aPacket 4 (.zero 256), aPacket 3 (.call [⟨0, 4, 2, 1, 0, []⟩] false)].all
       fun p => packetAsks p && p.target == s.devno && !s.fabric.dead.getLsbD p.plane &&
         p.pseq == (s.fabric.recv p.source p.plane).mark + 1 && !(s.fabric.recv p.source p.plane).window.getLsbD 0 &&
         (s.fabric.recv p.source p.plane).todo == [] && s.peerCalls p.source p.plane == [] && s.errors == [] && decide s.mem.wf) =
      true := by decide +kernel

/-- Nothing else waits for an answer. -/
def noneWaits (s : State) : Bool :=
  (s.fabric.phase == .normal && s.fabric.out.all (·.sent) || s.fabric.phase == .suspend) && s.service.remaps == [] &&
    s.service.samples == [] && s.service.hostOps == [] && s.launches.all fun L => L.closing.isNone

theorem noneWaits_is {s : State} (h : noneWaits s = true) : s.NoneWaits := by
  simp only [noneWaits, Bool.and_eq_true, Bool.or_eq_true, beq_iff_eq, List.all_eq_true, Option.isNone_iff_eq_none] at h
  obtain ⟨⟨⟨⟨h1, h2⟩, h3⟩, h4⟩, h5⟩ := h
  rcases h1 with ⟨hp, ho⟩ | hp
  · exact ⟨fun _ => ho, by simp [hp], h2, h3, h4, h5⟩
  · exact ⟨by simp [hp], by simp [hp], h2, h3, h4, h5⟩

/-- Answers to a write-back and to a fill. -/
theorem witness_FabricTraffic_replies :
    [Why.back 1, .stale [(1, 0)], .fill 0 ⟨some 7, 0x800000⟩ 0 1 [(1, 0)]].all (fun w =>
      let o : OutPkt := ⟨0, true, w, ⟨1, false, false, 0, 7, 0, 1, 0, 0x40000000, 1, 3, .read 32⟩⟩
      let s := (idle id).modFabric fun f => { f with out := [o] }
      let p := aPacket 8 (.data (List.replicate 32 9))
      p.target == s.devno && !s.fabric.dead.getLsbD p.plane && s.fabric.answered p == some o && noneWaits s &&
        (s.dieAt 0).room ⟨some 7, 0x800000⟩ && decide (0 < s.dies.length)) = true := by decide +kernel

/-- A caldera with room for a peer's call, and one whose 512 entries are taken. -/
theorem witness_FabricTraffic_calls :
    (let p := aPacket 3 (.call [⟨0, 4, 2, 1, 0, []⟩] false)
     let full := (idle id).modDie aRequest.die fun d => { d with buffer := [{ aRequest with entries := List.replicate 512 default }] }
     (idle id).callFits p && decide ((idle id).entriesRoom ⟨none, p.addr / 128⟩ 1) && !full.callFits p && packetAsks p &&
       (full.fabric.recv p.source p.plane).todo == [] && full.peerCalls p.source p.plane == []) = true := by decide +kernel

/-- A piece whose area lies in two pages. -/
def landingPiece (full : Bool) : Piece := ⟨5, 0, [(0, 0x40001000), (128, 0x50002000)], 4, 2, 16, 2, 0, 0, [1, 0, 0, 0], 2, full⟩

/-- A piece of a contribution of one block, which its switch accepts; and one that joins its block, not last and last. -/
theorem witness_FabricTraffic_pieces :
    (let q : Piece := ⟨5, 7, [(0, 0)], 4, 2, 16, 2, 0, 0, [1, 0, 0, 0], 1, false⟩
     let o : OutPkt := ⟨4, true, .piece probeKey 3 false, ⟨4, false, false, 0, 7, 0, 1, 0, 0, 1, 3, .piece q⟩⟩
     [0, 2].all fun n => [[o], [o, { o with id := 5 }]].all fun out =>
       let s := (idle (withCmds [{ runsBody (.copy { zeroCopy with op := 3 }) with n := n }])).modFabric fun f =>
         { f with out := out }
       decide (zeroCopy.count ≤ n) == (n == 2) && lone s 3 && (s.cmdBySeq probeKey 3).any (fun c => c.tag == 3 && c.st == .running) && o.offered == some (probeKey, 3, q) &&
         s.fabric.out.find? (fun o => o.id == 4 && o.pkt.plane == 3 && o.offered.isSome) == some o) = true ∧
    (let p : Piece := ⟨5, 0, [(0, 0)], 4, 2, 16, 2, 0, 0, [1, 0, 0, 0], 1, false⟩
     let plane := planeOf [0, 1, 2, 3, 4, 5, 6, 7] 0 0
     [0, 1].all fun n =>
       let e : CombEntry := { CombEntry.start p with blocks := [⟨0, 0, [7], n⟩] }
       let s := (idle id).modFabric fun f => { f with switches := f.switches.set plane ⟨[e], []⟩ }
       s.fabric.out == [] && (s.fabric.switches[plane]?).any (fun x => (aget? x.loose 5).isNone &&
         x.entries.find? (fun y => y.tag == 5) == some e && e.fits p) && decide (plane < 8) && decide (n < e.expect)) = true ∧
    (let s := idle id
     [true, false].all fun full => let p := landingPiece full
       p.target == s.devno && s.errors == [] && decide s.mem.wf && noneWaits s &&
         decide (p.first + p.data.length ≤ landingOff p.nb) &&
         s.mem.readNat (areaDpa p.pages (landingOff p.nb) + 4) 4 == 0) = true := by decide +kernel

/-- No two offsets of its area share a place, and its landing word lies in one of the two pages. -/
theorem witness_FabricTraffic_landing :
    (∀ a b, a < 2 ^ 56 → b < 2 ^ 56 →
      areaDpa (landingPiece true).pages (a % 2 ^ 56) = areaDpa (landingPiece true).pages (b % 2 ^ 56) → a = b) ∧
      ∀ j, j < 8 →
        areaDpa (landingPiece true).pages ((landingOff 4 + j) % 2 ^ 56) = areaDpa (landingPiece true).pages (landingOff 4) + j := by
  have at' (n : Nat) : areaDpa (landingPiece true).pages n = if n < 128 then 0x40001000 + n else 0x50002000 + (n - 128) := by
    show (if n < 128 then 0x40001000 + (n - 0) else 0x50002000 + (n - 128)) = _
    rw [Nat.sub_zero]
  have word : landingOff 4 = 128 := rfl
  simp only [at', word]
  refine ⟨fun a b ha hb => ?_, fun j _ => ?_⟩
  · rw [Nat.mod_eq_of_lt ha, Nat.mod_eq_of_lt hb]
    split <;> split <;> omega
  · rw [Nat.mod_eq_of_lt (by omega), if_neg (by omega), if_neg (by omega)]
    omega

/-- A link with a flit to acknowledge, one of whose lanes may have failed, and whose last NAK may have been the 15th. -/
def linked (failed : Nat) (nak : Option (BitVec 12 × Nat)) : State :=
  (idle id).modFabric fun f => { f with links := f.links.set 4 { Link.reset with
    failed := failed, nak := nak, replay := [(7, ⟨1, 0, 8, 0, [], 0⟩), (7, ⟨1, 0, 9, 0, [], 0⟩)] } }

theorem witness_Links :
    [linked 0 none, linked 0 (some (9, 14)), linked 0 (some (9, 15)), linked 1 none].all (fun s =>
      decide (s.fabric.links.length = 32) && (s.fabric.link 4).up && !(s.fabric.link 4).training && !s.fabric.dead.getLsbD 1 &&
        (s.fabric.link 4).replay.map (·.2.lseq) == [8, 9]) = true ∧
    (linked 0 (some (9, 15))).fabric.links[4]?.map (·.nak) = some (some (9, 15)) ∧
    (linked 1 none).fabric.links[4]?.map (·.failed) = some 1 ∧
    (let f : Flit := ⟨1, 0, 0, 0, [3], 0⟩
     [{ f with crc := crc32 (flitBody f) }, f, { f with lseq := 1, crc := crc32 (flitBody { f with lseq := 1 }) }].map
       (fun g => (decide (g.crc = crc32 (flitBody g)), decide (g.lseq = (linked 0 none).fabric.links[5]!.expect))) =
       [(true, true), (false, true), (true, false)]) := by decide +kernel

/-- A link that retrains, one that discards, the last link of a plane, and a plane that is dead. -/
theorem witness_Links_down :
    (let s := (idle id).modFabric fun f => { f with links := f.links.set 4 { Link.reset with training := true, skip := true } }
     (s.fabric.link 4).training && (s.fabric.link 4).skip && (s.fabric.link 4).up) = true ∧
    (let s := (linked 1 none).modFabric fun f => { f with
       links := ((f.links.set 5 { Link.reset with up := false }).set 6 { Link.reset with up := false }).set 7
         { Link.reset with up := false } }
     (s.fabric.link 4).up && (s.fabric.link 4).failed != 0 && [1, 2, 3].all (fun j => !(s.fabric.link (4 + j)).up) &&
       s.fabric.links.length == 32) = true ∧
    (let s := (idle id).modFabric fun f => { f with links := f.links.set 5 { Link.reset with skip := true } }
     let f : Flit := ⟨1, 0, 1, 0, [3], 0⟩
     let g := { f with crc := crc32 (flitBody f) }
     g.crc == crc32 (flitBody g) && g.lseq != (s.fabric.link 5).expect && (s.fabric.link 5).skip) = true ∧
    ((idle id).modFabric fun f => { f with dead := 2 }).fabric.dead.getLsbD 1 = true := by decide +kernel

/-- A device that calves in a state of its own: which phase, and the reports that it has. -/
def calving (phase : CalvePhase) (reports : List Report) : State :=
  (idle id).modFabric fun f => { f with phase := phase, calved := [⟨2, 3, 1, [0, 1, 2, 3, 4, 5, 6, 7]⟩], dead := 3, reports := reports }

theorem witness_Calving :
    (calving .normal []).fabric.begun = 2 ∧ (calving .normal []).fabric.calved.head? = some ⟨2, 3, 1, [0, 1, 2, 3, 4, 5, 6, 7]⟩ ∧
    (7 : BitVec 8) &&& ~~~3 ≠ 0 ∧ (calving .suspend []).fabric.dead ≠ 0xFF ∧
    [CalvePhase.suspend, .report, .install].all (fun φ =>
      let s := calving φ []
      s.service.samples == [] && s.service.remaps == [] && s.service.hostOps == [] &&
        s.launches.all (fun L => L.closing.isNone) && s.fabric.out == [] && s.fabric.recvs == [] && (φ != .suspend || noneWaits s)) = true ∧
    (let p : Packet := ⟨2, false, false, 7, 0, 1, 9, 0, 0x40000000, 1, 1, .write [(0, 5)] []⟩
     let r : RecvPath := ⟨7, 1, 3, 32, [p], []⟩
     let s := (calving .suspend []).modFabric fun f => { f with recvs := [r] }
     !r.reached p.pseq && s.fabric.dead.getLsbD r.plane && r.todo == [p] && s.peerCalls 7 1 == [] && s.errors == [] &&
       decide s.mem.wf) = true ∧
    [false, true].all (fun relaxed =>
      let o : OutPkt := ⟨0, true, .back 1, ⟨2, relaxed, false, 0, 0, 0, 0, 0, 0x40000000, 1, 1, .write [] []⟩⟩
      let s := (calving .report []).modFabric fun f => { f with out := [o, { o with id := 1, sent := false }] }
      decide (s.fabric.out.map (·.id)).Nodup && o.pkt.target == s.devno && decide (o.pkt.plane < 8) &&
        s.fabric.deadNow.getLsbD o.pkt.plane) = true := by
  decide +kernel

/-- Whatever other devices there are, their reports are complete once each has reported on both dead planes; and with a
device that has reported on none they are not, nor have all sent DONE. -/
theorem witness_Calving_reports :
    (∀ w, State.allReported (calving .report (((calving .report []).others.flatMap fun d => [⟨2, d, 0, 0, 0⟩, ⟨2, d, 1, 0, 0⟩]) ++ w)) = true) ∧
    ∀ φ, ∀ d ∈ (calving φ []).others, State.allReported (calving φ []) = false ∧ State.allDone (calving φ []) = false := by
  have h3 : planesOf 3 = [0, 1] := by decide
  have hp : ∀ φ r, planesOf (calving φ r).fabric.deadNow = [0, 1] := fun φ r => h3
  refine ⟨fun w => ?_, fun φ d hd => ⟨?_, ?_⟩⟩
  · simp only [State.allReported, hp, List.all_eq_true, List.any_eq_true]
    intro d hd p hp
    refine ⟨⟨2, d, p, 0, 0⟩, List.mem_filter.mpr ⟨?_, by rfl⟩, by simp⟩
    refine List.mem_append_left _ (List.mem_flatMap.mpr ⟨d, hd, ?_⟩)
    rcases List.mem_cons.mp hp with rfl | h
    · simp
    · simp [List.mem_singleton.mp h]
  · simp only [State.allReported, hp]
    refine List.all_eq_false.mpr ⟨d, hd, ?_⟩
    simp [calving, State.modFabric, Fabric.current]
  · exact List.all_eq_false.mpr ⟨d, hd, by simp [show (calving φ []).fabric.dones = [] from rfl]⟩

/-- A generation's map, a report that comes before its generation, a device that is missing, and a calving whose last DONE
has come. -/
theorem witness_Calving_rest :
    (calving .suspend []).fabric.calved.find? (fun c => c.gen == 2) = some ⟨2, 3, 1, [0, 1, 2, 3, 4, 5, 6, 7]⟩ ∧
    (calving .suspend []).fabric.begun = 2 ∧ (calving .suspend []).fabric.reports = [] ∧
    (calving .suspend []).fabric.phase ≠ .report ∧ (calving .suspend []).fabric.phase ≠ .install ∧
    (let m (missing removed : List Nat) : State := { calving .suspend [] with
       teams := [], fabric := { (calving .suspend []).fabric with missing := missing, removed := removed } }
     noneWaits (m [9] []) && [([], []), ([9], []), ([9], [9])].all fun p =>
       (m p.1 p.2).fabric.missing == p.1 && (m p.1 p.2).fabric.removed == p.2) = true ∧
    ∀ l, State.allDone ((calving .install []).modFabric fun f => { f with
      dones := (calving .install []).others.map (fun d => (2, d)) ++ l }) = true := by
  refine ⟨by decide +kernel, by decide +kernel, by decide +kernel, by decide +kernel, by decide +kernel, by decide +kernel,
    fun l => ?_⟩
  refine List.all_eq_true.mpr fun d hd => ?_
  rw [List.contains_iff_mem]
  exact List.mem_append_left _ (List.mem_map.mpr ⟨d, hd, rfl⟩)

/-! ### Hypotheses met: the host and the device as a whole -/

def q0 : Rq := ⟨1, 1023, 0xFFFF⟩

/-- A port whose window is open for one more frame, one with a message in part, and one with a frame to acknowledge. -/
theorem witness_Transport :
    (let f : Frame := mkFrame ⟨1, 4, false, []⟩ 0 0
     let p : Port := { Port.reset with expect := 0xFFFF, next := 63, unacked := (List.range 63).map fun n => (BitVec.ofNat 16 n, f) }
     let s : State := { idle id with ports := [Port.reset, p] }
     s.ports[q0.port]? == some p && p.queue == [] && decide (p.unacked.length < 64) &&
       decide (((64 - 0 : BitVec 16) - 1).toNat ≤ p.unacked.length)) = true ∧
    (let p : Port := { Port.reset with parts := [⟨1, 4, 0xFFFF, [1, 2]⟩] }
     p.unacked == [] && (p.parts.find? fun x => x.stream == 1).isSome) = true ∧
    (readMessage ⟨0, 1, 0⟩ 4 (leBytes 4 0 ++ [1, 0, 0, 0, 0, 0, 0, 0] ++ leBytes 8 64 ++ leBytes 4 16 ++ leBytes 4 0)).isSome =
      true ∧
    (mkFrame ⟨1, 0, false, []⟩ 3 4).etherType = 0x88B5 ∧ (idle id).service.loader = false ∧ (idle id).contexts ≠ [] ∧
    State.reset.contexts = [] := by decide +kernel

/-- HELLO frames that query, select and are unreadable; a stream that waits; and frames that are too long, of another type, and
for a loader. -/
theorem witness_Transport_hello :
    (let pay (sub : Nat) (n : Nat) : List Byte := leBytes 4 0 ++ leBytes 4 sub ++ leBytes 2 1000 ++ List.replicate n 0
     (readHello q0 0 (pay 0 2) == some (.helloQuery q0 1000)) && (readHello q0 1 (pay 1 40)).isSome &&
       (readHello q0 2 (pay 2 40)).isNone && [pay 0 2, pay 1 40, pay 2 40].zipIdx.all fun p => leNat ((p.1.drop 4).take 2) == p.2) =
       true ∧
    (let s : State := { idle id with inbox := [.act (.clearMonitors q0)] }
     (s.inbox.any fun m => m.stream == 1023) && (idle id).inbox == [] && (idle id).busyStreams == []) = true ∧
    9198 < (List.replicate 9199 (0 : Byte)).length ∧ (0x0800 : BitVec 16) ≠ 0x88B5 ∧
    ({ idle id with service := { (idle id).service with loader := true } } : State).service.loader = true := by decide +kernel

/-- A stream that a port carries; whichever the next EVENT's is. -/
theorem witness_Transport_streams :
    let s : State := { idle id with service := { (idle id).service with streamPorts := [((idle id).eventStream, 1)] } }
    aget? s.service.streamPorts s.eventStream = some 1 := by
  simp [aget?, State.eventStream]

/-- Nothing is under way that a change of mappings waits for. -/
def quiet (s : State) : Bool :=
  s.transit == [] && s.cores.all (fun k => k.wq == []) && s.dies.all (fun d => d.l2 == [] && d.buffer == []) &&
    s.fabric.out == [] && s.service.remaps == [] && s.service.samples == [] && s.errors == []

theorem quiet_is {s : State} (h : quiet s = true) : s.Quiet := by
  simp only [quiet, Bool.and_eq_true, beq_iff_eq, List.all_eq_true] at h
  obtain ⟨⟨⟨⟨⟨⟨h1, h2⟩, h3⟩, h4⟩, h5⟩, h6⟩, h7⟩ := h
  exact ⟨h1, h2, h3, h4, h5, h6, h7⟩

/-- Numbers and roots at their limits; a context in use and one that is not; a legal method table and a bad one. -/
theorem witness_Contexts :
    [1, 255].all (fun n => (State.reset.context? n).isNone && dpaPopulated (0x1800000000 - 0x100000) &&
      (0x1800000000 - 0x100000) % 2 ^ 20 == 0 && ringOk 0 0 && ringOk (0xFFFFFFFFFFF000) 20) = true ∧
    dpaPopulated 0x1800000000 = false ∧ ringOk 1 6 = false ∧ ringOk 0x1000 5 = false ∧
    (idle id).teams.all (fun T => T.image.isNone) = true ∧
    ((idle id).context? 1).isSome = true ∧ (idle id).launches.any (fun L => L.ctx == 1) = true ∧
    (let s : State := { idle id with launches := [], teams := [] }
     quiet s && s.launches == [] && (s.context? 1).isSome) = true ∧
    (let good : MethodEntry := ⟨0, 16, 1, List.replicate 51 0⟩
     let none' : MethodEntry := ⟨0, 0, 0, List.replicate 51 0⟩
     let bad : MethodEntry := ⟨2 ^ 40, 16, 1, List.replicate 51 0⟩
     let s : State := { idle id with features := 1 }
     let table (m : MethodEntry) : List MethodEntry := m :: List.replicate 31 none'
     (s.badMethod 1 (table good)).isNone && s.badMethod 1 (table bad) == some 0 && s.features.getLsbD 0 &&
       s.service.hostOps == [] && s.fabric.out == [] && (table bad).length == 32) = true := by decide +kernel

/-- A range within a page, one past the mapped memory, and mappings that are new, present and of another size. -/
theorem witness_HostMemory :
    (let s := idle id
     let ok (va : Nat) (a : Access) : Bool := (s.homePieces 1 va 200 a).2 == none && (s.homePieces 1 va 200 a).1.all fun p => p.place.dev.isNone
     [Access.read, .write].all (fun a => ok 0 a && ok (2 ^ 30 - 200) a && !ok (2 ^ 30 - 199) a) && s.service.hostOps == [] &&
       s.fabric.out == [] && s.errors == [] && decide s.mem.wf && s.service.monitors.length == 66) = true ∧
    (let s := idle id
     let held (l : List LeafReq) : State :=
       { s with service := { s.service with remaps := [⟨1, q0, 5, 1, [], false, l, false, false⟩] } }
     (held [⟨2 ^ 30, 2, 0x8000003F⟩]).mapping 1 && !(held []).mapping 1 && quiet s && decide s.mem.wf && s.teams.all (fun T => T.image.isNone) && !s.mapping 1 && (s.context? 1).any fun x =>
       rangeOk 2 1 (2 ^ 30) && leavesOk 2 1 0x8000003F && s.sizesOk x 2 1 (2 ^ 30) && (s.mappedPages x 2 1 0).length == 1 &&
         (s.mappedPages x 2 1 (2 ^ 30)).length == 0 && !s.sizesOk x 1 1 (2 ^ 21) && !rangeOk 3 1 0 && !leavesOk 2 1 0x8000003E &&
         (findEntry s.mem 4 1 0 x.root 0).isSome && x.setOk 0x8000003F && dpaPopulated (entryAt x.root 0 (2 ^ 30)) &&
         x.root + 2 ^ 20 ≤ frameAddr s.service.nextFrame && decide (frameAddr (s.service.nextFrame + 3) ≤ 0xF7FF000000)) = true ∧
    (let s := idle id
     let s : State := { s with mem := [] }
     (s.context? 1).any fun x => !entryBit (s.mem.readNat (entryAt x.root 0 0) 8) 0) = true := by decide +kernel

/-- A GiB at 2^30 to map with zeroing, of whose level there is a table. -/
theorem witness_HostMemory_zeroing :
    (let s := idle id
     (s.hostContext? 1).any fun x => rangeOk 2 1 (2 ^ 30) && leavesOk 2 1 0x8000003F && s.sizesOk x 2 1 (2 ^ 30) &&
       s.mappedPages x 2 1 (2 ^ 30) == [] && s.teams.all (fun T => T.image.isNone) && s.service.remaps == [] && s.errors == [] && decide s.mem.wf && decide s.Whole &&
       entryStripe 0x8000003F == 0 && entryAddr 0x8000003F == 0x80000000 && pageBytes 2 == 2 ^ 30 &&
       (findEntry (s.mem.clear 0x80000000 (2 ^ 30)) 4 (pageLevel 2) 0 x.root (2 ^ 30)).isSome) = true := by decide +kernel

/-- A record of one team of 32 threads, and what makes one invalid, denied or too large. -/
theorem witness_Launches :
    let bytes (l : List (Nat × Nat)) : List Byte := Memory.read ((l ++ [(16, 0x00010001)]).foldl (fun (m : Memory) (x : Nat × Nat) => m.writeNat x.1 4 x.2) []) 0 128
    let valid (b : List Byte) : Bool :=
      let r := readRecord b []
      recordReservedOk b && r.shapeOk && r.partsOk && r.profileOk && paramsOk b [] r && ((idle id).context? 1).any fun x => sampleRingOk x r
    let s := idle id
    let small := bytes [(8, 0x00010120), (12, 8), (20, 0x00010001)]
    let gated := bytes [(8, 0x00010120), (12, 8), (20, 0x01010001)]
    let large := bytes [(8, 0x00200180), (12, 512), (20, 0x00010001)]
    valid small = true ∧ s.deniesLaunch (readRecord small []) = false ∧ fitsDevice (readRecord small []) = true ∧
    valid (bytes [(20, 0x00010001)]) = false ∧ valid gated = true ∧ s.deniesLaunch (readRecord gated []) = true ∧
    valid large = true ∧ s.deniesLaunch (readRecord large []) = false ∧ fitsDevice (readRecord large []) = false ∧
    (s.launch? s.service.nextLaunch).isSome = true ∧ s.launch? (nextNumber s.service.nextLaunch) = none ∧
    State.reset.launch? State.reset.service.nextLaunch = none := by decide +kernel

/-- A launch to end, a halted team with each kind of section, and dumps that can and cannot be written. -/
theorem witness_LaunchControl :
    (let s := idle id
     (s.launch? 1).any fun L => !L.ended && s.fabric.dead != 0xFF && s.teams.all fun T => T.cmds == []) = true ∧
    (let s := idle fun T => { T with halted := true }
     (s.launch? 1).any fun L => (s.team? ⟨1, 0⟩).any fun T => T.halted && !L.ended && T.live != [] &&
       4 * ((List.range L.rcd.threads).map L.rcd.budgetOf).sum == 65536 && decide (L.rcd.scratch ≤ L.rcd.scratchAlloc)) = true ∧
    (let s := idle id
     decide s.mem.wf && s.service.hostOps == [] && (s.launch? 1).any fun L =>
       (s.homePlace L.ctx 0 .write).any (fun w => w.dev.isNone) && (s.homePlace L.ctx (2 ^ 30) .write).isNone) = true ∧
    decide State.reset.service.staging.wf = true := by decide +kernel

/-- Sections of each kind, of the lengths that a halted team's have; a launch to end with no plane left; and a dump without
teams. -/
theorem witness_LaunchControl_sections :
    (let s := idle fun T => { T with halted := true }
     (s.launch? 1).any fun L => (s.team? ⟨1, 0⟩).any fun T => T.halted && !L.ended && T.live != [] &&
       [(1, 4096 + L.rcd.groups * 136), (2, L.rcd.threads * 256), (4, L.rcd.scratchAlloc + bitmapBytes L.rcd.scratchAlloc),
         (6, 65536), (7, 3 * (128 + L.rcd.stack))].all fun p => sectionOk L.rcd T ⟨p.1, 0, List.replicate p.2 0⟩) = true ∧
    (let s := (idle id).modFabric fun f => { f with dead := 0xFF }
     s.fabric.dead == 0xFF && (s.launch? 1).any fun L => !L.ended && s.teams.all fun T => T.cmds == []) = true ∧
    (let s : State := { idle id with teams := [] }
     s.service.hostOps == [] && s.fabric.out == [] && s.errors == [] && decide s.mem.wf && (s.launch? 1).any fun L =>
       s.dumpRecords L == [] && (s.homePlace L.ctx 0 .write).any fun w => w.dev.isNone) = true ∧
    State.reset.service.keysUsed < 2 ^ 30 := by decide +kernel

/-- Places where an error can arise, and some that are none; a core with one hard error; and service cores. -/
theorem witness_DeviceEvents :
    [ErrLoc.hbm 0x2FFFFFFF, .scratch probeKey 0, .tile probeKey 31, .reg probeKey 31 511].all (idle id).errPlace = true ∧
    [ErrLoc.hbm 0x30000000, .l2 1 ⟨none, 0⟩ 0, .reg probeKey 32 0, .reg probeKey 0 512].any (idle id).errPlace = false ∧
    (ErrLoc.l2 0 ⟨none, 0⟩ 0 |> (idle id).errPlace) = true ∧
    (∀ x ∈ (idle id).service.usedSpares ++ (idle id).service.dueSpares,
      ¬(x.kind = 2 ∧ x.die = 0 ∧ x.index / 16 = homeSlice 0)) ∧
    (Spare.mk 2 0 (16 * homeSlice 0)).index / 16 = homeSlice 0 ∧ (idle id).committing = none ∧ ((idle id).service.errorsOf 0).hard = 0 ∧ (idle id).service.taken 1 0 = 0 ∧
    7 ∉ (idle id).service.retired ∧ dpaPopulated (0x2FFFFFFF * 128) = true := by decide +kernel

/-- Turns of each kind at the head of the agenda. -/
theorem witness_StepRunsDecoded :
    (let s := probe (.nop h0) [0] id
     s.agenda == [.slice 0 0] && s.service.running && !s.service.loader && s.cur?.isSome &&
       (s.cur?.any fun c => (decodeWord c.word).toOption == some (.nop h0))) = true ∧
    (let s := State.withFetchWord State.reset 64 0
     State.cur? { s with focus := (0, 0) } |>.any fun c => (decodeWord c.word).toOption.isNone) = true ∧
    (State.reset.sliceAt 0 0).bundle = none ∧
    (let s : State := { State.reset with agenda := [.host], inbox := [.act (.clearMonitors q0)] }
     (State.nextMessage { s with agenda := [] }).isSome) = true ∧
    [HostMsg.hello (.helloSelect q0 1 0 0 0), .unread q0 6 (List.replicate 9 1)].all (fun m =>
      (State.nextMessage { State.reset with inbox := [m] }).any fun r => r.1 == m) = true ∧
    (Instr.sliceCycle 0).isWord = false ∧ State.reset.agenda = [] := by decide +kernel

/-- The states after reset and with a word to run meet the invariants that every step keeps. -/
theorem witness_Invariants :
    State.reset.Canonical ∧ State.reset.Ascending ∧ State.reset.Whole ∧ (idle id).Canonical ∧ (idle id).Whole := by
  decide +kernel

/-- A well-formed word of each kind of operand for the round trip, and a magnitude for each clause of rounding. -/
theorem witness_Encoding :
    [.iadd h0 .s32 true (.v 511) (.k1 28) (.k1 0), .movi { h0 with retain := 3, la := 15, ctr := 7 } 0xFFFFFFFF (.v 0),
      .bra { h0 with psel := 6, pneg := true } 0x3FFFFFFF].all (fun i => i.isWord && i.wf && (encode i).isSome) = true ∧
    (fp32.round .rne false 0x1FFFFFF (-150)).inexact = true ∧ fp32.overflows (fp32.round .rup false 1 200).n (fp32.round .rup false 1 200).q = true ∧
    (fp16.decode 0x7C00).isNaN = false ∧ scaled false 3 0 (-160) = 3 * 2 ^ 160 ∧
    [fp64, fp32, fp16, bf16, e4m3, e5m2, e2m1].all (fun f =>
      f.overflows (f.round .rne false 1 2000).n (f.round .rne false 1 2000).q &&
        !f.overflows (f.round .rne true 1 0).n (f.round .rne true 1 0).q) = true := by decide +kernel

/-! ### The manual's worked examples -/

/-- A register of a thread after the word has been executed. -/
def regAfter (s : State) (t n : Nat) : Option Word :=
  match step s with
  | .next s' => (s'.thread? probeKey t).map fun th => sget 0 th.regs n
  | _ => none

/-- What a thread's field is after the word has been executed. -/
def after {α : Type} (s : State) (f : State → α) : Option α :=
  match step s with
  | .next s' => some (f s')
  | _ => none

/-- Table 08.1: NaNs, infinities, ties at the top and subnormal results, saturating and not. -/
theorem test_corner_conversions :
    let c (x : Nat) (f : FFmt) (sat : Bool) : Nat × BitVec 5 :=
      let r := convertFlt f .rne sat (fp32.decode x)
      (r.bits, r.flags)
    c 0x7FC00000 fp16 true = (0x7E00, 0) ∧ c 0x7FC00000 e2m1 true = (0, fNV) ∧ c 0x7F800001 e4m3 true = (0x7F, fNV) ∧
    c 0x7F800000 fp16 true = (0x7BFF, fNX) ∧ c 0x7F800000 fp16 false = (0x7C00, 0) ∧ c 0xFF800000 e4m3 true = (0xFE, fNX) ∧
    c 0xFF800000 e4m3 false = (0x7F, fNV) ∧ c 0x7F800000 e2m1 false = (7, fNV) ∧ c 0x477FF000 fp16 true = (0x7BFF, fOF ||| fNX) ∧
    c 0x477FF000 fp16 false = (0x7C00, fOF ||| fNX) ∧ c 0x43E80000 e4m3 false = (0x7E, fNX) ∧
    c 0x43EB0000 e4m3 false = (0x7F, fOF ||| fNX) ∧ c 0x40E00000 e2m1 false = (7, fOF ||| fNX ||| fNV) ∧
    c 0x3B400000 e4m3 true = (2, fUF ||| fNX) ∧ c 0x3E800000 e2m1 true = (0, fUF ||| fNX) ∧ c 1 fp16 true = (0, fUF ||| fNX) := by
  decide +kernel

/-- Table 08.2: elements 0 and 1 over two collectives, by value and residual. -/
theorem test_residuals :
    let once (x r : Nat) : Nat × Nat :=
      let y := (residAdd (fp32.decode x) r).1
      let q := (convertFlt e4m3 .rne true y).bits
      (q, residNew y (e4m3.decode q))
    once 0x43960000 0 = (0x79, 0x41400000) ∧ once 0x43960000 0x41400000 = (0x7A, 0xC1000000) ∧
    once 0x447A0000 0 = (0x7E, 0x440A0000) ∧ once 0x7FC00000 0 = (0x7F, 0) := by decide +kernel

/-- The generator on (3, 1, 5) (R129). -/
theorem test_rngx :
    regAfter (probe (.rngx h0 (.v 4) (.v 1) (.v 2) (.v 3)) [0] (withRegs [(1, 3), (2, 1), (3, 5)])) 0 4 = some 0xECA118C2 := by
  decide +kernel

/-- GRED.fadd of 2^24, 1 and -2^24, the other lanes inactive, gives +0 and NX in each active lane (R201's example). -/
theorem test_gred_fadd :
    let s := probe (.gred { h0 with psel := 2 } (.fadd .rne) (.v 4) (.v 5)) (List.range 32) fun T =>
      { T with threads := T.threads.mapIdx fun i th =>
        { th with
          preds := if i < 3 then 4 else 0
          regs := if i = 0 then [(5, 0x4B800000)] else if i = 1 then [(5, 0x3F800000)] else if i = 2 then [(5, 0xCB800000)] else [] } }
    after s (fun s => [0, 2, 3].map fun t => (s.thread? probeKey t).map fun th => (sget 9 th.regs 4, th.fp)) =
      some [some (9, fNX), some (9, fNX), some (9, 0)] := by decide +kernel

/-- A store past the end is dropped and recorded, and an unaligned load is aligned down (R188). -/
theorem test_out_of_range :
    after (probe (.sts h0 (.ty .n32) .plain 0 (.v 9) (.v 2)) [1] (withRegs [(2, 0x1000), (9, 7)]))
      (fun s => (s.team? probeKey).map fun T => (T.scrinfo, T.scrthread, T.scratch.bytes)) =
      some (some (0xC0001000, 1, [])) ∧
    regAfter (probe (.lds h0 (.ty .n32) 0 (.v 4) (.v 2)) [0] (withWords [(0xFFC, 0x11223344)] ∘ withRegs [(2, 0xFFE)])) 0 4 =
      some 0x11223344 := by decide +kernel

/-- The first SISECT of the manual's intersection: coordinates 3i and 5i, at positions 0. -/
theorem test_sisect :
    let s := probe (.sisect h0 (.v 8) 1 2) [0] fun T =>
      { withWords (((List.range 20).map fun i => (4 * i, 3 * i)) ++ (List.range 20).map fun i => (128 + 4 * i, 5 * i)) T with
        threads := T.threads.map fun th => { th with
          streams := (th.streams.set 1 ⟨true, 0, 0, 20, 0⟩).set 2 ⟨true, 128, 0, 20, 0⟩ } }
    after s (fun s => (s.thread? probeKey 0).map fun th => ([8, 9, 10, 11].map (sget 0 th.regs), (th.stream 1).pos, (th.stream 2).pos)) =
      some (some ([0x02498421, 0x00040A10, 0, 0], 16, 10)) := by decide +kernel

/-- The manual's plane of x = 0x4812345680 to target 9, and the maps of its calving (R355, R371). -/
theorem test_planes :
    planeOf [0, 1, 2, 3, 4, 5, 6, 7] 9 0x4812345680 = 4 ∧
    remap [0, 1, 2, 3, 4, 5, 6, 7] 0x10 1 = [0, 1, 2, 3, 1, 5, 6, 7] ∧
    remap [0, 1, 2, 3, 1, 5, 6, 7] 0x12 2 = [0, 3, 2, 3, 5, 5, 6, 7] := by decide +kernel

/-- IADD saturates and wraps; LOP3 with 0x96 is the exclusive or of three. -/
theorem test_integer :
    regAfter (probe (.iadd h0 .s32 true (.v 4) (.v 1) (.v 2)) [0] (withRegs [(1, 0x7FFFFFFF), (2, 1)])) 0 4 = some 0x7FFFFFFF ∧
    regAfter (probe (.iadd h0 .s32 false (.v 4) (.v 1) (.v 2)) [0] (withRegs [(1, 0x7FFFFFFF), (2, 1)])) 0 4 = some 0x80000000 ∧
    regAfter (probe (.lop3 h0 false 0x96 (.v 7) (.v 5) (.v 6)) [0] (withRegs [(5, 0xFF00), (6, 0x0FF0), (7, 0x1)])) 0 7 =
      some 0xF0F1 := by decide +kernel

/-- 1/3 rounds to nearest and up (R162). -/
theorem test_fdiv :
    regAfter (probe (.fdiv h0 .rne (.v 4) (.v 1) (.v 2)) [0] (withRegs [(1, 0x3F800000), (2, 0x40400000)])) 0 4 = some 0x3EAAAAAB ∧
    regAfter (probe (.fdiv h0 .rz (.v 4) (.v 1) (.v 2)) [0] (withRegs [(1, 0x3F800000), (2, 0x40400000)])) 0 4 = some 0x3EAAAAAA := by
  decide +kernel

/-- A taken branch goes to A + 8 × off, and a thread whose guard is false to the next clause (R172). -/
theorem test_branch :
    after (probe (.bra { h0 with psel := 2 } 3) [0, 1] fun T =>
        { T with threads := T.threads.modify 1 fun th => { th with preds := 4 } })
      (fun s => [0, 1].map fun t => (s.thread? probeKey t).map (·.pc)) = some [some 16, some 24] := by decide +kernel

/-- RET of an empty stack halts the team and writes a trap record of cause 6 (Table 21.1). -/
theorem test_trap :
    after (probe (.ret h0) [0] id) (fun s => ((s.team? probeKey).map (·.halted), s.produced 0,
      s.mem.readNat ((Die.start 0).ringBase + 128 + 1) 1, (s.thread? probeKey 0).map (·.trapped))) =
      some (some true, 1, 6, some (some 0)) := by decide +kernel

/-- A posted zeroing takes tag 0 and its status word reads WAITING. -/
theorem test_post :
    regAfter (roomy (probe (.mzero h0 (.v 4) (.v 2)) [0] (withWords zeroWords ∘ withRegs [(4, 9)]))) 0 4 = some 0 ∧
    after (roomy (probe (.mzero h0 (.v 4) (.v 2)) [0] (withWords zeroWords))) (fun s =>
      (s.team? probeKey).map fun T => (T.statusWord 0, T.tile.claims)) = some (some (0x10000, [(0, 0)])) := by decide +kernel

/-- A copy that a fault's CANCEL(7) has ended reads 0x07040300 (R320's example). -/
theorem test_status_word :
    Team.statusWord ⟨probeKey, none, [], Store.fresh, Store.fresh, [], [], 0,
      [{ aCmd 9 with st := .failed, status := 3, code := 7 }], [], 0, 0, 0, 0, 0, false, 0, false, false, false, false, none, none, [], 0, []⟩ 9 =
      0x07040300 := by decide

/-- An add at home gives the value that it found (R285): the barrier's counter goes from 4 to 3. -/
theorem test_builtin_add :
    (builtin 2 4 4 0xFFFFFFFF 0).new % 2 ^ 32 = 3 ∧ (builtin 2 4 4 0xFFFFFFFF 0).value = 4 := by decide +kernel

/-- A halted team that RESUME lets go on holds no clause that was fetched before (R90). -/
theorem test_resume_fetches :
    (let s := (idle fun T => { T with halted := true }).putFetched 0 0 ⟨1, 0⟩ 0 (.fault 0)
     (s.sliceAt 0 0).fetchedAt ⟨1, 0⟩ 0 == some (.fault 0) &&
     match exec (.launchResume ⟨0, 0, 0⟩ 1 0 []) s with
     | .next s' => (s'.sliceAt 0 0).fetchedAt ⟨1, 0⟩ 0 == none && (s'.team? ⟨1, 0⟩).any fun T => !T.halted
     | _ => false) = true := by decide +kernel

/-! ### The assembler -/

/-- The word of one instruction line at offset 8 of a clause at 0. -/
def asmWordOf (s : String) (syms : List (String × AVal)) : Except Nat DWord :=
  match lexLine 1 s with
  | .ok ts => (parseInstr ts).bind fun i => i.word ⟨⟨syms, .ofSeg (.code 0) 8⟩, .code 0, 0⟩
  | .error e => .error e.rule

def asmGives (s : String) (w : DWord) : Bool := (asmWordOf s []).toOption == some w

/-- The line and rule of a source's error. -/
def asmError (src : List String) : Option (Nat × Nat) :=
  match gytas src with
  | .ok _ => none
  | .error e => some (e.line, e.rule)

def asmHead : List String := [".kernel k", ".width 32", ".role r, groups=1, regs=16", ".team dims=1,1,1"]

/-- Words that the manual works out (Table 04.8, notes on encoding, Tables 09.4, 10.6 and 16.8). -/
theorem test_asm_words :
    asmGives "IADD.s32 v4, v1, v2" 0x00B8080080401000 = true ∧
    asmGives "movi V6, 0x3F80_0000" 0x15B80DFC00000000 = true ∧
    asmGives "MOVI v6, 1.0" 0x15B80DFC00000000 = true ∧
    asmGives "FDIV v5, v1, v2 la=1" 0x29B80A0080400020 = true ∧
    asmGives "LOP3 v7, v5, v6, 0x96" 0x0EB80E0280C4B000 = true ∧
    asmGives "ISET.n32.lt p2, v8, v9" 0x1438040401203002 = true ∧
    asmGives "LDS.n32 v4, v2, 12 ld=k1" 0x7038080100603004 = true ∧
    asmGives "STS.n16 v2, -6, v9" 0x70B812017FA02800 = true ∧
    asmGives "BAR.clus 2" 0x8038000000400001 = true ∧
    asmGives "SISECT v8, f1, f2" 0x92B8100080400000 = true ∧
    asmGives "CFENCE.rel.pkg v9, 0x02" 0xA838120100400000 = true ∧
    asmGives "OCALL.comb v10, v12, v16, v18" 0xA238140602009001 = true ∧
    asmGives "MPOST.2x2 v5, v2" 0xC0380A0100000001 = true := by decide +kernel

/-- The manual's branch three words back (Table 09.4). -/
theorem test_asm_branch :
    (match lexLine 1 "(p2) BRA loop" with
     | .ok ts => ((parseInstr ts).bind fun i => i.word ⟨⟨[("loop", .ofSeg (.code 0) 0)], .ofSeg (.code 0) 40⟩, .code 0, 24⟩).toOption
     | .error _ => none) = some 0xD01001FFFFFFE800 := by decide +kernel

/-- The manual's kernel `demo`: headers, padding, the CALL of offset 0x80, and the template (Table 05.1). -/
theorem test_asm_demo :
    (match gytas [".kernel demo", ".width 32", ".role compute, groups=1, regs=16", ".team dims=1,1,1", ".stack 8",
        "MOVI v4, 0", "MOVI v5, 0x4000_0000 ; v4:v5 = 2.0 in FP64", "CALL twice", "IADD.s32 v1, v1, sr.lane", "EXIT",
        ".align 64", "twice: DADD v6, v4, v4", "RET", ".end"] with
     | .ok ⟨[k], []⟩ =>
       decide ([0, 3, 4, 7, 8, 16].map ((segWords 19 k.code).getD · 0) =
         [2, 0xD138000000008000, 1, 7, 0xD438000000000000, 0x11]) &&
       decide (k.code.length = 0x98) && decide (k.record.width = 32) && decide (k.record.budget0 = 16) &&
       decide (k.record.stack = 8) && k.record.haltLaunch
     | _ => false) = true := by decide +kernel

/-- A gap of 144 bytes is a clause of 128 bytes and one of 16; one of 8 bytes is too short (R107). -/
theorem test_asm_gap :
    padCuts 144 144 = [128, 16] ∧ padCuts 72 72 = [72] ∧ padCuts 400 400 = [136, 136, 128] ∧
    alignCode 64 0x38 = 0x80 ∧ alignCode 64 0x40 = 0x40 := by decide

/-- The manual's format slot, and the offsets of parameter-block fields (R105, R106). -/
theorem test_asm_template :
    ((gytas (asmHead ++ [".slot 0, fmt=n4, group=32, zp=1, place=trail", ".param a, 2", ".param b, 128", ".param c, 1",
        "MOVI v1, b + c", "EXIT", ".end"])).toOption.map fun o => o.kernels.map fun k =>
      (k.record.slots.getD 0 0, k.record.scratch, (segWords 3 k.code).getD 1 0)) =
    some [(0xA8D, 148, 0x15B8020000050000)] := by decide +kernel

/-- A lookahead that reaches a reader, a negated always guard, a code that falls off its end, a label's address in 32
bits and a division by zero name their lines and rules (R83, R92, R104, R108, R96). -/
theorem test_asm_errors :
    asmError (asmHead ++ [".clause class=1", "FDIV v5, v1, v2 la=1", "FMUL v7, v5, v6", "EXIT", ".end"]) = some (6, 83) ∧
    asmError (asmHead ++ ["(!pt) EXIT", ".end"]) = some (5, 92) ∧
    asmError (asmHead ++ ["MOVI v1, 1", ".end"]) = some (6, 104) ∧
    asmError (asmHead ++ ["a: EXIT", ".word a", ".end"]) = some (6, 108) ∧
    asmError (asmHead ++ ["MOVI v1, 4 / (2 - 2)", "EXIT", ".end"]) = some (5, 96) := by decide +kernel

/-- `.` in a launch directive is the statement's offset; a role's keys are separated by commas, and a system register's name
is no label (R95, R96, R105). -/
theorem test_asm_directives :
    ((gytas (asmHead ++ ["t: .word size=8, 0", ".stack . - t", "EXIT", ".end"])).toOption.map fun o =>
      o.kernels.map fun k => k.record.stack) = some [8] ∧
    asmError [".kernel k", ".width 32", ".role r, groups=1 regs=16", ".team dims=1,1,1", "EXIT", ".end"] = some (3, 105) ∧
    asmError (asmHead ++ ["sys.mark: EXIT", ".end"]) = some (5, 95) := by decide +kernel

/-- `*` binds before `+`, which binds before `<<`; `/` truncates toward zero; `>>` is arithmetic (R96). -/
theorem test_asm_expr :
    (["7 + 2 * 3 << 1", "-7 / 2", "-8 >> 1", "-7 % 4", "~0 ^ 6 & 3 | 8", "10 - 4 - 3"].map fun s =>
      match lexLine 1 s with
      | .ok ts => (wholeExpr ts).bind fun e => (e.plain ⟨[], .ofNum 0⟩).toOption
      | .error _ => none) =
    [some 26, some (-3), some (-4), some (-3), some (-3), some 3] := by decide +kernel

/-- A label's address in 8 bytes is relocated; a difference of labels is a number (R108, R110). -/
theorem test_asm_reloc :
    (match gytas (["tab: .word size=8, k, tab + 8"] ++ asmHead ++
        ["a: EXIT", "b: RET", ".word size=8, b, b - a", ".end"]) with
     | .ok ⟨[k], [d]⟩ =>
       decide (k.relocs = [(32, .code 0)]) && decide ((segWords 6 k.code).drop 4 = [0x10, 0x10]) &&
       decide (((k.load (fun _ => 0x1000) 0).1.drop 32).take 2 = [0x10, 0x10]) &&
       decide (d.relocs = [(0, .code 0), (8, .data 0)]) && decide (segWords 2 d.bytes = [0, 8])
     | _ => false) = true := by decide +kernel

/-- The object's header (Table 05.2), and the launch template that the device reads back (Table 25.5). -/
theorem test_asm_object :
    objectHeader 4 8 = [0x47, 0x59, 0x54, 0x4F, 1, 0, 4, 0, 8, 0, 0, 0, 0, 0, 0, 0, 0, 0, 0, 0, 0, 0, 0, 0, 0, 0, 0, 0, 0, 0, 0, 0] ∧
    ((gytas (asmHead ++ [".grid idem=1 priority=2 bar1=r seed=0x1_0000_0002", ".stack 16", "EXIT", ".end"])).toOption.map fun o =>
      (o.features, o.kernels.map fun k => decide (readRecord (k.record.bytes.take 128) (k.record.bytes.drop 128) = k.record))) =
    some (8, [true]) := by decide +kernel

end Sys2Proof.Tests
end

section
/-! PROOFS. What the decoder reads, the encoder writes (R73-R89, Table 04.6): the reader of each field is undone by the
writer of that field, and a field that no reader reads must be zero, so the instruction that a word gives has no other word. -/

namespace Sys2Proof

/-! ### Parts of a field -/

/-- A field is its high part followed by its low part. -/
theorem append_extract_low {n k : Nat} (x : BitVec (n + k)) : x.extractLsb' k n ++ x.extractLsb' 0 k = x := by
  rw [BitVec.extractLsb'_append_extractLsb'_eq_extractLsb' (Nat.zero_add k).symm, BitVec.extractLsb'_eq_self]

theorem zero_append_low {n k : Nat} {x : BitVec (n + k)} (h : x.extractLsb' k n = 0) :
    (0 : BitVec n) ++ x.extractLsb' 0 k = x := by
  rw [← h, append_extract_low]

theorem zero_append_eq_iff {n k : Nat} {x : BitVec (n + k)} {y : BitVec k} :
    (0 : BitVec n) ++ y = x ↔ x.extractLsb' k n = 0 ∧ x.extractLsb' 0 k = y := by
  constructor
  · rintro rfl
    exact ⟨BitVec.extractLsb'_append_eq_left, BitVec.extractLsb'_append_eq_right⟩
  · rintro ⟨h, rfl⟩
    exact zero_append_low h

/-- A bit is written back from its flag. -/
theorem bit_of_flag (x : BitVec 1) : (if x == 1 then 1 else 0 : BitVec 1) = x := by
  revert x; decide

theorem bit_eq_zero {x : BitVec 1} (h : (x == 1) = false) : x = 0 :=
  (BitVec.eq_zero_or_eq_one x).resolve_right (ne_of_beq_false h)

/-- A modifier word is cut at bit 9 and at its type bits 2:0, as ISET, loads and stores have it (R152, R193). -/
theorem append_extract_typed (c : BitVec 10) :
    (c.extractLsb' 9 1 ++ c.extractLsb' 3 6 : BitVec 7) ++ c.extractLsb' 0 3 = c := by
  have htop : (c.extractLsb' 9 1 ++ c.extractLsb' 3 6 : BitVec 7) = c.extractLsb' 3 7 :=
    BitVec.extractLsb'_append_extractLsb'_eq_extractLsb' (len₁ := 6) (len₂ := 1) rfl
  rw [htop, append_extract_low (n := 7) (k := 3)]

/-- Bits 9:3 of a modifier word are its bits 9:6 and its rounding code. -/
theorem extract_rounding (c : BitVec 10) : (c.extractLsb' 6 4 : BitVec 4) ++ c.extractLsb' 3 3 = c.extractLsb' 3 7 :=
  BitVec.extractLsb'_append_extractLsb'_eq_extractLsb' (len₁ := 3) (len₂ := 4) rfl

/-- A modifier word is cut into bit 9, a slot, a rounding code and a type (R80). -/
theorem append_extract_modifier (c : BitVec 10) :
    c.extractLsb' 9 1 ++ c.extractLsb' 6 3 ++ c.extractLsb' 3 3 ++ c.extractLsb' 0 3 = c := by
  have htop : (c.extractLsb' 9 1 ++ c.extractLsb' 6 3 : BitVec 4) = c.extractLsb' 6 4 :=
    BitVec.extractLsb'_append_extractLsb'_eq_extractLsb' (len₁ := 3) (len₂ := 1) rfl
  rw [htop, extract_rounding, append_extract_low (n := 7) (k := 3)]

/-! ### Readers that take every code -/

theorem Opnd.bits_ofBits (x : BitVec 10) : (Opnd.ofBits x).bits = x := by
  have hx : x.extractLsb' 9 1 ++ x.extractLsb' 0 9 = x := append_extract_low (n := 1) (k := 9) x
  unfold Opnd.ofBits
  split
  · next h => rwa [h] at hx
  · next h => rwa [(BitVec.eq_zero_or_eq_one _).resolve_right h] at hx

theorem ITy.bits_ofBits (x : BitVec 3) : (ITy.ofBits x).bits = x := by revert x; decide
theorem ITy.ofBits_bits (t : ITy) : ITy.ofBits t.bits = t := by cases t <;> rfl
theorem FCmp.bits_ofBits (x : BitVec 3) : (FCmp.ofBits x).bits = x := by revert x; decide
theorem POp.bits_ofBits (x : BitVec 3) : (POp.ofBits x).bits = x := by revert x; decide
theorem CvtSrc.bits_ofBits (x : BitVec 3) : (CvtSrc.ofBits x).bits = x := by revert x; decide
theorem ShflMode.bits_ofBits (x : BitVec 2) : (ShflMode.ofBits x).bits = x := by revert x; decide
theorem ScrdSel.bits_ofBits (x : BitVec 2) : (ScrdSel.ofBits x).bits = x := by revert x; decide
theorem Scope.bits_ofBits (x : BitVec 2) : (Scope.ofBits x).bits = x := by revert x; decide
theorem Fusion.bits_ofBits (x : BitVec 2) : (Fusion.ofBits x).bits = x := by revert x; decide
theorem Rnd.mbits_ofM (x : BitVec 2) : (Rnd.ofM x).mbits = x := by revert x; decide
theorem Rnd.wf4_ofM (x : BitVec 2) : (Rnd.ofM x).wf4 = true := by revert x; decide

/-! ### Readers that refuse some codes: what is taken is what the writer writes -/

theorem toOption_eq_some {α : Type} {x : Except Reject α} {y : α} : x.toOption = some y ↔ x = .ok y := by
  cases x <;> simp [Except.toOption]

theorem ICmp.ofBits_eq_ok {x : BitVec 3} {c : ICmp} : ICmp.ofBits x = .ok c ↔ c.bits = x := by
  rw [← toOption_eq_some]; revert x; cases c <;> decide
theorem ClassSrc.ofBits_eq_ok {x : BitVec 2} {c : ClassSrc} : ClassSrc.ofBits x = .ok c ↔ c.bits = x := by
  rw [← toOption_eq_some]; revert x; cases c <;> decide
theorem PackSrc.ofBits_eq_ok {x : BitVec 2} {c : PackSrc} : PackSrc.ofBits x = .ok c ↔ c.bits = x := by
  rw [← toOption_eq_some]; revert x; cases c <;> decide
theorem StMode.ofBits_eq_ok {x : BitVec 2} {c : StMode} : StMode.ofBits x = .ok c ↔ c.bits = x := by
  rw [← toOption_eq_some]; revert x; cases c <;> decide
theorem BarLevel.ofBits_eq_ok {x : BitVec 2} {c : BarLevel} : BarLevel.ofBits x = .ok c ↔ c.bits = x := by
  rw [← toOption_eq_some]; revert x; cases c <;> decide
theorem FenceKind.ofBits_eq_ok {x : BitVec 2} {c : FenceKind} : FenceKind.ofBits x = .ok c ↔ c.bits = x := by
  rw [← toOption_eq_some]; revert x; cases c <;> decide
theorem Rnd.ofBits_three_eq_ok {x : BitVec 3} {r : Rnd} : Rnd.ofBits 3 x = .ok r ↔ r.bits = x ∧ r.wf4 = true := by
  rw [← toOption_eq_some]; revert x; cases r <;> decide
theorem Rnd.ofBits_four_eq_ok {x : BitVec 3} {r : Rnd} : Rnd.ofBits 4 x = .ok r ↔ r.bits = x ∧ r.wf5 = true := by
  rw [← toOption_eq_some]; revert x; cases r <;> decide
theorem Rnd.ofBits_five_eq_ok {x : BitVec 3} {r : Rnd} : Rnd.ofBits 5 x = .ok r ↔ r.bits = x := by
  rw [← toOption_eq_some]; revert x; cases r <;> decide

theorem guard_eq_ok {α : Type} {p : Prop} [Decidable p] {x : Except Reject α} {e : Reject} {y : α} :
    (if p then x else .error e) = .ok y ↔ p ∧ x = .ok y := by
  split <;> simp [*]

theorem map_eq_ok {α β : Type} {x : Except Reject α} {k : α → β} {y : β} :
    x.map k = .ok y ↔ ∃ a, x = .ok a ∧ k a = y := by
  cases x <;> simp [Except.map]

theorem need_eq_ok {b : Bool} {u : Unit} : need b = .ok u ↔ b = true := by
  cases b <;> simp [need]

theorem field3_eq_ok {x : BitVec 10} {p : BitVec 3} : field3 x = .ok p ↔ bits3 p = x := by
  rw [bits3, zero_append_eq_iff (n := 7), field3, guard_eq_ok, Except.ok.injEq]

theorem field2_eq_ok {x : BitVec 10} {p : BitVec 2} : field2 x = .ok p ↔ bits2 p = x := by
  rw [bits2, zero_append_eq_iff (n := 8), field2, guard_eq_ok, Except.ok.injEq]

theorem barNum_eq_ok {l : BarLevel} {x : BitVec 10} {n : BitVec 4} :
    barNum l x = .ok n ↔ (0 : BitVec 6) ++ n = x ∧ n.toNat < l.count := by
  rw [zero_append_eq_iff (n := 6), barNum, guard_eq_ok, Except.ok.injEq, and_assoc, and_assoc]
  exact and_congr_right fun _ => ⟨fun ⟨hn, h⟩ => ⟨h, h ▸ hn⟩, fun ⟨h, hn⟩ => ⟨h.symm ▸ hn, h⟩⟩

theorem MemW.ofBits_bits (w : MemW) : MemW.ofBits w.bits = .ok w := by
  cases w with
  | ty t => cases t <;> rfl
  | b128 => rfl

theorem MemW.bits_of_ofBits {c : BitVec 10} {w : MemW} (h : MemW.ofBits c = .ok w) : w.bits = c := by
  have hc := append_extract_typed c
  unfold MemW.ofBits at h
  split at h
  · cases h
  · next hmid =>
    rw [Decidable.not_not.1 hmid] at hc
    split at h
    · next htop =>
      obtain ⟨hlow, hw⟩ := guard_eq_ok.1 h
      cases hw
      rw [← hc, htop, hlow]
      rfl
    · next htop =>
      cases h
      rw [(BitVec.eq_zero_or_eq_one _).resolve_right htop] at hc
      rw [MemW.bits, ITy.bits_ofBits]
      exact hc

theorem MemW.ofBits_eq_ok {c : BitVec 10} {w : MemW} : MemW.ofBits c = .ok w ↔ w.bits = c :=
  ⟨MemW.bits_of_ofBits, fun h => h ▸ MemW.ofBits_bits w⟩

theorem AIntOp.bits_ofCode {op : BitVec 3} (h : op ≠ 7) : (AIntOp.ofCode op.toNat).bits = op := by
  revert op; decide
theorem AIntOp.ofCode_bits (o : AIntOp) : AIntOp.ofCode o.bits.toNat = o := by cases o <;> rfl
theorem AIntOp.bits_ne_seven (o : AIntOp) : o.bits ≠ 7 := by cases o <;> decide

/-- Code 7 is the floating-point add, with no type; every other code has a type of 32 or 64 bits and no rounding (R194). -/
theorem AOp.bits_of_ofBits {op ty rnd : BitVec 3} {g : AOp} (h : AOp.ofBits op ty rnd = .ok g) :
    g.bits = (op, ty, rnd) ∧ g.wf = true := by
  unfold AOp.ofBits at h
  split at h
  · next h7 =>
    obtain ⟨hty, h⟩ := guard_eq_ok.1 h
    obtain ⟨r, hr, rfl⟩ := map_eq_ok.1 h
    obtain ⟨hrnd, hwf⟩ := Rnd.ofBits_three_eq_ok.1 hr
    exact ⟨by rw [AOp.bits, h7, hty, hrnd], hwf⟩
  · next h7 =>
    obtain ⟨⟨hrnd, hwidth⟩, h⟩ := guard_eq_ok.1 h
    cases h
    exact ⟨by rw [AOp.bits, AIntOp.bits_ofCode h7, ITy.bits_ofBits, hrnd], by simpa [AOp.wf] using hwidth⟩

theorem AOp.ofBits_bits {g : AOp} (h : g.wf = true) : AOp.ofBits g.bits.1 g.bits.2.1 g.bits.2.2 = .ok g := by
  cases g with
  | int o t =>
    have hwidth : t.width = 32 ∨ t.width = 64 := by simpa [AOp.wf] using h
    rw [AOp.bits, AOp.ofBits, if_neg o.bits_ne_seven, AIntOp.ofCode_bits, ITy.ofBits_bits, if_pos ⟨rfl, hwidth⟩]
  | fadd r => simp [AOp.bits, AOp.ofBits, Rnd.ofBits_three_eq_ok.2 ⟨rfl, h⟩, Except.map]

theorem AOp.ofBits_eq_ok {op ty rnd : BitVec 3} {g : AOp} :
    AOp.ofBits op ty rnd = .ok g ↔ g.bits = (op, ty, rnd) ∧ g.wf = true :=
  ⟨AOp.bits_of_ofBits, fun ⟨h, hg⟩ => by simpa only [h] using AOp.ofBits_bits hg⟩

theorem eq_seven_of_toNat_ne {x : BitVec 3} (h0 : x.toNat ≠ 0) (h1 : x.toNat ≠ 1) (h2 : x.toNat ≠ 2) (h3 : x.toNat ≠ 3)
    (h4 : x.toNat ≠ 4) (h5 : x.toNat ≠ 5) (h6 : x.toNat ≠ 6) : x = 7 :=
  BitVec.eq_of_toNat_eq (show x.toNat = 7 by omega)

/-- Code 5 is the floating-point add, with no type; the others have no rounding (Table 10.4). -/
theorem GOp.bits_of_ofBits {op ty rnd : BitVec 3} {g : GOp} (h : GOp.ofBits op ty rnd = .ok g) :
    g.bits = (op, ty, rnd) ∧ g.wf = true := by
  unfold GOp.ofBits at h
  split at h
  case h_6 hop =>
    obtain ⟨hty, h⟩ := guard_eq_ok.1 h
    obtain ⟨r, hr, rfl⟩ := map_eq_ok.1 h
    obtain ⟨hrnd, hwf⟩ := Rnd.ofBits_three_eq_ok.1 hr
    have hop : op = 5 := BitVec.eq_of_toNat_eq hop
    exact ⟨by rw [GOp.bits, hty, hrnd, hop], hwf⟩
  case h_7 hop =>
    obtain ⟨⟨hty, hrnd⟩, h⟩ := guard_eq_ok.1 h
    cases h
    have hop : op = 6 := BitVec.eq_of_toNat_eq hop
    exact ⟨by rw [GOp.bits, hty, hrnd, hop], rfl⟩
  case h_8 h0 h1 h2 h3 h4 h5 h6 =>
    obtain ⟨⟨hty, hrnd⟩, h⟩ := guard_eq_ok.1 h
    cases h
    have hop : op = 7 := eq_seven_of_toNat_ne h0 h1 h2 h3 h4 h5 h6
    exact ⟨by rw [GOp.bits, hty, hrnd, hop], rfl⟩
  all_goals
    obtain ⟨hrnd, h⟩ := guard_eq_ok.1 h
    cases h
    refine ⟨?_, rfl⟩
    rw [GOp.bits, ITy.bits_ofBits, hrnd]
    exact congrArg (·, ty, 0) (BitVec.eq_of_toNat_eq (by simp [*]))

theorem GOp.ofBits_bits {g : GOp} (h : g.wf = true) : GOp.ofBits g.bits.1 g.bits.2.1 g.bits.2.2 = .ok g := by
  cases g with
  | int o t => cases o <;> simp [GOp.bits, GOp.ofBits, ITy.ofBits_bits]
  | fadd r => simp [GOp.bits, GOp.ofBits, Rnd.ofBits_three_eq_ok.2 ⟨rfl, h⟩, Except.map]
  | fmin => rfl
  | fmax => rfl

theorem GOp.ofBits_eq_ok {op ty rnd : BitVec 3} {g : GOp} :
    GOp.ofBits op ty rnd = .ok g ↔ g.bits = (op, ty, rnd) ∧ g.wf = true :=
  ⟨GOp.bits_of_ofBits, fun ⟨h, hg⟩ => by simpa only [h] using GOp.ofBits_bits hg⟩

/-! ### Modifier words and flags, written back -/

theorem mbits_flags (m : BitVec 2) : mbits (m.extractLsb' 1 1 == 1) (m.extractLsb' 0 1 == 1) = m := by
  rw [mbits, bit_of_flag, bit_of_flag, append_extract_low (n := 1) (k := 1)]

theorem mbits_low_flag {m : BitVec 2} (h : (m.extractLsb' 1 1 == 1) = false) :
    mbits false (m.extractLsb' 0 1 == 1) = m := by
  rw [← h, mbits_flags]

theorem cTy_low {c : BitVec 10} (h : c.extractLsb' 3 7 = 0) : cTy (.ofBits (c.extractLsb' 0 3)) = c := by
  rw [cTy, ITy.bits_ofBits, zero_append_low (n := 7) h]

/-- A modifier word that holds a rounding code alone (R156). -/
theorem rounding_alone {c : BitVec 10} (hlo : c.extractLsb' 0 3 = 0) (hhi : c.extractLsb' 6 4 = 0) :
    (0 : BitVec 4) ++ c.extractLsb' 3 3 ++ (0 : BitVec 3) = c := by
  rw [← hlo, ← hhi, extract_rounding, append_extract_low (n := 7) (k := 3)]

theorem cSlot_parts {c : BitVec 10} (hlo : c.extractLsb' 0 3 = 0) :
    cSlot (c.extractLsb' 9 1) (c.extractLsb' 6 3) (c.extractLsb' 3 3) = c := by
  rw [cSlot, ← hlo, append_extract_modifier]

theorem cSlot_slot_rounding {c : BitVec 10} (hlo : c.extractLsb' 0 3 = 0) (h9 : (c.extractLsb' 9 1 == 1) = false) :
    cSlot 0 (c.extractLsb' 6 3) (c.extractLsb' 3 3) = c := by
  rw [← bit_eq_zero h9, cSlot_parts hlo]

theorem cSlot_slot {c : BitVec 10} (hlo : c.extractLsb' 0 6 = 0) (h9 : (c.extractLsb' 9 1 == 1) = false) :
    cSlot 0 (c.extractLsb' 6 3) 0 = c := by
  have hr : (c.extractLsb' 0 6).extractLsb' 3 3 = c.extractLsb' 3 3 := BitVec.extractLsb'_extractLsb'_of_le (by decide)
  have ht : (c.extractLsb' 0 6).extractLsb' 0 3 = c.extractLsb' 0 3 := BitVec.extractLsb'_extractLsb'_of_le (by decide)
  rw [hlo] at hr ht
  rw [show (0 : BitVec 3) = c.extractLsb' 3 3 from hr, cSlot_slot_rounding ht.symm h9]

theorem Fields.pm_high (f : Fields) : f.pm.extractLsb' 2 1 = f.c.extractLsb' 9 1 := BitVec.extractLsb'_append_eq_left

theorem low2_pm (f : Fields) : low2 f.pm = f.m := BitVec.extractLsb'_append_eq_right

theorem cPm_pm {f : Fields} (h : f.c.extractLsb' 0 9 = 0) : cPm f.pm = f.c := by
  rw [cPm, f.pm_high, ← h, append_extract_low (n := 1) (k := 9)]

theorem append_zero_or_zero_append (x : BitVec 1) (y : BitVec 3) :
    x ++ (0 : BitVec 9) ||| (0 : BitVec 7) ++ y = (x ++ (0 : BitVec 6) : BitVec 7) ++ y := by
  revert x y; decide

/-- ISET's modifier word holds pm<2> and a type (R152). -/
theorem cPm_or_cTy {f : Fields} (h : f.c.extractLsb' 3 6 = 0) :
    cPm f.pm ||| cTy (.ofBits (f.c.extractLsb' 0 3)) = f.c := by
  rw [cPm, cTy, f.pm_high, ITy.bits_ofBits, append_zero_or_zero_append, ← h, append_extract_typed]

theorem cOp_pm {f : Fields} (h : f.c.extractLsb' 6 3 = 0) :
    cOp (f.pm, f.c.extractLsb' 0 3, f.c.extractLsb' 3 3) = f.c := by
  rw [cOp, f.pm_high, ← h, append_extract_modifier]

/-- BFX's modifier word is 2 or 6 (R150). -/
theorem bfx_modifier {c : BitVec 10} (h : (c == 2 || c == 6) = true) : (if c == 6 then 6 else 2 : BitVec 10) = c := by
  rcases Bool.or_eq_true_iff.1 h with h | h <;> rw [eq_of_beq h] <;> rfl

/-- GSHFL's width flag stands in bit 9 of the modifier word (R200). -/
theorem bit9_of_flag {c : BitVec 10} (h : c.extractLsb' 0 9 = 0) :
    (if c.extractLsb' 9 1 == 1 then 0x200 else 0 : BitVec 10) = c := by
  have hc : c.extractLsb' 9 1 ++ c.extractLsb' 0 9 = c := append_extract_low (n := 1) (k := 9) c
  rw [h] at hc
  generalize c.extractLsb' 9 1 = x at hc
  subst hc
  revert x; decide

/-- GSCAN's flag stands in bit 0 of the b field (R201). -/
theorem bit0_of_flag {b : BitVec 10} (h : b.extractLsb' 1 9 = 0) :
    (if b.extractLsb' 0 1 == 1 then 1 else 0 : BitVec 10) = b := by
  have hb := zero_append_low (n := 9) h
  generalize b.extractLsb' 0 1 = x at hb
  subst hb
  revert x; decide

/-- LOP3's table and CFENCE's mask are the low 8 bits of a field (R148, R319). -/
theorem zero_append_low8 {x : BitVec 10} (h : x.extractLsb' 8 2 = 0) : (0 : BitVec 2) ++ x.extractLsb' 0 8 = x :=
  zero_append_low (n := 2) h

/-! ### What every result of a decoding step satisfies -/

theorem bind_eq_ok {α β : Type} {x : Except Reject α} {k : α → Except Reject β} {y : β} :
    x >>= k = .ok y ↔ ∃ a, x = .ok a ∧ k a = .ok y := by
  cases x <;> simp [bind, Except.bind]

/-- `P` holds of the instruction that a decoding step gives, if it gives one. -/
def Ensures (r : Except Reject Instr) (P : Instr → Prop) : Prop := ∀ i, r = .ok i → P i

theorem ensures_pure {i : Instr} {P : Instr → Prop} : Ensures (pure i) P ↔ P i := by
  simp [Ensures, pure, Except.pure]

theorem ensures_error {e : Reject} {P : Instr → Prop} : Ensures (.error e) P ↔ True := by
  simp [Ensures]

theorem ensures_bind {α : Type} {x : Except Reject α} {k : α → Except Reject Instr} {P : Instr → Prop} :
    Ensures (x >>= k) P ↔ ∀ a, x = .ok a → Ensures (k a) P := by
  cases x <;> simp [Ensures, bind, Except.bind]

theorem ensures_ite {p : Prop} [Decidable p] {x y : Except Reject Instr} {P : Instr → Prop} :
    Ensures (if p then x else y) P ↔ (p → Ensures x P) ∧ (¬p → Ensures y P) := by
  split <;> simp [*]

/-! ### The arms of the decoder -/

/-- The rules on the header of instruction `i`: the guard, and the counter and lookahead that a transfer, NOP and YIELD do
not take (R74, R84, R179). -/
def Instr.admits (i : Instr) (h : Hdr) : Bool :=
  h.wf && (!i.isTransfer || h.ctr == 0) &&
    match i with
    | .nop _ | .yield _ => h.ctr == 0 && h.la == 0
    | _ => true

/-- Instruction `i` is what the fields `f` say and all that they say; with an admitted header it is well formed. -/
structure Spells (f : Fields) (i : Instr) : Prop where
  fields : encodeFields i = some f
  word : i.isWord = true
  wf : i.admits f.hdr = true → i.wf = true

/-- The opcode and the header are kept, so the fields of a word come back when its five body fields do. -/
theorem mk'_hdr_eq_self {f : Fields} {op : BitVec 9} {d a b c : BitVec 10} {m : BitVec 2} (hop : f.op.toNat = op.toNat)
    (h : d = f.d ∧ a = f.a ∧ b = f.b ∧ c = f.c ∧ m = f.m) : Fields.mk' op f.hdr d a b c m = f := by
  have hp := bit_of_flag f.pneg
  obtain ⟨⟩ := f
  simp_all [Fields.mk', Fields.hdr, BitVec.toNat_inj]

/-- Two different stream fields name two streams (R210). -/
theorem bits3_ne {x y : BitVec 3} {u v : BitVec 10} (h : (u != v) = true) (hx : bits3 x = u) (hy : bits3 y = v) :
    (x != y) = true := by
  subst hx hy
  exact bne_iff_ne.2 fun hxy => bne_iff_ne.1 h (congrArg bits3 hxy)

theorem Instr.guard_of_admits {i : Instr} {h : Hdr} (hi : i.admits h = true) : h.wf = true := by
  simp only [Instr.admits, Bool.and_eq_true] at hi
  obtain ⟨⟨hguard, -⟩, -⟩ := hi
  exact hguard

theorem eq_three_of_toNat_ne {x : BitVec 2} (h0 : x.toNat ≠ 0) (h1 : x.toNat ≠ 1) (h2 : x.toNat ≠ 2) : x = 3 :=
  BitVec.eq_of_toNat_eq (show x.toNat = 3 by omega)

/-- PMOV's direction is m<0>, and the field of the other direction must be zero (R155). -/
theorem pmov_spells {f : Fields} (hop : f.op.toNat = 0x02D) (hc : f.c = 0) (hb : f.b = 0)
    (h1 : (f.m.extractLsb' 1 1 == 1) = false) :
    (f.m.extractLsb' 0 1 = 1 → f.d = 0 → Spells f (.pmov f.hdr (.set (.ofBits f.a)))) ∧
      (¬f.m.extractLsb' 0 1 = 1 → f.a = 0 → Spells f (.pmov f.hdr (.get (.ofBits f.d)))) := by
  have hm := mbits_low_flag h1
  constructor
  · intro h0 hd
    rw [h0] at hm
    exact ⟨congrArg some (mk'_hdr_eq_self hop ⟨hd.symm, Opnd.bits_ofBits _, hb.symm, hc.symm, hm⟩), rfl,
      Instr.guard_of_admits⟩
  · intro h0 ha
    rw [bit_eq_zero (beq_false_of_ne h0)] at hm
    exact ⟨congrArg some (mk'_hdr_eq_self hop ⟨Opnd.bits_ofBits _, ha.symm, hb.symm, hc.symm, hm⟩), rfl,
      Instr.guard_of_admits⟩

/-- GVOTE's form is m; the ballot alone has a register for its destination (R199). -/
theorem gvote_spells {f : Fields} {form : VoteForm} {pa : PCode} {d : BitVec 10} {m : BitVec 2}
    (he : encodeFields (.gvote f.hdr form pa) = some (.mk' 0x0C0 f.hdr d (bits3 pa) 0 0 m))
    (hop : f.op.toNat = 0x0C0) (hc : f.c = 0) (hb : f.b = 0) (ha : bits3 pa = f.a) (hd : d = f.d) (hm : f.m = m) :
    Spells f (.gvote f.hdr form pa) :=
  ⟨he.trans (congrArg some (mk'_hdr_eq_self hop ⟨hd, ha, hb.symm, hc.symm, hm.symm⟩)), rfl, Instr.guard_of_admits⟩

/-- An arm of the decoder gives its instruction under the conditions that it checks (the first `simp only`: each reader's
success says what its field is). Under these, each field that the encoder writes is the field that was read, or is the zero
that was required, and what the entry checks is what makes the instruction well formed. PMOV and GVOTE read a form first;
SISECT and SUNION compare two fields. -/
theorem decodeOp_spells (f : Fields) : Ensures (decodeOp f) (Spells f) := by
  unfold decodeOp
  dsimp only
  split
  all_goals
    simp only [ensures_pure, ensures_error, ensures_bind, ensures_ite, need_eq_ok, field3_eq_ok, field2_eq_ok,
      barNum_eq_ok, MemW.ofBits_eq_ok, GOp.ofBits_eq_ok, AOp.ofBits_eq_ok, ICmp.ofBits_eq_ok, ClassSrc.ofBits_eq_ok,
      PackSrc.ofBits_eq_ok, StMode.ofBits_eq_ok, BarLevel.ofBits_eq_ok, FenceKind.ofBits_eq_ok,
      Rnd.ofBits_three_eq_ok, Rnd.ofBits_four_eq_ok, Rnd.ofBits_five_eq_ok, Bool.and_eq_true, Bool.not_eq_true',
      beq_iff_eq, and_imp, forall_const]
  -- PMOV
  case h_34 hop => exact pmov_spells hop
  -- GVOTE
  case h_68 hop =>
    intro hc hb pa ha
    split <;> simp only [ensures_pure, ensures_bind, field3_eq_ok]
    case h_1 hm | h_2 hm | h_3 hm => exact fun pd hd => gvote_spells rfl hop hc hb ha hd (BitVec.eq_of_toNat_eq hm)
    case h_4 h0 h1 h2 =>
      exact gvote_spells rfl hop hc hb ha (Opnd.bits_ofBits f.d) (eq_three_of_toNat_ne h0 h1 h2)
  -- SISECT and SUNION
  case h_97 hop | h_98 hop =>
    intro hc hm hne fa ha fb hb
    refine ⟨congrArg some (mk'_hdr_eq_self hop ⟨Opnd.bits_ofBits f.d, ha, hb, hc.symm, hm.symm⟩), rfl, fun h => ?_⟩
    exact Bool.and_eq_true_iff.2 ⟨Instr.guard_of_admits h, bits3_ne hne ha hb⟩
  all_goals
    intros
    refine ⟨congrArg some (mk'_hdr_eq_self (by assumption) ?_), rfl, ?_⟩
    · simp only [Opnd.bits_ofBits, FCmp.bits_ofBits, POp.bits_ofBits, CvtSrc.bits_ofBits, ShflMode.bits_ofBits,
        ScrdSel.bits_ofBits, Scope.bits_ofBits, Fusion.bits_ofBits, Rnd.mbits_ofM, mbits_flags, mbits_low_flag,
        cTy_low, cRnd, rounding_alone, cSlot_parts, cSlot_slot_rounding, cSlot_slot, f.pm_high, low2_pm, cPm_pm,
        cPm_or_cTy, cOp_pm, bfx_modifier, bit9_of_flag, bit0_of_flag, zero_append_low8,
        BitVec.extractLsb'_append_eq_right, BitVec.extractLsb'_append_eq_of_le, BitVec.extractLsb'_eq_self,
        Nat.reduceLeDiff, Nat.reduceSub, and_self, *]
    · simp only [Instr.admits, Instr.isTransfer, Instr.wf, Hdr.wfTransfer, Hdr.wfNop, Rnd.wf4_ofM, Bool.and_eq_true,
        Bool.not_true, Bool.not_false, Bool.false_or, Bool.true_or, and_true, decide_true, and_assoc, imp_self, *]

/-! ### The whole word -/

theorem decodeFields_eq_ok {f : Fields} {i : Instr} (h : decodeFields f = .ok i) :
    decodeOp f = .ok i ∧ i.admits f.hdr = true := by
  unfold decodeFields at h
  obtain ⟨j, hj, h⟩ := bind_eq_ok.1 h
  split at h
  · cases h
  · next hguard =>
    have hguard : f.hdr.wf = true := by simpa using hguard
    split at h
    · cases h
    · next hctr =>
      have hctr : (!j.isTransfer || f.hdr.ctr == 0) = true := by
        cases ht : j.isTransfer <;> simp_all [Fields.hdr]
      split at h
      case h_1 | h_2 =>
        obtain ⟨⟨hz, hla⟩, h⟩ := guard_eq_ok.1 h
        cases h
        refine ⟨hj, ?_⟩
        simp [Instr.admits, Instr.isTransfer, hguard, show f.hdr.ctr = 0 from hz, show f.hdr.la = 0 from hla]
      case h_3 hnop hyield =>
        cases h
        refine ⟨hj, ?_⟩
        rw [Instr.admits, hguard, hctr]
        · rfl
        · exact hnop
        · exact hyield

theorem decodeFields_spells {f : Fields} {i : Instr} (h : decodeFields f = .ok i) :
    encodeFields i = some f ∧ i.isWord = true ∧ i.wf = true ∧ f.hdr.wf = true := by
  obtain ⟨hop, hadm⟩ := decodeFields_eq_ok h
  obtain ⟨hf, hword, hwf⟩ := decodeOp_spells f i hop
  exact ⟨hf, hword, hwf hadm, Instr.guard_of_admits hadm⟩

theorem append_extract_next (w : DWord) (s k n : Nat) :
    w.extractLsb' (s + k) n ++ w.extractLsb' s k = w.extractLsb' s (n + k) :=
  BitVec.extractLsb'_append_extractLsb'_eq_extractLsb' rfl

/-- The fields of Table 04.3 are the whole word. -/
theorem Fields.join_split (w : DWord) : (Fields.split w).join = w := by
  rw [Fields.join, Fields.split, append_extract_next w 54 1 9, append_extract_next w 51 3 10,
    append_extract_next w 41 10 13, append_extract_next w 31 10 23, append_extract_next w 21 10 33,
    append_extract_next w 11 10 43, append_extract_next w 9 2 53, append_extract_next w 5 4 55,
    append_extract_next w 2 3 59, append_extract_next w 0 2 62, BitVec.extractLsb'_eq_self]

theorem Fields.split_op_toNat (w : DWord) : (Fields.split w).op.toNat = w.toNat / 2 ^ 55 := by
  rw [Fields.split, BitVec.extractLsb'_toNat, Nat.shiftRight_eq_div_pow]
  omega

/-- A word that is an instruction is the word of that instruction, which is well formed. -/
theorem decodeWord_eq_ok {w : DWord} {i : Instr} (h : decodeWord w = .ok i) :
    i.isWord = true ∧ i.wf = true ∧ encode i = some w ∧ i.opcode = some (w.toNat / 2 ^ 55) := by
  obtain ⟨hf, hword, hwf, -⟩ := decodeFields_spells h
  refine ⟨hword, hwf, ?_, ?_⟩
  · rw [encode, hf, Option.map_some, Fields.join_split]
  · rw [Instr.opcode, hf, Option.map_some, Fields.split_op_toNat]

theorem exists_error_of_ne_ok {α : Type} {r : Except Reject α} (h : ∀ a, r ≠ .ok a) : ∃ e, r = .error e := by
  cases r with
  | ok a => exact absurd rfl (h a)
  | error e => exact ⟨e, rfl⟩

/-- psel = 7 with pneg = 1 is no guard (R74). -/
theorem split_guard_never {w : DWord} (h : w.extractLsb' 51 4 = 0xF) : (Fields.split w).hdr.wf = false := by
  have hw : w.extractLsb' 54 1 ++ w.extractLsb' 51 3 = (1 : BitVec 1) ++ (7 : BitVec 3) :=
    (BitVec.extractLsb'_append_extractLsb'_eq_extractLsb' (len₁ := 3) (len₂ := 1) rfl).trans h
  have hneg := congrArg (BitVec.extractLsb' 3 1) hw
  have hsel := congrArg (BitVec.extractLsb' 0 3) hw
  rw [BitVec.extractLsb'_append_eq_left, BitVec.extractLsb'_append_eq_left] at hneg
  rw [BitVec.extractLsb'_append_eq_right, BitVec.extractLsb'_append_eq_right] at hsel
  rw [Hdr.wf, Fields.hdr, Fields.split, hneg, hsel]
  rfl


/-- Settles O52: an instruction that the decoder gives spells the word's fields (`decodeOp_spells`), so a word whose opcode
no instruction has, or whose guard is never, is refused; the 127 opcodes are read off the encoder. -/
theorem encodeOfDecode : Obligations.EncodeOfDecode := by
  unfold Obligations.EncodeOfDecode
  refine ⟨fun w i => decodeWord_eq_ok, ?opcodes, fun w hw => ?unassigned, fun w hw => ?guard⟩
  case opcodes =>
    intro h t x o p fn icmp imm pop pmov rnd fcmp cls cvt pack vote shfl gop memw off st aop lvl n q sel fence scope fusion
      off30 off20
    cases pmov <;> cases vote <;> exact ⟨rfl, rfl⟩
  case unassigned =>
    refine exists_error_of_ne_ok fun i h => ?_
    obtain ⟨hword, -, -, hop⟩ := decodeWord_eq_ok h
    exact hw i hword hop
  case guard =>
    refine exists_error_of_ne_ok fun i h => ?_
    obtain ⟨-, -, -, hguard⟩ := decodeFields_spells h
    exact Bool.false_ne_true ((split_guard_never hw).symm.trans hguard)

end Sys2Proof
end

section
/-! PROOFS. Words whose active threads replace their checkpoint (R180, R181): the thread after such a word, the whole of
what the word does, and when IDEMBEG is not stopped. -/

namespace Sys2Proof.Machine

/-! ### Words that change their active threads and step on -/

/-- A bundle none of whose members waits has no parked member. -/
theorem Cur.parked_eq_nil {c : Cur} {s : State} {T : Team} (hT : s.team? c.b.team = some T)
    (ha : ∀ t ∈ c.b.threads, ∀ th, T.threads[t]? = some th → th.wait = none) : c.parked s = [] := by
  refine List.filter_eq_nil_iff.2 fun t ht => ?_
  rw [State.thread?, hT, Option.bind_some]
  cases hx : T.threads[t]? with
  | none => simp
  | some th => simp [ha t ht th hx]

theorem Thread.Kept.rested {th th' : Thread} (k : th.Kept th') : th.Rested th' := by
  unfold Thread.Kept at k
  unfold Thread.Rested
  rw [← k]

/-- `acted_spec` for a word that steps on without asking which members wait. -/
theorem acted_step1 {s : State} {i : Instr} {h : Hdr} {c : Cur} (w : Issues s i h c) (F : Team → Team)
    (hF : ∀ T, (F T).key = T.key)
    (ha : ∀ t ∈ c.b.threads, ∀ th, (F c.T).threads[t]? = some th → th.wait = none) :
    ∃ s' T', ((s.clearRegErrors c i h).modTeam c.b.team F).step1 c = s' ∧
      OutsideKept s s' c ∧ MovedOn s' c ∧ s'.team? c.b.team = some T' ∧ { T' with threads := (F c.T).threads } = F c.T ∧
      T'.threads.length = (F c.T).threads.length ∧
      ∀ (t : Nat) (th : Thread), (F c.T).threads[t]? = some th → ∃ th', T'.threads[t]? = some th' ∧ th.Kept th' := by
  obtain ⟨-, -, -, hT, -, -⟩ := State.cur?_eq w.cur
  have hacted : ((s.clearRegErrors c i h).modTeam c.b.team F).team? c.b.team = some (F c.T) := by
    rw [State.team?_modTeam_self _ _ _ hF, State.team?_clearRegErrors, hT, Option.map_some]
  obtain ⟨s', T', hs', hrest⟩ := acted_spec w F hF ha
  dsimp only at hs'
  rw [Cur.parked_eq_nil hacted ha] at hs'
  exact ⟨s', T', hs', hrest⟩

/-- Words that change each active thread by `g`, a function of the team as it was, start no wait and step on. -/
theorem teamWord_onActive {i : Instr} {pre : State → Hdr → Cur → Prop} {post : State → Hdr → Cur → Team → Prop}
    (g : Hdr → Cur → Team → Nat → Thread → Thread)
    (he : ∀ s h c, Issues s i h c → pre s h c → exec i s =
      .next (((s.clearRegErrors c i h).modTeam c.b.team fun T => T.onThreads (c.active h) (g h c T)).step1 c))
    (hw : ∀ h c T t th, (g h c T t th).wait = th.wait)
    (hp : ∀ s h c T', Issues s i h c → s.Canonical → { T' with threads := c.T.threads } = c.T →
      (∀ t th, c.T.threads[t]? = some th → t ∈ c.active h →
        ∃ th', T'.threads[t]? = some th' ∧ (g h c c.T t th).Kept th') → post s h c T') : TeamWord i pre post := by
  intro s h c w hcan _ haw hpre
  have hget (t : Nat) : (c.T.onThreads (c.active h) (g h c c.T)).threads[t]? =
      (c.T.threads[t]?).map fun th => if t ∈ c.active h then g h c c.T t th else th := Team.onThreads_get ..
  have hawake : ∀ t ∈ c.b.threads, ∀ th,
      (c.T.onThreads (c.active h) (g h c c.T)).threads[t]? = some th → th.wait = none := by
    intro t ht th hth
    rw [hget, Option.map_eq_some_iff] at hth
    obtain ⟨old, hold, rfl⟩ := hth
    have hnone : old.wait = none := Cur.thread_eq hold ▸ (haw t ht).1
    split
    · rw [hw, hnone]
    · exact hnone
  obtain ⟨s', T', hs', hout, hmoved, hteam, hT', hlen, hkept⟩ :=
    acted_step1 w (fun T => T.onThreads (c.active h) (g h c T)) (fun T => T.onThreads_key ..) hawake
  refine ⟨s', T', (he s h c w hpre).trans (congrArg _ hs'), hout, hmoved, hteam, hlen.trans (Team.onThreads_length ..),
    ?idle, hp s h c T' w hcan (congrArg (fun T : Team => { T with threads := c.T.threads }) hT') ?active⟩
  case idle =>
    intro t th hth hna
    obtain ⟨th', hth', hk⟩ := hkept t th (by rw [hget, hth, Option.map_some, if_neg hna])
    exact ⟨th', hth', hk.rested⟩
  case active =>
    intro t th hth hact
    exact hkept t _ (by rw [hget, hth, Option.map_some, if_pos hact])

/-! ### A thread whose checkpoint is replaced -/

/-- The thread after a word with header `h` that gives it the checkpoint `k` and no other result. -/
def Thread.withCkpt (h : Hdr) (k : Option Checkpoint) (th : Thread) : Thread :=
  { th with ckpt := k }.deliver h.ctr [] [] []

@[simp] theorem Thread.deliver_wait (n : BitVec 3) (rs : List (Nat × Word)) (ps : List (Nat × Bool))
    (ss : List (Nat × Stream)) (th : Thread) : (th.deliver n rs ps ss).wait = th.wait := by
  unfold Thread.deliver; split <;> rfl

@[simp] theorem Thread.deliver_ckpt (n : BitVec 3) (rs : List (Nat × Word)) (ps : List (Nat × Bool))
    (ss : List (Nat × Stream)) (th : Thread) : (th.deliver n rs ps ss).ckpt = th.ckpt := by
  unfold Thread.deliver; split <;> rfl

/-- But for its checkpoint the thread is as after a word without results. -/
theorem Thread.withCkpt_restored (h : Hdr) (k : Option Checkpoint) (th : Thread) :
    { th.withCkpt h k with ckpt := th.ckpt } = th.commit h .none := by
  unfold Thread.withCkpt Thread.commit Thread.deliver Out.none
  split <;> simp [Thread.results]

theorem Thread.Kept.ckpt {th th' : Thread} (k : th.Kept th') : th'.ckpt = th.ckpt := by
  unfold Thread.Kept at k
  rw [← k]

theorem Thread.Kept.setCkpt {th th' : Thread} (k : th.Kept th') (x : Option Checkpoint) :
    { th with ckpt := x }.Kept { th' with ckpt := x } := by
  unfold Thread.Kept at k ⊢
  exact congrArg (fun u : Thread => { u with ckpt := x }) k

/-- Each active thread has received the checkpoint that `k` gives it and no other result (R84), and nothing but threads of
the team has changed. -/
def CkptsSet (h : Hdr) (c : Cur) (T' : Team) (k : Nat → Option Checkpoint) : Prop :=
  { T' with threads := c.T.threads } = c.T ∧
  ∀ t th, c.T.threads[t]? = some th → t ∈ c.active h → ∃ th', T'.threads[t]? = some th' ∧ th'.ckpt = k t ∧
    th.Got h .none { th' with ckpt := th.ckpt }

/-- Words that give each active thread the checkpoint `mk`, which for the running team is `k`. -/
theorem teamWord_withCkpt {i : Instr} {pre : State → Hdr → Cur → Prop} {k : Cur → Nat → Option Checkpoint}
    (mk : Cur → Team → Nat → Thread → Option Checkpoint)
    (he : ∀ s h c, Issues s i h c → pre s h c → exec i s =
      .next (((s.clearRegErrors c i h).modTeam c.b.team fun T =>
        T.onThreads (c.active h) fun t th => th.withCkpt h (mk c T t th)).step1 c))
    (hk : ∀ c t, mk c c.T t (c.thread t) = k c t) :
    TeamWord i pre fun _ h c T' => CkptsSet h c T' (k c) := by
  refine teamWord_onActive (fun h c T t th => th.withCkpt h (mk c T t th)) he (fun _ _ _ _ _ => Thread.deliver_wait ..) ?_
  intro s h c T' w hcan hrest hkept
  refine ⟨hrest, fun t th hth hact => ?_⟩
  obtain ⟨th', hth', hx⟩ := hkept t th hth hact
  obtain ⟨-, -, -, hT, -, -⟩ := State.cur?_eq w.cur
  have hgot := Thread.got_commit h .none th (hcan.regs hT hth)
  rw [← Thread.withCkpt_restored h (mk c c.T t th)] at hgot
  refine ⟨th', hth', ?_, hgot.kept (hx.setCkpt th.ckpt)⟩
  calc th'.ckpt = (th.withCkpt h (mk c c.T t th)).ckpt := hx.ckpt
    _ = mk c c.T t th := Thread.deliver_ckpt ..
    _ = k c t := Cur.thread_eq hth ▸ hk c t

/-! ### IDEMBEG (R180, R344) -/

/-- A thread whose return-stack lines hold no error reads none there. -/
theorem stackError_eq_none {c : Cur} {s : State} {t n : Nat}
    (hl : ∀ j, j < n → LineClean s c false ((c.L.rcd.stackBase t + 8 * j) / 128)) : stackError c s t 0 n = none := by
  unfold stackError
  split
  · rfl
  · rw [Option.map_eq_none_iff, List.find?_eq_none]
    intro j hj
    rw [Nat.zero_add, List.contains_iff_mem]
    exact hl j (List.mem_range.1 hj)

/-- IDEMBEG is not stopped for a thread whose mask stays within the budget and whose named registers and stack lines hold
no error. -/
theorem idemStop_eq_none {a : Opnd} {c : Cur} {s : State} {t : Nat} (hb : idemBad a c t = false)
    (hr : ∀ r ∈ idemRegs ((c.env t).r32 a), ErrLoc.reg c.b.team t r ∉ s.errors)
    (hl : ∀ j, j < (c.thread t).depth → LineClean s c false ((c.L.rcd.stackBase t + 8 * j) / 128)) :
    idemStop a c s t = none := by
  have hfind : ((idemRegs ((c.env t).r32 a)).find? fun r => s.errors.contains (.reg c.b.team t r)) = none := by
    rw [List.find?_eq_none]
    intro r hmem
    rw [List.contains_iff_mem]
    exact hr r hmem
  unfold idemStop
  rw [hb, hfind, stackError_eq_none hl]
  exact ite_self _

/-- What IDEMBEG does that issues, waits for no named register and is stopped for no active thread. -/
theorem exec_idembeg {h h' : Hdr} {e : BitVec 20} {a : Opnd} {s : State} {c : Cur}
    (w : Issues s (.idembeg h e a) h' c) (hh : idemHeld h' a c = false)
    (hs : ∀ t ∈ c.active h', idemStop a c s t = none) :
    exec (.idembeg h e a) s =
      .next (((s.clearRegErrors c (.idembeg h e a) h').modTeam c.b.team fun T =>
        T.onThreads (c.active h') fun t th =>
          th.withCkpt h' (some (checkpointOf (clauseTarget c e) ((c.env t).r32 a) T c.L.rcd t th))).step1 c) := by
  obtain rfl : h = h' := Option.some.inj w.hdr
  have hexec : exec (.idembeg h e a) s = execIdembeg h e a s := rfl
  rw [hexec, execIdembeg, w.cur]
  dsimp only
  rw [hh, if_neg Bool.false_ne_true, issueWordOr_issues _ _ w hs]
  rfl

/-! ### IDEMEND (R181) -/

theorem exec_idemend {h h' : Hdr} {s : State} {c : Cur} (w : Issues s (.idemend h) h' c) :
    exec (.idemend h) s =
      .next (((s.clearRegErrors c (.idemend h) h').modTeam c.b.team fun T =>
        T.onThreads (c.active h') fun _ th => th.withCkpt h' none).step1 c) := by
  have hexec : exec (.idemend h) s = execIdemend h s := rfl
  rw [hexec, execIdemend, issueWord_issues _ w]
  rfl

/-! ### Both words -/

/-- The registers of a checkpoint, listed by the bits of the mask that names them. -/
theorem checkpointOf_regs (entry : DWord) (x : Word) (T : Team) (r : LaunchRec) (t : Nat) (th : Thread) :
    (checkpointOf entry x T r t th).regs =
      ((List.range 16).filter fun j => x.getLsbD j).map fun j => (idemBase x + j, sget 0 th.regs (idemBase x + j)) :=
  List.map_map

/-- Settles O28: both words are `teamWord_withCkpt`. The checkpoint that IDEMBEG makes lists the named registers by their
numbers where the statement lists them by the bits of the mask (`checkpointOf_regs`). -/
theorem regions : Obligations.Regions := by
  unfold Obligations.Regions
  refine ⟨fun h e a => ?idembeg, fun h => ?idemend⟩
  case idembeg =>
    refine teamWord_withCkpt
      (fun c T t th => some (checkpointOf (clauseTarget c e) ((c.env t).r32 a) T c.L.rcd t th)) ?runs ?made
    case runs =>
      rintro s h' c w ⟨hheld, hclean⟩
      refine exec_idembeg w hheld fun t ht => ?_
      obtain ⟨hbad, hregs, hlines⟩ := hclean t ht
      exact idemStop_eq_none hbad hregs hlines
    case made =>
      intro c t
      have hregs := checkpointOf_regs (clauseTarget c e) ((c.env t).r32 a) c.T c.L.rcd t (c.thread t)
      exact congrArg (fun rs => some { checkpointOf (clauseTarget c e) ((c.env t).r32 a) c.T c.L.rcd t (c.thread t) with
        regs := rs }) hregs
  case idemend =>
    exact teamWord_withCkpt (fun _ _ _ _ => none) (fun _ _ _ w _ => exec_idemend w) fun _ _ => rfl

end Sys2Proof.Machine
end
